-- ==== Sys2Proof/Word.lean ====
section
/-! DEFINITION. The widths the spec names: `u8`, `u32` (R9), a descriptor index (R92), a command of four words (R90). -/

namespace Sys2Proof

/-- A byte of tensor memory, or an 8-bit field of a command (`u8`, R9, R93, R94). -/
abbrev Byte := BitVec 8

/-- A 32-bit word: a register, a descriptor field, a command word or the pattern of an F32 (`u32`, R7, R9). -/
abbrev Word := BitVec 32

/-- An operand slot of a command: the index of one of `TD[0..15]` (R92). -/
abbrev Slot := BitVec 4

/-- One command: the four 32-bit words pushed through `CMDW0..CMDW3` (R90). -/
structure Command where
  w0 : Word
  w1 : Word
  w2 : Word
  w3 : Word
deriving DecidableEq, Repr, Inhabited

end Sys2Proof
end

