-- ==== Sys2Proof/Config.lean ====
section
/-! DEFINITION. What an instance of the block fixes (R8) and the values the spec leaves free (`any`, R13). -/

namespace Sys2Proof

/-- The open parameters of an instance that software can read: `MEMSIZE`, `QDEPTH`, `NW` (R8, R34, R35). -/
structure Params where
  memSize : Nat
  qDepth : Nat
  nw : Nat
deriving DecidableEq, Repr, Inhabited

/-- The ranges R8 gives the parameters. -/
abbrev Params.InRange (p : Params) : Prop :=
  4 ∣ p.memSize ∧ 4 ≤ p.memSize ∧ p.memSize ≤ 2 ^ 31 ∧ 1 ≤ p.qDepth ∧ p.qDepth ≤ 255 ∧ 1 ≤ p.nw ∧ p.nw ≤ 255

/-- DESIGN CHOICE (log 1), unsafe: the instance `State.reset` is a reset of, the one the test vectors use (95_test_vectors
and its vector E13). Every other definition takes the parameters from the state. -/
def Config.params : Params := ⟨0x1000, 8, 1⟩

/-- The byte drawn for an `any` byte (R13): argument 1 is the number of the draw, argument 2 the address. It has no body, so
nothing can be proved of it (log 3). -/
opaque Config.freeByte : Nat → Nat → Byte

/-- The 32 bits drawn for the sign and payload of a NaN result (R14): argument 1 is the number of the draw, argument 2 the
address of the cell the result is stored to (log 4). -/
opaque Config.freeWord : Nat → Nat → Word

end Sys2Proof
end

