-- ==== Sys2Proof/Syntax.lean ====
section
/-! DEFINITION. The commands, one constructor of `Instr` per row of spec/opcode_table.json (R95 to R99, R103). -/

namespace Sys2Proof

/-- The mode of a kernel command, bits 9:8 of word 0 (R91, R96); 3 is reserved and has no constructor. -/
inductive Mode where
  | exec
  | cfg
  | val
deriving DecidableEq, Repr, Inhabited

/-- Why a command does not decode: checks 1, 2 and 3 of R100, in the order they are made. -/
inductive Illegal where
  /-- check 1: OPC is not one of 0x01, 0x02, 0x10, 0x11, 0x12 -/
  | opcode
  /-- check 2: MODE is 3, or not 0 for `NOP` or `SYNC` -/
  | mode
  /-- check 3: a must-be-zero field is not 0 -/
  | field
deriving DecidableEq, Repr, Inhabited

/-- The window, strides and paddings of a `BNORM` (words 2 and 3, R93, R94, R99). -/
structure Window where
  kw : Byte
  kh : Byte
  sx : Byte
  sy : Byte
  pl : Byte
  pr : Byte
  pt : Byte
  pb : Byte
deriving DecidableEq, Repr, Inhabited

/-- The 23 commands. Slots are named as in R98: `BSIGN*`: `sa` source, `sb` packed signs, `sc` alpha, `sd` beta;
`BNORM`: `sa` beta, `sb` K; `BCONV*`: `sa` activation, `sb` weights, `sc` bias, `sd` alpha, `se` K, `sf` output. -/
inductive Instr where
  | nop
  | sync
  | bsignExec (sa sb : Slot)
  | bsignCfg (sa sb : Slot)
  | bsignVal (sa sb : Slot)
  | bsignAExec (sa sb sc : Slot)
  | bsignACfg (sa sb sc : Slot)
  | bsignAVal (sa sb sc : Slot)
  | bsignBExec (sa sb sd : Slot)
  | bsignBCfg (sa sb sd : Slot)
  | bsignBVal (sa sb sd : Slot)
  | bsignABExec (sa sb sc sd : Slot)
  | bsignABCfg (sa sb sc sd : Slot)
  | bsignABVal (sa sb sc sd : Slot)
  | bnormExec (sa sb : Slot) (win : Window)
  | bnormCfg (sa sb : Slot) (win : Window)
  | bnormVal (sa sb : Slot) (win : Window)
  | bconvExec (sa sb sd se sf : Slot) (sx sy : Byte)
  | bconvCfg (sa sb sd se sf : Slot) (sx sy : Byte)
  | bconvVal (sa sb sd se sf : Slot) (sx sy : Byte)
  | bconvBExec (sa sb sc sd se sf : Slot) (sx sy : Byte)
  | bconvBCfg (sa sb sc sd se sf : Slot) (sx sy : Byte)
  | bconvBVal (sa sb sc sd se sf : Slot) (sx sy : Byte)
deriving DecidableEq, Repr, Inhabited

end Sys2Proof
end

