-- ==== Sys2Proof/Machine/State.lean ====
section
/-! DEFINITION. The state: everything R20 gives the block, the host that drives it (R73, R190 to R203), and the model's own
fields, each named as such. Also the reasons a step can stop, and the state after reset (R49). -/

namespace Sys2Proof.Machine

/-- Tensor memory (R21): the bytes written since the last hardware reset, addresses strictly rising. An address that is not
listed has no value of its own here: what it reads as is the free value of `State.readByte` (R49, log 2). -/
abbrev Memory := List Host.Cell

/-- The two element types with a meaning (R23). -/
inductive DType where
  | f32
  | bit
deriving DecidableEq, Repr, Inhabited

/-- A tensor descriptor (R22). `dtype` is the 4-bit code of R23. -/
structure Desc where
  base : Word
  bound : Bool
  shaped : Bool
  dtype : BitVec 4
  shape0 : Word
  shape1 : Word
  shape2 : Word
  shape3 : Word
  stride1 : Word
  stride2 : Word
  stride3 : Word
deriving DecidableEq, Repr, Inhabited

/-- The descriptor after reset: null and unshaped, every field 0 (R49). -/
def Desc.null : Desc := ⟨0, false, false, 0, 0, 0, 0, 0, 0, 0, 0⟩

/-- The descriptor table `TD[0..15]` (R22). -/
abbrev TdTable := Vector Desc 16

/-- The bytes of tensor memory from `lo` up to but not including `hi` (R27). -/
structure Interval where
  lo : Nat
  hi : Nat
deriving DecidableEq, Repr, Inhabited

/-- The two agents that take steps (R73). -/
inductive Agent where
  | host
  | sequencer
deriving DecidableEq, Repr, Inhabited

/-- The host's life-cycle variable of a layer (R191). -/
inductive LState where
  | unconfigured
  | configured
  | prepared
deriving DecidableEq, Repr, Inhabited

/-- The operands `l.configure` fixes: the nine descriptors of R192 (`bias` is optional) and the strides. -/
structure Layer where
  pin : Slot
  w : Slot
  bias : Option Slot
  out : Slot
  bin : Slot
  bw : Slot
  al : Slot
  be : Slot
  kk : Slot
  sx : Byte
  sy : Byte
deriving DecidableEq, Repr, Inhabited

/-- What the host guards of a configured layer, fixed when `l.configure` ends, so that a later descriptor write moves none of
it (R79 (c), R201): the interval of the padded input `pin`, those of the five other intermediates, and among these those of
`bw` and `al`, which the `BSIGN.A` of `l.prepare` writes (R197): that write alone may be pending when `l.run` writes `pin`
(R198, R247). -/
structure Owned where
  pin : List Interval
  others : List Interval
  weights : List Interval
deriving DecidableEq, Repr, Inhabited

/-- No layer, nothing guarded. -/
def Owned.nothing : Owned := ⟨[], [], []⟩

/-- What `hostpad` is given (R194): the caller's unpadded input `in` of width and height `width`, `height`, its F32 patterns
in the order x fastest, then y, then c, then n; the paddings; and the fill value `PADFILL`. DESIGN CHOICE (log 33): the
paddings are given anew with every `l.run`, since `l.configure`'s operands (R196) name none. -/
structure PadInput where
  width : Nat
  height : Nat
  left : Nat
  right : Nat
  top : Nat
  bottom : Nat
  fill : Word
  data : List Word
deriving DecidableEq, Repr, Inhabited

/-- A condition on `STATUS` a `wait` can name (R104): comparisons of masked bits, and their boolean combinations, which give
every condition there is. -/
inductive StatusCond where
  /-- the bits under `mask` are `value` -/
  | bits (mask value : Word)
  /-- the bits under `mask`, as an unsigned number, are at most `value` -/
  | atMost (mask value : Word)
  | neg (c : StatusCond)
  | both (c d : StatusCond)
  | either (c d : StatusCond)
deriving DecidableEq, Repr, Inhabited

/-- What the host can do in one step: register accesses (R179), its direct accesses to tensor memory (R60, R77, R78), waiting
on `STATUS` (R104), the hardware reset that comes from outside the program (R240), and the layer protocol (R194 to R198). -/
inductive HostAction where
  /-- `wr`: an aligned 32-bit write at a register offset -/
  | wr (off : Nat) (v : Word)
  /-- `rd`: an aligned 32-bit read at a register offset -/
  | rd (off : Nat)
  /-- an access to the register space of `width` bytes, other than 4 -/
  | otherAccess (off width : Nat)
  /-- a direct write of bytes to tensor memory -/
  | memWrite (a : Nat) (bs : List Byte)
  /-- a direct read of `n` bytes of tensor memory -/
  | memRead (a n : Nat)
  /-- `wait`: read `STATUS` until the condition holds -/
  | wait (c : StatusCond)
  /-- a hardware reset: not the host's, but an event from outside the program -/
  | hardReset
  /-- `hostpad in -> pin` -/
  | hostPad (pin : Slot) (inp : PadInput)
  | lValidate (l : Layer)
  | lConfigure (l : Layer)
  /-- the end of `l.configure`: look at `STATUS.ERR` and move `LSTATE` -/
  | lConfigured (l : Layer)
  | lPrepare
  /-- the end of `l.prepare`'s push: `LSTATE <- PREPARED` -/
  | lPrepared
  | lRun (inp : PadInput)
  /-- the padding step of `l.run`, into the layer's `pin` -/
  | lPad (inp : PadInput)
  /-- the end of `l.run`: look at `STATUS.ERR` -/
  | lRunDone
deriving DecidableEq, Repr, Inhabited

/-- Why the machine stops with a fault. An error of the block is none of these: it is a next state (R217). -/
inductive Fault where
  /-- The host accesses tensor memory at an address at or beyond MEMSIZE, which does not exist (R21, R66). Raised by
  `memWrite`, `memRead`, `hostPad` and `lPad`. Safe: the model only stops. -/
  | noSuchAddress
  /-- `l.prepare` or `l.run` on an unconfigured layer: the source's fatal, assert-like execution error (R197, R198, R200).
  Raised by `lPrepare`, `lRun`, `lPad`. Safe: the host routine pushes nothing. -/
  | layerUnconfigured
deriving DecidableEq, Repr, Inhabited

/-- Why the model gives a step no meaning. -/
inductive Refusal where
  /-- No meaning yet for a command. Raised by no arm of `exec`. Safe. -/
  | notModelled (mnemonic : String)
  /-- A register access that is not an aligned 32-bit access or is beyond offset 0xFFC: it has no defined behaviour and a
  model refuses it (R179, V8). Raised by `wr`, `rd`, `otherAccess`. Safe. -/
  | registerAccess
  /-- A host write to a byte of a tensor in use: a model gives such a host access no step (R79 (a) and (b), V5). Raised by
  `memWrite`, `hostPad`, `lPad`. Safe. -/
  | tensorInUse
  /-- A host access to a configured layer's intermediate tensors from outside the layer's own routines (R79 (c), R201, V5):
  a read of any of the six, a write to any but `pin`. Raised by `memWrite`, `memRead`, `hostPad`, `lPad`. Safe. -/
  | intermediateTensor
  /-- A host write into a configured layer's `pin` before the previous run has ended (R247, R245, V5); for `l.run`, which
  writes it, whatever R245's condition finds but the `BSIGN.A` of `l.prepare` (R198). Raised by `memWrite`, `hostPad`, `lRun`,
  `lPad`. Safe. -/
  | runNotEnded
  /-- `l.configure` on a layer that is not unconfigured, against its precondition (R196, R191): a second layer at once, which
  a model refuses (V26). Raised by `lConfigure`. Safe. -/
  | layerPrecondition
deriving DecidableEq, Repr, Inhabited

/-- The whole state. The first part is the block's (R20), the second the model's own record of what R49, R78, R79 and R217
make `any`, the third the host's. -/
structure State where
  /-- `MEM` (R21) -/
  mem : Memory
  /-- `TD[0..15]` (R22) -/
  td : TdTable
  /-- `Q`, the head first (R30) -/
  queue : List Command
  /-- `ISSUED` (R30, R40) -/
  issued : Word
  /-- `RETIRED` (R31, R40) -/
  retired : Word
  /-- `STATUS.ERR` (R36) -/
  err : Bool
  /-- `STATUS.WPQ` (R36, R47) -/
  wpq : Bool
  /-- `STATUS.WPN` (R36, R47) -/
  wpn : Bool
  /-- `ERRINFO` (R37) -/
  errInfo : Word
  /-- `ERRCMD` (R38) -/
  errCmd : Word
  /-- `ERRW0` (R38) -/
  errW0 : Word
  /-- `VSTAT` (R39) -/
  vstat : Word
  /-- `VCMD` (R39) -/
  vcmd : Word
  /-- `CMDW0` (R42) -/
  cmdw0 : Word
  /-- `CMDW1` (R42) -/
  cmdw1 : Word
  /-- `CMDW2` (R42) -/
  cmdw2 : Word
  /-- `CMDW3` (R42) -/
  cmdw3 : Word
  /-- what the constant registers `PARAM` and `MEMSZ` report (R20 (7), R34, R35); no step writes it -/
  params : Params
  /-- the model's: the output intervals of EXEC-mode commands retired since the last `SYNC` or reset (R49, R78, R79 (b)) -/
  unsynced : List Interval
  /-- the model's: the commands the fatal error discarded, in their order (R217); pushed and never retired, they count until the
  reset for R49, R78 and R79 (a). The descriptors they name stay as they are until then (R43, R217) -/
  discarded : List Command
  /-- the model's: the number of the draw that gave the bytes no one has written since the hardware reset (R49) -/
  memDraw : Nat
  /-- the model's: how many draws of `any` values have been made (R13) -/
  draws : Nat
  /-- the host's actions still to come (R73) -/
  script : List HostAction
  /-- which agent takes the next steps (R73, R256); when it is empty `Machine.mover` chooses -/
  sched : List Agent
  /-- what the host's last register read returned (R179) -/
  rdata : Word
  /-- what the host's last read of tensor memory returned (R78) -/
  mdata : List Byte
  /-- `LSTATE` (R191) -/
  lstate : LState
  /-- the operands fixed by `l.configure` (R196) -/
  layer : Option Layer
  /-- what the host guards of the configured layer (R79 (c), R201, R247) -/
  owned : Owned
  /-- what the host's last layer routine returned: 0, or the error in the form of `ERRINFO` (R195, R196, R198) -/
  lresult : Word
deriving DecidableEq, Repr, Inhabited

/-- The state after a hardware reset of an instance with parameters `p` (R49): nothing listed in memory, queue empty, every
register 0, every descriptor null; the host has not begun. -/
def State.resetWith (p : Params) : State where
  mem := []
  td := Vector.replicate 16 Desc.null
  queue := []
  issued := 0
  retired := 0
  err := false
  wpq := false
  wpn := false
  errInfo := 0
  errCmd := 0
  errW0 := 0
  vstat := 0
  vcmd := 0
  cmdw0 := 0
  cmdw1 := 0
  cmdw2 := 0
  cmdw3 := 0
  params := p
  unsynced := []
  discarded := []
  memDraw := 0
  draws := 1
  script := []
  sched := []
  rdata := 0
  mdata := []
  lstate := .unconfigured
  layer := none
  owned := Owned.nothing
  lresult := 0

/-- The machine right after a hardware reset (R49, R241), on the instance of log 1. -/
def State.reset : State := State.resetWith Config.params

end Sys2Proof.Machine
end

