-- ==== Sys2Proof/Machine/Float32.lean ====
section
/-! DEFINITION. The float primitives of R14 on IEEE 754 binary32 patterns: exact integer arithmetic in units of 2^-149 (every
finite binary32 is such a multiple), then one rounding to nearest, ties to even. Where a result is a NaN the pattern used is
the argument `nan`: the caller draws it (log 4). The format and the operations are PRESUMED by the spec itself from general
knowledge (R14). -/

namespace Sys2Proof.Machine

/-- The sign bit. -/
def f32Neg (x : Word) : Bool := x.getLsbD 31

/-- The exponent field. -/
def f32Exp (x : Word) : Nat := (x.extractLsb' 23 8).toNat

/-- The fraction field. -/
def f32Frac (x : Word) : Nat := (x.extractLsb' 0 23).toNat

/-- A NaN: exponent field all ones, fraction not 0. -/
def f32IsNaN (x : Word) : Bool := f32Exp x == 255 && f32Frac x != 0

/-- An infinity: exponent field all ones, fraction 0. -/
def f32IsInf (x : Word) : Bool := f32Exp x == 255 && f32Frac x == 0

/-- The magnitude of a finite value in units of 2^-149; subnormals are kept (R14). -/
def f32Mag (x : Word) : Nat :=
  if f32Exp x = 0 then f32Frac x else (2 ^ 23 + f32Frac x) * 2 ^ (f32Exp x - 1)

/-- A finite value in units of 2^-149. -/
def f32Val (x : Word) : Int := if f32Neg x then -(f32Mag x : Int) else f32Mag x

/-- A pattern from its sign and its low 31 bits. -/
def f32Pack (neg : Bool) (low : Nat) : Word := BitVec.ofNat 32 ((if neg then 2 ^ 31 else 0) + low)

/-- The low 31 bits of +infinity. -/
def f32InfLow : Nat := 0x7F800000

/-- The low 31 bits of the binary32 nearest to `num / den` units of 2^-149, ties to even, infinity when it is too large. With
`shift` bits dropped the exponent field is `shift + 1` (or 0 for a subnormal), which is what the sum below packs. -/
def f32Round (num den : Nat) : Nat :=
  let shift := Nat.log2 (num / den) - 23
  let unit := den * 2 ^ shift
  let q := num / unit
  let r := num % unit
  let up := if unit < 2 * r ∨ (2 * r = unit ∧ q % 2 = 1) then 1 else 0
  min (shift * 2 ^ 23 + q + up) f32InfLow

/-- A quiet NaN with the sign and payload of `free` (R14). PRESUMED: a quiet NaN has the top bit of the fraction set. -/
def f32Quiet (free : Word) : Word := free ||| 0x7FC00000

/-- `fadd32`. -/
def fadd32 (nan a b : Word) : Word :=
  if f32IsNaN a || f32IsNaN b then nan
  else if f32IsInf a then (if f32IsInf b && f32Neg a != f32Neg b then nan else a)
  else if f32IsInf b then b
  else
    let v := f32Val a + f32Val b
    if v = 0 then f32Pack (f32Neg a && f32Neg b) 0
    else f32Pack (decide (v < 0)) (f32Round v.natAbs 1)

/-- `fmul32`. -/
def fmul32 (nan a b : Word) : Word :=
  let neg := f32Neg a != f32Neg b
  if f32IsNaN a || f32IsNaN b then nan
  else if f32IsInf a then (if !f32IsInf b && f32Mag b == 0 then nan else f32Pack neg f32InfLow)
  else if f32IsInf b then (if f32Mag a == 0 then nan else f32Pack neg f32InfLow)
  else f32Pack neg (f32Round (f32Mag a * f32Mag b) (2 ^ 149))

/-- `fdiv32`. -/
def fdiv32 (nan a b : Word) : Word :=
  let neg := f32Neg a != f32Neg b
  if f32IsNaN a || f32IsNaN b then nan
  else if f32IsInf a then (if f32IsInf b then nan else f32Pack neg f32InfLow)
  else if f32IsInf b then f32Pack neg 0
  else if f32Mag b = 0 then (if f32Mag a = 0 then nan else f32Pack neg f32InfLow)
  else f32Pack neg (f32Round (f32Mag a * 2 ^ 149) (f32Mag b))

/-- `fabs32`: clears the sign bit, also of a NaN. -/
def fabs32 (a : Word) : Word := a &&& 0x7FFFFFFF

/-- `fgt0`: the comparison `a > +0.0`, false for a NaN. -/
def fgt0 (a : Word) : Bool := !f32IsNaN a && !f32Neg a && (f32IsInf a || decide (0 < f32Mag a))

/-- `cvt_u32_f32`. -/
def cvtU32 (n : Nat) : Word := f32Pack false (f32Round (n * 2 ^ 149) 1)

/-- `cvt_s32_f32`. -/
def cvtS32 (v : Int) : Word := f32Pack (decide (v < 0)) (f32Round (v.natAbs * 2 ^ 149) 1)

end Sys2Proof.Machine
end

