-- ==== Sys2Proof/WellFormed.lean ====
section
/-! DEFINITION. The checks a command carries in itself, whatever the state. The spec lets the ill-formed commands decode and
gives them an error at the head of the queue (R100 does not list them), so the decoder does not apply these checks: they
name the commands that no descriptor table can make complete. -/

namespace Sys2Proof

/-- Check 4 for `BNORM`: window and strides are at least 1 (R99, R141 step 2). -/
def Window.nonzero (w : Window) : Bool :=
  w.kw != 0 && w.kh != 0 && w.sx != 0 && w.sy != 0

/-- No slot of `outs` is named twice or named by a slot of `ins`: one descriptor as an input and an output of one command,
or as two outputs, always fails check 18 (R75, R182). -/
def outputsApart (ins outs : List Slot) : Bool :=
  decide outs.Nodup && outs.all (fun o => !ins.contains o)

/-- The static checks of a command: check 4 (R141 step 2, R156 step 2) and the descriptors named twice (R75, R182). -/
def Instr.wellFormed : Instr → Bool
  | .nop => true
  | .sync => true
  | .bsignExec sa sb => outputsApart [sa] [sb]
  | .bsignCfg sa sb => outputsApart [sa] [sb]
  | .bsignVal sa sb => outputsApart [sa] [sb]
  | .bsignAExec sa sb sc => outputsApart [sa] [sb, sc]
  | .bsignACfg sa sb sc => outputsApart [sa] [sb, sc]
  | .bsignAVal sa sb sc => outputsApart [sa] [sb, sc]
  | .bsignBExec sa sb sd => outputsApart [sa] [sb, sd]
  | .bsignBCfg sa sb sd => outputsApart [sa] [sb, sd]
  | .bsignBVal sa sb sd => outputsApart [sa] [sb, sd]
  | .bsignABExec sa sb sc sd => outputsApart [sa] [sb, sc, sd]
  | .bsignABCfg sa sb sc sd => outputsApart [sa] [sb, sc, sd]
  | .bsignABVal sa sb sc sd => outputsApart [sa] [sb, sc, sd]
  | .bnormExec sa sb win => win.nonzero && outputsApart [sa] [sb]
  | .bnormCfg sa sb win => win.nonzero && outputsApart [sa] [sb]
  | .bnormVal sa sb win => win.nonzero && outputsApart [sa] [sb]
  | .bconvExec sa sb sd se sf sx sy => sx != 0 && sy != 0 && outputsApart [sa, sb, sd, se] [sf]
  | .bconvCfg sa sb sd se sf sx sy => sx != 0 && sy != 0 && outputsApart [sa, sb, sd, se] [sf]
  | .bconvVal sa sb sd se sf sx sy => sx != 0 && sy != 0 && outputsApart [sa, sb, sd, se] [sf]
  | .bconvBExec sa sb sc sd se sf sx sy => sx != 0 && sy != 0 && outputsApart [sa, sb, sc, sd, se] [sf]
  | .bconvBCfg sa sb sc sd se sf sx sy => sx != 0 && sy != 0 && outputsApart [sa, sb, sc, sd, se] [sf]
  | .bconvBVal sa sb sc sd se sf sx sy => sx != 0 && sy != 0 && outputsApart [sa, sb, sc, sd, se] [sf]

end Sys2Proof
end

