-- ==== Sys2Proof/Decode.lean ====
section
/-! DEFINITION. Decoding a command of four words, total, every illegal command rejected under the check of R100 it fails,
and the encoder written from the same tables (R90 to R103). -/

namespace Sys2Proof

/-! ## Fields of the words -/

/-- OPC, bits 7:0 of word 0 (R91). -/
def Command.opc (c : Command) : Byte := c.w0.extractLsb' 0 8

/-- MODE, bits 9:8 of word 0 (R91). -/
def Command.modeField (c : Command) : BitVec 2 := c.w0.extractLsb' 8 2

/-- Slot `k` of word 1: SA is 0, SB 1, SC 2, SD 3, SE 4, SF 5 (R92). -/
def Command.slot (c : Command) (k : Nat) : Slot := c.w1.extractLsb' (4 * k) 4

/-- Byte `k` of word 2: KW, KH, SX, SY (R93). -/
def Command.win (c : Command) (k : Nat) : Byte := c.w2.extractLsb' (8 * k) 8

/-- Byte `k` of word 3: PL, PR, PT, PB (R94). -/
def Command.pad (c : Command) (k : Nat) : Byte := c.w3.extractLsb' (8 * k) 8

/-- The eight `BNORM` fields of words 2 and 3 (R99). -/
def Command.window (c : Command) : Window :=
  ⟨c.win 0, c.win 1, c.win 2, c.win 3, c.pad 0, c.pad 1, c.pad 2, c.pad 3⟩

/-- The `len` bits of a word from bit `lo` are all 0. -/
def zeroBits (w : Word) (lo len : Nat) : Bool := w.extractLsb' lo len == 0#len

/-! ## The rows of the opcode table -/

/-- The must-be-zero bits of words 1 to 3 of `NOP` and `SYNC` (R103). -/
def mbzNone (c : Command) : Bool := c.w1 == 0 && c.w2 == 0 && c.w3 == 0

/-- `BSIGN`: SA and SB used (mask 0xFFFFFF00 of word 1, R103). -/
def mbzBsign (c : Command) : Bool := zeroBits c.w1 8 24 && c.w2 == 0 && c.w3 == 0

/-- `BSIGN.A`: SA, SB, SC used (mask 0xFFFFF000, R103). -/
def mbzBsignA (c : Command) : Bool := zeroBits c.w1 12 20 && c.w2 == 0 && c.w3 == 0

/-- `BSIGN.B`: SA, SB, SD used (mask 0xFFFF0F00, R103). -/
def mbzBsignB (c : Command) : Bool :=
  zeroBits c.w1 8 4 && zeroBits c.w1 16 16 && c.w2 == 0 && c.w3 == 0

/-- `BSIGN.AB`: SA to SD used (mask 0xFFFF0000, R103). -/
def mbzBsignAB (c : Command) : Bool := zeroBits c.w1 16 16 && c.w2 == 0 && c.w3 == 0

/-- `BNORM`: SA and SB used, and all of words 2 and 3 (masks 0xFFFFFF00, 0, 0, R103). -/
def mbzBnorm (c : Command) : Bool := zeroBits c.w1 8 24

/-- `BCONV`: SC unused, KW and KH and word 3 unused (masks 0xFF000F00, 0x0000FFFF, 0xFFFFFFFF, R103). -/
def mbzBconv (c : Command) : Bool :=
  zeroBits c.w1 8 4 && zeroBits c.w1 24 8 && zeroBits c.w2 0 16 && c.w3 == 0

/-- `BCONV.B`: all six slots used (masks 0xFF000000, 0x0000FFFF, 0xFFFFFFFF, R103). -/
def mbzBconvB (c : Command) : Bool :=
  zeroBits c.w1 24 8 && zeroBits c.w2 0 16 && c.w3 == 0

/-- One row of the opcode table: word 0 whole (OPC, MODE, FLAGS and the zero bits 31:16), the must-be-zero bits of the
other words, and the command the fields make (R103). -/
structure Row where
  w0 : Word
  mbz : Command → Bool
  build : Command → Instr

/-- The 23 rows of the opcode table in its order (R103). -/
def opcodeRows : List Row :=
  [⟨0x00000001, mbzNone, fun _ => .nop⟩,
   ⟨0x00000002, mbzNone, fun _ => .sync⟩,
   ⟨0x00000010, mbzBsign, fun c => .bsignExec (c.slot 0) (c.slot 1)⟩,
   ⟨0x00000110, mbzBsign, fun c => .bsignCfg (c.slot 0) (c.slot 1)⟩,
   ⟨0x00000210, mbzBsign, fun c => .bsignVal (c.slot 0) (c.slot 1)⟩,
   ⟨0x00000410, mbzBsignA, fun c => .bsignAExec (c.slot 0) (c.slot 1) (c.slot 2)⟩,
   ⟨0x00000510, mbzBsignA, fun c => .bsignACfg (c.slot 0) (c.slot 1) (c.slot 2)⟩,
   ⟨0x00000610, mbzBsignA, fun c => .bsignAVal (c.slot 0) (c.slot 1) (c.slot 2)⟩,
   ⟨0x00000810, mbzBsignB, fun c => .bsignBExec (c.slot 0) (c.slot 1) (c.slot 3)⟩,
   ⟨0x00000910, mbzBsignB, fun c => .bsignBCfg (c.slot 0) (c.slot 1) (c.slot 3)⟩,
   ⟨0x00000A10, mbzBsignB, fun c => .bsignBVal (c.slot 0) (c.slot 1) (c.slot 3)⟩,
   ⟨0x00000C10, mbzBsignAB, fun c => .bsignABExec (c.slot 0) (c.slot 1) (c.slot 2) (c.slot 3)⟩,
   ⟨0x00000D10, mbzBsignAB, fun c => .bsignABCfg (c.slot 0) (c.slot 1) (c.slot 2) (c.slot 3)⟩,
   ⟨0x00000E10, mbzBsignAB, fun c => .bsignABVal (c.slot 0) (c.slot 1) (c.slot 2) (c.slot 3)⟩,
   ⟨0x00000011, mbzBnorm, fun c => .bnormExec (c.slot 0) (c.slot 1) c.window⟩,
   ⟨0x00000111, mbzBnorm, fun c => .bnormCfg (c.slot 0) (c.slot 1) c.window⟩,
   ⟨0x00000211, mbzBnorm, fun c => .bnormVal (c.slot 0) (c.slot 1) c.window⟩,
   ⟨0x00000012, mbzBconv, fun c => .bconvExec (c.slot 0) (c.slot 1) (c.slot 3) (c.slot 4) (c.slot 5) (c.win 2) (c.win 3)⟩,
   ⟨0x00000112, mbzBconv, fun c => .bconvCfg (c.slot 0) (c.slot 1) (c.slot 3) (c.slot 4) (c.slot 5) (c.win 2) (c.win 3)⟩,
   ⟨0x00000212, mbzBconv, fun c => .bconvVal (c.slot 0) (c.slot 1) (c.slot 3) (c.slot 4) (c.slot 5) (c.win 2) (c.win 3)⟩,
   ⟨0x00000412, mbzBconvB, fun c => .bconvBExec (c.slot 0) (c.slot 1) (c.slot 2) (c.slot 3) (c.slot 4) (c.slot 5) (c.win 2) (c.win 3)⟩,
   ⟨0x00000512, mbzBconvB, fun c => .bconvBCfg (c.slot 0) (c.slot 1) (c.slot 2) (c.slot 3) (c.slot 4) (c.slot 5) (c.win 2) (c.win 3)⟩,
   ⟨0x00000612, mbzBconvB, fun c => .bconvBVal (c.slot 0) (c.slot 1) (c.slot 2) (c.slot 3) (c.slot 4) (c.slot 5) (c.win 2) (c.win 3)⟩]

/-! ## Decoding -/

/-- OPC is one of the five opcodes of R95. -/
def knownOpcode (o : Byte) : Bool := o == 0x01 || o == 0x02 || o == 0x10 || o == 0x11 || o == 0x12

/-- MODE is 3, or not 0 for `NOP` or `SYNC` (check 2 of R100). -/
def badMode (o : Byte) (m : BitVec 2) : Bool := m == 3 || (m != 0 && (o == 0x01 || o == 0x02))

/-- Decodes a command, or names the check of R100 it fails: opcode, then mode, then the must-be-zero fields. With a known
opcode and a legal mode, word 0 differs from every row's only in a flag bit or in bits 31:16 that must be 0. -/
def decode (c : Command) : Except Illegal Instr :=
  if !knownOpcode c.opc then .error .opcode
  else if badMode c.opc c.modeField then .error .mode
  else
    match opcodeRows.find? (fun r => r.w0 == c.w0) with
    | none => .error .field
    | some r => if r.mbz c then .ok (r.build c) else .error .field

/-! ## Encoding -/

/-- Word 1 from the six slots (R92); an unused slot is 0. -/
def slotWord (sa sb sc sd se sf : Slot) : Word :=
  BitVec.ofNat 32
    (sa.toNat + sb.toNat * 2 ^ 4 + sc.toNat * 2 ^ 8 + sd.toNat * 2 ^ 12 + se.toNat * 2 ^ 16 + sf.toNat * 2 ^ 20)

/-- A word from its four bytes, the first in bits 7:0 (R93, R94). -/
def byteWord (b0 b1 b2 b3 : Byte) : Word :=
  BitVec.ofNat 32 (b0.toNat + b1.toNat * 2 ^ 8 + b2.toNat * 2 ^ 16 + b3.toNat * 2 ^ 24)

/-- A `BSIGN*` command with word 0 `w0` (R98, R99). -/
def encodeBsign (w0 : Word) (sa sb sc sd : Slot) : Command := ⟨w0, slotWord sa sb sc sd 0 0, 0, 0⟩

/-- A `BNORM` command with word 0 `w0` (R98, R99). -/
def encodeBnorm (w0 : Word) (sa sb : Slot) (w : Window) : Command :=
  ⟨w0, slotWord sa sb 0 0 0 0, byteWord w.kw w.kh w.sx w.sy, byteWord w.pl w.pr w.pt w.pb⟩

/-- A `BCONV*` command with word 0 `w0` (R98, R99). -/
def encodeBconv (w0 : Word) (sa sb sc sd se sf : Slot) (sx sy : Byte) : Command :=
  ⟨w0, slotWord sa sb sc sd se sf, byteWord 0 0 sx sy, 0⟩

/-- The words of a command (R91 to R99, word 0 from the table of R103). -/
def encode : Instr → Command
  | .nop => ⟨0x00000001, 0, 0, 0⟩
  | .sync => ⟨0x00000002, 0, 0, 0⟩
  | .bsignExec sa sb => encodeBsign 0x00000010 sa sb 0 0
  | .bsignCfg sa sb => encodeBsign 0x00000110 sa sb 0 0
  | .bsignVal sa sb => encodeBsign 0x00000210 sa sb 0 0
  | .bsignAExec sa sb sc => encodeBsign 0x00000410 sa sb sc 0
  | .bsignACfg sa sb sc => encodeBsign 0x00000510 sa sb sc 0
  | .bsignAVal sa sb sc => encodeBsign 0x00000610 sa sb sc 0
  | .bsignBExec sa sb sd => encodeBsign 0x00000810 sa sb 0 sd
  | .bsignBCfg sa sb sd => encodeBsign 0x00000910 sa sb 0 sd
  | .bsignBVal sa sb sd => encodeBsign 0x00000A10 sa sb 0 sd
  | .bsignABExec sa sb sc sd => encodeBsign 0x00000C10 sa sb sc sd
  | .bsignABCfg sa sb sc sd => encodeBsign 0x00000D10 sa sb sc sd
  | .bsignABVal sa sb sc sd => encodeBsign 0x00000E10 sa sb sc sd
  | .bnormExec sa sb w => encodeBnorm 0x00000011 sa sb w
  | .bnormCfg sa sb w => encodeBnorm 0x00000111 sa sb w
  | .bnormVal sa sb w => encodeBnorm 0x00000211 sa sb w
  | .bconvExec sa sb sd se sf sx sy => encodeBconv 0x00000012 sa sb 0 sd se sf sx sy
  | .bconvCfg sa sb sd se sf sx sy => encodeBconv 0x00000112 sa sb 0 sd se sf sx sy
  | .bconvVal sa sb sd se sf sx sy => encodeBconv 0x00000212 sa sb 0 sd se sf sx sy
  | .bconvBExec sa sb sc sd se sf sx sy => encodeBconv 0x00000412 sa sb sc sd se sf sx sy
  | .bconvBCfg sa sb sc sd se sf sx sy => encodeBconv 0x00000512 sa sb sc sd se sf sx sy
  | .bconvBVal sa sb sc sd se sf sx sy => encodeBconv 0x00000612 sa sb sc sd se sf sx sy

/-! ## Commands as one number -/

/-- The command with the 128-bit number `n = W3 ++ W2 ++ W1 ++ W0` (R90). -/
def commandOfNat (n : Nat) : Command :=
  ⟨BitVec.ofNat 32 n, BitVec.ofNat 32 (n / 2 ^ 32), BitVec.ofNat 32 (n / 2 ^ 64), BitVec.ofNat 32 (n / 2 ^ 96)⟩

/-- The command as one 128-bit number `W3 ++ W2 ++ W1 ++ W0` (R90). -/
def Command.toNat (c : Command) : Nat :=
  c.w0.toNat + c.w1.toNat * 2 ^ 32 + c.w2.toNat * 2 ^ 64 + c.w3.toNat * 2 ^ 96

/-- The command whose bits are the low `nbits` bits of `w`, the bits above them 0. -/
def tableCommand (nbits w : Nat) : Command := commandOfNat (w % 2 ^ nbits)

/-- What the decoder reads from the command whose bits are `w`, numbered as the opcode table numbers them (R90, R103). -/
def decodeTableWord (nbits w : Nat) : Option Instr := (decode (tableCommand nbits w)).toOption

end Sys2Proof
end

