-- ==== Sys2Proof/Machine/Ops.lean ====
section
/-! DEFINITION. The shared operations: tensor memory, the descriptor table, retirement, errors and the error entry (R217), and
the reset that is the only way out of the error state (R219, R240, R241). -/

namespace Sys2Proof.Machine

/-! ## Tensor memory (R11, R21) -/

/-- The byte listed at an address, if any. -/
def Memory.get (m : Memory) (a : Nat) : Option Byte :=
  match m with
  | [] => none
  | (k, b) :: rest => if k = a then some b else Memory.get rest a

/-- Writes one byte, keeping the addresses strictly rising. -/
def Memory.set (m : Memory) (a : Nat) (b : Byte) : Memory :=
  match m with
  | [] => [(a, b)]
  | (k, v) :: rest =>
    if a < k then (a, b) :: (k, v) :: rest
    else if a = k then (a, b) :: rest
    else (k, v) :: Memory.set rest a b

/-- Writes bytes in the order listed. -/
def Memory.setAll (m : Memory) (cells : List Host.Cell) : Memory :=
  cells.foldl (fun m p => m.set p.1 p.2) m

/-- The canonical form: addresses strictly rising. An unlisted address has no value, so no entry repeats one (log 2). -/
abbrev Memory.wf (m : Memory) : Prop := m.Pairwise (fun p q => p.1 < q.1)

/-- `MEM[a]` (R11, R21): the last byte written, or, where nothing has been written since the hardware reset, the free value
drawn at that reset, the same at every read (R49, R68). -/
def State.readByte (s : State) (a : Nat) : Byte :=
  (s.mem.get a).getD (Config.freeByte s.memDraw a)

/-- `MemRead(a, n)`, little-endian (R11, R61). -/
def State.memRead (s : State) (a n : Nat) : Nat :=
  ((List.range n).map (fun k => (s.readByte (a + k)).toNat * 256 ^ k)).sum

/-- `LdF32(a)` (R11). -/
def State.ldF32 (s : State) (a : Nat) : Word := BitVec.ofNat 32 (s.memRead a 4)

/-- The four bytes `StF32(a, f)` stores, the low byte first (R11, R61). -/
def wordCells (a : Nat) (f : Word) : List Host.Cell :=
  (List.range 4).map (fun k => (a + k, f.extractLsb' (8 * k) 8))

/-- Stores bytes in the order listed. -/
def State.writeCells (s : State) (cells : List Host.Cell) : State :=
  { s with mem := s.mem.setAll cells }

/-! ## Intervals -/

/-- The address lies in the interval. -/
def Interval.has (i : Interval) (a : Nat) : Bool := decide (i.lo ≤ a) && decide (a < i.hi)

/-- Two intervals intersect: they share a byte, so neither is empty (R182). -/
def Interval.meets (i j : Interval) : Bool := decide (max i.lo j.lo < min i.hi j.hi)

/-- The address lies in one of the intervals. -/
def inAny (is : List Interval) (a : Nat) : Bool := is.any (fun i => i.has a)

/-- Some byte of `[a, a + n)` lies in one of the intervals. -/
def touchesAny (is : List Interval) (a n : Nat) : Bool := is.any (fun i => i.meets ⟨a, a + n⟩)

/-- The draws for the bytes of an interval that exist. -/
def freeCells (draw memSize : Nat) (i : Interval) : List Host.Cell :=
  (List.range' i.lo (min i.hi memSize - i.lo)).map (fun a => (a, Config.freeByte draw a))

/-- Every byte of the intervals becomes `any` (R13, R49, R217). -/
def State.forget (s : State) (is : List Interval) : State :=
  { s with
    mem := s.mem.setAll (is.flatMap (freeCells s.draws s.params.memSize))
    draws := s.draws + 1 }

/-! ## The descriptor table (R22) -/

/-- `TD[i]`. -/
def TdTable.at (t : TdTable) (i : Slot) : Desc := t[i.toNat]'(i.isLt)

/-- `TD[i] <- d`. -/
def TdTable.put (t : TdTable) (i : Slot) (d : Desc) : TdTable := t.set i.toNat d i.isLt

/-- `TD[i]` of the live table. -/
def State.tdAt (s : State) (i : Slot) : Desc := TdTable.at s.td i

/-! ## The queue (R30, R31) -/

/-- `QLEN = ISSUED - RETIRED` modulo 2^32 (R30). -/
def State.qlen (s : State) : Nat := (s.issued - s.retired).toNat

/-- A command retires: it leaves the queue and `RETIRED` advances by 1 (R31, R175). -/
def retire (s : State) : State :=
  { s with queue := s.queue.tail, retired := s.retired + 1 }

/-! ## Errors (R211 to R213) -/

/-- The error codes of R211. -/
inductive ECode where
  | null
  | dtype
  | shape
  | padding
  | unconf
  | illegal
  | addr
  | hazard
  | qovf
  | busywr
deriving DecidableEq, Repr, Inhabited

/-- The number of an error code (R211). -/
def ECode.number : ECode → Byte
  | .null => 1
  | .dtype => 2
  | .shape => 3
  | .padding => 4
  | .unconf => 5
  | .illegal => 6
  | .addr => 7
  | .hazard => 8
  | .qovf => 9
  | .busywr => 10

/-- The checks of R212. -/
inductive Check where
  | illegalOpcode
  | illegalMode
  | illegalField
  | zeroWindow
  | unbound
  | unshapedInput
  | unshapedExec
  | dtype
  | extents
  | strides
  | baseAlign
  | range
  | overlap
  | derivedShape
  | count
  | fetchPadding
  | depthOne
  | windowFits
  | depthsEqual
  | biasShape
  | alphaShape
  | kShape
  | queueFull
  | busyWrite
  | hazard
deriving DecidableEq, Repr, Inhabited

/-- `CHK` (R212). -/
def Check.number : Check → Byte
  | .illegalOpcode => 1
  | .illegalMode => 2
  | .illegalField => 3
  | .zeroWindow => 4
  | .unbound => 10
  | .unshapedInput => 11
  | .unshapedExec => 12
  | .dtype => 13
  | .extents => 14
  | .strides => 15
  | .baseAlign => 16
  | .range => 17
  | .overlap => 18
  | .derivedShape => 19
  | .count => 20
  | .fetchPadding => 21
  | .depthOne => 22
  | .windowFits => 23
  | .depthsEqual => 24
  | .biasShape => 25
  | .alphaShape => 26
  | .kShape => 27
  | .queueFull => 30
  | .busyWrite => 31
  | .hazard => 40

/-- The error code that goes with a check (R212). -/
def Check.code : Check → ECode
  | .illegalOpcode => .illegal
  | .illegalMode => .illegal
  | .illegalField => .illegal
  | .zeroWindow => .shape
  | .unbound => .null
  | .unshapedInput => .null
  | .unshapedExec => .unconf
  | .dtype => .dtype
  | .extents => .shape
  | .strides => .shape
  | .baseAlign => .addr
  | .range => .addr
  | .overlap => .addr
  | .derivedShape => .shape
  | .count => .shape
  | .fetchPadding => .padding
  | .depthOne => .shape
  | .windowFits => .shape
  | .depthsEqual => .shape
  | .biasShape => .shape
  | .alphaShape => .shape
  | .kShape => .shape
  | .queueFull => .qovf
  | .busyWrite => .busywr
  | .hazard => .hazard

/-- `Err(E, CHK, td)` (R12); the code follows from the check (R212). `td` is 15 when no descriptor is involved. -/
structure Err where
  check : Check
  td : Slot
deriving DecidableEq, Repr, Inhabited

/-- The form of `ERRINFO` and `VSTAT`: code in bits 7:0, check in 15:8, descriptor in 19:16 (R37, R39). -/
def Err.word (e : Err) : Word :=
  BitVec.ofNat 32 (e.check.code.number.toNat + e.check.number.toNat * 2 ^ 8 + e.td.toNat * 2 ^ 16)

/-- The check of R100 a command that does not decode fails. -/
def illegalErr : Illegal → Err
  | .opcode => ⟨.illegalOpcode, 15⟩
  | .mode => ⟨.illegalMode, 15⟩
  | .field => ⟨.illegalField, 15⟩

/-! ## The error entry and the report of VAL mode -/

/-- The first error since reset is recorded, later ones are not (R37, R38, R213). -/
def latchError (e : Err) (cmd w0 : Word) (s : State) : State :=
  if s.err then s else { s with err := true, errInfo := e.word, errCmd := cmd, errW0 := w0 }

/-- `FatalError(E, CHK, td)` (R217): the record, then the queue is emptied and `ISSUED <- RETIRED`. `cmd` and `w0` are the
values for `ERRCMD` and `ERRW0` (R213). The commands discarded are remembered: they were pushed and never retire (log 32). -/
def fatalError (e : Err) (cmd w0 : Word) (s : State) : State :=
  { latchError e cmd w0 s with queue := [], issued := s.retired, discarded := s.discarded ++ s.queue }

/-- `VSTAT.VECODE` (R39). -/
def State.vecode (s : State) : Byte := s.vstat.extractLsb' 0 8

/-- The first VAL-mode failure since `VSTAT` was cleared is recorded (R39, R176, R220). -/
def recordVal (e : Err) (s : State) : State :=
  if s.vecode = 0 then { s with vstat := e.word, vcmd := s.retired } else s

/-! ## Reset -/

/-- The host's side of the state and the draws made go through a reset; the layer's life ends (R191, R203). -/
def keepHost (s t : State) : State :=
  { t with
    draws := s.draws, script := s.script, sched := s.sched, rdata := s.rdata, mdata := s.mdata, lresult := s.lresult }

/-- A hardware reset (R240, R241): every register at its reset value, every byte of `MEM` `any` by a new draw. -/
def hardReset (s : State) : State :=
  { keepHost s (State.resetWith s.params) with memDraw := s.draws, draws := s.draws + 1 }

/-- A soft reset (R183, R241): as a hardware reset, but `MEM` is unchanged except for the bytes of the intervals `is`, which
become `any` (R49). -/
def softReset (is : List Interval) (s : State) : State :=
  let f := s.forget is
  { keepHost f (State.resetWith s.params) with mem := f.mem, memDraw := s.memDraw }

end Sys2Proof.Machine
end

