-- ==== Sys2Proof/Machine/Operands.lean ====
section
/-! DEFINITION. Operand forms: the geometry of a descriptor (R25 to R27), the element addresses and reads, which are the only
addressing modes (R62 to R64), and the operand slots of every kernel command (R98). -/

namespace Sys2Proof.Machine

/-- `ceil8(w) = (w + 7) div 8` (R9). -/
def ceil8 (w : Nat) : Nat := (w + 7) / 8

/-! ## Geometry of a descriptor -/

/-- The code of a type (R23). -/
def DType.code : DType → BitVec 4
  | .f32 => 1
  | .bit => 2

/-- W: `SHAPE[0]`. -/
def Desc.w (d : Desc) : Nat := d.shape0.toNat
/-- H: `SHAPE[1]`. -/
def Desc.h (d : Desc) : Nat := d.shape1.toNat
/-- C: `SHAPE[2]`. -/
def Desc.c (d : Desc) : Nat := d.shape2.toNat
/-- N: `SHAPE[3]`. -/
def Desc.n (d : Desc) : Nat := d.shape3.toNat
/-- `STRIDE[1]`. -/
def Desc.s1 (d : Desc) : Nat := d.stride1.toNat
/-- `STRIDE[2]`. -/
def Desc.s2 (d : Desc) : Nat := d.stride2.toNat
/-- `STRIDE[3]`. -/
def Desc.s3 (d : Desc) : Nat := d.stride3.toNat

/-- `RowBytes` of a row of `w` elements of a type (R25). -/
def DType.rowBytes (ty : DType) (w : Nat) : Nat :=
  match ty with
  | .f32 => 4 * w
  | .bit => ceil8 w

/-- `FetchRowBytes = 32 * ceil8(SHAPE[0])`, the row the quantizer fetches (R27, R67). -/
def fetchRowBytes (w : Nat) : Nat := 32 * ceil8 w

/-- `Extent` with a last row of `row` bytes (R27), computed in mathematical integers: it may be 0 or negative where some
extent is 0. -/
def Desc.extent (d : Desc) (row : Nat) : Int :=
  ((d.n : Int) - 1) * d.s3 + ((d.c : Int) - 1) * d.s2 + ((d.h : Int) - 1) * d.s1 + row

/-- The interval `[BASE, BASE + Extent)` with a last row of `row` bytes (R27), empty where `Extent` is not positive. -/
def Desc.span (d : Desc) (row : Nat) : Interval := ⟨d.base.toNat, (d.base.toNat + d.extent row).toNat⟩

/-! ## Element addresses and reads -/

/-- `AddrF32(t, x, y, c, n)` (R63). -/
def Desc.addrF32 (d : Desc) (x y c n : Nat) : Nat :=
  d.base.toNat + 4 * x + y * d.s1 + c * d.s2 + n * d.s3

/-- `AddrByte(t, b, y, c, n)` (R64). -/
def Desc.addrByte (d : Desc) (b y c n : Nat) : Nat :=
  d.base.toNat + b + y * d.s1 + c * d.s2 + n * d.s3

/-- `GetF32(t, x, y, c, n)` (R63). -/
def State.getF32 (s : State) (d : Desc) (x y c n : Nat) : Word := s.ldF32 (d.addrF32 x y c n)

/-- `GetBit(t, x, y, c, n)`: bit `7 - (x mod 8)` of byte `x div 8` of the row (R62, R64). -/
def State.getBit (s : State) (d : Desc) (x y c n : Nat) : Bool :=
  (s.readByte (d.addrByte (x / 8) y c n)).getLsbD (7 - x % 8)

/-- The byte whose bit `7 - k` is `f k`, k = 0..7 (R62). -/
def packByte (f : Nat → Bool) : Byte :=
  (List.range 8).foldl (fun acc k => if f k then acc ||| (1 <<< (7 - k)) else acc) 0

/-! ## The kernel commands and their operand slots (R98) -/

/-- A kernel command without its mode: `BSIGN*` with its flags A and B, `BNORM`, `BCONV*` with its flag BIAS (R97). A slot
that a flag leaves unused is not an operand. -/
inductive Kernel where
  | bsign (a b : Bool) (sa sb sc sd : Slot)
  | bnorm (sa sb : Slot) (win : Window)
  | bconv (bias : Bool) (sa sb sc sd se sf : Slot) (sx sy : Byte)
deriving DecidableEq, Repr, Inhabited

/-- Input or output (R98). -/
inductive Role where
  | input
  | output
deriving DecidableEq, Repr, Inhabited

/-- One operand of a kernel command: its slot, its role, the type it must have, and whether the quantizer fetches it by
groups of eight elements (the source of a `BSIGN`, R67). -/
structure Operand where
  slot : Slot
  role : Role
  ty : DType
  fetch : Bool
deriving DecidableEq, Repr, Inhabited

/-- The operands a kernel command uses, in slot order (R98). -/
def Kernel.operands : Kernel → List Operand
  | .bsign a b sa sb sc sd =>
    [⟨sa, .input, .f32, true⟩, ⟨sb, .output, .bit, false⟩]
      ++ (if a then [⟨sc, .output, .f32, false⟩] else [])
      ++ (if b then [⟨sd, .output, .f32, false⟩] else [])
  | .bnorm sa sb _ => [⟨sa, .input, .f32, false⟩, ⟨sb, .output, .f32, false⟩]
  | .bconv bias sa sb sc sd se sf _ _ =>
    [⟨sa, .input, .bit, false⟩, ⟨sb, .input, .bit, false⟩]
      ++ (if bias then [⟨sc, .input, .f32, false⟩] else [])
      ++ [⟨sd, .input, .f32, false⟩, ⟨se, .input, .f32, false⟩, ⟨sf, .output, .f32, false⟩]

/-- The mode and kernel of a kernel command; `NOP` and `SYNC` have none (R96). -/
def kernelOf : Instr → Option (Mode × Kernel)
  | .nop => none
  | .sync => none
  | .bsignExec sa sb => some (.exec, .bsign false false sa sb 0 0)
  | .bsignCfg sa sb => some (.cfg, .bsign false false sa sb 0 0)
  | .bsignVal sa sb => some (.val, .bsign false false sa sb 0 0)
  | .bsignAExec sa sb sc => some (.exec, .bsign true false sa sb sc 0)
  | .bsignACfg sa sb sc => some (.cfg, .bsign true false sa sb sc 0)
  | .bsignAVal sa sb sc => some (.val, .bsign true false sa sb sc 0)
  | .bsignBExec sa sb sd => some (.exec, .bsign false true sa sb 0 sd)
  | .bsignBCfg sa sb sd => some (.cfg, .bsign false true sa sb 0 sd)
  | .bsignBVal sa sb sd => some (.val, .bsign false true sa sb 0 sd)
  | .bsignABExec sa sb sc sd => some (.exec, .bsign true true sa sb sc sd)
  | .bsignABCfg sa sb sc sd => some (.cfg, .bsign true true sa sb sc sd)
  | .bsignABVal sa sb sc sd => some (.val, .bsign true true sa sb sc sd)
  | .bnormExec sa sb w => some (.exec, .bnorm sa sb w)
  | .bnormCfg sa sb w => some (.cfg, .bnorm sa sb w)
  | .bnormVal sa sb w => some (.val, .bnorm sa sb w)
  | .bconvExec sa sb sd se sf sx sy => some (.exec, .bconv false sa sb 0 sd se sf sx sy)
  | .bconvCfg sa sb sd se sf sx sy => some (.cfg, .bconv false sa sb 0 sd se sf sx sy)
  | .bconvVal sa sb sd se sf sx sy => some (.val, .bconv false sa sb 0 sd se sf sx sy)
  | .bconvBExec sa sb sc sd se sf sx sy => some (.exec, .bconv true sa sb sc sd se sf sx sy)
  | .bconvBCfg sa sb sc sd se sf sx sy => some (.cfg, .bconv true sa sb sc sd se sf sx sy)
  | .bconvBVal sa sb sc sd se sf sx sy => some (.val, .bconv true sa sb sc sd se sf sx sy)

/-- The type that sizes a descriptor's rows: its own `DTYPE` (R25, R27). DESIGN CHOICE (log 31): for NONE and OTHER, to which
R25 gives no row size, the type `ty` that the operand's slot requires. -/
def Desc.rowType (d : Desc) (ty : DType) : DType :=
  if d.dtype = DType.f32.code then .f32 else if d.dtype = DType.bit.code then .bit else ty

/-- The bytes of the last row of an operand that count for its interval: `RowBytes` by the descriptor's type, and
`FetchRowBytes` for the F32 source of a `BSIGN` (R25, R27). -/
def Operand.rowBytes (o : Operand) (d : Desc) : Nat :=
  if o.fetch = true ∧ d.rowType o.ty = .f32 then fetchRowBytes d.w else (d.rowType o.ty).rowBytes d.w

/-- The interval of an operand (R27, R182). -/
def Operand.interval (t : TdTable) (o : Operand) : Interval := (t.at o.slot).span (o.rowBytes (t.at o.slot))

/-- The intervals of those operands that have storage and a shape (R24). -/
def shapedIntervals (t : TdTable) (os : List Operand) : List Interval :=
  (os.filter (fun o => (t.at o.slot).bound && (t.at o.slot).shaped)).map (Operand.interval t)

/-- The output operands. -/
def Kernel.outputs (k : Kernel) : List Operand := k.operands.filter (fun o => o.role == .output)

end Sys2Proof.Machine
end

