-- ==== Sys2Proof/Machine/Flags.lean ====
section
/-! DEFINITION. The `STATUS` bits, the block's only flags: what each reads (R36) and every change of WPQ and WPN (R45). -/

namespace Sys2Proof.Machine

/-- `STATUS.IDLE`: QLEN = 0 (R36). -/
def State.idle (s : State) : Bool := s.qlen == 0

/-- `STATUS.QFULL`: QLEN = QDEPTH (R36). -/
def State.qfull (s : State) : Bool := s.qlen == s.params.qDepth

/-- `STATUS`, computed from the rest of the state (R36). -/
def State.status (s : State) : Word :=
  BitVec.ofNat 32
    (s.idle.toNat + s.err.toNat * 2 + s.wpq.toNat * 4 + s.wpn.toNat * 8 + s.qfull.toNat * 16
      + (s.qlen % 256) * 256)

/-- The path a unit writes on: QNT and DOT on the Q path, NRM on the N path (R76), and so the bit set when its command
retires in EXEC mode (R45). -/
def markPending (k : Kernel) (s : State) : State :=
  match k with
  | .bsign .. => { s with wpq := true }
  | .bnorm .. => { s with wpn := true }
  | .bconv .. => { s with wpq := true }

/-- `SYNC`'s drain: nothing stays pending on either path (R80, R178). -/
def drain (s : State) : State := { s with wpq := false, wpn := false, unsynced := [] }

end Sys2Proof.Machine
end

