-- ==== Sys2Proof/Machine/Checks.lean ====
section
/-! DEFINITION. The checks of the kernel commands: `CheckOperand` (R180), `AutoShape` (R181), `CheckOverlap` (R182), and the
order each family makes them in (R121, R141, R156). A check answers the error it raises, or goes on. -/

namespace Sys2Proof.Machine

/-- Goes on when `p` holds, else raises `e`. -/
def require (p : Prop) [Decidable p] (e : Err) : Except Err Unit :=
  if p then .ok () else .error e

/-- A shape: the extents of dimensions 0 to 3. -/
structure Shape where
  e0 : Nat
  e1 : Nat
  e2 : Nat
  e3 : Nat
deriving DecidableEq, Repr, Inhabited

/-- `SHAPE[0..3]` of a descriptor. -/
def Desc.shape (d : Desc) : Shape := ⟨d.w, d.h, d.c, d.n⟩

/-- Every extent is 1..65535 (R26 (b)). -/
abbrev Desc.extentsOk (d : Desc) : Prop :=
  (1 ≤ d.w ∧ d.w ≤ 65535) ∧ (1 ≤ d.h ∧ d.h ≤ 65535) ∧ (1 ≤ d.c ∧ d.c ≤ 65535) ∧ (1 ≤ d.n ∧ d.n ≤ 65535)

/-- The strides nest, and for F32 are multiples of 4 (R26 (c)). -/
abbrev Desc.stridesOk (d : Desc) (ty : DType) : Prop :=
  ty.rowBytes d.w ≤ d.s1 ∧ d.h * d.s1 ≤ d.s2 ∧ d.c * d.s2 ≤ d.s3 ∧
    (ty = .f32 → d.s1 % 4 = 0 ∧ d.s2 % 4 = 0 ∧ d.s3 % 4 = 0)

/-- For F32 the base is a multiple of 4 (R26 (d), R65). -/
abbrev Desc.baseOk (d : Desc) (ty : DType) : Prop := ty = .f32 → d.base.toNat % 4 = 0

/-- `CheckOperand(S, role, dtype, mode)` (R180), with check 21 and `FetchRowBytes` for the source of a `BSIGN` (R121 step 2). -/
def checkOperand (m : Mode) (memSize : Nat) (t : TdTable) (o : Operand) : Except Err Unit :=
  let d := t.at o.slot
  if !d.bound then .error ⟨.unbound, o.slot⟩
  else if !d.shaped then
    if m = .exec then .error ⟨.unshapedExec, o.slot⟩
    else if o.role = .input then .error ⟨.unshapedInput, o.slot⟩
    else .ok ()
  else do
    require (d.dtype = o.ty.code) ⟨.dtype, o.slot⟩
    require d.extentsOk ⟨.extents, o.slot⟩
    require (d.stridesOk o.ty) ⟨.strides, o.slot⟩
    require (d.baseOk o.ty) ⟨.baseAlign, o.slot⟩
    require (o.fetch = true → fetchRowBytes d.w ≤ d.s1) ⟨.fetchPadding, o.slot⟩
    require (d.base.toNat + d.extent (o.rowBytes d) ≤ memSize) ⟨.range, o.slot⟩

/-- `CheckOperand` over the operands of a command, in slot order. -/
def checkOperands (m : Mode) (memSize : Nat) (t : TdTable) : List Operand → Except Err Unit
  | [] => .ok ()
  | o :: rest => do
    checkOperand m memSize t o
    checkOperands m memSize t rest

/-- A derived output: its slot, type and shape (R120, R140, R155). -/
structure Derived where
  slot : Slot
  ty : DType
  shape : Shape
deriving DecidableEq, Repr, Inhabited

/-- The size of a strided window's output along one dimension: `(size - window) div stride + 1` (R140, R155). -/
def outSize (size window stride : Nat) : Nat := (size - window) / stride + 1

/-- The derived shapes of a command's outputs, in slot order (R120, R140, R155). -/
def Kernel.derived (k : Kernel) (t : TdTable) : List Derived :=
  match k with
  | .bsign a b sa sb sc sd =>
    let s := t.at sa
    [⟨sb, .bit, ⟨s.w, s.h, s.c, s.n⟩⟩]
      ++ (if a then [⟨sc, .f32, ⟨s.n, 1, 1, 1⟩⟩] else [])
      ++ (if b then [⟨sd, .f32, ⟨s.w, s.h, 1, s.n⟩⟩] else [])
  | .bnorm sa sb win =>
    let b := t.at sa
    [⟨sb, .f32,
      ⟨outSize (b.w + win.pl.toNat + win.pr.toNat) win.kw.toNat win.sx.toNat,
       outSize (b.h + win.pt.toNat + win.pb.toNat) win.kh.toNat win.sy.toNat, 1, b.n⟩⟩]
  | .bconv _ sa sb _ _ _ sf sx sy =>
    let act := t.at sa
    let wts := t.at sb
    [⟨sf, .f32, ⟨outSize act.w wts.w sx.toNat, outSize act.h wts.h sy.toNat, wts.n, act.n⟩⟩]

/-- Check 4, made before the operands are looked at (R141 step 2, R156 step 2). -/
def Kernel.windowCheck (k : Kernel) : Except Err Unit :=
  match k with
  | .bsign .. => .ok ()
  | .bnorm _ _ win =>
    require (1 ≤ win.kw.toNat ∧ 1 ≤ win.kh.toNat ∧ 1 ≤ win.sx.toNat ∧ 1 ≤ win.sy.toNat) ⟨.zeroWindow, 15⟩
  | .bconv _ _ _ _ _ _ _ sx sy => require (1 ≤ sx.toNat ∧ 1 ≤ sy.toNat) ⟨.zeroWindow, 15⟩

/-- CNTMAX (R7). -/
def cntMax : Nat := 2 ^ 31 - 1

/-- The checks that relate the operands of a command to each other (R121 step 6, R141 steps 5 and 6, R156 steps 6 to 11). -/
def Kernel.fitCheck (k : Kernel) (t : TdTable) : Except Err Unit :=
  match k with
  | .bsign _ _ sa _ _ _ =>
    let s := t.at sa
    require (s.w * s.h * s.c ≤ cntMax) ⟨.count, sa⟩
  | .bnorm sa _ win => do
    let b := t.at sa
    require (b.c = 1) ⟨.depthOne, sa⟩
    require (win.kw.toNat ≤ b.w + win.pl.toNat + win.pr.toNat ∧ win.kh.toNat ≤ b.h + win.pt.toNat + win.pb.toNat)
      ⟨.windowFits, sa⟩
  | .bconv bias sa sb sc sd se _ sx sy => do
    let act := t.at sa
    let wts := t.at sb
    require (act.c = wts.c) ⟨.depthsEqual, sb⟩
    require (wts.w ≤ act.w ∧ wts.h ≤ act.h) ⟨.windowFits, sb⟩
    require (wts.w * wts.h * act.c ≤ cntMax) ⟨.count, sb⟩
    require (bias = true → (t.at sc).shape = ⟨wts.n, 1, 1, 1⟩) ⟨.biasShape, sc⟩
    require ((t.at sd).shape = ⟨wts.n, 1, 1, 1⟩) ⟨.alphaShape, sd⟩
    require ((t.at se).shape = ⟨outSize act.w wts.w sx.toNat, outSize act.h wts.h sy.toNat, 1, act.n⟩) ⟨.kShape, se⟩

/-- Check 19 for the outputs that are shaped (R121 step 7, R141 step 7, R156 step 12). -/
def checkDerived (t : TdTable) : List Derived → Except Err Unit
  | [] => .ok ()
  | o :: rest => do
    require ((t.at o.slot).shaped = true → (t.at o.slot).shape = o.shape) ⟨.derivedShape, o.slot⟩
    checkDerived t rest

/-- The descriptor with the type, the shape and the dense strides `AutoShape` gives it (R181). -/
def Desc.dense (d : Desc) (ty : DType) (sh : Shape) : Desc :=
  { d with
    shaped := true
    dtype := ty.code
    shape0 := BitVec.ofNat 32 sh.e0
    shape1 := BitVec.ofNat 32 sh.e1
    shape2 := BitVec.ofNat 32 sh.e2
    shape3 := BitVec.ofNat 32 sh.e3
    stride1 := BitVec.ofNat 32 (ty.rowBytes sh.e0)
    stride2 := BitVec.ofNat 32 (ty.rowBytes sh.e0 * sh.e1)
    stride3 := BitVec.ofNat 32 (ty.rowBytes sh.e0 * sh.e1 * sh.e2) }

/-- `AutoShape(S, dtype, shape)` (R181) on the scratch table; a shaped output is left as it is (R121 step 8). -/
def autoShape (memSize : Nat) (t : TdTable) (o : Derived) : Except Err TdTable :=
  let d := t.at o.slot
  if d.shaped then .ok t
  else do
    let d' := d.dense o.ty o.shape
    require (d.baseOk o.ty) ⟨.baseAlign, o.slot⟩
    require (o.ty.rowBytes o.shape.e0 * o.shape.e1 * o.shape.e2 < 2 ^ 32
        ∧ d'.base.toNat + d'.extent (o.ty.rowBytes d'.w) ≤ memSize) ⟨.range, o.slot⟩
    .ok (t.put o.slot d')

/-- `AutoShape` over the derived outputs, in slot order. -/
def autoShapeAll (memSize : Nat) (t : TdTable) : List Derived → Except Err TdTable
  | [] => .ok t
  | o :: rest => do
    let t' ← autoShape memSize t o
    autoShapeAll memSize t' rest

/-- `CheckOverlap` (R182, check 18): each output's interval against that of every other operand; `before` holds the operands
already passed. -/
def checkOverlap (t : TdTable) (before : List Operand) : List Operand → Except Err Unit
  | [] => .ok ()
  | o :: rest => do
    require (o.role = .output → (before ++ rest).all (fun p => !(o.interval t).meets (p.interval t)) = true)
      ⟨.overlap, o.slot⟩
    checkOverlap t (before ++ [o]) rest

/-- The hazard check of `BNORM` in EXEC mode (R147, R141 step 10). -/
def Kernel.hazardCheck (k : Kernel) (m : Mode) (wpq : Bool) : Except Err Unit :=
  match k with
  | .bsign .. => .ok ()
  | .bnorm sa _ _ => require (m = .exec → wpq = false) ⟨.hazard, sa⟩
  | .bconv .. => .ok ()

/-- The checks of a kernel command in order, on a copy of the descriptor table, which is answered with the unshaped outputs
shaped (R121, R141, R156, R176). -/
def Kernel.checks (k : Kernel) (m : Mode) (memSize : Nat) (wpq : Bool) (t : TdTable) : Except Err TdTable := do
  k.windowCheck
  checkOperands m memSize t k.operands
  k.fitCheck t
  checkDerived t (k.derived t)
  let t' ← autoShapeAll memSize t (k.derived t)
  checkOverlap t' [] k.operands
  k.hazardCheck m wpq
  .ok t'

end Sys2Proof.Machine
end

