-- ==== Sys2Proof/Machine/Run.lean ====
section
/-! DEFINITION. `RunKernel`, the procedure of every kernel command (R176). -/

namespace Sys2Proof.Machine

/-- What a kernel command in EXEC mode does once its checks have passed (R176): the bytes it computes are written, the
pending bit of its path is set, and the output intervals are recorded as not yet covered by a `SYNC` (R49, R78). The bytes
are computed from the state before any of them is written: no output overlaps an operand that is read (R74, R75). -/
def executeKernel (k : Kernel) (compute : State → List Host.Cell) (s : State) : State :=
  let s' := s.writeCells (compute s)
  markPending k
    { s' with unsynced := s.unsynced ++ shapedIntervals s.td k.outputs, draws := s.draws + 1 }

/-- `RunKernel(checks, compute)` (R176). `w0` is word 0 of the command, for `ERRW0`. -/
def runKernel (w0 : Word) (m : Mode) (k : Kernel) (compute : State → List Host.Cell) (s : State) : State :=
  match k.checks m s.params.memSize s.wpq s.td with
  | .error e =>
    match m with
    | .val => retire (recordVal e s)
    | .cfg => fatalError e s.retired w0 s
    | .exec => fatalError e s.retired w0 s
  | .ok t =>
    match m with
    | .val => retire s
    | .cfg => retire { s with td := t }
    | .exec => retire (executeKernel k compute s)

end Sys2Proof.Machine
end

