-- ==== Sys2Proof/Machine/Bsign.lean ====
section
/-! DEFINITION. The BSIGN family (unit QNT): sign packing with the optional statistics alpha and beta (R120 to R132). -/

namespace Sys2Proof.Machine

/-- The NaN a cell at address `a` holds when its value is a NaN: quiet, sign and payload drawn (R14, log 4). -/
def State.nanAt (s : State) (a : Nat) : Word := f32Quiet (Config.freeWord s.draws a)

/-- `SignBit(v)` (R123). -/
def signBit (v : Word) : Bool := fgt0 v

/-- The byte of group `g` of row (y, c, n) (R124): a sign bit for each element of the row, and `any` for the do-not-care bits
of the row's last byte, which are drawn. -/
def packedByte (s : State) (src dst : Desc) (g y c n : Nat) : Byte :=
  packByte (fun k =>
    if 8 * g + k < src.w then signBit (s.getF32 src (8 * g + k) y c n)
    else (Config.freeByte s.draws (dst.addrByte g y c n)).getLsbD (7 - k))

/-- The packed bytes of the whole source: `ceil8(W)` bytes of every row, and no other byte (R70, R124). -/
def packedCells (s : State) (src dst : Desc) : List Host.Cell :=
  (List.range src.n).flatMap fun n =>
    (List.range src.c).flatMap fun c =>
      (List.range src.h).flatMap fun y =>
        (List.range (ceil8 src.w)).map fun g => (dst.addrByte g y c n, packedByte s src dst g y c n)

/-- The elements of 3D block `n`, x fastest, then y, then c (R126). -/
def blockElements (s : State) (src : Desc) (n : Nat) : List Word :=
  (List.range src.c).flatMap fun c =>
    (List.range src.h).flatMap fun y =>
      (List.range src.w).map fun x => s.getF32 src x y c n

/-- The running sum of magnitudes, from +0.0, one rounded addition for each element in order (R126, R127). -/
def absSum (nan : Word) (vs : List Word) : Word :=
  vs.foldl (fun acc v => fadd32 nan acc (fabs32 v)) 0

/-- `alpha[n]` (R126): the sum over the block divided by the number of its elements. -/
def alphaValue (s : State) (src dst : Desc) (n : Nat) : Word :=
  let nan := s.nanAt (dst.addrF32 n 0 0 0)
  fdiv32 nan (absSum nan (blockElements s src n)) (cvtU32 (src.w * src.h * src.c))

/-- The alpha cells (R126, R128). -/
def alphaCells (s : State) (src dst : Desc) : List Host.Cell :=
  (List.range src.n).flatMap fun n => wordCells (dst.addrF32 n 0 0 0) (alphaValue s src dst n)

/-- `beta[x, y, n]` (R127): the sum over the depth column divided by the depth. -/
def betaValue (s : State) (src dst : Desc) (x y n : Nat) : Word :=
  let nan := s.nanAt (dst.addrF32 x y 0 n)
  fdiv32 nan (absSum nan ((List.range src.c).map fun c => s.getF32 src x y c n)) (cvtU32 src.c)

/-- The beta cells (R127, R128). -/
def betaCells (s : State) (src dst : Desc) : List Host.Cell :=
  (List.range src.n).flatMap fun n =>
    (List.range src.h).flatMap fun y =>
      (List.range src.w).flatMap fun x => wordCells (dst.addrF32 x y 0 n) (betaValue s src dst x y n)

/-- `ComputeBSIGN(A, B)` (R128): what is written. -/
def computeBsign (a b : Bool) (sa sb sc sd : Slot) (s : State) : List Host.Cell :=
  packedCells s (s.tdAt sa) (s.tdAt sb)
    ++ (if a then alphaCells s (s.tdAt sa) (s.tdAt sc) else [])
    ++ (if b then betaCells s (s.tdAt sa) (s.tdAt sd) else [])

/-- A command of the family (R129 to R132). -/
def runBsign (w0 : Word) (m : Mode) (a b : Bool) (sa sb sc sd : Slot) (s : State) :
    Host.Outcome State Fault Refusal :=
  .next (runKernel w0 m (.bsign a b sa sb sc sd) (computeBsign a b sa sb sc sd) s)

/-- `BSIGN`, EXEC mode (R129). -/
def execBsignExec (sa sb : Slot) (s : State) : Host.Outcome State Fault Refusal :=
  runBsign (encode (.bsignExec sa sb)).w0 .exec false false sa sb 0 0 s

/-- `BSIGN`, CFG mode (R129, R122). -/
def execBsignCfg (sa sb : Slot) (s : State) : Host.Outcome State Fault Refusal :=
  runBsign (encode (.bsignCfg sa sb)).w0 .cfg false false sa sb 0 0 s

/-- `BSIGN`, VAL mode (R129, R220). -/
def execBsignVal (sa sb : Slot) (s : State) : Host.Outcome State Fault Refusal :=
  runBsign (encode (.bsignVal sa sb)).w0 .val false false sa sb 0 0 s

/-- `BSIGN.A`, EXEC mode (R130). -/
def execBsignAExec (sa sb sc : Slot) (s : State) : Host.Outcome State Fault Refusal :=
  runBsign (encode (.bsignAExec sa sb sc)).w0 .exec true false sa sb sc 0 s

/-- `BSIGN.A`, CFG mode (R130, R122). -/
def execBsignACfg (sa sb sc : Slot) (s : State) : Host.Outcome State Fault Refusal :=
  runBsign (encode (.bsignACfg sa sb sc)).w0 .cfg true false sa sb sc 0 s

/-- `BSIGN.A`, VAL mode (R130, R220). -/
def execBsignAVal (sa sb sc : Slot) (s : State) : Host.Outcome State Fault Refusal :=
  runBsign (encode (.bsignAVal sa sb sc)).w0 .val true false sa sb sc 0 s

/-- `BSIGN.B`, EXEC mode (R131). -/
def execBsignBExec (sa sb sd : Slot) (s : State) : Host.Outcome State Fault Refusal :=
  runBsign (encode (.bsignBExec sa sb sd)).w0 .exec false true sa sb 0 sd s

/-- `BSIGN.B`, CFG mode (R131, R122). -/
def execBsignBCfg (sa sb sd : Slot) (s : State) : Host.Outcome State Fault Refusal :=
  runBsign (encode (.bsignBCfg sa sb sd)).w0 .cfg false true sa sb 0 sd s

/-- `BSIGN.B`, VAL mode (R131, R220). -/
def execBsignBVal (sa sb sd : Slot) (s : State) : Host.Outcome State Fault Refusal :=
  runBsign (encode (.bsignBVal sa sb sd)).w0 .val false true sa sb 0 sd s

/-- `BSIGN.AB`, EXEC mode (R132). -/
def execBsignABExec (sa sb sc sd : Slot) (s : State) : Host.Outcome State Fault Refusal :=
  runBsign (encode (.bsignABExec sa sb sc sd)).w0 .exec true true sa sb sc sd s

/-- `BSIGN.AB`, CFG mode (R132, R122). -/
def execBsignABCfg (sa sb sc sd : Slot) (s : State) : Host.Outcome State Fault Refusal :=
  runBsign (encode (.bsignABCfg sa sb sc sd)).w0 .cfg true true sa sb sc sd s

/-- `BSIGN.AB`, VAL mode (R132, R220). -/
def execBsignABVal (sa sb sc sd : Slot) (s : State) : Host.Outcome State Fault Refusal :=
  runBsign (encode (.bsignABVal sa sb sc sd)).w0 .val true true sa sb sc sd s

end Sys2Proof.Machine
end

