-- ==== Sys2Proof/Machine/Bconv.lean ====
section
/-! DEFINITION. The BCONV family (unit DOT): the XNOR-popcount dot product (R155 to R164, R170). -/

namespace Sys2Proof.Machine

/-! ## Bit primitives (R15) -/

/-- `xnor8(a, b)`. -/
def xnor8 (a b : Byte) : Byte := (a ^^^ b) ^^^ 0xFF

/-- `popcnt8(a)`. -/
def popcnt8 (a : Byte) : Nat := ((List.range 8).map (fun k => (a.getLsbD k).toNat)).sum

/-- `eqbit(p, q)`. -/
def eqbit (p q : Bool) : Nat := if p = q then 1 else 0

/-! ## The dot product -/

/-- `T = KW * KH * C`, the size of the receptive field (R158). -/
def fieldSize (act wts : Desc) : Nat := wts.w * wts.h * act.c

/-- `M`, the number of matching bits for output element (ox, oy, oc, n) (R159). -/
def matchCount (s : State) (act wts : Desc) (sx sy : Nat) (ox oy oc n : Nat) : Nat :=
  ((List.range act.c).map fun c =>
    ((List.range wts.h).map fun j =>
      ((List.range wts.w).map fun i =>
        eqbit (s.getBit act (ox * sx + i) (oy * sy + j) c n) (s.getBit wts i j c oc)).sum).sum).sum

/-- `v = 2*M - T`, a mathematical integer (R165). -/
def dotValue (s : State) (act wts : Desc) (sx sy : Nat) (ox oy oc n : Nat) : Int :=
  2 * (matchCount s act wts sx sy ox oy oc n : Int) - (fieldSize act wts : Int)

/-- The rescaling of `v` by alpha, K and, when there is one, the bias, each operation rounded (R162). -/
def rescale (nan : Word) (v : Int) (alpha k : Word) (bias : Option Word) : Word :=
  let o2 := fmul32 nan (fmul32 nan (cvtS32 v) alpha) k
  match bias with
  | none => o2
  | some b => fadd32 nan o2 b

/-- The value stored to `out[ox, oy, oc, n]` (R162). -/
def convValue (s : State) (act wts alpha kk out : Desc) (bias : Option Desc) (sx sy : Nat) (ox oy oc n : Nat) : Word :=
  rescale (s.nanAt (out.addrF32 ox oy oc n)) (dotValue s act wts sx sy ox oy oc n)
    (s.getF32 alpha oc 0 0 0) (s.getF32 kk ox oy 0 n) (bias.map fun b => s.getF32 b oc 0 0 0)

/-- `ComputeBCONV(BIAS)` (R170): what is written. -/
def computeBconv (bias : Bool) (sa sb sc sd se sf : Slot) (sx sy : Byte) (s : State) : List Host.Cell :=
  let act := s.tdAt sa
  let wts := s.tdAt sb
  let out := s.tdAt sf
  let bd := if bias then some (s.tdAt sc) else none
  (List.range act.n).flatMap fun n =>
    (List.range wts.n).flatMap fun oc =>
      (List.range (outSize act.h wts.h sy.toNat)).flatMap fun oy =>
        (List.range (outSize act.w wts.w sx.toNat)).flatMap fun ox =>
          wordCells (out.addrF32 ox oy oc n)
            (convValue s act wts (s.tdAt sd) (s.tdAt se) out bd sx.toNat sy.toNat ox oy oc n)

/-- A command of the family (R163, R164). -/
def runBconv (w0 : Word) (m : Mode) (bias : Bool) (sa sb sc sd se sf : Slot) (sx sy : Byte) (s : State) :
    Host.Outcome State Fault Refusal :=
  .next (runKernel w0 m (.bconv bias sa sb sc sd se sf sx sy) (computeBconv bias sa sb sc sd se sf sx sy) s)

/-- `BCONV`, EXEC mode (R163). -/
def execBconvExec (sa sb sd se sf : Slot) (sx sy : Byte) (s : State) : Host.Outcome State Fault Refusal :=
  runBconv (encode (.bconvExec sa sb sd se sf sx sy)).w0 .exec false sa sb 0 sd se sf sx sy s

/-- `BCONV`, CFG mode (R163, R157). -/
def execBconvCfg (sa sb sd se sf : Slot) (sx sy : Byte) (s : State) : Host.Outcome State Fault Refusal :=
  runBconv (encode (.bconvCfg sa sb sd se sf sx sy)).w0 .cfg false sa sb 0 sd se sf sx sy s

/-- `BCONV`, VAL mode (R163, R220). -/
def execBconvVal (sa sb sd se sf : Slot) (sx sy : Byte) (s : State) : Host.Outcome State Fault Refusal :=
  runBconv (encode (.bconvVal sa sb sd se sf sx sy)).w0 .val false sa sb 0 sd se sf sx sy s

/-- `BCONV.B`, EXEC mode (R164). -/
def execBconvBExec (sa sb sc sd se sf : Slot) (sx sy : Byte) (s : State) : Host.Outcome State Fault Refusal :=
  runBconv (encode (.bconvBExec sa sb sc sd se sf sx sy)).w0 .exec true sa sb sc sd se sf sx sy s

/-- `BCONV.B`, CFG mode (R164, R157). -/
def execBconvBCfg (sa sb sc sd se sf : Slot) (sx sy : Byte) (s : State) : Host.Outcome State Fault Refusal :=
  runBconv (encode (.bconvBCfg sa sb sc sd se sf sx sy)).w0 .cfg true sa sb sc sd se sf sx sy s

/-- `BCONV.B`, VAL mode (R164, R220). -/
def execBconvBVal (sa sb sc sd se sf : Slot) (sx sy : Byte) (s : State) : Host.Outcome State Fault Refusal :=
  runBconv (encode (.bconvBVal sa sb sc sd se sf sx sy)).w0 .val true sa sb sc sd se sf sx sy s

end Sys2Proof.Machine
end

