-- ==== Sys2Proof/Machine/Bnorm.lean ====
section
/-! DEFINITION. `BNORM` (unit NRM): the box-filter normalizer (R140 to R147). -/

namespace Sys2Proof.Machine

/-- `Tap(u, v, n)` (R144), at `u = px - PL` and `v = py - PT`: the beta element, or +0.0 in the padding. -/
def tap (s : State) (b : Desc) (px py pl pt n : Nat) : Word :=
  if pl ≤ px ∧ px - pl < b.w ∧ pt ≤ py ∧ py - pt < b.h then s.getF32 b (px - pl) (py - pt) 0 n else 0

/-- The filter coefficient `r` (R143). -/
def coefficient (nan : Word) (win : Window) : Word :=
  fdiv32 nan 0x3F800000 (cvtU32 (win.kw.toNat * win.kh.toNat))

/-- The taps of the window of output cell (ox, oy, n), i fastest, then j (R145). -/
def windowTaps (s : State) (b : Desc) (win : Window) (ox oy n : Nat) : List Word :=
  (List.range win.kh.toNat).flatMap fun j =>
    (List.range win.kw.toNat).map fun i =>
      tap s b (ox * win.sx.toNat + i) (oy * win.sy.toNat + j) win.pl.toNat win.pt.toNat n

/-- `K[ox, oy, n]` (R145): every product is rounded, then every sum. -/
def normValue (s : State) (b k : Desc) (win : Window) (ox oy n : Nat) : Word :=
  let nan := s.nanAt (k.addrF32 ox oy 0 n)
  (windowTaps s b win ox oy n).foldl (fun acc t => fadd32 nan acc (fmul32 nan t (coefficient nan win))) 0

/-- `ComputeBNORM` (R145): what is written. -/
def computeBnorm (sa sb : Slot) (win : Window) (s : State) : List Host.Cell :=
  let b := s.tdAt sa
  let k := s.tdAt sb
  (List.range b.n).flatMap fun n =>
    (List.range (outSize (b.h + win.pt.toNat + win.pb.toNat) win.kh.toNat win.sy.toNat)).flatMap fun oy =>
      (List.range (outSize (b.w + win.pl.toNat + win.pr.toNat) win.kw.toNat win.sx.toNat)).flatMap fun ox =>
        wordCells (k.addrF32 ox oy 0 n) (normValue s b k win ox oy n)

/-- `BNORM` (R146). -/
def runBnorm (w0 : Word) (m : Mode) (sa sb : Slot) (win : Window) (s : State) : Host.Outcome State Fault Refusal :=
  .next (runKernel w0 m (.bnorm sa sb win) (computeBnorm sa sb win) s)

/-- `BNORM`, EXEC mode (R146, R147). -/
def execBnormExec (sa sb : Slot) (win : Window) (s : State) : Host.Outcome State Fault Refusal :=
  runBnorm (encode (.bnormExec sa sb win)).w0 .exec sa sb win s

/-- `BNORM`, CFG mode (R146, R142). -/
def execBnormCfg (sa sb : Slot) (win : Window) (s : State) : Host.Outcome State Fault Refusal :=
  runBnorm (encode (.bnormCfg sa sb win)).w0 .cfg sa sb win s

/-- `BNORM`, VAL mode (R146, R220). -/
def execBnormVal (sa sb : Slot) (win : Window) (s : State) : Host.Outcome State Fault Refusal :=
  runBnorm (encode (.bnormVal sa sb win)).w0 .val sa sb win s

end Sys2Proof.Machine
end

