-- ==== Sys2Proof/Machine/Control.lean ====
section
/-! DEFINITION. `NOP` (R177) and `SYNC` (R178). -/

namespace Sys2Proof.Machine

/-- `NOP` (R177): retires, and changes nothing else. -/
def execNop (s : State) : Host.Outcome State Fault Refusal := .next (retire s)

/-- `SYNC` (R178, R80): everything written becomes visible, WPQ and WPN are cleared, and it retires. -/
def execSync (s : State) : Host.Outcome State Fault Refusal := .next (retire (drain s))

end Sys2Proof.Machine
end

