-- ==== Sys2Proof/Machine/Dispatch.lean ====
section
/-! DEFINITION. The meaning of each command, by opcode and mode (R175). -/

namespace Sys2Proof.Machine

/-- A decoded command at the head of the queue is executed (R175). -/
def exec (i : Instr) (s : State) : Host.Outcome State Fault Refusal :=
  match i with
  | .nop => Sys2Proof.Machine.execNop s
  | .sync => Sys2Proof.Machine.execSync s
  | .bsignExec sa sb => Sys2Proof.Machine.execBsignExec sa sb s
  | .bsignCfg sa sb => Sys2Proof.Machine.execBsignCfg sa sb s
  | .bsignVal sa sb => Sys2Proof.Machine.execBsignVal sa sb s
  | .bsignAExec sa sb sc => Sys2Proof.Machine.execBsignAExec sa sb sc s
  | .bsignACfg sa sb sc => Sys2Proof.Machine.execBsignACfg sa sb sc s
  | .bsignAVal sa sb sc => Sys2Proof.Machine.execBsignAVal sa sb sc s
  | .bsignBExec sa sb sd => Sys2Proof.Machine.execBsignBExec sa sb sd s
  | .bsignBCfg sa sb sd => Sys2Proof.Machine.execBsignBCfg sa sb sd s
  | .bsignBVal sa sb sd => Sys2Proof.Machine.execBsignBVal sa sb sd s
  | .bsignABExec sa sb sc sd => Sys2Proof.Machine.execBsignABExec sa sb sc sd s
  | .bsignABCfg sa sb sc sd => Sys2Proof.Machine.execBsignABCfg sa sb sc sd s
  | .bsignABVal sa sb sc sd => Sys2Proof.Machine.execBsignABVal sa sb sc sd s
  | .bnormExec sa sb win => Sys2Proof.Machine.execBnormExec sa sb win s
  | .bnormCfg sa sb win => Sys2Proof.Machine.execBnormCfg sa sb win s
  | .bnormVal sa sb win => Sys2Proof.Machine.execBnormVal sa sb win s
  | .bconvExec sa sb sd se sf sx sy => Sys2Proof.Machine.execBconvExec sa sb sd se sf sx sy s
  | .bconvCfg sa sb sd se sf sx sy => Sys2Proof.Machine.execBconvCfg sa sb sd se sf sx sy s
  | .bconvVal sa sb sd se sf sx sy => Sys2Proof.Machine.execBconvVal sa sb sd se sf sx sy s
  | .bconvBExec sa sb sc sd se sf sx sy => Sys2Proof.Machine.execBconvBExec sa sb sc sd se sf sx sy s
  | .bconvBCfg sa sb sc sd se sf sx sy => Sys2Proof.Machine.execBconvBCfg sa sb sc sd se sf sx sy s
  | .bconvBVal sa sb sc sd se sf sx sy => Sys2Proof.Machine.execBconvBVal sa sb sc sd se sf sx sy s

end Sys2Proof.Machine
end

