-- ==== Sys2Proof/Machine/Queue.lean ====
section
/-! DEFINITION. What the commands in the queue mean for tensor memory before they retire: the bytes a host access may not
touch or does not see (R78, R79), and those a reset or a host-access error makes `any` (R49, R217). -/

namespace Sys2Proof.Machine

/-- The kernel commands of a queue, each with its mode and the descriptor table it will meet if no earlier one fails: a
CFG-mode command shapes outputs for the commands behind it (R176, R248), and its own operands are taken as it shapes them.
DESIGN CHOICE (log 36): so are those of a VAL-mode command, though the shape its checks derive is discarded at retirement (R176):
while it is queued, an unshaped output has the interval it would have if shaped. -/
def queuedKernels (memSize : Nat) (t : TdTable) : List Command → List (Mode × Kernel × TdTable)
  | [] => []
  | c :: q =>
    match (decode c).toOption.bind kernelOf with
    | none => queuedKernels memSize t q
    | some (m, k) =>
      let t' := (k.checks m memSize false t).toOption.getD t
      (m, k, t') :: queuedKernels memSize (if m = .cfg then t' else t) q

/-- The intervals of the output operands of a queue's commands, in any mode (R49). -/
def queuedOutputs (s : State) (q : List Command) : List Interval :=
  (queuedKernels s.params.memSize s.td q).flatMap fun p => shapedIntervals p.2.2 p.2.1.outputs

/-- The commands pushed and not retired, in their order. DEDUCED (log 32): those that a fatal error discarded (R217) are among
them until the reset. -/
def State.unretired (s : State) : List Command := s.discarded ++ s.queue

/-- The bytes a host read does not see: output intervals of EXEC-mode commands pushed and not yet covered by a retired `SYNC`
(R78, R245). -/
def State.unseen (s : State) : List Interval :=
  s.unsynced ++
    ((queuedKernels s.params.memSize s.td s.unretired).filter fun p => p.1 == .exec).flatMap
      fun p => shapedIntervals p.2.2 p.2.1.outputs

/-- The bytes a host may not write: operands of commands pushed and not yet retired, and outputs of EXEC-mode commands
retired with no `SYNC` retired since (R79 (a) and (b)). -/
def State.inUse (s : State) : List Interval :=
  s.unsynced ++
    (queuedKernels s.params.memSize s.td s.unretired).flatMap fun p => shapedIntervals p.2.2 p.2.1.operands

/-- A fatal error raised by a host access (R217): the command at the head may be executing and is abandoned, so the bytes of
its output intervals become `any`; `ERRCMD` is `ISSUED` (R213). -/
def hostError (e : Err) (w0 : Word) (s : State) : State :=
  fatalError e s.issued w0 (s.forget (queuedOutputs s (s.queue.take 1)))

/-- The soft reset (R183, R241, R49): the outputs of commands not yet retired, or retired in EXEC mode with no `SYNC` retired
since, become `any`. -/
def softResetNow (s : State) : State :=
  softReset (s.unsynced ++ queuedOutputs s s.unretired) s

end Sys2Proof.Machine
end

