-- ==== Sys2Proof/Machine/Registers.lean ====
section
/-! DEFINITION. The register space (R32 to R44): what each offset reads and what a write to it does (R179). -/

namespace Sys2Proof.Machine

/-- An aligned access of the register space (R179): any other has no defined behaviour. -/
def regAccessOk (off : Nat) : Bool := off % 4 == 0 && decide (off < 0x1000)

/-- `ID` (R33). -/
def idValue : Word := 0x42580007

/-- `PARAM`: NTD, QDEPTH, NW (R34). -/
def State.param (s : State) : Word := BitVec.ofNat 32 (16 + s.params.qDepth * 2 ^ 8 + s.params.nw * 2 ^ 16)

/-- `MEMSZ` (R35). -/
def State.memsz (s : State) : Word := BitVec.ofNat 32 s.params.memSize

/-! ## The descriptor windows (R32, R43) -/

/-- The offset is in the descriptor windows, 0x100 to 0x4FF (R32). -/
def isTdWindow (off : Nat) : Bool := decide (0x100 ≤ off) && decide (off < 0x500)

/-- The descriptor of a window offset (R32). -/
def tdIndex (off : Nat) : Slot := BitVec.ofNat 4 ((off - 0x100) / 0x40)

/-- The offset inside a descriptor's window (R32). -/
def tdField (off : Nat) : Nat := (off - 0x100) % 0x40

/-- `TD[i].CFG` as read: BOUND, SHAPED, DTYPE in bits 7:4, the rest 0 (R43). -/
def Desc.cfgWord (d : Desc) : Word := BitVec.ofNat 32 (d.bound.toNat + d.shaped.toNat * 2 + d.dtype.toNat * 16)

/-- A field of a descriptor as read; a reserved offset reads 0 (R43, R44). -/
def Desc.readField (d : Desc) (f : Nat) : Word :=
  if f = 0x00 then d.base
  else if f = 0x04 then d.cfgWord
  else if f = 0x08 then d.shape0
  else if f = 0x0C then d.shape1
  else if f = 0x10 then d.shape2
  else if f = 0x14 then d.shape3
  else if f = 0x18 then d.stride1
  else if f = 0x1C then d.stride2
  else if f = 0x20 then d.stride3
  else 0

/-- A descriptor after a write to a field; reserved bits of CFG and reserved offsets ignore the write (R43, R44). -/
def Desc.writeField (d : Desc) (f : Nat) (v : Word) : Desc :=
  if f = 0x00 then { d with base := v }
  else if f = 0x04 then
    { d with bound := v.getLsbD 0, shaped := v.getLsbD 1, dtype := v.extractLsb' 4 4 }
  else if f = 0x08 then { d with shape0 := v }
  else if f = 0x0C then { d with shape1 := v }
  else if f = 0x10 then { d with shape2 := v }
  else if f = 0x14 then { d with shape3 := v }
  else if f = 0x18 then { d with stride1 := v }
  else if f = 0x1C then { d with stride2 := v }
  else if f = 0x20 then { d with stride3 := v }
  else d

/-! ## Reads -/

/-- What a register offset reads (R33 to R44); `CTRL` and reserved offsets read 0. -/
def readReg (s : State) (off : Nat) : Word :=
  if isTdWindow off then (s.tdAt (tdIndex off)).readField (tdField off)
  else if off = 0x000 then idValue
  else if off = 0x004 then s.param
  else if off = 0x008 then s.memsz
  else if off = 0x00C then s.status
  else if off = 0x010 then s.errInfo
  else if off = 0x014 then s.errCmd
  else if off = 0x018 then s.errW0
  else if off = 0x01C then s.vstat
  else if off = 0x020 then s.vcmd
  else if off = 0x024 then s.retired
  else if off = 0x028 then s.issued
  else if off = 0x030 then s.cmdw0
  else if off = 0x034 then s.cmdw1
  else if off = 0x038 then s.cmdw2
  else if off = 0x03C then s.cmdw3
  else 0

/-! ## Writes -/

/-- The command in the staging registers (R42). -/
def State.staged (s : State) : Command := ⟨s.cmdw0, s.cmdw1, s.cmdw2, s.cmdw3⟩

/-- The push a write to `CMDW3` makes (R42): dropped in the error state, `E_QOVF` when the queue is full, else appended. -/
def pushStaged (s : State) : State :=
  if s.err then s
  else if s.qfull then hostError ⟨.queueFull, 15⟩ s.cmdw0 s
  else { s with queue := s.queue ++ [s.staged], issued := s.issued + 1 }

/-- A write into a descriptor window (R43): performed when idle, `E_BUSYWR` when busy, dropped in the error state. -/
def writeTd (off : Nat) (v : Word) (s : State) : State :=
  if s.err then s
  else if s.idle then
    { s with td := TdTable.put s.td (tdIndex off) ((s.tdAt (tdIndex off)).writeField (tdField off) v) }
  else hostError ⟨.busyWrite, tdIndex off⟩ 0 s

/-- What a write to a register offset does (R39, R41 to R43); writes to read-only and reserved offsets are ignored (R32,
R44). -/
def writeReg (off : Nat) (v : Word) (s : State) : State :=
  if isTdWindow off then writeTd off v s
  else if off = 0x01C then { s with vstat := 0, vcmd := 0 }
  else if off = 0x02C then (if v.getLsbD 0 then softResetNow s else s)
  else if off = 0x030 then { s with cmdw0 := v }
  else if off = 0x034 then { s with cmdw1 := v }
  else if off = 0x038 then { s with cmdw2 := v }
  else if off = 0x03C then pushStaged { s with cmdw3 := v }
  else s

end Sys2Proof.Machine
end

