-- ==== Sys2Proof/Machine/Layer.lean ====
section
/-! DEFINITION. The layer protocol, host software that drives the block (R190 to R203), the pseudo-instructions of R104 and
R105, and the padding step (R194). -/

namespace Sys2Proof.Machine

/-! ## Assembler lines (R104, R105) -/

/-- The four register writes a command stands for (R104). -/
def pushActions (c : Command) : List HostAction :=
  [.wr 0x030 c.w0, .wr 0x034 c.w1, .wr 0x038 c.w2, .wr 0x03C c.w3]

/-- `wait IDLE = 1`. -/
def waitIdle : HostAction := .wait (.bits 0x1 0x1)

/-- `wait QFULL = 0`. -/
def waitSpace : HostAction := .wait (.bits 0x10 0x0)

/-- A push after the queue has room: one of the two ways R198 gives a host to keep within QDEPTH. -/
def pushWhenRoom (i : Instr) : List HostAction := waitSpace :: pushActions (encode i)

/-- The offset of the window of descriptor `i` (R32). -/
def tdOffset (i : Slot) : Nat := 0x100 + 0x40 * i.toNat

/-- `td.set` (R105). -/
def tdSet (i : Slot) (base : Word) (ty : BitVec 4) (w h c n s1 s2 s3 : Word) : List HostAction :=
  let o := tdOffset i
  [.wr o base, .wr (o + 0x08) w, .wr (o + 0x0C) h, .wr (o + 0x10) c, .wr (o + 0x14) n,
   .wr (o + 0x18) s1, .wr (o + 0x1C) s2, .wr (o + 0x20) s3, .wr (o + 0x04) (BitVec.ofNat 32 (3 + 16 * ty.toNat))]

/-- `td.bind` (R105). -/
def tdBind (i : Slot) (base : Word) : List HostAction := [.wr (tdOffset i) base, .wr (tdOffset i + 0x04) 1]

/-- `td.null` (R105). -/
def tdNull (i : Slot) : List HostAction := [.wr (tdOffset i + 0x04) 0]

/-! ## The commands of a layer (R196, R198) -/

/-- The field `KW` (`which` 0) or `KH` (`which` 1) for a kernel extent (R196). An extent above 255 does not fit (R192), and
what the field then holds is not stated: DESIGN CHOICE (log 30), a free value, so the routines run. -/
def sizeField (draw which extent : Nat) : Byte :=
  if extent ≤ 255 then BitVec.ofNat 8 extent else Config.freeByte draw which

/-- The window of the layer's `BNORM`: the kernel's size, the layer's strides, zero padding (R148, R196). -/
def Layer.window (l : Layer) (draw : Nat) (t : TdTable) : Window :=
  ⟨sizeField draw 0 (t.at l.w).w, sizeField draw 1 (t.at l.w).h, l.sx, l.sy, 0, 0, 0, 0⟩

/-- The four kernel commands of a layer (R196): weights, input, normalization, convolution. -/
def Layer.kernels (l : Layer) (win : Window) : List Kernel :=
  [.bsign true false l.w l.bw l.al 0,
   .bsign false true l.pin l.bin 0 l.be,
   .bnorm l.be l.kk win,
   .bconv l.bias.isSome l.bin l.bw (l.bias.getD 0) l.al l.kk l.out l.sx l.sy]

/-- The layer's `BCONV` in CFG mode (R196). -/
def Layer.bconvCfg (l : Layer) : Instr :=
  match l.bias with
  | none => .bconvCfg l.bin l.bw l.al l.kk l.out l.sx l.sy
  | some b => .bconvBCfg l.bin l.bw b l.al l.kk l.out l.sx l.sy

/-- The layer's `BCONV` in EXEC mode (R198). -/
def Layer.bconvExec (l : Layer) : Instr :=
  match l.bias with
  | none => .bconvExec l.bin l.bw l.al l.kk l.out l.sx l.sy
  | some b => .bconvBExec l.bin l.bw b l.al l.kk l.out l.sx l.sy

/-- The expansion of `l.configure` (R196). -/
def Layer.configureScript (l : Layer) (win : Window) : List HostAction :=
  pushWhenRoom (.bsignACfg l.w l.bw l.al) ++ pushWhenRoom (.bsignBCfg l.pin l.bin l.be)
    ++ pushWhenRoom (.bnormCfg l.be l.kk win) ++ pushWhenRoom l.bconvCfg ++ [waitIdle, .lConfigured l]

/-- What `l.prepare` pushes on a configured layer (R197). -/
def Layer.prepareScript (l : Layer) : List HostAction :=
  pushWhenRoom (.bsignAExec l.w l.bw l.al) ++ [.lPrepared]

/-- The expansion of `l.run` (R198). -/
def Layer.runScript (l : Layer) (win : Window) (inp : PadInput) : List HostAction :=
  [.lPrepare, .lPad inp] ++ pushWhenRoom (.bsignBExec l.pin l.bin l.be) ++ pushWhenRoom .sync
    ++ pushWhenRoom (.bnormExec l.be l.kk win) ++ pushWhenRoom l.bconvExec ++ pushWhenRoom .sync
    ++ [waitIdle, .lRunDone]

/-! ## What the host guards of a configured layer (R79 (c), R201, R245, R247) -/

/-- The intervals of a configured layer's intermediates (R192), as `l.configure` leaves them. DESIGN CHOICE (log 35): the last
row of `pin` ends at `RowBytes`, though R27 gives it `FetchRowBytes` where `pin` is the source of a `BSIGN`: the bytes that a
fetch reads behind its elements (R67) belong to no element, and no one is kept from them. -/
def Layer.owned (l : Layer) (t : TdTable) : Owned where
  pin := shapedIntervals t [⟨l.pin, .input, .f32, false⟩]
  others := shapedIntervals t
    [⟨l.bin, .output, .bit, false⟩, ⟨l.bw, .output, .bit, false⟩, ⟨l.al, .output, .f32, false⟩,
     ⟨l.be, .output, .f32, false⟩, ⟨l.kk, .output, .f32, false⟩]
  weights := shapedIntervals t [⟨l.bw, .output, .bit, false⟩, ⟨l.al, .output, .f32, false⟩]

/-- The intermediates of the configured layer, `pin` among them (R192), that no one else may observe or mutate (R79 (c),
R201). -/
def State.intermediates (s : State) : List Interval := s.owned.pin ++ s.owned.others

/-- R245's condition: IDLE = 1, ERR = 0, WPQ = 0, WPN = 0. -/
def State.endedWell (s : State) : Bool := s.idle && !s.err && !s.wpq && !s.wpn

/-- Why no host write to `[a, a + n)` is allowed: an intermediate other than `pin` (R201), or a tensor in use (R79 (a) and (b),
R194). -/
def State.padRefusal (s : State) (a n : Nat) : Option Refusal :=
  if touchesAny s.owned.others a n then some .intermediateTensor
  else if touchesAny s.inUse a n then some .tensorInUse
  else none

/-- Why any other host write to `[a, a + n)` is refused: as there, and the layer's `pin` before the previous run has ended
(R247). -/
def State.writeRefusal (s : State) (a n : Nat) : Option Refusal :=
  if touchesAny s.owned.pin a n && !s.endedWell then some .runNotEnded else s.padRefusal a n

/-- The queue holds nothing, and no output waits for a `SYNC`, but for the `BSIGN.A` of the weights, which R198 lets
`l.prepare` push right before the padding step: it may be queued, or retired with no `SYNC` after it (log 20). -/
def State.onlyPreparePending (s : State) (l : Layer) : Bool :=
  !s.wpn && s.queue.all (fun c => c == encode (.bsignAExec l.w l.bw l.al))
    && (!s.wpq || s.unsynced.all (fun i => s.owned.weights.contains i))

/-- The previous run of layer `l` has ended, at a call of `l.run` (R247): R245's condition, but for that `BSIGN.A`. -/
def State.previousRunEnded (s : State) (l : Layer) : Bool := !s.err && s.onlyPreparePending l

/-- Why the padding step of `l.run` may not write `[a, a + n)`: more than the `BSIGN.A` is pending (R247), or as for any host
write. ERR is not looked at: it was 0 at the call, and only that `BSIGN.A` can have set it since, in which case `l.run` goes on
and fails with `ERRINFO` (R198). -/
def State.runPadRefusal (s : State) (l : Layer) (a n : Nat) : Option Refusal :=
  if s.onlyPreparePending l then s.padRefusal a n else some .runNotEnded

/-! ## The padding step (R194) -/

/-- The value `hostpad` gives element (x, y, c, n) of `pin` (R194). DESIGN CHOICE (log 30): an element of `in` that the list
does not give is a free value. -/
def PadInput.element (inp : PadInput) (draw depth x y c n : Nat) : Word :=
  if inp.left ≤ x ∧ x - inp.left < inp.width ∧ inp.top ≤ y ∧ y - inp.top < inp.height then
    let k := (x - inp.left) + inp.width * ((y - inp.top) + inp.height * (c + depth * n))
    inp.data.getD k (Config.freeWord draw k)
  else inp.fill

/-- The elements of `pin` with their addresses. DESIGN CHOICE (log 30): a `pin` that is not bound, not shaped or not F32 has no
element to write, since only a shaped F32 descriptor has a valid region and element addresses (R24, R28, R63). -/
def padWrites (draw : Nat) (pin : Desc) (inp : PadInput) : List (Nat × Word) :=
  if pin.bound && pin.shaped && pin.dtype == DType.f32.code then
    (List.range pin.n).flatMap fun n =>
      (List.range pin.c).flatMap fun c =>
        (List.range pin.h).flatMap fun y =>
          (List.range pin.w).map fun x => (pin.addrF32 x y c n, inp.element draw pin.c x y c n)
  else []

/-- The host writes every element of `pin` (R194), unless `refusal` gives a reason not to for one. -/
def padInto (refusal : Nat → Nat → Option Refusal) (slot : Slot) (inp : PadInput) (s : State) :
    Host.Outcome State Fault Refusal :=
  let ws := padWrites s.draws (s.tdAt slot) inp
  if ws.any (fun p => decide (s.params.memSize < p.1 + 4)) then .fault .noSuchAddress
  else
    match ws.findSome? (fun p => refusal p.1 4) with
    | some r => .refused r
    | none => .next { s.writeCells (ws.flatMap fun p => wordCells p.1 p.2) with draws := s.draws + 1 }

/-- `hostpad` (R194) as an action of its own: like every host write, held to R79 and R247. -/
def hostPad (slot : Slot) (inp : PadInput) (s : State) : Host.Outcome State Fault Refusal :=
  padInto s.writeRefusal slot inp s

/-- The padding step of `l.run` (R198), which has found at its call that the previous run has ended (R247). -/
def hostLayerPad (inp : PadInput) (s : State) : Host.Outcome State Fault Refusal :=
  match s.layer with
  | none => .fault .layerUnconfigured
  | some l => padInto (s.runPadRefusal l) l.pin inp s

/-! ## The routines -/

/-- The first failing check of the kernels, in CFG semantics on a scratch table carried from one to the next (R195). -/
def validateKernels (memSize : Nat) (t : TdTable) : List Kernel → Option Err
  | [] => none
  | k :: ks =>
    match k.checks .cfg memSize false t with
    | .error e => some e
    | .ok t' => validateKernels memSize t' ks

/-- What `l.validate` returns: 0 for OK, else the first failing check in the form of `ERRINFO` (R195). -/
def validateWord (s : State) (l : Layer) : Word :=
  match validateKernels s.params.memSize s.td (l.kernels (l.window s.draws s.td)) with
  | none => 0
  | some e => e.word

/-- `l.validate` (R195): pure; only the host learns the answer. -/
def hostValidate (l : Layer) (s : State) : State := { s with lresult := validateWord s l, draws := s.draws + 1 }

/-- `l.configure` (R196), called once (R191). -/
def hostConfigure (l : Layer) (s : State) : Host.Outcome State Fault Refusal :=
  if s.lstate = .unconfigured then
    .next { s with script := l.configureScript (l.window s.draws s.td) ++ s.script, draws := s.draws + 1 }
  else .refused .layerPrecondition

/-- The end of `l.configure` (R196); `LSTATE` moves only from UNCONFIGURED (R191). -/
def hostConfigured (l : Layer) (s : State) : State :=
  if s.err then { s with lresult := s.errInfo }
  else if s.lstate = .unconfigured then
    { s with lstate := .configured, layer := some l, owned := l.owned s.td, lresult := 0 }
  else s

/-- The end of `l.prepare`'s push (R197); `LSTATE` moves only from CONFIGURED (R191). -/
def hostPrepared (s : State) : State :=
  if s.lstate = .configured then { s with lstate := .prepared } else s

/-- `l.prepare` (R197): idempotent, and an execution error on an unconfigured layer (R200). -/
def hostPrepare (s : State) : Host.Outcome State Fault Refusal :=
  match s.lstate, s.layer with
  | .unconfigured, _ => .fault .layerUnconfigured
  | .configured, some l => .next { s with script := l.prepareScript ++ s.script }
  | .configured, none => .fault .layerUnconfigured
  | .prepared, _ => .next s

/-- `l.run` (R198): its lines go into the host's script. One of them writes `pin`, which is allowed only after the previous run
has ended (R247). DESIGN CHOICE (log 34): the `KW` and `KH` of its `bnorm` are read from
the descriptor of `w` as it stands at the call, which differs from what `l.configure` fixed only if the host has rewritten that
`SHAPE` since (R201 forbids it, R43 performs it). -/
def hostRun (inp : PadInput) (s : State) : Host.Outcome State Fault Refusal :=
  match s.lstate, s.layer with
  | .unconfigured, _ => .fault .layerUnconfigured
  | _, none => .fault .layerUnconfigured
  | _, some l =>
    if s.previousRunEnded l then
      .next { s with script := l.runScript (l.window s.draws s.td) inp ++ s.script, draws := s.draws + 1 }
    else .refused .runNotEnded

/-- The end of `l.run` (R198). -/
def hostRunDone (s : State) : State := { s with lresult := if s.err then s.errInfo else 0 }

end Sys2Proof.Machine
end

