-- ==== Sys2Proof/Machine/HostAgent.lean ====
section
/-! DEFINITION. The host's step: one action of its script (R73, R179). -/

namespace Sys2Proof.Machine

/-- `wr` (R179). -/
def hostWr (off : Nat) (v : Word) (s : State) : Host.Outcome State Fault Refusal :=
  if regAccessOk off then .next (writeReg off v s) else .refused .registerAccess

/-- `rd` (R179): the host receives the value and nothing else changes (R68). -/
def hostRd (off : Nat) (s : State) : Host.Outcome State Fault Refusal :=
  if regAccessOk off then .next { s with rdata := readReg s off } else .refused .registerAccess

/-- A direct host write to tensor memory (R77, R79, R247). -/
def hostMemWrite (a : Nat) (bs : List Byte) (s : State) : Host.Outcome State Fault Refusal :=
  if s.params.memSize < a + bs.length then .fault .noSuchAddress
  else
    match s.writeRefusal a bs.length with
    | some r => .refused r
    | none => .next (s.writeCells (bs.mapIdx fun k b => (a + k, b)))

/-- The byte a host read returns (R78): a draw where a command's writes may not be visible yet, else `MEM[a]`. -/
def hostByte (s : State) (a : Nat) : Byte :=
  if inAny s.unseen a then Config.freeByte s.draws a else s.readByte a

/-- A direct host read of tensor memory (R78). -/
def hostMemRead (a n : Nat) (s : State) : Host.Outcome State Fault Refusal :=
  if s.params.memSize < a + n then .fault .noSuchAddress
  else if touchesAny s.intermediates a n then .refused .intermediateTensor
  else .next { s with mdata := (List.range n).map (fun k => hostByte s (a + k)), draws := s.draws + 1 }

/-- The condition holds of a value of `STATUS` (R104). -/
def StatusCond.holds (c : StatusCond) (v : Word) : Bool :=
  match c with
  | .bits mask value => v &&& mask == value
  | .atMost mask value => decide ((v &&& mask).toNat ≤ value.toNat)
  | .neg c => !c.holds v
  | .both c d => c.holds v && d.holds v
  | .either c d => c.holds v || d.holds v

/-- One poll of a `wait`, which is put back in the script until its condition holds (R104). -/
def hostWait (c : StatusCond) (s : State) : State :=
  if c.holds s.status then { s with rdata := s.status }
  else { s with rdata := s.status, script := .wait c :: s.script }

/-- What an action does, the script holding those after it. -/
def hostAct (a : HostAction) (s : State) : Host.Outcome State Fault Refusal :=
  match a with
  | .wr off v => hostWr off v s
  | .rd off => hostRd off s
  | .otherAccess _ _ => .refused .registerAccess
  | .memWrite a bs => hostMemWrite a bs s
  | .memRead a n => hostMemRead a n s
  | .wait c => .next (hostWait c s)
  | .hardReset => .next (hardReset s)
  | .hostPad slot inp => hostPad slot inp s
  | .lValidate l => .next (hostValidate l s)
  | .lConfigure l => hostConfigure l s
  | .lConfigured l => .next (hostConfigured l s)
  | .lPrepare => hostPrepare s
  | .lPrepared => .next (hostPrepared s)
  | .lRun inp => hostRun inp s
  | .lPad inp => hostLayerPad inp s
  | .lRunDone => .next (hostRunDone s)

/-- The host's step: its next action, or nothing when it has none. -/
def hostStep (s : State) : Host.Outcome State Fault Refusal :=
  match s.script with
  | [] => .next s
  | a :: rest => hostAct a { s with script := rest }

/-- The host has an action it need not wait with. -/
def hostReady (s : State) : Bool :=
  match s.script with
  | [] => false
  | .wait c :: _ => c.holds s.status
  | _ :: _ => true

/-- Which agent moves: the schedule's choice, and with an empty schedule the host whenever it is ready (R73, R256, log 6). -/
def mover (s : State) : Agent :=
  match s.sched with
  | a :: _ => a
  | [] => if hostReady s then .host else .sequencer

end Sys2Proof.Machine
end

