-- ==== Sys2Proof/Machine/Sequencer.lean ====
section
/-! DEFINITION. The sequencer's step (R175), and one step of the whole machine. -/

namespace Sys2Proof.Machine

/-- The sequencer's step (R175): the command at the head is decoded and executed, or ends in the fatal error `E_ILLEGAL` with
the check of R100 it fails. With an empty queue, and in the error state (R217), the sequencer has no step: nothing changes. -/
def sequencerStep (s : State) : Host.Outcome State Fault Refusal :=
  if s.err then .next s
  else
    match s.queue with
    | [] => .next s
    | c :: _ =>
      match decode c with
      | .ok i => exec i s
      | .error e => .next (fatalError (illegalErr e) s.retired c.w0 s)

/-- The schedule's turn is used up. -/
def dropTurn (s : State) : State := { s with sched := s.sched.tail }

/-- One step of the agent whose turn it is (R73). -/
def agentStep (s : State) : Host.Outcome State Fault Refusal :=
  match mover s with
  | .host => hostStep (dropTurn s)
  | .sequencer => sequencerStep (dropTurn s)

/-- The command `c` stands at the head of the queue, in the place of the command there if there is one, and the sequencer
takes the next step; the error state, in which it has no step, is left. -/
def placeCommand (c : Command) (s : State) : State :=
  let q := c :: s.queue.tail
  { s with
    queue := q
    issued := s.retired + BitVec.ofNat 32 q.length
    err := false
    sched := .sequencer :: s.sched }

end Sys2Proof.Machine
end

