-- ==== Sys2Proof/Machine/Step.lean ====
section
/-! DEFINITION. The step of the machine, and the placing of one command where the next step takes it. -/

namespace Sys2Proof.Machine

/-- One step: a host action or a whole command (R6, R73). -/
def step (s : State) : Host.Outcome State Fault Refusal := agentStep s

/-- `s` with the command whose bits are `w` at the head of the queue, so that the next step runs it. It stands for the host's
push (R42, log 5): the block never fetches commands itself (R243). -/
def State.withFetchWord (s : State) (nbits w : Nat) : State := placeCommand (tableCommand nbits w) s

end Sys2Proof.Machine
end

