-- ==== Sys2Proof/Safety.lean ====
section
/-! DEFINITION. What claims speak of: when a run has ended well (R185), when a command's operands are ready (R26, R121, R141,
R156), the arithmetic loops of R128, R145 and R170 as the spec writes them, and the invariants of the machine. Nothing here is
used by the step. -/

namespace Sys2Proof.Safety

open Sys2Proof.Machine

/-! ## The end of a run (R185) -/

/-- The run has ended: `STATUS.IDLE = 1`. -/
def Ended (s : State) : Prop := s.qlen = 0

/-- The run has ended well: also ERR, WPQ and WPN are 0. -/
def EndedWell (s : State) : Prop := s.qlen = 0 ∧ s.err = false ∧ s.wpq = false ∧ s.wpn = false

/-- The next step is a reset event (R240): a hardware reset, or a write to `CTRL` with bit 0 set (R183). -/
def ResetNext (s : State) : Prop :=
  mover s = .host ∧
    ∃ rest, s.script = .hardReset :: rest ∨ ∃ v : Word, v.getLsbD 0 = true ∧ s.script = .wr 0x02C v :: rest

/-! ## Operands ready for a command -/

/-- `WellFormed(td)` of R26, for an operand that must have type `ty`, `row` being the bytes of its last row (R27). -/
def WellFormed (memSize : Nat) (d : Desc) (ty : DType) (row : Nat) : Prop :=
  d.dtype = (match ty with | .f32 => 1#4 | .bit => 2#4)
    ∧ 1 ≤ d.w ∧ d.w ≤ 65535 ∧ 1 ≤ d.h ∧ d.h ≤ 65535 ∧ 1 ≤ d.c ∧ d.c ≤ 65535 ∧ 1 ≤ d.n ∧ d.n ≤ 65535
    ∧ ty.rowBytes d.w ≤ d.s1 ∧ d.h * d.s1 ≤ d.s2 ∧ d.c * d.s2 ≤ d.s3
    ∧ (ty = .f32 → 4 ∣ d.base.toNat ∧ 4 ∣ d.s1 ∧ 4 ∣ d.s2 ∧ 4 ∣ d.s3)
    ∧ d.base.toNat + d.extent row ≤ memSize

/-- An input operand is ready: bound, shaped and well formed (R24, R26). -/
def InputReady (memSize : Nat) (d : Desc) (ty : DType) : Prop :=
  d.bound = true ∧ d.shaped = true ∧ WellFormed memSize d ty (ty.rowBytes d.w)

/-- The source of a `BSIGN` is ready: its rows are padded for the fetch of whole groups (R27, R67, R121 check 21). -/
def SourceReady (memSize : Nat) (d : Desc) : Prop :=
  d.bound = true ∧ d.shaped = true ∧ WellFormed memSize d .f32 (fetchRowBytes d.w) ∧ fetchRowBytes d.w ≤ d.s1

/-- The bytes of a dense tensor (R181). -/
def denseBytes (ty : DType) (sh : Shape) : Nat := ty.rowBytes sh.e0 * sh.e1 * sh.e2 * sh.e3

/-- An output operand is ready for derived shape `sh`: shaped exactly so, or, in CFG and VAL mode, unshaped with room for the
dense tensor (R24, R121 steps 7 and 8, R181). -/
def OutputReady (m : Mode) (memSize : Nat) (d : Desc) (ty : DType) (sh : Shape) : Prop :=
  d.bound = true ∧
    ((d.shaped = true ∧ WellFormed memSize d ty (ty.rowBytes d.w) ∧ d.shape = sh)
      ∨ (d.shaped = false ∧ m ≠ .exec ∧ (ty = .f32 → 4 ∣ d.base.toNat)
          ∧ ty.rowBytes sh.e0 * sh.e1 * sh.e2 < 2 ^ 32 ∧ d.base.toNat + denseBytes ty sh ≤ memSize))

/-- The interval of an input operand (R27). -/
def inputRange (d : Desc) (ty : DType) : Interval := d.span (ty.rowBytes d.w)

/-- The interval of the source of a `BSIGN` (R27). -/
def sourceRange (d : Desc) : Interval := d.span (fetchRowBytes d.w)

/-- The interval of an output operand, as it is or as it will be shaped (R27, R181). -/
def outputRange (d : Desc) (ty : DType) (sh : Shape) : Interval :=
  if d.shaped then d.span (ty.rowBytes d.w) else ⟨d.base.toNat, d.base.toNat + denseBytes ty sh⟩

/-- Two intervals share no byte. -/
def Apart (i j : Interval) : Prop := i.hi ≤ j.lo ∨ j.hi ≤ i.lo

/-- The derived shape of packed signs (R120). -/
def packedShape (src : Desc) : Shape := ⟨src.w, src.h, src.c, src.n⟩
/-- The derived shape of alpha (R120). -/
def alphaShape (src : Desc) : Shape := ⟨src.n, 1, 1, 1⟩
/-- The derived shape of beta (R120). -/
def betaShape (src : Desc) : Shape := ⟨src.w, src.h, 1, src.n⟩

/-- The operands of a `BSIGN*` are ready in mode `m`; `a` and `b` are its flags (R120, R121, R182). -/
def BsignReady (m : Mode) (a b : Bool) (s : State) (sa sb sc sd : Slot) : Prop :=
  let src := s.tdAt sa
  let pk := outputRange (s.tdAt sb) .bit (packedShape src)
  let al := outputRange (s.tdAt sc) .f32 (alphaShape src)
  let be := outputRange (s.tdAt sd) .f32 (betaShape src)
  SourceReady s.params.memSize src
    ∧ src.w * src.h * src.c ≤ 2 ^ 31 - 1
    ∧ OutputReady m s.params.memSize (s.tdAt sb) .bit (packedShape src)
    ∧ (a = true → OutputReady m s.params.memSize (s.tdAt sc) .f32 (alphaShape src))
    ∧ (b = true → OutputReady m s.params.memSize (s.tdAt sd) .f32 (betaShape src))
    ∧ Apart pk (sourceRange src)
    ∧ (a = true → Apart al (sourceRange src) ∧ Apart al pk)
    ∧ (b = true → Apart be (sourceRange src) ∧ Apart be pk)
    ∧ (a = true → b = true → Apart al be)

/-- OW or OH of R140: the padded size less the window, over the stride, rounded down, plus 1. -/
def normSize (size before after window stride : Nat) : Nat := (size + before + after - window) / stride + 1

/-- The derived shape of K (R140). -/
def normShape (b : Desc) (win : Window) : Shape :=
  ⟨normSize b.w win.pl.toNat win.pr.toNat win.kw.toNat win.sx.toNat,
   normSize b.h win.pt.toNat win.pb.toNat win.kh.toNat win.sy.toNat, 1, b.n⟩

/-- The operands and the window of a `BNORM` are ready in mode `m`, the hazard aside (R140, R141 steps 2 to 9). -/
def BnormReady (m : Mode) (s : State) (sa sb : Slot) (win : Window) : Prop :=
  let b := s.tdAt sa
  1 ≤ win.kw.toNat ∧ 1 ≤ win.kh.toNat ∧ 1 ≤ win.sx.toNat ∧ 1 ≤ win.sy.toNat
    ∧ InputReady s.params.memSize b .f32 ∧ b.c = 1
    ∧ win.kw.toNat ≤ b.w + win.pl.toNat + win.pr.toNat ∧ win.kh.toNat ≤ b.h + win.pt.toNat + win.pb.toNat
    ∧ OutputReady m s.params.memSize (s.tdAt sb) .f32 (normShape b win)
    ∧ Apart (outputRange (s.tdAt sb) .f32 (normShape b win)) (inputRange b .f32)

/-- OW or OH of R155. -/
def convSize (size window stride : Nat) : Nat := (size - window) / stride + 1

/-- The derived shape of the convolution's output (R155). -/
def convShape (act wts : Desc) (sx sy : Byte) : Shape :=
  ⟨convSize act.w wts.w sx.toNat, convSize act.h wts.h sy.toNat, wts.n, act.n⟩

/-- The operands of a `BCONV*` are ready in mode `m`; `bias` is its flag (R155, R156). -/
def BconvReady (m : Mode) (bias : Bool) (s : State) (sa sb sc sd se sf : Slot) (sx sy : Byte) : Prop :=
  let act := s.tdAt sa
  let wts := s.tdAt sb
  let out := outputRange (s.tdAt sf) .f32 (convShape act wts sx sy)
  1 ≤ sx.toNat ∧ 1 ≤ sy.toNat
    ∧ InputReady s.params.memSize act .bit ∧ InputReady s.params.memSize wts .bit
    ∧ (bias = true → InputReady s.params.memSize (s.tdAt sc) .f32)
    ∧ InputReady s.params.memSize (s.tdAt sd) .f32 ∧ InputReady s.params.memSize (s.tdAt se) .f32
    ∧ act.c = wts.c ∧ wts.w ≤ act.w ∧ wts.h ≤ act.h ∧ wts.w * wts.h * act.c ≤ 2 ^ 31 - 1
    ∧ (bias = true → (s.tdAt sc).shape = ⟨wts.n, 1, 1, 1⟩)
    ∧ (s.tdAt sd).shape = ⟨wts.n, 1, 1, 1⟩
    ∧ (s.tdAt se).shape = ⟨convSize act.w wts.w sx.toNat, convSize act.h wts.h sy.toNat, 1, act.n⟩
    ∧ OutputReady m s.params.memSize (s.tdAt sf) .f32 (convShape act wts sx sy)
    ∧ Apart out (inputRange act .bit) ∧ Apart out (inputRange wts .bit)
    ∧ Apart out (inputRange (s.tdAt sd) .f32) ∧ Apart out (inputRange (s.tdAt se) .f32)
    ∧ (bias = true → Apart out (inputRange (s.tdAt sc) .f32))

/-! ## The state a command that completes leaves, but for memory and descriptors -/

/-- The command has retired and, of the block's registers, only `RETIRED` and the queue have changed (R175, R176): every
other register, every error and validation register, the staging registers, and everything of the host are as before. -/
structure RetiredOnly (s t : State) : Prop where
  queue : t.queue = s.queue.tail
  retired : t.retired = s.retired + 1
  issued : t.issued = s.issued
  err : t.err = s.err
  errInfo : t.errInfo = s.errInfo
  errCmd : t.errCmd = s.errCmd
  errW0 : t.errW0 = s.errW0
  vstat : t.vstat = s.vstat
  vcmd : t.vcmd = s.vcmd
  cmdw0 : t.cmdw0 = s.cmdw0
  cmdw1 : t.cmdw1 = s.cmdw1
  cmdw2 : t.cmdw2 = s.cmdw2
  cmdw3 : t.cmdw3 = s.cmdw3
  params : t.params = s.params
  discarded : t.discarded = s.discarded
  memDraw : t.memDraw = s.memDraw
  script : t.script = s.script
  sched : t.sched = s.sched
  rdata : t.rdata = s.rdata
  mdata : t.mdata = s.mdata
  lstate : t.lstate = s.lstate
  layer : t.layer = s.layer
  owned : t.owned = s.owned
  lresult : t.lresult = s.lresult

/-- The descriptor of an output after CFG mode: unchanged when it was shaped, else the derived type and shape with dense
strides, `BASE` and `BOUND` as they were (R29, R122, R181). -/
def Configured (d d' : Desc) (ty : DType) (sh : Shape) : Prop :=
  if d.shaped then d' = d
  else
    d'.base = d.base ∧ d'.bound = d.bound ∧ d'.shaped = true ∧ d'.dtype = (match ty with | .f32 => 1#4 | .bit => 2#4)
      ∧ d'.shape = sh ∧ d'.s1 = ty.rowBytes sh.e0 ∧ d'.s2 = ty.rowBytes sh.e0 * sh.e1
      ∧ d'.s3 = ty.rowBytes sh.e0 * sh.e1 * sh.e2

/-! ## Written bytes (R70) -/

/-- Address `a` is a byte of an element of an F32 tensor of shape `sh` laid out by `d`. -/
def ElementByte (d : Desc) (sh : Shape) (a : Nat) : Prop :=
  ∃ x y c n k, x < sh.e0 ∧ y < sh.e1 ∧ c < sh.e2 ∧ n < sh.e3 ∧ k < 4 ∧ a = d.addrF32 x y c n + k

/-- Address `a` is one of the `ceil8(SHAPE[0])` bytes of a row of a BIT tensor of shape `sh` laid out by `d`. -/
def PackedByteAt (d : Desc) (sh : Shape) (a : Nat) : Prop :=
  ∃ g y c n, g < ceil8 sh.e0 ∧ y < sh.e1 ∧ c < sh.e2 ∧ n < sh.e3 ∧ a = d.addrByte g y c n

/-! ## The arithmetic as the spec's loops write it -/

/-- A quiet NaN (R14). -/
def QuietNaN (x : Word) : Prop := f32IsNaN x = true ∧ x.getLsbD 22 = true

/-- `for i in 0..n-1: acc <- f acc i`. -/
def loop (n : Nat) (acc : Word) (f : Word → Nat → Word) : Word := (List.range n).foldl f acc

/-- `asum_n` of R126 and R128. -/
def alphaSum (nan : Word) (s : State) (src : Desc) (n : Nat) : Word :=
  loop src.c 0 fun acc c => loop src.h acc fun acc y => loop src.w acc fun acc x =>
    fadd32 nan acc (fabs32 (s.getF32 src x y c n))

/-- `bsum` of R127 and R128. -/
def betaSum (nan : Word) (s : State) (src : Desc) (x y n : Nat) : Word :=
  loop src.c 0 fun acc c => fadd32 nan acc (fabs32 (s.getF32 src x y c n))

/-- `Tap(u, v, n)` of R144, the coordinates integers. -/
def tapAt (s : State) (b : Desc) (u v : Int) (n : Nat) : Word :=
  if 0 ≤ u ∧ u < b.w ∧ 0 ≤ v ∧ v < b.h then s.getF32 b u.toNat v.toNat 0 n else 0

/-- `acc` at the end of the inner loops of R145. -/
def normSum (nan : Word) (s : State) (b : Desc) (win : Window) (ox oy n : Nat) : Word :=
  let r := fdiv32 nan 0x3F800000 (cvtU32 (win.kw.toNat * win.kh.toNat))
  loop win.kh.toNat 0 fun acc j => loop win.kw.toNat acc fun acc i =>
    fadd32 nan acc
      (fmul32 nan (tapAt s b ((ox * win.sx.toNat + i : Nat) - (win.pl.toNat : Int))
        ((oy * win.sy.toNat + j : Nat) - (win.pt.toNat : Int)) n) r)

/-- The sum over the receptive field, in the order of R170, of an integer for each pair of bits. -/
def fieldSum (s : State) (act wts : Desc) (sx sy : Nat) (ox oy oc n : Nat) (f : Bool → Bool → Int) : Int :=
  (List.range act.c).foldl (fun acc c => (List.range wts.h).foldl (fun acc j => (List.range wts.w).foldl (fun acc i =>
    acc + f (s.getBit act (ox * sx + i) (oy * sy + j) c n) (s.getBit wts i j c oc)) acc) acc) 0

/-- `M` of R159 and R170, an integer. -/
def matchSum (s : State) (act wts : Desc) (sx sy : Nat) (ox oy oc n : Nat) : Int :=
  fieldSum s act wts sx sy ox oy oc n fun p q => if p = q then 1 else 0

/-- `sgn(bit)` of R166. -/
def sgn (b : Bool) : Int := if b then 1 else -1

/-! ## Illegal commands (R100) -/

/-- OPC, as a number (R91). -/
def opcNumber (c : Command) : Nat := c.w0.toNat % 256

/-- MODE, as a number (R91). -/
def modeNumber (c : Command) : Nat := c.w0.toNat / 256 % 4

/-- Bit `k` of FLAGS (R91, R97). -/
def flagBit (c : Command) (k : Nat) : Nat := c.w0.toNat / 2 ^ (10 + k) % 2

/-- The 4-bit slot `k` of word 1, SA being 0 (R92). -/
def slotNumber (c : Command) (k : Nat) : Nat := c.w1.toNat / 2 ^ (4 * k) % 16

/-- The opcode defines flag bit `k` (R97). -/
def FlagDefined (c : Command) (k : Nat) : Prop := (opcNumber c = 0x10 ∧ k < 2) ∨ (opcNumber c = 0x12 ∧ k = 0)

/-- The opcode and its flags use slot `k` (R98). -/
def SlotUsed (c : Command) (k : Nat) : Prop :=
  (opcNumber c = 0x10 ∧ (k < 2 ∨ (k = 2 ∧ flagBit c 0 = 1) ∨ (k = 3 ∧ flagBit c 1 = 1)))
    ∨ (opcNumber c = 0x11 ∧ k < 2)
    ∨ (opcNumber c = 0x12 ∧ k < 6 ∧ (k = 2 → flagBit c 0 = 1))

/-- Check 1 fails. -/
def BadOpcode (c : Command) : Prop := opcNumber c ∉ [0x01, 0x02, 0x10, 0x11, 0x12]

/-- Check 2 fails. -/
def BadMode (c : Command) : Prop := modeNumber c = 3 ∨ (modeNumber c ≠ 0 ∧ opcNumber c ∈ [0x01, 0x02])

/-- Check 3 fails: some must-be-zero field is not 0. -/
def BadField (c : Command) : Prop :=
  c.w0.toNat / 2 ^ 16 ≠ 0 ∨ c.w1.toNat / 2 ^ 24 ≠ 0
    ∨ (∃ k ∈ List.range 6, ¬FlagDefined c k ∧ flagBit c k ≠ 0)
    ∨ (∃ k ∈ List.range 6, ¬SlotUsed c k ∧ slotNumber c k ≠ 0)
    ∨ (opcNumber c ≠ 0x11 ∧ c.w2.toNat % 2 ^ 16 ≠ 0)
    ∨ (opcNumber c ≠ 0x11 ∧ opcNumber c ≠ 0x12 ∧ c.w2.toNat / 2 ^ 16 ≠ 0)
    ∨ (opcNumber c ≠ 0x11 ∧ c.w3.toNat ≠ 0)

/-- The first of checks 1 to 3 that a command fails is `k` (R100). -/
def FailsCheck (c : Command) (k : Nat) : Prop :=
  (BadOpcode c ∧ k = 1) ∨ (¬BadOpcode c ∧ BadMode c ∧ k = 2) ∨ (¬BadOpcode c ∧ ¬BadMode c ∧ BadField c ∧ k = 3)

/-! ## Commands that execute normally, and errors -/

/-- Everything the checks of a command ask for holds (R121, R141, R156). -/
def Ready (s : State) (i : Instr) : Prop :=
  match kernelOf i with
  | none => True
  | some (m, .bsign a b sa sb sc sd) => BsignReady m a b s sa sb sc sd
  | some (m, .bnorm sa sb win) => BnormReady m s sa sb win ∧ (m = .exec → s.wpq = false)
  | some (m, .bconv bias sa sb sc sd se sf sx sy) => BconvReady m bias s sa sb sc sd se sf sx sy

/-- An error in the form of `ERRINFO` and `VSTAT` (R37, R39). -/
def errWord (code chk td : Nat) : Word := BitVec.ofNat 32 (code + chk * 256 + td * 65536)

/-- The state a fatal error raised by a command with word 0 `w0` leaves, as R217 writes it: the record of the first error,
then the queue emptied; which commands it held is the model's record (log 32). -/
def failed (s : State) (info w0 : Word) : State :=
  { s with
    err := true
    errInfo := if s.err then s.errInfo else info
    errCmd := if s.err then s.errCmd else s.retired
    errW0 := if s.err then s.errW0 else w0
    queue := []
    issued := s.retired
    discarded := s.discarded ++ s.queue }

/-- The state a failing VAL-mode command leaves (R220): the report of the first failure, and the command retired. -/
def reported (s : State) (info : Word) : State :=
  { s with
    vstat := if s.vstat.toNat % 256 = 0 then info else s.vstat
    vcmd := if s.vstat.toNat % 256 = 0 then s.retired else s.vcmd
    queue := s.queue.tail
    retired := s.retired + 1 }

/-- The state a command that only retires leaves (R177). -/
def retiredOnly (s : State) : State := { s with queue := s.queue.tail, retired := s.retired + 1 }

/-- The pairs of code and check a kernel command can raise in a mode (R212, R214). -/
def raises (m : Mode) : Kernel → List (Nat × Nat)
  | .bsign a .. => common m ++ [(4, 21)] ++ if a then [(3, 20)] else []
  | .bnorm .. => common m ++ [(3, 4), (3, 22), (3, 23)] ++ if m = .exec then [(8, 40)] else []
  | .bconv bias .. =>
    common m ++ [(3, 4), (3, 20), (3, 23), (3, 24), (3, 26), (3, 27)] ++ if bias then [(3, 25)] else []
where
  /-- The checks every kernel command makes of its operands. -/
  common (m : Mode) : List (Nat × Nat) :=
    [(1, 10), (2, 13), (3, 14), (3, 15), (7, 16), (7, 17), (7, 18), (3, 19)]
      ++ if m = .exec then [(5, 12)] else [(1, 11)]

/-- Code and check of the first check of R180 that an operand fails; `none` when it passes. -/
def operandError (m : Mode) (memSize : Nat) (d : Desc) (o : Operand) : Option (Nat × Nat) :=
  let row := if o.fetch then 32 * ((d.w + 7) / 8) else match o.ty with | .f32 => 4 * d.w | .bit => (d.w + 7) / 8
  if d.bound = false then some (1, 10)
  else if d.shaped = false then
    if m = .exec then some (5, 12) else if o.role = .input then some (1, 11) else none
  else if d.dtype ≠ (match o.ty with | .f32 => 1#4 | .bit => 2#4) then some (2, 13)
  else if ∃ e ∈ [d.w, d.h, d.c, d.n], e < 1 ∨ 65535 < e then some (3, 14)
  else if d.s1 < (match o.ty with | .f32 => 4 * d.w | .bit => (d.w + 7) / 8) ∨ d.s2 < d.h * d.s1 ∨ d.s3 < d.c * d.s2
      ∨ (o.ty = .f32 ∧ ∃ e ∈ [d.s1, d.s2, d.s3], e % 4 ≠ 0) then some (3, 15)
  else if o.ty = .f32 ∧ d.base.toNat % 4 ≠ 0 then some (7, 16)
  else if o.fetch = true ∧ d.s1 < 32 * ((d.w + 7) / 8) then some (4, 21)
  else if memSize < d.base.toNat + ((d.n - 1) * d.s3 + (d.c - 1) * d.s2 + (d.h - 1) * d.s1 + row) then some (7, 17)
  else none

/-- Check 4: the window and the strides of a command are at least 1 (R141 step 2, R156 step 2). -/
def WindowOk : Kernel → Prop
  | .bsign .. => True
  | .bnorm _ _ win => win.kw ≠ 0 ∧ win.kh ≠ 0 ∧ win.sx ≠ 0 ∧ win.sy ≠ 0
  | .bconv _ _ _ _ _ _ _ sx sy => sx ≠ 0 ∧ sy ≠ 0

/-! ## The checks after `CheckOperand` (R121 steps 6 to 9, R141 steps 5 to 10, R156 steps 6 to 13) -/

/-- A check of a command whose operands all pass `CheckOperand`: the condition it asks for, and the code, the check number and
the descriptor it reports. -/
structure LaterCheck where
  passes : Prop
  code : Nat
  chk : Nat
  td : Slot

/-- The input operands' intervals (R27). -/
def inputRanges (s : State) : Kernel → List Interval
  | .bsign _ _ sa _ _ _ => [sourceRange (s.tdAt sa)]
  | .bnorm sa _ _ => [inputRange (s.tdAt sa) .f32]
  | .bconv bias sa sb sc sd se _ _ _ =>
    [inputRange (s.tdAt sa) .bit, inputRange (s.tdAt sb) .bit]
      ++ (if bias then [inputRange (s.tdAt sc) .f32] else [])
      ++ [inputRange (s.tdAt sd) .f32, inputRange (s.tdAt se) .f32]

/-- The outputs with their derived types and shapes, in slot order (R120, R140, R155). -/
def derivedOutputs (s : State) : Kernel → List Derived
  | .bsign a b sa sb sc sd =>
    [⟨sb, .bit, packedShape (s.tdAt sa)⟩]
      ++ (if a then [⟨sc, .f32, alphaShape (s.tdAt sa)⟩] else [])
      ++ (if b then [⟨sd, .f32, betaShape (s.tdAt sa)⟩] else [])
  | .bnorm sa sb win => [⟨sb, .f32, normShape (s.tdAt sa) win⟩]
  | .bconv _ sa sb _ _ _ sf sx sy => [⟨sf, .f32, convShape (s.tdAt sa) (s.tdAt sb) sx sy⟩]

/-- The checks that relate the operands to each other (R121 step 6, R141 steps 5 and 6, R156 steps 6 to 11). -/
def fittingChecks (s : State) : Kernel → List LaterCheck
  | .bsign _ _ sa _ _ _ => [⟨(s.tdAt sa).w * (s.tdAt sa).h * (s.tdAt sa).c ≤ 2 ^ 31 - 1, 3, 20, sa⟩]
  | .bnorm sa _ win =>
    [⟨(s.tdAt sa).c = 1, 3, 22, sa⟩,
     ⟨win.kw.toNat ≤ (s.tdAt sa).w + win.pl.toNat + win.pr.toNat
        ∧ win.kh.toNat ≤ (s.tdAt sa).h + win.pt.toNat + win.pb.toNat, 3, 23, sa⟩]
  | .bconv bias sa sb sc sd se _ sx sy =>
    let act := s.tdAt sa
    let wts := s.tdAt sb
    [⟨act.c = wts.c, 3, 24, sb⟩, ⟨wts.w ≤ act.w ∧ wts.h ≤ act.h, 3, 23, sb⟩,
     ⟨wts.w * wts.h * act.c ≤ 2 ^ 31 - 1, 3, 20, sb⟩]
      ++ (if bias then [⟨(s.tdAt sc).shape = ⟨wts.n, 1, 1, 1⟩, 3, 25, sc⟩] else [])
      ++ [⟨(s.tdAt sd).shape = ⟨wts.n, 1, 1, 1⟩, 3, 26, sd⟩,
          ⟨(s.tdAt se).shape = ⟨convSize act.w wts.w sx.toNat, convSize act.h wts.h sy.toNat, 1, act.n⟩, 3, 27, se⟩]

/-- Check 19 of each output, then the checks 16 and 17 `AutoShape` makes of each unshaped one, then check 18 of each, all in
slot order (R121 steps 7 to 9, R141 steps 7 to 9, R156 steps 12 and 13, R181, R182). A descriptor that two outputs name is
auto-sized once, for the first of them (log 13). -/
def outputChecks (s : State) (k : Kernel) : List LaterCheck :=
  let outs := derivedOutputs s k
  let range (o : Derived) : Interval :=
    let f := (outs.find? fun p => p.slot == o.slot).getD o
    outputRange (s.tdAt o.slot) f.ty f.shape
  let isNew (o : Derived) (j : Nat) : Prop := (s.tdAt o.slot).shaped = false ∧ ∀ p ∈ outs.take j, p.slot ≠ o.slot
  outs.map (fun o => ⟨(s.tdAt o.slot).shaped = true → (s.tdAt o.slot).shape = o.shape, 3, 19, o.slot⟩)
    ++ outs.zipIdx.flatMap (fun (o, j) =>
      [⟨isNew o j → o.ty = .f32 → 4 ∣ (s.tdAt o.slot).base.toNat, 7, 16, o.slot⟩,
       ⟨isNew o j → o.ty.rowBytes o.shape.e0 * o.shape.e1 * o.shape.e2 < 2 ^ 32
          ∧ (s.tdAt o.slot).base.toNat + denseBytes o.ty o.shape ≤ s.params.memSize, 7, 17, o.slot⟩])
    ++ outs.zipIdx.map (fun (o, j) =>
      ⟨∀ r ∈ inputRanges s k ++ (outs.eraseIdx j).map range, Apart (range o) r, 7, 18, o.slot⟩)

/-- The hazard check of `BNORM` in EXEC mode (R147, R141 step 10). -/
def hazardChecks (m : Mode) (s : State) : Kernel → List LaterCheck
  | .bsign .. => []
  | .bnorm sa _ _ => [⟨m = .exec → s.wpq = false, 8, 40, sa⟩]
  | .bconv .. => []

/-- Every check of a command after `CheckOperand`, in order. -/
def laterChecks (m : Mode) (s : State) (k : Kernel) : List LaterCheck :=
  fittingChecks s k ++ outputChecks s k ++ hazardChecks m s k

/-- A host access raised a fatal error (R217, R213): the record, the queue emptied, and no byte changed outside the output
intervals of the command at the head, which may be executing. -/
structure Abandoned (s t : State) (info w0 : Word) : Prop where
  err : t.err = true
  errInfo : t.errInfo = info
  errCmd : t.errCmd = s.issued
  errW0 : t.errW0 = w0
  queue : t.queue = []
  discarded : t.discarded = s.discarded ++ s.queue
  issued : t.issued = s.retired
  retired : t.retired = s.retired
  wpq : t.wpq = s.wpq
  wpn : t.wpn = s.wpn
  vstat : t.vstat = s.vstat
  vcmd : t.vcmd = s.vcmd
  cmdw0 : t.cmdw0 = s.cmdw0
  cmdw1 : t.cmdw1 = s.cmdw1
  cmdw2 : t.cmdw2 = s.cmdw2
  td : t.td = s.td
  params : t.params = s.params
  mem : ∀ a, inAny (queuedOutputs s (s.queue.take 1)) a = false → t.readByte a = s.readByte a

/-! ## What the kernel commands leave -/

/-- What a `BSIGN*` in EXEC mode leaves (R123 to R128, R70, R45); `a` and `b` are its flags. A cell whose value is a NaN is
some quiet NaN. -/
structure BsignDone (a b : Bool) (s t : State) (sa sb sc sd : Slot) : Prop where
  rest : RetiredOnly s t
  td : t.td = s.td
  wpq : t.wpq = true
  wpn : t.wpn = s.wpn
  signs : ∀ x y c n, x < (s.tdAt sa).w → y < (s.tdAt sa).h → c < (s.tdAt sa).c → n < (s.tdAt sa).n →
    t.getBit (s.tdAt sb) x y c n
      = decide (1 ≤ (s.getF32 (s.tdAt sa) x y c n).toNat ∧ (s.getF32 (s.tdAt sa) x y c n).toNat ≤ 0x7F800000)
  alpha : a = true → ∀ n < (s.tdAt sa).n, ∃ nan, QuietNaN nan ∧
    t.getF32 (s.tdAt sc) n 0 0 0
      = fdiv32 nan (alphaSum nan s (s.tdAt sa) n) (cvtU32 ((s.tdAt sa).w * (s.tdAt sa).h * (s.tdAt sa).c))
  beta : b = true → ∀ x y n, x < (s.tdAt sa).w → y < (s.tdAt sa).h → n < (s.tdAt sa).n → ∃ nan, QuietNaN nan ∧
    t.getF32 (s.tdAt sd) x y 0 n = fdiv32 nan (betaSum nan s (s.tdAt sa) x y n) (cvtU32 (s.tdAt sa).c)
  others : ∀ adr, ¬PackedByteAt (s.tdAt sb) (packedShape (s.tdAt sa)) adr →
    (a = true → ¬ElementByte (s.tdAt sc) (alphaShape (s.tdAt sa)) adr) →
    (b = true → ¬ElementByte (s.tdAt sd) (betaShape (s.tdAt sa)) adr) → t.readByte adr = s.readByte adr

/-- What a `BNORM` in EXEC mode leaves (R145, R70, R45). -/
structure BnormDone (s t : State) (sa sb : Slot) (win : Window) : Prop where
  rest : RetiredOnly s t
  td : t.td = s.td
  wpq : t.wpq = s.wpq
  wpn : t.wpn = true
  cells : ∀ ox oy n, ox < (normShape (s.tdAt sa) win).e0 → oy < (normShape (s.tdAt sa) win).e1 → n < (s.tdAt sa).n →
    ∃ nan, QuietNaN nan ∧ t.getF32 (s.tdAt sb) ox oy 0 n = normSum nan s (s.tdAt sa) win ox oy n
  others : ∀ adr, ¬ElementByte (s.tdAt sb) (normShape (s.tdAt sa) win) adr → t.readByte adr = s.readByte adr

/-- The rescaling of R162 of the number of matching bits `M` of `T`. -/
def rescaled (nan : Word) (m : Int) (t : Nat) (alpha k : Word) (bias : Option Word) : Word :=
  let o2 := fmul32 nan (fmul32 nan (cvtS32 (2 * m - t)) alpha) k
  match bias with
  | none => o2
  | some b => fadd32 nan o2 b

/-- What a `BCONV*` in EXEC mode leaves (R159, R162, R170, R168, R45); `bias` is its flag. -/
structure BconvDone (bias : Bool) (s t : State) (sa sb sc sd se sf : Slot) (sx sy : Byte) : Prop where
  rest : RetiredOnly s t
  td : t.td = s.td
  wpq : t.wpq = true
  wpn : t.wpn = s.wpn
  cells : ∀ ox oy oc n, ox < (convShape (s.tdAt sa) (s.tdAt sb) sx sy).e0 →
    oy < (convShape (s.tdAt sa) (s.tdAt sb) sx sy).e1 → oc < (s.tdAt sb).n → n < (s.tdAt sa).n →
    ∃ nan, QuietNaN nan ∧ t.getF32 (s.tdAt sf) ox oy oc n
      = rescaled nan (matchSum s (s.tdAt sa) (s.tdAt sb) sx.toNat sy.toNat ox oy oc n)
          ((s.tdAt sb).w * (s.tdAt sb).h * (s.tdAt sa).c) (s.getF32 (s.tdAt sd) oc 0 0 0)
          (s.getF32 (s.tdAt se) ox oy 0 n) (if bias then some (s.getF32 (s.tdAt sc) oc 0 0 0) else none)
  others : ∀ adr, ¬ElementByte (s.tdAt sf) (convShape (s.tdAt sa) (s.tdAt sb) sx sy) adr →
    t.readByte adr = s.readByte adr

/-- What a kernel command in CFG mode leaves unchanged (R96, R176): all of memory, both pending bits, and every descriptor
but those of `outs`. -/
structure CfgDone (s t : State) (outs : List Slot) : Prop where
  rest : RetiredOnly s t
  mem : ∀ adr, t.readByte adr = s.readByte adr
  wpq : t.wpq = s.wpq
  wpn : t.wpn = s.wpn
  others : ∀ i, i ∉ outs → t.tdAt i = s.tdAt i

/-! ## Floats -/

/-- A finite binary32. -/
def IsFinite (x : Word) : Prop := f32Exp x ≠ 255

/-- The least magnitude, in units of 2^-149, that rounds to infinity. -/
def overflowBound : Nat := (2 ^ 25 - 1) * 2 ^ 252

/-- `r` is the finite binary32 nearest to `num / den` units of 2^-149, the one with the even last bit on a tie. -/
def Nearest (r : Word) (num den : Int) : Prop :=
  IsFinite r
    ∧ (∀ z, IsFinite z → |f32Val r * den - num| ≤ |f32Val z * den - num|)
    ∧ ∀ z, IsFinite z → |f32Val r * den - num| = |f32Val z * den - num| → f32Val z ≠ f32Val r → r.getLsbD 0 = false

/-! ## The layer -/

/-- The four commands `l.configure` pushes (R196). -/
def layerCommands (l : Layer) (win : Window) : List Instr :=
  [.bsignACfg l.w l.bw l.al, .bsignBCfg l.pin l.bin l.be, .bnormCfg l.be l.kk win,
   match l.bias with
   | none => .bconvCfg l.bin l.bw l.al l.kk l.out l.sx l.sy
   | some b => .bconvBCfg l.bin l.bw b l.al l.kk l.out l.sx l.sy]

/-- The commands `l.run` pushes after the padding step (R198). -/
def runCommands (l : Layer) (win : Window) : List Instr :=
  [.bsignBExec l.pin l.bin l.be, .sync, .bnormExec l.be l.kk win,
   match l.bias with
   | none => .bconvExec l.bin l.bw l.al l.kk l.out l.sx l.sy
   | some b => .bconvBExec l.bin l.bw b l.al l.kk l.out l.sx l.sy,
   .sync]

/-- A line of R104 that the host pushes when the queue has room (R198): `wait QFULL = 0` and the four register writes. -/
def pushLine (i : Instr) : List HostAction :=
  [.wait (.bits 0x10 0x0), .wr 0x030 (encode i).w0, .wr 0x034 (encode i).w1, .wr 0x038 (encode i).w2,
   .wr 0x03C (encode i).w3]

/-- The window of the layer's `BNORM` is the kernel's size where that fits the fields (R192, R196), with the layer's strides and
no padding (R148). -/
def LayerWindow (l : Layer) (t : TdTable) (win : Window) : Prop :=
  ((t.at l.w).w ≤ 255 → win.kw.toNat = (t.at l.w).w) ∧ ((t.at l.w).h ≤ 255 → win.kh.toNat = (t.at l.w).h)
    ∧ win.sx = l.sx ∧ win.sy = l.sy ∧ win.pl = 0 ∧ win.pr = 0 ∧ win.pt = 0 ∧ win.pb = 0

/-- Nothing is queued, and no output waits for a `SYNC`, but for the `BSIGN.A` of the weights that R198 lets `l.prepare` push
right before the padding step. -/
def OnlyPreparePending (s : State) (l : Layer) : Prop :=
  s.wpn = false ∧ (∀ c ∈ s.queue, c = encode (.bsignAExec l.w l.bw l.al))
    ∧ (s.wpq = true → ∀ i ∈ s.unsynced, i ∈ s.owned.weights)

/-- The previous run of layer `l` has ended (R247): R245's condition, but for that `BSIGN.A`. -/
def PreviousRunEnded (s : State) (l : Layer) : Prop := s.err = false ∧ OnlyPreparePending s l

/-- Address `a` lies in `[BASE, BASE + Extent)` of a bound, shaped descriptor of type F32 or BIT (R25, R27). -/
def InTensor (d : Desc) (a : Nat) : Prop :=
  d.bound = true ∧ d.shaped = true ∧ ∃ row, ((d.dtype = 1 ∧ row = 4 * d.w) ∨ (d.dtype = 2 ∧ row = (d.w + 7) / 8))
    ∧ d.base.toNat ≤ a
    ∧ (a : Int) < d.base.toNat + (((d.n : Int) - 1) * d.s3 + ((d.c : Int) - 1) * d.s2 + ((d.h : Int) - 1) * d.s1 + row)

/-- The descriptor has no storage or no shape, or a type with a row size (R24, R25). -/
def HasRows (d : Desc) : Prop := d.bound = true → d.shaped = true → d.dtype = 1 ∨ d.dtype = 2

/-- Every byte of a tensor in `slots` is guarded by `is`, and, where all of their descriptors have rows, no other byte. -/
def Guards (s : State) (slots : List Slot) (is : List Interval) : Prop :=
  ∀ a, (∀ p ∈ slots, InTensor (s.tdAt p) a → inAny is a = true)
    ∧ ((∀ p ∈ slots, HasRows (s.tdAt p)) → inAny is a = true → ∃ p ∈ slots, InTensor (s.tdAt p) a)

/-- The commands executed in order, until one fails. -/
def execAll : List Instr → State → State
  | [], s => s
  | i :: is, s =>
    match exec i s with
    | .next t => if t.err then t else execAll is t
    | .fault _ => s
    | .refused _ => s

/-! ## Invariants -/

/-- Memory is in canonical form and lists no address outside the address space (R21). -/
def MemoryOk (s : State) : Prop := Memory.wf s.mem ∧ ∀ p ∈ s.mem, p.1 < s.params.memSize

/-- The counters and the queue agree, the queue is within its capacity, and the parameters are in range (R8, R30). -/
def QueueOk (s : State) : Prop :=
  s.params.InRange ∧ s.queue.length = s.qlen ∧ s.qlen ≤ s.params.qDepth

/-- The error registers: all 0 without an error, and no command discarded; with one, a recorded error and an empty queue (R37,
R38, R217). -/
def ErrorOk (s : State) : Prop :=
  (s.err = false → s.errInfo = 0 ∧ s.errCmd = 0 ∧ s.errW0 = 0 ∧ s.discarded = [])
    ∧ (s.err = true → s.queue = [] ∧ ∃ e : Err, s.errInfo = e.word)

/-- `VSTAT` and `VCMD`: both 0 when no failure is recorded, else `VSTAT` is an error (R39). -/
def ValOk (s : State) : Prop :=
  (s.vecode = 0 → s.vstat = 0 ∧ s.vcmd = 0) ∧ (s.vecode ≠ 0 → ∃ e : Err, s.vstat = e.word)

/-- With neither pending bit set, every command's output is covered by a `SYNC` (R36, R78). -/
def PendingOk (s : State) : Prop := s.wpq = false → s.wpn = false → s.unsynced = []

/-- The host knows the layer's operands exactly when the layer is configured (R191, R196), and guards nothing without one
(R79 (c)). -/
def LayerOk (s : State) : Prop :=
  (s.lstate = .unconfigured ↔ s.layer = none) ∧ (s.layer = none → s.owned = Owned.nothing)

end Sys2Proof.Safety
end

