-- ==== Sys2Proof/Certificates/Slice0/Obligations.lean ====
section
/-! DEFINITION. The statements for the provers, from the numbered rules of spec/. The docstring of each says which sentence of
the spec it formalises; one that rests on a choice of the model names the log entry. -/

section

open Sys2Proof Sys2Proof.Machine Sys2Proof.Safety

/-! ## Encoding -/

/-- Every command decodes from its own words: no bit of an operand is lost (R91 to R94, R97 to R99, R103). -/
def Obligations.EncodedCommandDecodesBack : Prop :=
  ∀ i : Instr, decode (encode i) = .ok i

/-- Every encoding is a command of the table or illegal (R101): the words that decode to a command are its own words, bit for
bit, so no bit of the 128 is ignored. -/
def Obligations.DecodedCommandEncodesBack : Prop :=
  ∀ (c : Command) (i : Instr), decode c = .ok i → encode i = c

/-- R100: an illegal command at the head of the queue raises the fatal error `Err(E_ILLEGAL, check, 15)` of the first check it
fails, whatever its mode field says (the state of R217 with the record of R213; the turn of the schedule that is used up is
the model's, log 6); and a command that fails none of the three checks decodes (R101). -/
def Obligations.IllegalCommandFailsFirstCheck : Prop :=
  (∀ (s : State) (c : Command) (q : List Command) (k : Nat),
    s.queue = c :: q → s.err = false → mover s = .sequencer → FailsCheck c k →
      step s = .next { failed s (errWord 6 k 15) c.w0 with sched := s.sched.tail })
  ∧ ∀ c : Command, (∀ k, ¬FailsCheck c k) → ∃ i, decode c = .ok i

/-- R106: the three worked encodings, as words and as the 128-bit number `C`. -/
def Obligations.WorkedEncodings : Prop :=
  encode (.bsignABExec 1 2 3 4) = ⟨0x00000C10, 0x00004321, 0, 0⟩
    ∧ decodeTableWord 128 0x00000000_00000000_00004321_00000C10 = some (.bsignABExec 1 2 3 4)
    ∧ encode (.bnormExec 8 9 ⟨3, 3, 2, 1, 1, 1, 0, 0⟩) = ⟨0x00000011, 0x00000098, 0x01020303, 0x00000101⟩
    ∧ decode ⟨0x00000011, 0x00000098, 0x01020303, 0x00000101⟩ = .ok (.bnormExec 8 9 ⟨3, 3, 2, 1, 1, 1, 0, 0⟩)
    ∧ encode (.bconvBCfg 5 6 3 7 9 4 1 1) = ⟨0x00000512, 0x00497365, 0x01010000, 0⟩
    ∧ decode ⟨0x00000512, 0x00497365, 0x01010000, 0⟩ = .ok (.bconvBCfg 5 6 3 7 9 4 1 1)

/-! ## Steps -/

/-- The sequencer runs the command at the head of the queue, as decoded (R175); its turn of the schedule is used up (log 6). -/
def Obligations.StepRunsDecodedCommand : Prop :=
  ∀ (s : State) (c : Command) (q : List Command) (i : Instr),
    s.queue = c :: q → s.err = false → mover s = .sequencer → decode c = .ok i →
      step s = exec i { s with sched := s.sched.tail }

/-- The host's step is its next action, the rest of its script left for later (R73, R77); its turn is used up (log 6). -/
def Obligations.StepRunsHostAction : Prop :=
  ∀ (s : State) (a : HostAction) (rest : List HostAction),
    s.script = a :: rest → mover s = .host →
      step s = hostAct a { s with sched := s.sched.tail, script := rest }

/-- R177: `NOP` retires and changes nothing else, WPQ and WPN included; its words are 1, 0, 0, 0, and a field that must be 0
and is not makes check 2 or 3 fail. -/
def Obligations.NopRetires : Prop :=
  (∀ s : State, exec .nop s = .next (retiredOnly s))
    ∧ encode .nop = ⟨1, 0, 0, 0⟩
    ∧ ∀ c : Command, opcNumber c = 0x01 → c ≠ ⟨1, 0, 0, 0⟩ → FailsCheck c 2 ∨ FailsCheck c 3

/-- `SYNC` clears WPQ and WPN and retires, and changes no other register and no byte (R178); afterwards no output counts as
not yet visible (R78, R80; `unsynced` is the model's record). -/
def Obligations.SyncDrains : Prop :=
  ∀ s : State, exec .sync s = .next { retiredOnly s with wpq := false, wpn := false, unsynced := [] }

/-! ## The kernel commands in EXEC mode -/

/-- `BSIGN`, `BSIGN.A`, `BSIGN.B`, `BSIGN.AB` in EXEC mode complete when their operands are ready: the packed signs (R123,
R124), alpha (R126) and beta (R127) are as the rules say (R128), and nothing else changes but RETIRED, the queue and WPQ
(R70, R45). That a NaN result has the top fraction bit set is the model's choice of what a quiet NaN is (R14, log 4). -/
def Obligations.BsignExecComputes : Prop :=
  ∀ (s : State) (sa sb sc sd : Slot),
    (BsignReady .exec false false s sa sb 0 0 →
        ∃ t, exec (.bsignExec sa sb) s = .next t ∧ BsignDone false false s t sa sb 0 0)
      ∧ (BsignReady .exec true false s sa sb sc 0 →
        ∃ t, exec (.bsignAExec sa sb sc) s = .next t ∧ BsignDone true false s t sa sb sc 0)
      ∧ (BsignReady .exec false true s sa sb 0 sd →
        ∃ t, exec (.bsignBExec sa sb sd) s = .next t ∧ BsignDone false true s t sa sb 0 sd)
      ∧ (BsignReady .exec true true s sa sb sc sd →
        ∃ t, exec (.bsignABExec sa sb sc sd) s = .next t ∧ BsignDone true true s t sa sb sc sd)

/-- `BNORM` (R143 to R145) in EXEC mode, its operands ready and nothing pending on the Q path, writes to every cell of K the sum of its
window's taps times the coefficient, each product and each sum rounded, and nothing else changes but RETIRED, the queue and
WPN (R70, R140). That a NaN result has the top fraction bit set is the model's choice (R14, log 4). -/
def Obligations.BnormExecComputes : Prop :=
  ∀ (s : State) (sa sb : Slot) (win : Window), BnormReady .exec s sa sb win → s.wpq = false →
    ∃ t, exec (.bnormExec sa sb win) s = .next t ∧ BnormDone s t sa sb win

/-- `BCONV` and `BCONV.B` in EXEC mode, their operands ready, write to every output element the rescaled match count (R159,
R162, R170), and nothing else changes but RETIRED, the queue and WPQ (R168). That a NaN result has the top fraction bit set is
the model's choice (R14, log 4). -/
def Obligations.BconvExecComputes : Prop :=
  ∀ (s : State) (sa sb sc sd se sf : Slot) (sx sy : Byte),
    (BconvReady .exec false s sa sb 0 sd se sf sx sy →
        ∃ t, exec (.bconvExec sa sb sd se sf sx sy) s = .next t ∧ BconvDone false s t sa sb 0 sd se sf sx sy)
      ∧ (BconvReady .exec true s sa sb sc sd se sf sx sy →
        ∃ t, exec (.bconvBExec sa sb sc sd se sf sx sy) s = .next t ∧ BconvDone true s t sa sb sc sd se sf sx sy)

/-! ## CFG mode -/

/-- In CFG mode (R122) the four `BSIGN`s, their operands ready, give every used output that was unshaped its derived type,
shape and dense strides, and change nothing else but RETIRED and the queue. -/
def Obligations.BsignCfgShapesOutputs : Prop :=
  ∀ (s : State) (sa sb sc sd : Slot),
    (BsignReady .cfg false false s sa sb 0 0 → ∃ t, exec (.bsignCfg sa sb) s = .next t ∧ CfgDone s t [sb]
        ∧ Configured (s.tdAt sb) (t.tdAt sb) .bit (packedShape (s.tdAt sa)))
      ∧ (BsignReady .cfg true false s sa sb sc 0 → ∃ t, exec (.bsignACfg sa sb sc) s = .next t ∧ CfgDone s t [sb, sc]
        ∧ Configured (s.tdAt sb) (t.tdAt sb) .bit (packedShape (s.tdAt sa))
        ∧ Configured (s.tdAt sc) (t.tdAt sc) .f32 (alphaShape (s.tdAt sa)))
      ∧ (BsignReady .cfg false true s sa sb 0 sd → ∃ t, exec (.bsignBCfg sa sb sd) s = .next t ∧ CfgDone s t [sb, sd]
        ∧ Configured (s.tdAt sb) (t.tdAt sb) .bit (packedShape (s.tdAt sa))
        ∧ Configured (s.tdAt sd) (t.tdAt sd) .f32 (betaShape (s.tdAt sa)))
      ∧ (BsignReady .cfg true true s sa sb sc sd →
        ∃ t, exec (.bsignABCfg sa sb sc sd) s = .next t ∧ CfgDone s t [sb, sc, sd]
        ∧ Configured (s.tdAt sb) (t.tdAt sb) .bit (packedShape (s.tdAt sa))
        ∧ Configured (s.tdAt sc) (t.tdAt sc) .f32 (alphaShape (s.tdAt sa))
        ∧ Configured (s.tdAt sd) (t.tdAt sd) .f32 (betaShape (s.tdAt sa)))

/-- `BNORM` in CFG mode, its operands ready, shapes K when it was unshaped, and changes nothing else but RETIRED and the queue
(R142). Where the padded OW or OH exceeds 65535, that K is shaped all the same is the model's choice (log 14), by R181's
pseudo-code and against its remark on derived extents. -/
def Obligations.BnormCfgShapesOutput : Prop :=
  ∀ (s : State) (sa sb : Slot) (win : Window), BnormReady .cfg s sa sb win →
    ∃ t, exec (.bnormCfg sa sb win) s = .next t ∧ CfgDone s t [sb]
      ∧ Configured (s.tdAt sb) (t.tdAt sb) .f32 (normShape (s.tdAt sa) win)

/-- `BCONV` and `BCONV.B` in CFG mode, their operands ready, shape the output when it was unshaped, and change nothing else but
RETIRED and the queue (R157). -/
def Obligations.BconvCfgShapesOutput : Prop :=
  ∀ (s : State) (sa sb sc sd se sf : Slot) (sx sy : Byte),
    (BconvReady .cfg false s sa sb 0 sd se sf sx sy →
        ∃ t, exec (.bconvCfg sa sb sd se sf sx sy) s = .next t ∧ CfgDone s t [sf]
          ∧ Configured (s.tdAt sf) (t.tdAt sf) .f32 (convShape (s.tdAt sa) (s.tdAt sb) sx sy))
      ∧ (BconvReady .cfg true s sa sb sc sd se sf sx sy →
        ∃ t, exec (.bconvBCfg sa sb sc sd se sf sx sy) s = .next t ∧ CfgDone s t [sf]
          ∧ Configured (s.tdAt sf) (t.tdAt sf) .f32 (convShape (s.tdAt sa) (s.tdAt sb) sx sy))

/-! ## VAL mode -/

/-- In VAL mode the four `BSIGN`s, their operands ready, only retire: nothing else changes (R176, R96). -/
def Obligations.BsignValOnlyRetires : Prop :=
  ∀ (s : State) (sa sb sc sd : Slot),
    (BsignReady .val false false s sa sb 0 0 → exec (.bsignVal sa sb) s = .next (retiredOnly s))
      ∧ (BsignReady .val true false s sa sb sc 0 → exec (.bsignAVal sa sb sc) s = .next (retiredOnly s))
      ∧ (BsignReady .val false true s sa sb 0 sd → exec (.bsignBVal sa sb sd) s = .next (retiredOnly s))
      ∧ (BsignReady .val true true s sa sb sc sd → exec (.bsignABVal sa sb sc sd) s = .next (retiredOnly s))

/-- In VAL mode `BNORM`, its operands ready, only retires, also while the Q path is pending (R176, R147). That it passes for an
unshaped K whose padded OW or OH exceeds 65535 is the model's choice (log 14), by R181's pseudo-code. -/
def Obligations.BnormValOnlyRetires : Prop :=
  ∀ (s : State) (sa sb : Slot) (win : Window), BnormReady .val s sa sb win →
    exec (.bnormVal sa sb win) s = .next (retiredOnly s)

/-- In VAL mode `BCONV` and `BCONV.B`, their operands ready, only retire (R176, R96). -/
def Obligations.BconvValOnlyRetires : Prop :=
  ∀ (s : State) (sa sb sc sd se sf : Slot) (sx sy : Byte),
    (BconvReady .val false s sa sb 0 sd se sf sx sy →
        exec (.bconvVal sa sb sd se sf sx sy) s = .next (retiredOnly s))
      ∧ (BconvReady .val true s sa sb sc sd se sf sx sy →
        exec (.bconvBVal sa sb sc sd se sf sx sy) s = .next (retiredOnly s))

/-! ## Errors of commands -/

/-- A command in CFG or EXEC mode whose checks do not all hold has no effect: it ends in the fatal error of R217, the whole
state given, with a code and a check that R214 allows the command in that mode. -/
def Obligations.UnreadyCommandFailsFatally : Prop :=
  ∀ (s : State) (i : Instr) (m : Mode) (k : Kernel),
    s.params.InRange → kernelOf i = some (m, k) → m ≠ .val → ¬Ready s i →
      ∃ p ∈ raises m k, ∃ td : Slot, exec i s = .next (failed s (errWord p.1 p.2 td.toNat) (encode i).w0)

/-- A kernel command in VAL mode whose checks fail writes `VSTAT` and `VCMD` if `VSTAT.VECODE = 0`, leaves them alone
otherwise, changes nothing else, and retires (R220, R39, R176). -/
def Obligations.UnreadyValCommandReports : Prop :=
  ∀ (s : State) (i : Instr) (k : Kernel),
    s.params.InRange → kernelOf i = some (.val, k) → ¬Ready s i →
      ∃ p ∈ raises .val k, ∃ td : Slot, exec i s = .next (reported s (errWord p.1 p.2 td.toNat))

/-- The first operand in slot order that fails a check of `CheckOperand` gives the error, the first check of R180 that it fails,
with check 21 where R121 step 2 puts it; check 4 comes before all of them (R121, R141, R156); what the error leaves in each mode
is R176's, R217's and R220's. That the operands' element types are read as the slots require, and checked in slot order, is the
model's reading (log 27). -/
def Obligations.FirstFailingOperandGivesError : Prop :=
  ∀ (s : State) (i : Instr) (m : Mode) (k : Kernel), kernelOf i = some (m, k) →
    (¬WindowOk k →
      exec i s = .next (if m = .val then reported s (errWord 3 4 15) else failed s (errWord 3 4 15) (encode i).w0))
    ∧ ∀ (before after : List Operand) (o : Operand) (code chk : Nat),
      WindowOk k → k.operands = before ++ o :: after →
      (∀ p ∈ before, operandError m s.params.memSize (s.tdAt p.slot) p = none) →
      operandError m s.params.memSize (s.tdAt o.slot) o = some (code, chk) →
        exec i s = .next
          (if m = .val then reported s (errWord code chk o.slot.toNat)
            else failed s (errWord code chk o.slot.toNat) (encode i).w0)

/-- The checks after `CheckOperand`, in the order of R121 steps 6 to 9, R141 steps 5 to 10 and R156 steps 6 to 13: a command whose
window and operands pass those before ends with the error of the first check of `laterChecks` that it fails, its code, its
number and its descriptor, as R176, R217 and R220 say for its mode; and it is ready when it passes them all, so that the
completion statements speak of it. The order of the steps is the model's reading (log 27); so are that a descriptor two outputs
name is auto-sized once (log 13), that an extent `AutoShape` derives may exceed 65535 (log 14), and check 20 for every `BSIGN`
(log 15). -/
def Obligations.FirstFailingLaterCheckGivesError : Prop :=
  ∀ (s : State) (i : Instr) (m : Mode) (k : Kernel), kernelOf i = some (m, k) → WindowOk k →
    (∀ o ∈ k.operands, operandError m s.params.memSize (s.tdAt o.slot) o = none) →
      (∀ (before after : List LaterCheck) (c : LaterCheck), laterChecks m s k = before ++ c :: after →
        (∀ d ∈ before, d.passes) → ¬c.passes →
          exec i s = .next
            (if m = .val then reported s (errWord c.code c.chk c.td.toNat)
              else failed s (errWord c.code c.chk c.td.toNat) (encode i).w0))
      ∧ ((∀ c ∈ laterChecks m s k, c.passes) → Ready s i)

/-- A `BNORM` in EXEC mode with `STATUS.WPQ = 1` raises the fatal error `Err(E_HAZARD, 40, SA)` (R147) where every check before it
passes (R141 step 10; R216: the first failing check is the one reported). The whole state it leaves is R217's, with the record of
R213; the commands it discards are the model's record (log 32). -/
def Obligations.BnormHazardFaults : Prop :=
  ∀ (s : State) (sa sb : Slot) (win : Window), BnormReady .exec s sa sb win → s.wpq = true →
    exec (.bnormExec sa sb win) s = .next (failed s (errWord 8 40 sa.toNat) (encode (.bnormExec sa sb win)).w0)

/-- Naming one descriptor as an input and an output of one command, or as two outputs, or giving a zero window or stride, can
never succeed (R75, R182, R141 step 2, R156 step 2): in CFG and EXEC mode the command ends in a fatal error, in VAL mode it
reports. -/
def Obligations.IllFormedCommandNeverSucceeds : Prop :=
  ∀ (s : State) (i : Instr), i.wellFormed = false →
    ∃ (e : Err) (m : Mode) (k : Kernel), kernelOf i = some (m, k)
      ∧ exec i s = .next (if m = .val then reported s e.word else failed s e.word (encode i).w0)

/-! ## Rules of the whole machine -/

/-- Every change of WPQ, WPN and ERR (R45): WPQ is set only when a `BSIGN` or `BCONV` in EXEC mode retires, WPN only when a
`BNORM` in EXEC mode retires; they are cleared only when a `SYNC` retires and by reset; ERR is set only by a fatal error, which
empties the queue, and cleared only by reset. -/
def Obligations.StatusBitsChangeOnlyAsStated : Prop :=
  ∀ s t : State, step s = .next t →
    (s.wpq = false → t.wpq = true → t.retired = s.retired + 1 ∧ ∃ c q i k, s.queue = c :: q ∧ decode c = .ok i
        ∧ kernelOf i = some (.exec, k) ∧ ∀ sa sb win, k ≠ .bnorm sa sb win)
      ∧ (s.wpn = false → t.wpn = true → t.retired = s.retired + 1 ∧ ∃ c q i sa sb win, s.queue = c :: q ∧ decode c = .ok i
        ∧ kernelOf i = some (.exec, .bnorm sa sb win))
      ∧ ((s.wpq = true ∧ t.wpq = false) ∨ (s.wpn = true ∧ t.wpn = false) →
        ResetNext s ∨ (t.retired = s.retired + 1 ∧ ∃ c q, s.queue = c :: q ∧ decode c = .ok .sync))
      ∧ (s.err = false → t.err = true → t.queue = [] ∧ t.issued = t.retired ∧ ∃ e : Err, t.errInfo = e.word)
      ∧ (s.err = true → t.err = false → ResetNext s)

/-- The error state (R217, R219): until a reset every push and every descriptor write is dropped, the sequencer has no step,
and `ERRINFO`, `ERRCMD`, `ERRW0`, WPQ and WPN keep their values, and so does the model's record of the discarded commands (log 32); `VSTAT` and `VCMD` keep theirs or are cleared (R39). The staging
registers and memory are not spoken of: the host may write them. -/
def Obligations.ErrorStateIsSticky : Prop :=
  ∀ s t : State, step s = .next t → s.err = true → ¬ResetNext s →
    t.err = true ∧ t.errInfo = s.errInfo ∧ t.errCmd = s.errCmd ∧ t.errW0 = s.errW0 ∧ t.queue = s.queue
      ∧ t.issued = s.issued ∧ t.retired = s.retired ∧ t.td = s.td ∧ t.wpq = s.wpq ∧ t.wpn = s.wpn
      ∧ t.discarded = s.discarded
      ∧ ((t.vstat = s.vstat ∧ t.vcmd = s.vcmd) ∨ (t.vstat = 0 ∧ t.vcmd = 0))

/-- Who writes a descriptor (R29): apart from a reset, only the host through its window while the block is idle and without
error, or a CFG-mode command that retires, which shapes an unshaped output operand and leaves its `BASE` and `BOUND` alone. -/
def Obligations.DescriptorChangesOnlyAsStated : Prop :=
  ∀ (s t : State) (j : Slot), step s = .next t → t.tdAt j ≠ s.tdAt j →
    ResetNext s
      ∨ (mover s = .host ∧ s.err = false ∧ s.qlen = 0 ∧ ∃ off v rest, s.script = .wr off v :: rest
          ∧ 0x100 + 0x40 * j.toNat ≤ off ∧ off < 0x140 + 0x40 * j.toNat)
      ∨ (mover s = .sequencer ∧ t.retired = s.retired + 1 ∧ (s.tdAt j).shaped = false ∧ (t.tdAt j).shaped = true
          ∧ (t.tdAt j).base = (s.tdAt j).base ∧ (t.tdAt j).bound = (s.tdAt j).bound
          ∧ ∃ c q i k, s.queue = c :: q ∧ decode c = .ok i ∧ kernelOf i = some (.cfg, k)
            ∧ ∃ o ∈ k.operands, o.slot = j ∧ o.role = .output)

/-- The queue and its counters (R30, R31, R184): apart from a reset, a step leaves them alone, appends one command at the tail
and adds 1 to `ISSUED`, retires the command at the head and adds 1 to `RETIRED`, or empties the queue and sets `ISSUED` to
`RETIRED`. No command is reordered, skipped or repeated. -/
def Obligations.QueueMovesInOrder : Prop :=
  ∀ s t : State, step s = .next t → ¬ResetNext s →
    (t.queue = s.queue ∧ t.issued = s.issued ∧ t.retired = s.retired)
      ∨ (∃ c, t.queue = s.queue ++ [c] ∧ t.issued = s.issued + 1 ∧ t.retired = s.retired)
      ∨ (∃ c, s.queue = c :: t.queue ∧ t.issued = s.issued ∧ t.retired = s.retired + 1)
      ∨ (t.queue = [] ∧ t.issued = s.retired ∧ t.retired = s.retired ∧ t.err = true)

/-- Invariant: memory stays in canonical form and lists only addresses of the address space (R21, R66); the canonical form is
the model's (log 2). -/
def Obligations.StepKeepsMemoryInRange : Prop :=
  ∀ s t : State, step s = .next t → MemoryOk s → MemoryOk t

/-- Invariants: `QLEN` is the length of the queue and at most QDEPTH (R30); the error registers are 0 without an error, and in
the error state the queue is empty and an error is recorded (R37, R38, R217; without an error no command counts as discarded,
which is the model's record, log 32); `VSTAT` and `VCMD` are 0 or a report (R39). -/
def Obligations.StepKeepsQueueAndErrorRegisters : Prop :=
  ∀ s t : State, step s = .next t →
    (QueueOk s → QueueOk t) ∧ (ErrorOk s → ErrorOk t) ∧ (ValOk s → ValOk t)

/-- Invariants: with WPQ and WPN both 0 no output waits for a `SYNC` (R36, R78; the record of waiting outputs is the model's);
the host holds a layer's operands exactly when the layer is configured (R191, R196), and guards no interval without one
(R79 (c); the guarded intervals are the model's record). -/
def Obligations.StepKeepsPendingAndLayer : Prop :=
  ∀ s t : State, step s = .next t → (PendingOk s → PendingOk t) ∧ (LayerOk s → LayerOk t)

/-- The reset state meets every invariant. -/
def Obligations.ResetMeetsInvariants : Prop :=
  MemoryOk State.reset ∧ QueueOk State.reset ∧ ErrorOk State.reset ∧ ValOk State.reset ∧ PendingOk State.reset
    ∧ LayerOk State.reset

/-! ## Reset -/

/-- The values R49 gives after a reset, as every register reads them, and the descriptors and the queue; the parameters are
those of the instance of log 1. -/
def Obligations.ResetStateReadsAsStated : Prop :=
  readReg State.reset 0x000 = 0x42580007 ∧ readReg State.reset 0x00C = 0x00000001
    ∧ readReg State.reset 0x004 = BitVec.ofNat 32 (16 + 256 * Config.params.qDepth + 65536 * Config.params.nw)
    ∧ readReg State.reset 0x008 = BitVec.ofNat 32 Config.params.memSize
    ∧ (∀ off ∈ [0x010, 0x014, 0x018, 0x01C, 0x020, 0x024, 0x028, 0x02C, 0x030, 0x034, 0x038, 0x03C],
        readReg State.reset off = 0)
    ∧ (∀ off, 0x100 ≤ off → off < 0x500 → readReg State.reset off = 0)
    ∧ State.reset.queue = [] ∧ State.reset.err = false ∧ State.reset.wpq = false ∧ State.reset.wpn = false

/-- A soft reset (R183, R241): a write to `CTRL` with bit 0 set gives every register, the descriptors and the queue their reset
values; memory changes only in the output intervals of commands not retired, or retired in EXEC mode and not covered by a
`SYNC` (R49), so not at all when nothing is queued or pending and no error has been raised. Which bytes those are is the model's
record (`unsynced`, `queuedOutputs`, `unretired`: log 9, log 10; log 31 and log 36 for descriptors of which R27 gives no
interval); that the commands a fatal error discarded had not retired is its reading (log 32). -/
def Obligations.SoftResetClearsBlock : Prop :=
  ∀ (s : State) (v : Word), v.getLsbD 0 = true → s.params.InRange →
    ∃ t, hostAct (.wr 0x02C v) s = .next t
      ∧ t.td = Vector.replicate 16 Desc.null ∧ t.queue = [] ∧ t.issued = 0 ∧ t.retired = 0
      ∧ t.err = false ∧ t.wpq = false ∧ t.wpn = false ∧ t.errInfo = 0 ∧ t.errCmd = 0 ∧ t.errW0 = 0
      ∧ t.vstat = 0 ∧ t.vcmd = 0 ∧ t.cmdw0 = 0 ∧ t.cmdw1 = 0 ∧ t.cmdw2 = 0 ∧ t.cmdw3 = 0
      ∧ t.params = s.params ∧ readReg t 0x00C = 0x00000001 ∧ t.lstate = .unconfigured
      ∧ t.discarded = [] ∧ t.unsynced = []
      ∧ (∀ a, inAny s.unsynced a = false → inAny (queuedOutputs s s.unretired) a = false → t.readByte a = s.readByte a)
      ∧ (QueueOk s → PendingOk s → ErrorOk s → s.qlen = 0 → s.err = false → s.wpq = false → s.wpn = false →
          ∀ a, t.readByte a = s.readByte a)

/-- A hardware reset (R240, R241) gives the same registers as a soft reset, and no byte of memory keeps its value: memory lists
nothing and its bytes are a new draw of free values (log 2, log 3). -/
def Obligations.HardResetClearsAll : Prop :=
  ∀ s : State, ∃ t, hostAct .hardReset s = .next t
    ∧ t = {
      State.resetWith s.params with
      memDraw := s.draws, draws := s.draws + 1, script := s.script, sched := s.sched
      rdata := s.rdata, mdata := s.mdata, lresult := s.lresult }

/-! ## Registers -/

/-- R33, R34, R35: `ID`, `PARAM` and `MEMSZ` in every state, the parameters in the ranges of R8; reading them changes nothing
but what the host has read. -/
def Obligations.IdentityRegistersRead : Prop :=
  ∀ s : State, s.params.InRange →
    hostAct (.rd 0x000) s = .next { s with rdata := 0x42580007 }
      ∧ (∃ v : Word, hostAct (.rd 0x004) s = .next { s with rdata := v } ∧ v.toNat % 256 = 16
          ∧ v.toNat / 256 % 256 = s.params.qDepth ∧ v.toNat / 65536 % 256 = s.params.nw ∧ v.toNat / 2 ^ 24 = 0)
      ∧ ∃ v : Word, hostAct (.rd 0x008) s = .next { s with rdata := v } ∧ v.toNat = s.params.memSize

/-- `STATUS` reads its fields from the rest of the state (R36), in every state that keeps the queue's invariant; the error
registers (R37, R38), the validation registers (R39) and the counters (R40) read what they hold, in every state; no read changes
anything but what the host has read (R68, R179). -/
def Obligations.StatusRegisterReads : Prop :=
  ∀ s : State,
    (QueueOk s → ∃ v : Word, hostAct (.rd 0x00C) s = .next { s with rdata := v }
      ∧ v.toNat = (if s.queue = [] then 1 else 0) + 2 * s.err.toNat + 4 * s.wpq.toNat + 8 * s.wpn.toNat
          + 16 * (if s.queue.length = s.params.qDepth then 1 else 0) + 256 * s.queue.length)
      ∧ hostAct (.rd 0x010) s = .next { s with rdata := s.errInfo }
      ∧ hostAct (.rd 0x014) s = .next { s with rdata := s.errCmd }
      ∧ hostAct (.rd 0x018) s = .next { s with rdata := s.errW0 }
      ∧ hostAct (.rd 0x01C) s = .next { s with rdata := s.vstat }
      ∧ hostAct (.rd 0x020) s = .next { s with rdata := s.vcmd }
      ∧ hostAct (.rd 0x024) s = .next { s with rdata := s.retired }
      ∧ hostAct (.rd 0x028) s = .next { s with rdata := s.issued }

/-- R42: writes to `CMDW0`, `CMDW1`, `CMDW2` store; a write to `CMDW3` stores and pushes: dropped in the error state, the
fatal error `Err(E_QOVF, 30, 15)` when QLEN = QDEPTH, else appended; all four can be read back. The error's record and the
emptied queue are R217's, R213's and R38's; that the bytes it may change are the output intervals of the command at the head is
the model's choice (log 11). -/
def Obligations.StagingRegistersPush : Prop :=
  ∀ (s : State) (v : Word),
    hostAct (.wr 0x030 v) s = .next { s with cmdw0 := v }
      ∧ hostAct (.wr 0x034 v) s = .next { s with cmdw1 := v }
      ∧ hostAct (.wr 0x038 v) s = .next { s with cmdw2 := v }
      ∧ (s.err = true → hostAct (.wr 0x03C v) s = .next { s with cmdw3 := v })
      ∧ (s.err = false → s.qlen ≠ s.params.qDepth → hostAct (.wr 0x03C v) s = .next
          { s with cmdw3 := v, queue := s.queue ++ [⟨s.cmdw0, s.cmdw1, s.cmdw2, v⟩], issued := s.issued + 1 })
      ∧ (s.err = false → s.qlen = s.params.qDepth →
          ∃ t, hostAct (.wr 0x03C v) s = .next t ∧ Abandoned s t (errWord 9 30 15) s.cmdw0 ∧ t.cmdw3 = v)
      ∧ readReg s 0x030 = s.cmdw0 ∧ readReg s 0x034 = s.cmdw1 ∧ readReg s 0x038 = s.cmdw2 ∧ readReg s 0x03C = s.cmdw3

/-- R43, with the offsets of R32: a write at an offset of the window of descriptor `j` is performed when the block is idle and
without error: it changes the field at that offset (BOUND, SHAPED and DTYPE at bits 0, 1 and 7:4 of `CFG`; a reserved offset
ignores it), which then reads back, every other register reading as before; when busy it is dropped with the fatal error `Err(E_BUSYWR, 31, j)` (R217); in the error
state it is dropped silently; reads are always allowed. Two clauses are the model's choice: that a write to a reserved offset of
the window raises the error while busy (log 16, R43 against R44), and which bytes the error may change (log 11). -/
def Obligations.DescriptorWindowWrites : Prop :=
  ∀ (s : State) (j : Slot) (f : Nat) (v : Word), f % 4 = 0 → f < 0x40 →
    (s.err = false → s.qlen = 0 → ∃ t, hostAct (.wr (0x100 + 0x40 * j.toNat + f) v) s = .next t ∧ t = { s with td := t.td }
        ∧ (f = 0x00 → t.tdAt j = { s.tdAt j with base := v })
        ∧ (f = 0x04 → t.tdAt j =
            { s.tdAt j with bound := v.getLsbD 0, shaped := v.getLsbD 1, dtype := v.extractLsb' 4 4 })
        ∧ (f = 0x08 → t.tdAt j = { s.tdAt j with shape0 := v }) ∧ (f = 0x0C → t.tdAt j = { s.tdAt j with shape1 := v })
        ∧ (f = 0x10 → t.tdAt j = { s.tdAt j with shape2 := v }) ∧ (f = 0x14 → t.tdAt j = { s.tdAt j with shape3 := v })
        ∧ (f = 0x18 → t.tdAt j = { s.tdAt j with stride1 := v }) ∧ (f = 0x1C → t.tdAt j = { s.tdAt j with stride2 := v })
        ∧ (f = 0x20 → t.tdAt j = { s.tdAt j with stride3 := v }) ∧ (0x20 < f → t = s)
        ∧ readReg t (0x100 + 0x40 * j.toNat + f) = (if f = 0x04 then v &&& 0x000000F3 else if f ≤ 0x20 then v else 0)
        ∧ ∀ off, off ≠ 0x100 + 0x40 * j.toNat + f → readReg t off = readReg s off)
      ∧ (s.err = false → s.qlen ≠ 0 → ∃ t, hostAct (.wr (0x100 + 0x40 * j.toNat + f) v) s = .next t
        ∧ Abandoned s t (errWord 10 31 j.toNat) 0 ∧ t.cmdw3 = s.cmdw3)
      ∧ (s.err = true → hostAct (.wr (0x100 + 0x40 * j.toNat + f) v) s = .next s)
      ∧ hostAct (.rd (0x100 + 0x40 * j.toNat + f)) s
        = .next { s with rdata := readReg s (0x100 + 0x40 * j.toNat + f) }

/-- Offsets that hold no register (R32, R39, R41, R44, R179): writes to read-only registers, to reserved offsets outside the
descriptor windows and to `CTRL` with bit 0 clear do nothing; any write to `VSTAT` clears it and `VCMD`; `CTRL` and reserved
offsets read 0; an unaligned offset, one beyond 0xFFC, or an access that is not of 32 bits is refused. -/
def Obligations.OtherOffsetsBehave : Prop :=
  ∀ (s : State) (off : Nat) (v : Word),
    (off ∈ [0x000, 0x004, 0x008, 0x00C, 0x010, 0x014, 0x018, 0x020, 0x024, 0x028] → hostAct (.wr off v) s = .next s)
      ∧ (off % 4 = 0 → (0x040 ≤ off ∧ off < 0x100) ∨ (0x500 ≤ off ∧ off < 0x1000) →
          hostAct (.wr off v) s = .next s ∧ hostAct (.rd off) s = .next { s with rdata := 0 })
      ∧ (v.getLsbD 0 = false → hostAct (.wr 0x02C v) s = .next s)
      ∧ hostAct (.rd 0x02C) s = .next { s with rdata := 0 }
      ∧ hostAct (.wr 0x01C v) s = .next { s with vstat := 0, vcmd := 0 }
      ∧ (∀ j : Slot, ∀ f ∈ [0x24, 0x28, 0x2C, 0x30, 0x34, 0x38, 0x3C], readReg s (0x100 + 0x40 * j.toNat + f) = 0)
      ∧ (off % 4 ≠ 0 ∨ 0x1000 ≤ off →
          hostAct (.wr off v) s = .refused .registerAccess ∧ hostAct (.rd off) s = .refused .registerAccess)
      ∧ ∀ width, hostAct (.otherAccess off width) s = .refused .registerAccess

/-! ## The host and tensor memory -/

/-- The host reads what the commands wrote once `STATUS` shows IDLE = 1, ERR = 0, WPQ = 0 and WPN = 0 (R78, R245), outside a
configured layer's intermediates, `pin` among them (R79 (c), R192). In every state, the same bytes outside `unseen`, the output
intervals of EXEC-mode commands pushed and not covered by a retired `SYNC`, read so, and those inside are `any`: a draw (log 3,
log 19). Those that a fatal error discarded are among these commands, by the model's reading (log 32); their intervals are its
record (log 9, log 31). Which bytes are the layer's is its record (log 20), and that those a fetch reads behind the last row of
`pin` are not among them, so that this read succeeds, is its choice (log 35). -/
def Obligations.HostReadsResultsWhenIdle : Prop :=
  ∀ (s : State) (a n : Nat), a + n ≤ s.params.memSize → touchesAny s.intermediates a n = false →
    ∃ t, hostAct (.memRead a n) s = .next t ∧ t = { s with mdata := t.mdata, draws := t.draws } ∧ t.mdata.length = n
      ∧ (∀ k < n, t.mdata[k]? = some (if inAny s.unseen (a + k) then Config.freeByte s.draws (a + k) else s.readByte (a + k)))
      ∧ (QueueOk s → PendingOk s → ErrorOk s → s.qlen = 0 → s.err = false → s.wpq = false → s.wpn = false →
          ∀ k < n, t.mdata[k]? = some (s.readByte (a + k)))

/-- A host write to tensor memory stores its bytes and changes nothing else (R21, R77): in R245's condition, outside a
configured layer's intermediates but `pin`, the previous run having ended (R247); and in every state where it touches no
intermediate and no tensor in use (R79). `inUse` is the model's record of the latter (log 9, log 12, log 31, log 32, log 36), and
which bytes are the layer's is its record too (log 20, log 35). -/
def Obligations.HostWriteStoresBytes : Prop :=
  ∀ (s : State) (a : Nat) (bs : List Byte), a + bs.length ≤ s.params.memSize →
    touchesAny s.owned.others a bs.length = false →
    ((QueueOk s ∧ PendingOk s ∧ ErrorOk s ∧ EndedWell s)
      ∨ (touchesAny s.owned.pin a bs.length = false ∧ touchesAny s.inUse a bs.length = false)) →
      ∃ t, hostAct (.memWrite a bs) s = .next t ∧ t = { s with mem := t.mem }
        ∧ (∀ k < bs.length, bs[k]? = some (t.readByte (a + k)))
        ∧ ∀ adr, (adr < a ∨ a + bs.length ≤ adr) → t.readByte adr = s.readByte adr

/-- What the host must not touch is refused (R79, R201, R247, V5). Outside a configured layer's intermediates, whose own clauses
follow: a write to a byte of any shaped operand of a command pushed and not retired (a), wherever it stands in the queue, or
discarded by a fatal error, which by the model's reading has not retired either (log 32); and of any output of a
command that retired in EXEC mode, until a `SYNC` retires or the block is reset (b): the command puts the output's interval into
`unsynced`, every other step keeps it there, and a write to a byte of it is refused. In a configured layer: a read of any
intermediate and a write to any but `pin` (c), and a write to `pin` before the previous run has ended well (R245). The intervals
are R27's, their rows by the descriptor's own type (R25, log 12). The model's choices: the record `unsynced` (log 9), the
interval where the type is NONE or OTHER (log 31), that of an unshaped output, of which only the command at the
head is spoken of here (log 10, log 36), and `owned`, the record of the layer's intervals (log 20, log 35). -/
def Obligations.HostAccessToTensorInUseRefused : Prop :=
  ∀ (s : State) (a : Nat) (b : Byte), a < s.params.memSize →
    (∀ c i m k o, inAny s.intermediates a = false → c ∈ s.unretired → decode c = .ok i → kernelOf i = some (m, k) →
        o ∈ k.operands → (s.tdAt o.slot).bound = true → (s.tdAt o.slot).shaped = true → (o.interval s.td).has a = true →
          hostAct (.memWrite a [b]) s = .refused .tensorInUse)
      ∧ (∀ c q i m k d, inAny s.intermediates a = false → s.unretired = c :: q → decode c = .ok i → kernelOf i = some (m, k) →
        m ≠ .exec → Ready s i → d ∈ derivedOutputs s k → (outputRange (s.tdAt d.slot) d.ty d.shape).has a = true →
          hostAct (.memWrite a [b]) s = .refused .tensorInUse)
      ∧ (∀ i k o, kernelOf i = some (.exec, k) → Ready s i → o ∈ k.outputs →
          ∃ t, exec i s = .next t ∧ o.interval s.td ∈ t.unsynced
            ∧ (inAny s.intermediates a = false → (o.interval s.td).has a = true →
                hostAct (.memWrite a [b]) t = .refused .tensorInUse))
      ∧ (∀ t, step s = .next t → ¬ResetNext s →
          ¬(t.retired = s.retired + 1 ∧ ∃ c q, s.queue = c :: q ∧ decode c = .ok .sync) →
          ∀ i ∈ s.unsynced, i ∈ t.unsynced)
      ∧ (inAny s.intermediates a = false → inAny s.unsynced a = true →
          hostAct (.memWrite a [b]) s = .refused .tensorInUse)
      ∧ (inAny s.intermediates a = true → hostAct (.memRead a 1) s = .refused .intermediateTensor)
      ∧ (inAny s.owned.others a = true → inAny s.owned.pin a = false →
          hostAct (.memWrite a [b]) s = .refused .intermediateTensor)
      ∧ (inAny s.owned.pin a = true → ¬EndedWell s → hostAct (.memWrite a [b]) s = .refused .runNotEnded)

/-! ## The layer protocol -/

/-- `LSTATE` moves only UNCONFIGURED to CONFIGURED to PREPARED, and back to UNCONFIGURED only by a reset (R191, R203). -/
def Obligations.LayerStateMovesForward : Prop :=
  ∀ s t : State, step s = .next t → t.lstate ≠ s.lstate →
    (s.lstate = .unconfigured ∧ t.lstate = .configured ∧ s.err = false ∧ ∃ l rest, s.script = .lConfigured l :: rest)
      ∨ (s.lstate = .configured ∧ t.lstate = .prepared ∧ ∃ rest, s.script = .lPrepared :: rest)
      ∨ (t.lstate = .unconfigured ∧ ResetNext s)

/-- `l.validate` is pure and answers what `l.configure` would meet (R195, R196): 0 when the four CFG-mode commands all retire,
else the error with which the first failing one stops the block. `LayerRoutinesPushTheirCommands` says that these four are what
`l.configure` pushes; the field of a kernel extent above 255 is the model's free value (log 30). -/
def Obligations.ValidateForetellsConfigure : Prop :=
  ∀ (s : State) (l : Layer), s.err = false →
    let cmds := layerCommands l (l.window s.draws s.td)
    (hostAct (.lValidate l) s = .next { s with lresult := 0, draws := s.draws + 1 } ∧ (execAll cmds s).err = false
        ∧ (execAll cmds s).retired = s.retired + 4)
      ∨ ∃ e : Err, hostAct (.lValidate l) s = .next { s with lresult := e.word, draws := s.draws + 1 }
        ∧ (execAll cmds s).err = true ∧ (execAll cmds s).errInfo = e.word

/-- What the layer routines push and how they end. `l.configure` (R196) pushes its four CFG-mode commands and waits, and at its
end the layer is configured or the error returned; it is refused on a layer already configured (its precondition). `l.prepare`
(R197, R200) is an execution error on an unconfigured layer, as `l.run` is; on a configured one it pushes the `BSIGN.A` of the
weights in EXEC mode; a second call does nothing. `l.run` (R198) calls `l.prepare`, pads (`HostpadWritesPaddedInput`), pushes its
five commands and waits; it is refused before the previous run has ended, since it writes `pin` (R247, R245). The host guards the
intermediates of R192 from the end of `l.configure` on (R79 (c)), byte for byte by R27. The model's choices: that this record is
made then (log 20), with `RowBytes` for `pin` (log 35); what counts as the `BSIGN.A` that may be pending at a call of
`l.run` (log 20); the wait for room before each push (log 21), the field of a kernel extent above 255 (log 30), and that `l.run` reads the kernel's size from the descriptor of the weights as it stands then (log 34). -/
def Obligations.LayerRoutinesPushTheirCommands : Prop :=
  ∀ (s : State) (l : Layer) (inp : PadInput),
    (s.lstate = .unconfigured → ∃ win, LayerWindow l s.td win ∧ hostAct (.lConfigure l) s = .next { s with
        script := (layerCommands l win).flatMap pushLine ++ [.wait (.bits 1 1), .lConfigured l] ++ s.script
        draws := s.draws + 1 })
      ∧ (s.lstate ≠ .unconfigured → hostAct (.lConfigure l) s = .refused .layerPrecondition)
      ∧ (s.err = true → hostAct (.lConfigured l) s = .next { s with lresult := s.errInfo })
      ∧ (s.err = false → s.lstate = .unconfigured → ∃ t, hostAct (.lConfigured l) s = .next t
          ∧ t = { s with lstate := .configured, layer := some l, owned := t.owned, lresult := 0 }
          ∧ Guards s [l.pin] t.owned.pin ∧ Guards s [l.bin, l.bw, l.al, l.be, l.kk] t.owned.others
          ∧ Guards s [l.bw, l.al] t.owned.weights)
      ∧ (s.lstate = .unconfigured → hostAct .lPrepare s = .fault .layerUnconfigured
          ∧ hostAct (.lRun inp) s = .fault .layerUnconfigured)
      ∧ (s.lstate = .configured → s.layer = some l → hostAct .lPrepare s = .next { s with
          script := pushLine (.bsignAExec l.w l.bw l.al) ++ [.lPrepared] ++ s.script })
      ∧ (s.lstate = .configured → hostAct .lPrepared s = .next { s with lstate := .prepared })
      ∧ (s.lstate = .prepared → hostAct .lPrepare s = .next s)
      ∧ (s.lstate ≠ .unconfigured → s.layer = some l → ¬PreviousRunEnded s l →
          hostAct (.lRun inp) s = .refused .runNotEnded)
      ∧ (s.lstate ≠ .unconfigured → s.layer = some l → PreviousRunEnded s l →
          ∃ win, LayerWindow l s.td win ∧ hostAct (.lRun inp) s = .next { s with
            script := [.lPrepare, .lPad inp] ++ (runCommands l win).flatMap pushLine ++ [.wait (.bits 1 1), .lRunDone]
              ++ s.script
            draws := s.draws + 1 })
      ∧ hostAct .lRunDone s = .next { s with lresult := if s.err then s.errInfo else 0 }

/-- `hostpad` (R194), as an action of its own or as the padding step of `l.run`: into a well-formed `pin` that holds no byte in
use (R79 (a) and (b)) and none of the other intermediates of a layer (R201), the host writes the input at offset (pl, pt) and
`PADFILL` everywhere else, and no other byte; as an action of its own, where the previous run has ended well or `pin` is no
configured layer's, and in `l.run`, which is called only then (`LayerRoutinesPushTheirCommands`), where nothing is pending but
the `BSIGN.A` of `l.prepare`, or that command has failed (R247, R245, R198). Else either is refused. The model's choices: what counts as that `BSIGN.A` (log 20), the paddings, given with each
call (log 33), that nothing is written into a `pin` that is not a shaped F32 tensor, and the count of draws (log 30). -/
def Obligations.HostpadWritesPaddedInput : Prop :=
  ∀ (s : State) (pin : Slot) (inp : PadInput) (act : HostAction),
    let d := s.tdAt pin
    let everywhere (p : Nat → Prop) : Prop := ∀ x y c n, x < d.w → y < d.h → c < d.c → n < d.n → p (d.addrF32 x y c n)
    (act = .hostPad pin inp ∨ (act = .lPad inp ∧ ∃ l, s.layer = some l ∧ l.pin = pin)) →
    (InputReady s.params.memSize d .f32 →
      everywhere (fun a => touchesAny s.inUse a 4 = false ∧ touchesAny s.owned.others a 4 = false) →
      (act = .hostPad pin inp → EndedWell s ∨ everywhere fun a => touchesAny s.owned.pin a 4 = false) →
      (∀ l, act = .lPad inp → s.layer = some l → OnlyPreparePending s l) →
      inp.data.length = inp.width * inp.height * d.c * d.n →
        ∃ t, hostAct act s = .next t ∧ t = { s with mem := t.mem, draws := t.draws }
          ∧ (∀ x y c n, x < d.w → y < d.h → c < d.c → n < d.n →
              (inp.left ≤ x ∧ x < inp.left + inp.width ∧ inp.top ≤ y ∧ y < inp.top + inp.height →
                inp.data[(x - inp.left) + inp.width * ((y - inp.top) + inp.height * (c + d.c * n))]?
                  = some (t.getF32 d x y c n))
              ∧ (¬(inp.left ≤ x ∧ x < inp.left + inp.width ∧ inp.top ≤ y ∧ y < inp.top + inp.height) →
                t.getF32 d x y c n = inp.fill))
          ∧ ∀ adr, ¬ElementByte d d.shape adr → t.readByte adr = s.readByte adr)
    ∧ (InputReady s.params.memSize d .f32 →
        (∀ l, act = .lPad inp → s.layer = some l → ¬OnlyPreparePending s l → hostAct act s = .refused .runNotEnded)
        ∧ (act = .hostPad pin inp → ¬EndedWell s → everywhere (fun a => touchesAny s.owned.pin a 4 = true) →
            hostAct act s = .refused .runNotEnded))
    ∧ (¬(d.bound = true ∧ d.shaped = true ∧ d.dtype = 1) → hostAct act s = .next { s with draws := s.draws + 1 })

/-! ## The laws of the dot product -/

/-- R165, with the match count of the model's computation: M and T are non-negative integers with 0 <= M <= T; v = 2M - T is
between -T and T, fits an s32, has the parity of T, and is T iff all bits match, -T iff none does. -/
def Obligations.DotProductIntegerLaws : Prop :=
  ∀ (s : State) (act wts : Desc) (sx sy ox oy oc n : Nat), wts.w * wts.h * act.c ≤ 2 ^ 31 - 1 →
    let t : Int := (wts.w * wts.h * act.c : Nat)
    let m := matchSum s act wts sx sy ox oy oc n
    let v := dotValue s act wts sx sy ox oy oc n
    let eq (c j i : Nat) := s.getBit act (ox * sx + i) (oy * sy + j) c n = s.getBit wts i j c oc
    0 ≤ m ∧ m ≤ t ∧ t ≤ 2 ^ 31 - 1 ∧ v = 2 * m - t ∧ -t ≤ v ∧ v ≤ t ∧ -2 ^ 31 ≤ v ∧ v < 2 ^ 31 ∧ v % 2 = t % 2
      ∧ (v = t ↔ ∀ c j i, c < act.c → j < wts.h → i < wts.w → eq c j i)
      ∧ (v = -t ↔ ∀ c j i, c < act.c → j < wts.h → i < wts.w → ¬eq c j i)

/-- R166: v is the dot product of the signs, +1 for bit 1 and -1 for bit 0. -/
def Obligations.DotProductOfSigns : Prop :=
  ∀ (s : State) (act wts : Desc) (sx sy ox oy oc n : Nat),
    dotValue s act wts sx sy ox oy oc n = fieldSum s act wts sx sy ox oy oc n (fun p q => sgn p * sgn q)

/-- The count on packed bytes (R160, R15): for a window of at most 8 columns that starts at a byte boundary, the matches of one
window row are the 1 bits of the masked XNOR of the activation byte and the weight byte. -/
def Obligations.PackedByteMatchCount : Prop :=
  ∀ (s : State) (act wts : Desc) (x0 y j c n oc : Nat), wts.w ≤ 8 → x0 % 8 = 0 →
    ((List.range wts.w).map fun i => if s.getBit act (x0 + i) y c n = s.getBit wts i j c oc then 1 else 0).sum
      = popcnt8 (xnor8 (s.readByte (act.base.toNat + x0 / 8 + y * act.s1 + c * act.s2 + n * act.s3))
          (s.readByte (wts.base.toNat + j * wts.s1 + c * wts.s2 + oc * wts.s3))
          &&& BitVec.ofNat 8 (0xFF * 2 ^ (8 - wts.w)))

/-! ## Float arithmetic -/

/-- `fgt0` (R14): true exactly for the patterns of positive finite values, subnormals included, and of +infinity; false for
both zeros, negatives and every NaN. `fabs32` clears the sign bit, also of a NaN. -/
def Obligations.SignAndMagnitudePatterns : Prop :=
  ∀ v : Word, (fgt0 v = true ↔ 1 ≤ v.toNat ∧ v.toNat ≤ 0x7F800000) ∧ (fabs32 v).toNat = v.toNat % 2 ^ 31

/-- `fadd32` (R14) of finite values is their sum rounded once to nearest, ties to even, subnormals kept, infinite exactly from
the overflow bound on; an exact zero is -0 only for two negative zeros. An infinity plus a finite value, or plus the same
infinity, is that infinity. -/
def Obligations.SumRoundsToNearest : Prop :=
  ∀ nan a b : Word,
    (IsFinite a → IsFinite b →
      let e := f32Val a + f32Val b
      let r := fadd32 nan a b
      (|e| < overflowBound → Nearest r e 1)
        ∧ ((overflowBound : Int) ≤ |e| → r = if e < 0 then 0xFF800000 else 0x7F800000)
        ∧ (e ≠ 0 → f32Neg r = decide (e < 0)) ∧ (e = 0 → f32Neg r = (f32Neg a && f32Neg b)))
      ∧ (f32IsInf a = true → IsFinite b ∨ b = a → fadd32 nan a b = a)
      ∧ (f32IsInf b = true → IsFinite a → fadd32 nan a b = b)

/-- `fmul32` (R14) of finite values is their product rounded once to nearest, ties to even. An infinity times a value that is
neither a zero nor a NaN is an infinity; the sign is the exclusive or of the signs. -/
def Obligations.ProductRoundsToNearest : Prop :=
  ∀ nan a b : Word,
    (IsFinite a → IsFinite b →
      let e := f32Val a * f32Val b
      let r := fmul32 nan a b
      (|e| < overflowBound * 2 ^ 149 → Nearest r e (2 ^ 149))
        ∧ ((overflowBound : Int) * 2 ^ 149 ≤ |e| → r.toNat % 2 ^ 31 = 0x7F800000)
        ∧ f32Neg r = (f32Neg a != f32Neg b))
      ∧ (f32IsInf a = true ∨ f32IsInf b = true → f32IsNaN a = false → f32IsNaN b = false → a.toNat % 2 ^ 31 ≠ 0 →
          b.toNat % 2 ^ 31 ≠ 0 → fmul32 nan a b = if f32Neg a = f32Neg b then 0x7F800000 else 0xFF800000)

/-- `fdiv32` (R14) of a finite value by a finite one that is not zero is their quotient rounded once to nearest, ties to even. A
finite value over an infinity is a zero, an infinity over a finite value and a finite value that is not zero over a zero are
infinities; the sign is the exclusive or of the signs. -/
def Obligations.QuotientRoundsToNearest : Prop :=
  ∀ nan a b : Word,
    (IsFinite a → IsFinite b → f32Mag b ≠ 0 →
      let r := fdiv32 nan a b
      ((f32Mag a : Int) * 2 ^ 149 < overflowBound * f32Mag b →
          Nearest r ((if f32Neg b then -1 else 1) * f32Val a * 2 ^ 149) (f32Mag b))
        ∧ ((overflowBound : Int) * f32Mag b ≤ f32Mag a * 2 ^ 149 → r.toNat % 2 ^ 31 = 0x7F800000)
        ∧ f32Neg r = (f32Neg a != f32Neg b))
      ∧ (IsFinite a → f32IsInf b = true → fdiv32 nan a b = if f32Neg a = f32Neg b then 0 else 0x80000000)
      ∧ (f32IsInf a = true ∧ IsFinite b ∨ IsFinite a ∧ a.toNat % 2 ^ 31 ≠ 0 ∧ b.toNat % 2 ^ 31 = 0 →
          fdiv32 nan a b = if f32Neg a = f32Neg b then 0x7F800000 else 0xFF800000)

/-- `cvt_u32_f32` and `cvt_s32_f32` are exact up to 2^24 and otherwise round to nearest, ties to even (R14). -/
def Obligations.ConversionsRoundToNearest : Prop :=
  (∀ n : Nat, n < 2 ^ 32 → Nearest (cvtU32 n) (n * 2 ^ 149) 1 ∧ (n ≤ 2 ^ 24 → f32Val (cvtU32 n) = n * 2 ^ 149))
    ∧ ∀ v : Int, -2 ^ 31 ≤ v → v < 2 ^ 31 →
      Nearest (cvtS32 v) (v * 2 ^ 149) 1 ∧ (|v| ≤ 2 ^ 24 → f32Val (cvtS32 v) = v * 2 ^ 149)

/-- When a result is a NaN (R14): exactly for a NaN operand and the invalid operations, and then it is the quiet NaN that was
drawn. -/
def Obligations.NaNExactlyForInvalid : Prop :=
  ∀ nan a b : Word, QuietNaN nan →
    (f32IsNaN (fadd32 nan a b) = true ↔ f32IsNaN a = true ∨ f32IsNaN b = true
        ∨ (f32IsInf a = true ∧ f32IsInf b = true ∧ f32Neg a ≠ f32Neg b))
      ∧ (f32IsNaN (fmul32 nan a b) = true ↔ f32IsNaN a = true ∨ f32IsNaN b = true
        ∨ (f32IsInf a = true ∧ b.toNat % 2 ^ 31 = 0) ∨ (a.toNat % 2 ^ 31 = 0 ∧ f32IsInf b = true))
      ∧ (f32IsNaN (fdiv32 nan a b) = true ↔ f32IsNaN a = true ∨ f32IsNaN b = true
        ∨ (f32IsInf a = true ∧ f32IsInf b = true) ∨ (a.toNat % 2 ^ 31 = 0 ∧ b.toNat % 2 ^ 31 = 0))
      ∧ ∀ r ∈ [fadd32 nan a b, fmul32 nan a b, fdiv32 nan a b], f32IsNaN r = true → r = nan

/-! ## The statistics -/

/-- Alpha and beta are never negative and never negative zero (R135), for each of the three commands that write them: each is a
NaN or has its sign bit clear. -/
def Obligations.StatisticsNeverNegative : Prop :=
  ∀ (s : State) (sa sb sc sd : Slot),
    let notNeg (v : Word) : Prop := f32IsNaN v = true ∨ f32Neg v = false
    let alphas (t : State) : Prop := ∀ n < (s.tdAt sa).n, notNeg (t.getF32 (s.tdAt sc) n 0 0 0)
    let betas (t : State) : Prop := ∀ x y n, x < (s.tdAt sa).w → y < (s.tdAt sa).h → n < (s.tdAt sa).n →
      notNeg (t.getF32 (s.tdAt sd) x y 0 n)
    (BsignReady .exec true false s sa sb sc 0 → ∃ t, exec (.bsignAExec sa sb sc) s = .next t ∧ alphas t)
      ∧ (BsignReady .exec false true s sa sb 0 sd → ∃ t, exec (.bsignBExec sa sb sd) s = .next t ∧ betas t)
      ∧ (BsignReady .exec true true s sa sb sc sd → ∃ t, exec (.bsignABExec sa sb sc sd) s = .next t ∧ alphas t ∧ betas t)

/-- Depth 1 (R131): beta is exactly the magnitude of the source element, where that is not a NaN. And the beta invariant with
its condition (R134 (c)): a depth column whose elements all have magnitude `m` has beta `m`, whatever the depth, when every
partial sum `k * m` is a binary32 value; the depth is at most 65535 (R26), so within R134's bound. For both commands that write
beta. -/
def Obligations.BetaOfDepthOneOrConstantColumn : Prop :=
  ∀ (s : State) (sa sb sc sd : Slot),
    let src := s.tdAt sa
    let betas (t : State) : Prop :=
      (src.c = 1 → ∀ x y n, x < src.w → y < src.h → n < src.n → f32IsNaN (s.getF32 src x y 0 n) = false →
          t.getF32 (s.tdAt sd) x y 0 n = fabs32 (s.getF32 src x y 0 n))
        ∧ ∀ (x y n : Nat) (m : Word), x < src.w → y < src.h → n < src.n → IsFinite m → f32Neg m = false →
          (∀ c < src.c, fabs32 (s.getF32 src x y c n) = m) →
          (∀ k ≤ src.c, ∃ z, IsFinite z ∧ f32Val z = k * f32Val m) → t.getF32 (s.tdAt sd) x y 0 n = m
    (BsignReady .exec false true s sa sb 0 sd → ∃ t, exec (.bsignBExec sa sb sd) s = .next t ∧ betas t)
      ∧ (BsignReady .exec true true s sa sb sc sd → ∃ t, exec (.bsignABExec sa sb sc sd) s = .next t ∧ betas t)

/-- The alpha invariant with its condition (R134 (b)): a block whose elements all have magnitude `m` has alpha `m`, when every
partial sum `k * m` is a binary32 value and the block has at most 2^24 elements. For both commands that write alpha. -/
def Obligations.AlphaOfConstantBlock : Prop :=
  ∀ (s : State) (sa sb sc sd : Slot),
    let src := s.tdAt sa
    let alphas (t : State) : Prop := ∀ (n : Nat) (m : Word), n < src.n → IsFinite m → f32Neg m = false →
      (∀ x y c, x < src.w → y < src.h → c < src.c → fabs32 (s.getF32 src x y c n) = m) → src.w * src.h * src.c ≤ 2 ^ 24 →
      (∀ k ≤ src.w * src.h * src.c, ∃ z, IsFinite z ∧ f32Val z = k * f32Val m) → t.getF32 (s.tdAt sc) n 0 0 0 = m
    (BsignReady .exec true false s sa sb sc 0 → ∃ t, exec (.bsignAExec sa sb sc) s = .next t ∧ alphas t)
      ∧ (BsignReady .exec true true s sa sb sc sd → ∃ t, exec (.bsignABExec sa sb sc sd) s = .next t ∧ alphas t)

/-- R125: the values in the stride padding of a `BSIGN` source never reach a sign bit, alpha or beta: for each of the four
commands in EXEC mode (`a` and `b` are its flags), two states that differ only in memory and agree on the elements of the
source leave the same outputs. That whole packed bytes and the sign and payload of NaN cells agree too is the model's: both runs
draw by the same number (log 3, log 4), where R13 lets `any` differ. -/
def Obligations.SourcePaddingReachesNoResult : Prop :=
  ∀ (s : State) (mem' : Memory) (i : Instr) (a b : Bool) (sa sb sc sd : Slot),
    kernelOf i = some (.exec, .bsign a b sa sb sc sd) → BsignReady .exec a b s sa sb sc sd →
    (∀ x y c n, x < (s.tdAt sa).w → y < (s.tdAt sa).h → c < (s.tdAt sa).c → n < (s.tdAt sa).n →
      State.getF32 { s with mem := mem' } (s.tdAt sa) x y c n = s.getF32 (s.tdAt sa) x y c n) →
      ∃ t t', exec i s = .next t ∧ exec i { s with mem := mem' } = .next t'
        ∧ ∀ adr, (PackedByteAt (s.tdAt sb) (packedShape (s.tdAt sa)) adr
            ∨ (a = true ∧ ElementByte (s.tdAt sc) (alphaShape (s.tdAt sa)) adr)
            ∨ (b = true ∧ ElementByte (s.tdAt sd) (betaShape (s.tdAt sa)) adr)) → t'.readByte adr = t.readByte adr

/-! ## Workers -/

/-- The result of a command does not depend on the order in which its cells are written (R74, R133, R149, R169): writing what a
ready command computes in any order leaves the same memory. That a command is one step, whose cells are all computed from the
state before it, is the model's reading (log 8). -/
def Obligations.CellOrderDoesNotMatter : Prop :=
  ∀ (s : State) (cells : List Host.Cell), MemoryOk s →
    (∀ a b sa sb sc sd, BsignReady .exec a b s sa sb sc sd → cells.Perm (computeBsign a b sa sb sc sd s) →
        s.mem.setAll cells = s.mem.setAll (computeBsign a b sa sb sc sd s))
      ∧ (∀ sa sb win, BnormReady .exec s sa sb win → cells.Perm (computeBnorm sa sb win s) →
        s.mem.setAll cells = s.mem.setAll (computeBnorm sa sb win s))
      ∧ ∀ bias sa sb sc sd se sf sx sy, BconvReady .exec bias s sa sb sc sd se sf sx sy →
        cells.Perm (computeBconv bias sa sb sc sd se sf sx sy s) →
        s.mem.setAll cells = s.mem.setAll (computeBconv bias sa sb sc sd se sf sx sy s)

end
end

