-- ==== Sys2Proof/Laws/State.lean ====
section
/-! SUPPORT. What every shared operation does to every field of the state: one lemma per field per operation, so that no
later proof unfolds a record update. -/

namespace Sys2Proof.Machine

/-! ## `retire` -/

@[simp] theorem retire_mem (s : State) : (retire s).mem = s.mem := rfl
@[simp] theorem retire_td (s : State) : (retire s).td = s.td := rfl
@[simp] theorem retire_queue (s : State) : (retire s).queue = s.queue.tail := rfl
@[simp] theorem retire_issued (s : State) : (retire s).issued = s.issued := rfl
@[simp] theorem retire_retired (s : State) : (retire s).retired = s.retired + 1 := rfl
@[simp] theorem retire_err (s : State) : (retire s).err = s.err := rfl
@[simp] theorem retire_wpq (s : State) : (retire s).wpq = s.wpq := rfl
@[simp] theorem retire_wpn (s : State) : (retire s).wpn = s.wpn := rfl
@[simp] theorem retire_errInfo (s : State) : (retire s).errInfo = s.errInfo := rfl
@[simp] theorem retire_errCmd (s : State) : (retire s).errCmd = s.errCmd := rfl
@[simp] theorem retire_errW0 (s : State) : (retire s).errW0 = s.errW0 := rfl
@[simp] theorem retire_vstat (s : State) : (retire s).vstat = s.vstat := rfl
@[simp] theorem retire_vcmd (s : State) : (retire s).vcmd = s.vcmd := rfl
@[simp] theorem retire_cmdw0 (s : State) : (retire s).cmdw0 = s.cmdw0 := rfl
@[simp] theorem retire_cmdw1 (s : State) : (retire s).cmdw1 = s.cmdw1 := rfl
@[simp] theorem retire_cmdw2 (s : State) : (retire s).cmdw2 = s.cmdw2 := rfl
@[simp] theorem retire_cmdw3 (s : State) : (retire s).cmdw3 = s.cmdw3 := rfl
@[simp] theorem retire_params (s : State) : (retire s).params = s.params := rfl
@[simp] theorem retire_unsynced (s : State) : (retire s).unsynced = s.unsynced := rfl
@[simp] theorem retire_discarded (s : State) : (retire s).discarded = s.discarded := rfl
@[simp] theorem retire_memDraw (s : State) : (retire s).memDraw = s.memDraw := rfl
@[simp] theorem retire_draws (s : State) : (retire s).draws = s.draws := rfl
@[simp] theorem retire_script (s : State) : (retire s).script = s.script := rfl
@[simp] theorem retire_sched (s : State) : (retire s).sched = s.sched := rfl
@[simp] theorem retire_rdata (s : State) : (retire s).rdata = s.rdata := rfl
@[simp] theorem retire_mdata (s : State) : (retire s).mdata = s.mdata := rfl
@[simp] theorem retire_lstate (s : State) : (retire s).lstate = s.lstate := rfl
@[simp] theorem retire_layer (s : State) : (retire s).layer = s.layer := rfl
@[simp] theorem retire_owned (s : State) : (retire s).owned = s.owned := rfl
@[simp] theorem retire_lresult (s : State) : (retire s).lresult = s.lresult := rfl

/-! ## `writeCells` -/

@[simp] theorem writeCells_mem (s : State) (cells : List Host.Cell) : (State.writeCells s cells).mem = Memory.setAll s.mem cells := rfl
@[simp] theorem writeCells_td (s : State) (cells : List Host.Cell) : (State.writeCells s cells).td = s.td := rfl
@[simp] theorem writeCells_queue (s : State) (cells : List Host.Cell) : (State.writeCells s cells).queue = s.queue := rfl
@[simp] theorem writeCells_issued (s : State) (cells : List Host.Cell) : (State.writeCells s cells).issued = s.issued := rfl
@[simp] theorem writeCells_retired (s : State) (cells : List Host.Cell) : (State.writeCells s cells).retired = s.retired := rfl
@[simp] theorem writeCells_err (s : State) (cells : List Host.Cell) : (State.writeCells s cells).err = s.err := rfl
@[simp] theorem writeCells_wpq (s : State) (cells : List Host.Cell) : (State.writeCells s cells).wpq = s.wpq := rfl
@[simp] theorem writeCells_wpn (s : State) (cells : List Host.Cell) : (State.writeCells s cells).wpn = s.wpn := rfl
@[simp] theorem writeCells_errInfo (s : State) (cells : List Host.Cell) : (State.writeCells s cells).errInfo = s.errInfo := rfl
@[simp] theorem writeCells_errCmd (s : State) (cells : List Host.Cell) : (State.writeCells s cells).errCmd = s.errCmd := rfl
@[simp] theorem writeCells_errW0 (s : State) (cells : List Host.Cell) : (State.writeCells s cells).errW0 = s.errW0 := rfl
@[simp] theorem writeCells_vstat (s : State) (cells : List Host.Cell) : (State.writeCells s cells).vstat = s.vstat := rfl
@[simp] theorem writeCells_vcmd (s : State) (cells : List Host.Cell) : (State.writeCells s cells).vcmd = s.vcmd := rfl
@[simp] theorem writeCells_cmdw0 (s : State) (cells : List Host.Cell) : (State.writeCells s cells).cmdw0 = s.cmdw0 := rfl
@[simp] theorem writeCells_cmdw1 (s : State) (cells : List Host.Cell) : (State.writeCells s cells).cmdw1 = s.cmdw1 := rfl
@[simp] theorem writeCells_cmdw2 (s : State) (cells : List Host.Cell) : (State.writeCells s cells).cmdw2 = s.cmdw2 := rfl
@[simp] theorem writeCells_cmdw3 (s : State) (cells : List Host.Cell) : (State.writeCells s cells).cmdw3 = s.cmdw3 := rfl
@[simp] theorem writeCells_params (s : State) (cells : List Host.Cell) : (State.writeCells s cells).params = s.params := rfl
@[simp] theorem writeCells_unsynced (s : State) (cells : List Host.Cell) : (State.writeCells s cells).unsynced = s.unsynced := rfl
@[simp] theorem writeCells_discarded (s : State) (cells : List Host.Cell) : (State.writeCells s cells).discarded = s.discarded := rfl
@[simp] theorem writeCells_memDraw (s : State) (cells : List Host.Cell) : (State.writeCells s cells).memDraw = s.memDraw := rfl
@[simp] theorem writeCells_draws (s : State) (cells : List Host.Cell) : (State.writeCells s cells).draws = s.draws := rfl
@[simp] theorem writeCells_script (s : State) (cells : List Host.Cell) : (State.writeCells s cells).script = s.script := rfl
@[simp] theorem writeCells_sched (s : State) (cells : List Host.Cell) : (State.writeCells s cells).sched = s.sched := rfl
@[simp] theorem writeCells_rdata (s : State) (cells : List Host.Cell) : (State.writeCells s cells).rdata = s.rdata := rfl
@[simp] theorem writeCells_mdata (s : State) (cells : List Host.Cell) : (State.writeCells s cells).mdata = s.mdata := rfl
@[simp] theorem writeCells_lstate (s : State) (cells : List Host.Cell) : (State.writeCells s cells).lstate = s.lstate := rfl
@[simp] theorem writeCells_layer (s : State) (cells : List Host.Cell) : (State.writeCells s cells).layer = s.layer := rfl
@[simp] theorem writeCells_owned (s : State) (cells : List Host.Cell) : (State.writeCells s cells).owned = s.owned := rfl
@[simp] theorem writeCells_lresult (s : State) (cells : List Host.Cell) : (State.writeCells s cells).lresult = s.lresult := rfl

/-! ## `forget` -/

@[simp] theorem forget_mem (s : State) (is : List Interval) : (State.forget s is).mem = Memory.setAll s.mem (is.flatMap (freeCells s.draws s.params.memSize)) := rfl
@[simp] theorem forget_td (s : State) (is : List Interval) : (State.forget s is).td = s.td := rfl
@[simp] theorem forget_queue (s : State) (is : List Interval) : (State.forget s is).queue = s.queue := rfl
@[simp] theorem forget_issued (s : State) (is : List Interval) : (State.forget s is).issued = s.issued := rfl
@[simp] theorem forget_retired (s : State) (is : List Interval) : (State.forget s is).retired = s.retired := rfl
@[simp] theorem forget_err (s : State) (is : List Interval) : (State.forget s is).err = s.err := rfl
@[simp] theorem forget_wpq (s : State) (is : List Interval) : (State.forget s is).wpq = s.wpq := rfl
@[simp] theorem forget_wpn (s : State) (is : List Interval) : (State.forget s is).wpn = s.wpn := rfl
@[simp] theorem forget_errInfo (s : State) (is : List Interval) : (State.forget s is).errInfo = s.errInfo := rfl
@[simp] theorem forget_errCmd (s : State) (is : List Interval) : (State.forget s is).errCmd = s.errCmd := rfl
@[simp] theorem forget_errW0 (s : State) (is : List Interval) : (State.forget s is).errW0 = s.errW0 := rfl
@[simp] theorem forget_vstat (s : State) (is : List Interval) : (State.forget s is).vstat = s.vstat := rfl
@[simp] theorem forget_vcmd (s : State) (is : List Interval) : (State.forget s is).vcmd = s.vcmd := rfl
@[simp] theorem forget_cmdw0 (s : State) (is : List Interval) : (State.forget s is).cmdw0 = s.cmdw0 := rfl
@[simp] theorem forget_cmdw1 (s : State) (is : List Interval) : (State.forget s is).cmdw1 = s.cmdw1 := rfl
@[simp] theorem forget_cmdw2 (s : State) (is : List Interval) : (State.forget s is).cmdw2 = s.cmdw2 := rfl
@[simp] theorem forget_cmdw3 (s : State) (is : List Interval) : (State.forget s is).cmdw3 = s.cmdw3 := rfl
@[simp] theorem forget_params (s : State) (is : List Interval) : (State.forget s is).params = s.params := rfl
@[simp] theorem forget_unsynced (s : State) (is : List Interval) : (State.forget s is).unsynced = s.unsynced := rfl
@[simp] theorem forget_discarded (s : State) (is : List Interval) : (State.forget s is).discarded = s.discarded := rfl
@[simp] theorem forget_memDraw (s : State) (is : List Interval) : (State.forget s is).memDraw = s.memDraw := rfl
@[simp] theorem forget_draws (s : State) (is : List Interval) : (State.forget s is).draws = s.draws + 1 := rfl
@[simp] theorem forget_script (s : State) (is : List Interval) : (State.forget s is).script = s.script := rfl
@[simp] theorem forget_sched (s : State) (is : List Interval) : (State.forget s is).sched = s.sched := rfl
@[simp] theorem forget_rdata (s : State) (is : List Interval) : (State.forget s is).rdata = s.rdata := rfl
@[simp] theorem forget_mdata (s : State) (is : List Interval) : (State.forget s is).mdata = s.mdata := rfl
@[simp] theorem forget_lstate (s : State) (is : List Interval) : (State.forget s is).lstate = s.lstate := rfl
@[simp] theorem forget_layer (s : State) (is : List Interval) : (State.forget s is).layer = s.layer := rfl
@[simp] theorem forget_owned (s : State) (is : List Interval) : (State.forget s is).owned = s.owned := rfl
@[simp] theorem forget_lresult (s : State) (is : List Interval) : (State.forget s is).lresult = s.lresult := rfl

/-! ## `drain` -/

@[simp] theorem drain_mem (s : State) : (drain s).mem = s.mem := rfl
@[simp] theorem drain_td (s : State) : (drain s).td = s.td := rfl
@[simp] theorem drain_queue (s : State) : (drain s).queue = s.queue := rfl
@[simp] theorem drain_issued (s : State) : (drain s).issued = s.issued := rfl
@[simp] theorem drain_retired (s : State) : (drain s).retired = s.retired := rfl
@[simp] theorem drain_err (s : State) : (drain s).err = s.err := rfl
@[simp] theorem drain_wpq (s : State) : (drain s).wpq = false := rfl
@[simp] theorem drain_wpn (s : State) : (drain s).wpn = false := rfl
@[simp] theorem drain_errInfo (s : State) : (drain s).errInfo = s.errInfo := rfl
@[simp] theorem drain_errCmd (s : State) : (drain s).errCmd = s.errCmd := rfl
@[simp] theorem drain_errW0 (s : State) : (drain s).errW0 = s.errW0 := rfl
@[simp] theorem drain_vstat (s : State) : (drain s).vstat = s.vstat := rfl
@[simp] theorem drain_vcmd (s : State) : (drain s).vcmd = s.vcmd := rfl
@[simp] theorem drain_cmdw0 (s : State) : (drain s).cmdw0 = s.cmdw0 := rfl
@[simp] theorem drain_cmdw1 (s : State) : (drain s).cmdw1 = s.cmdw1 := rfl
@[simp] theorem drain_cmdw2 (s : State) : (drain s).cmdw2 = s.cmdw2 := rfl
@[simp] theorem drain_cmdw3 (s : State) : (drain s).cmdw3 = s.cmdw3 := rfl
@[simp] theorem drain_params (s : State) : (drain s).params = s.params := rfl
@[simp] theorem drain_unsynced (s : State) : (drain s).unsynced = [] := rfl
@[simp] theorem drain_discarded (s : State) : (drain s).discarded = s.discarded := rfl
@[simp] theorem drain_memDraw (s : State) : (drain s).memDraw = s.memDraw := rfl
@[simp] theorem drain_draws (s : State) : (drain s).draws = s.draws := rfl
@[simp] theorem drain_script (s : State) : (drain s).script = s.script := rfl
@[simp] theorem drain_sched (s : State) : (drain s).sched = s.sched := rfl
@[simp] theorem drain_rdata (s : State) : (drain s).rdata = s.rdata := rfl
@[simp] theorem drain_mdata (s : State) : (drain s).mdata = s.mdata := rfl
@[simp] theorem drain_lstate (s : State) : (drain s).lstate = s.lstate := rfl
@[simp] theorem drain_layer (s : State) : (drain s).layer = s.layer := rfl
@[simp] theorem drain_owned (s : State) : (drain s).owned = s.owned := rfl
@[simp] theorem drain_lresult (s : State) : (drain s).lresult = s.lresult := rfl

/-! ## `dropTurn` -/

@[simp] theorem dropTurn_mem (s : State) : (dropTurn s).mem = s.mem := rfl
@[simp] theorem dropTurn_td (s : State) : (dropTurn s).td = s.td := rfl
@[simp] theorem dropTurn_queue (s : State) : (dropTurn s).queue = s.queue := rfl
@[simp] theorem dropTurn_issued (s : State) : (dropTurn s).issued = s.issued := rfl
@[simp] theorem dropTurn_retired (s : State) : (dropTurn s).retired = s.retired := rfl
@[simp] theorem dropTurn_err (s : State) : (dropTurn s).err = s.err := rfl
@[simp] theorem dropTurn_wpq (s : State) : (dropTurn s).wpq = s.wpq := rfl
@[simp] theorem dropTurn_wpn (s : State) : (dropTurn s).wpn = s.wpn := rfl
@[simp] theorem dropTurn_errInfo (s : State) : (dropTurn s).errInfo = s.errInfo := rfl
@[simp] theorem dropTurn_errCmd (s : State) : (dropTurn s).errCmd = s.errCmd := rfl
@[simp] theorem dropTurn_errW0 (s : State) : (dropTurn s).errW0 = s.errW0 := rfl
@[simp] theorem dropTurn_vstat (s : State) : (dropTurn s).vstat = s.vstat := rfl
@[simp] theorem dropTurn_vcmd (s : State) : (dropTurn s).vcmd = s.vcmd := rfl
@[simp] theorem dropTurn_cmdw0 (s : State) : (dropTurn s).cmdw0 = s.cmdw0 := rfl
@[simp] theorem dropTurn_cmdw1 (s : State) : (dropTurn s).cmdw1 = s.cmdw1 := rfl
@[simp] theorem dropTurn_cmdw2 (s : State) : (dropTurn s).cmdw2 = s.cmdw2 := rfl
@[simp] theorem dropTurn_cmdw3 (s : State) : (dropTurn s).cmdw3 = s.cmdw3 := rfl
@[simp] theorem dropTurn_params (s : State) : (dropTurn s).params = s.params := rfl
@[simp] theorem dropTurn_unsynced (s : State) : (dropTurn s).unsynced = s.unsynced := rfl
@[simp] theorem dropTurn_discarded (s : State) : (dropTurn s).discarded = s.discarded := rfl
@[simp] theorem dropTurn_memDraw (s : State) : (dropTurn s).memDraw = s.memDraw := rfl
@[simp] theorem dropTurn_draws (s : State) : (dropTurn s).draws = s.draws := rfl
@[simp] theorem dropTurn_script (s : State) : (dropTurn s).script = s.script := rfl
@[simp] theorem dropTurn_sched (s : State) : (dropTurn s).sched = s.sched.tail := rfl
@[simp] theorem dropTurn_rdata (s : State) : (dropTurn s).rdata = s.rdata := rfl
@[simp] theorem dropTurn_mdata (s : State) : (dropTurn s).mdata = s.mdata := rfl
@[simp] theorem dropTurn_lstate (s : State) : (dropTurn s).lstate = s.lstate := rfl
@[simp] theorem dropTurn_layer (s : State) : (dropTurn s).layer = s.layer := rfl
@[simp] theorem dropTurn_owned (s : State) : (dropTurn s).owned = s.owned := rfl
@[simp] theorem dropTurn_lresult (s : State) : (dropTurn s).lresult = s.lresult := rfl

/-! ## `markPending` -/

@[simp] theorem markPending_mem (k : Kernel) (s : State) : (markPending k s).mem = s.mem := by cases k <;> rfl
@[simp] theorem markPending_td (k : Kernel) (s : State) : (markPending k s).td = s.td := by cases k <;> rfl
@[simp] theorem markPending_queue (k : Kernel) (s : State) : (markPending k s).queue = s.queue := by cases k <;> rfl
@[simp] theorem markPending_issued (k : Kernel) (s : State) : (markPending k s).issued = s.issued := by cases k <;> rfl
@[simp] theorem markPending_retired (k : Kernel) (s : State) : (markPending k s).retired = s.retired := by cases k <;> rfl
@[simp] theorem markPending_err (k : Kernel) (s : State) : (markPending k s).err = s.err := by cases k <;> rfl
@[simp] theorem markPending_errInfo (k : Kernel) (s : State) : (markPending k s).errInfo = s.errInfo := by cases k <;> rfl
@[simp] theorem markPending_errCmd (k : Kernel) (s : State) : (markPending k s).errCmd = s.errCmd := by cases k <;> rfl
@[simp] theorem markPending_errW0 (k : Kernel) (s : State) : (markPending k s).errW0 = s.errW0 := by cases k <;> rfl
@[simp] theorem markPending_vstat (k : Kernel) (s : State) : (markPending k s).vstat = s.vstat := by cases k <;> rfl
@[simp] theorem markPending_vcmd (k : Kernel) (s : State) : (markPending k s).vcmd = s.vcmd := by cases k <;> rfl
@[simp] theorem markPending_cmdw0 (k : Kernel) (s : State) : (markPending k s).cmdw0 = s.cmdw0 := by cases k <;> rfl
@[simp] theorem markPending_cmdw1 (k : Kernel) (s : State) : (markPending k s).cmdw1 = s.cmdw1 := by cases k <;> rfl
@[simp] theorem markPending_cmdw2 (k : Kernel) (s : State) : (markPending k s).cmdw2 = s.cmdw2 := by cases k <;> rfl
@[simp] theorem markPending_cmdw3 (k : Kernel) (s : State) : (markPending k s).cmdw3 = s.cmdw3 := by cases k <;> rfl
@[simp] theorem markPending_params (k : Kernel) (s : State) : (markPending k s).params = s.params := by cases k <;> rfl
@[simp] theorem markPending_unsynced (k : Kernel) (s : State) : (markPending k s).unsynced = s.unsynced := by cases k <;> rfl
@[simp] theorem markPending_discarded (k : Kernel) (s : State) : (markPending k s).discarded = s.discarded := by cases k <;> rfl
@[simp] theorem markPending_memDraw (k : Kernel) (s : State) : (markPending k s).memDraw = s.memDraw := by cases k <;> rfl
@[simp] theorem markPending_draws (k : Kernel) (s : State) : (markPending k s).draws = s.draws := by cases k <;> rfl
@[simp] theorem markPending_script (k : Kernel) (s : State) : (markPending k s).script = s.script := by cases k <;> rfl
@[simp] theorem markPending_sched (k : Kernel) (s : State) : (markPending k s).sched = s.sched := by cases k <;> rfl
@[simp] theorem markPending_rdata (k : Kernel) (s : State) : (markPending k s).rdata = s.rdata := by cases k <;> rfl
@[simp] theorem markPending_mdata (k : Kernel) (s : State) : (markPending k s).mdata = s.mdata := by cases k <;> rfl
@[simp] theorem markPending_lstate (k : Kernel) (s : State) : (markPending k s).lstate = s.lstate := by cases k <;> rfl
@[simp] theorem markPending_layer (k : Kernel) (s : State) : (markPending k s).layer = s.layer := by cases k <;> rfl
@[simp] theorem markPending_owned (k : Kernel) (s : State) : (markPending k s).owned = s.owned := by cases k <;> rfl
@[simp] theorem markPending_lresult (k : Kernel) (s : State) : (markPending k s).lresult = s.lresult := by cases k <;> rfl

/-! ## `latchError` -/

@[simp] theorem latchError_mem (e : Err) (cmd w0 : Word) (s : State) : (latchError e cmd w0 s).mem = s.mem := by unfold latchError; split <;> rfl
@[simp] theorem latchError_td (e : Err) (cmd w0 : Word) (s : State) : (latchError e cmd w0 s).td = s.td := by unfold latchError; split <;> rfl
@[simp] theorem latchError_queue (e : Err) (cmd w0 : Word) (s : State) : (latchError e cmd w0 s).queue = s.queue := by unfold latchError; split <;> rfl
@[simp] theorem latchError_issued (e : Err) (cmd w0 : Word) (s : State) : (latchError e cmd w0 s).issued = s.issued := by unfold latchError; split <;> rfl
@[simp] theorem latchError_retired (e : Err) (cmd w0 : Word) (s : State) : (latchError e cmd w0 s).retired = s.retired := by unfold latchError; split <;> rfl
@[simp] theorem latchError_err (e : Err) (cmd w0 : Word) (s : State) : (latchError e cmd w0 s).err = true := by unfold latchError; split <;> simp_all
@[simp] theorem latchError_wpq (e : Err) (cmd w0 : Word) (s : State) : (latchError e cmd w0 s).wpq = s.wpq := by unfold latchError; split <;> rfl
@[simp] theorem latchError_wpn (e : Err) (cmd w0 : Word) (s : State) : (latchError e cmd w0 s).wpn = s.wpn := by unfold latchError; split <;> rfl
@[simp] theorem latchError_errInfo (e : Err) (cmd w0 : Word) (s : State) : (latchError e cmd w0 s).errInfo = if s.err then s.errInfo else e.word := by unfold latchError; split <;> simp_all
@[simp] theorem latchError_errCmd (e : Err) (cmd w0 : Word) (s : State) : (latchError e cmd w0 s).errCmd = if s.err then s.errCmd else cmd := by unfold latchError; split <;> simp_all
@[simp] theorem latchError_errW0 (e : Err) (cmd w0 : Word) (s : State) : (latchError e cmd w0 s).errW0 = if s.err then s.errW0 else w0 := by unfold latchError; split <;> simp_all
@[simp] theorem latchError_vstat (e : Err) (cmd w0 : Word) (s : State) : (latchError e cmd w0 s).vstat = s.vstat := by unfold latchError; split <;> rfl
@[simp] theorem latchError_vcmd (e : Err) (cmd w0 : Word) (s : State) : (latchError e cmd w0 s).vcmd = s.vcmd := by unfold latchError; split <;> rfl
@[simp] theorem latchError_cmdw0 (e : Err) (cmd w0 : Word) (s : State) : (latchError e cmd w0 s).cmdw0 = s.cmdw0 := by unfold latchError; split <;> rfl
@[simp] theorem latchError_cmdw1 (e : Err) (cmd w0 : Word) (s : State) : (latchError e cmd w0 s).cmdw1 = s.cmdw1 := by unfold latchError; split <;> rfl
@[simp] theorem latchError_cmdw2 (e : Err) (cmd w0 : Word) (s : State) : (latchError e cmd w0 s).cmdw2 = s.cmdw2 := by unfold latchError; split <;> rfl
@[simp] theorem latchError_cmdw3 (e : Err) (cmd w0 : Word) (s : State) : (latchError e cmd w0 s).cmdw3 = s.cmdw3 := by unfold latchError; split <;> rfl
@[simp] theorem latchError_params (e : Err) (cmd w0 : Word) (s : State) : (latchError e cmd w0 s).params = s.params := by unfold latchError; split <;> rfl
@[simp] theorem latchError_unsynced (e : Err) (cmd w0 : Word) (s : State) : (latchError e cmd w0 s).unsynced = s.unsynced := by unfold latchError; split <;> rfl
@[simp] theorem latchError_discarded (e : Err) (cmd w0 : Word) (s : State) : (latchError e cmd w0 s).discarded = s.discarded := by unfold latchError; split <;> rfl
@[simp] theorem latchError_memDraw (e : Err) (cmd w0 : Word) (s : State) : (latchError e cmd w0 s).memDraw = s.memDraw := by unfold latchError; split <;> rfl
@[simp] theorem latchError_draws (e : Err) (cmd w0 : Word) (s : State) : (latchError e cmd w0 s).draws = s.draws := by unfold latchError; split <;> rfl
@[simp] theorem latchError_script (e : Err) (cmd w0 : Word) (s : State) : (latchError e cmd w0 s).script = s.script := by unfold latchError; split <;> rfl
@[simp] theorem latchError_sched (e : Err) (cmd w0 : Word) (s : State) : (latchError e cmd w0 s).sched = s.sched := by unfold latchError; split <;> rfl
@[simp] theorem latchError_rdata (e : Err) (cmd w0 : Word) (s : State) : (latchError e cmd w0 s).rdata = s.rdata := by unfold latchError; split <;> rfl
@[simp] theorem latchError_mdata (e : Err) (cmd w0 : Word) (s : State) : (latchError e cmd w0 s).mdata = s.mdata := by unfold latchError; split <;> rfl
@[simp] theorem latchError_lstate (e : Err) (cmd w0 : Word) (s : State) : (latchError e cmd w0 s).lstate = s.lstate := by unfold latchError; split <;> rfl
@[simp] theorem latchError_layer (e : Err) (cmd w0 : Word) (s : State) : (latchError e cmd w0 s).layer = s.layer := by unfold latchError; split <;> rfl
@[simp] theorem latchError_owned (e : Err) (cmd w0 : Word) (s : State) : (latchError e cmd w0 s).owned = s.owned := by unfold latchError; split <;> rfl
@[simp] theorem latchError_lresult (e : Err) (cmd w0 : Word) (s : State) : (latchError e cmd w0 s).lresult = s.lresult := by unfold latchError; split <;> rfl

/-! ## `fatalError` -/

@[simp] theorem fatalError_mem (e : Err) (cmd w0 : Word) (s : State) : (fatalError e cmd w0 s).mem = s.mem := by simp [fatalError]
@[simp] theorem fatalError_td (e : Err) (cmd w0 : Word) (s : State) : (fatalError e cmd w0 s).td = s.td := by simp [fatalError]
@[simp] theorem fatalError_queue (e : Err) (cmd w0 : Word) (s : State) : (fatalError e cmd w0 s).queue = [] := by simp [fatalError]
@[simp] theorem fatalError_issued (e : Err) (cmd w0 : Word) (s : State) : (fatalError e cmd w0 s).issued = s.retired := by simp [fatalError]
@[simp] theorem fatalError_retired (e : Err) (cmd w0 : Word) (s : State) : (fatalError e cmd w0 s).retired = s.retired := by simp [fatalError]
@[simp] theorem fatalError_err (e : Err) (cmd w0 : Word) (s : State) : (fatalError e cmd w0 s).err = true := by simp [fatalError]
@[simp] theorem fatalError_wpq (e : Err) (cmd w0 : Word) (s : State) : (fatalError e cmd w0 s).wpq = s.wpq := by simp [fatalError]
@[simp] theorem fatalError_wpn (e : Err) (cmd w0 : Word) (s : State) : (fatalError e cmd w0 s).wpn = s.wpn := by simp [fatalError]
@[simp] theorem fatalError_errInfo (e : Err) (cmd w0 : Word) (s : State) : (fatalError e cmd w0 s).errInfo = if s.err then s.errInfo else e.word := by simp [fatalError]
@[simp] theorem fatalError_errCmd (e : Err) (cmd w0 : Word) (s : State) : (fatalError e cmd w0 s).errCmd = if s.err then s.errCmd else cmd := by simp [fatalError]
@[simp] theorem fatalError_errW0 (e : Err) (cmd w0 : Word) (s : State) : (fatalError e cmd w0 s).errW0 = if s.err then s.errW0 else w0 := by simp [fatalError]
@[simp] theorem fatalError_vstat (e : Err) (cmd w0 : Word) (s : State) : (fatalError e cmd w0 s).vstat = s.vstat := by simp [fatalError]
@[simp] theorem fatalError_vcmd (e : Err) (cmd w0 : Word) (s : State) : (fatalError e cmd w0 s).vcmd = s.vcmd := by simp [fatalError]
@[simp] theorem fatalError_cmdw0 (e : Err) (cmd w0 : Word) (s : State) : (fatalError e cmd w0 s).cmdw0 = s.cmdw0 := by simp [fatalError]
@[simp] theorem fatalError_cmdw1 (e : Err) (cmd w0 : Word) (s : State) : (fatalError e cmd w0 s).cmdw1 = s.cmdw1 := by simp [fatalError]
@[simp] theorem fatalError_cmdw2 (e : Err) (cmd w0 : Word) (s : State) : (fatalError e cmd w0 s).cmdw2 = s.cmdw2 := by simp [fatalError]
@[simp] theorem fatalError_cmdw3 (e : Err) (cmd w0 : Word) (s : State) : (fatalError e cmd w0 s).cmdw3 = s.cmdw3 := by simp [fatalError]
@[simp] theorem fatalError_params (e : Err) (cmd w0 : Word) (s : State) : (fatalError e cmd w0 s).params = s.params := by simp [fatalError]
@[simp] theorem fatalError_unsynced (e : Err) (cmd w0 : Word) (s : State) : (fatalError e cmd w0 s).unsynced = s.unsynced := by simp [fatalError]
@[simp] theorem fatalError_discarded (e : Err) (cmd w0 : Word) (s : State) : (fatalError e cmd w0 s).discarded = s.discarded ++ s.queue := by simp [fatalError]
@[simp] theorem fatalError_memDraw (e : Err) (cmd w0 : Word) (s : State) : (fatalError e cmd w0 s).memDraw = s.memDraw := by simp [fatalError]
@[simp] theorem fatalError_draws (e : Err) (cmd w0 : Word) (s : State) : (fatalError e cmd w0 s).draws = s.draws := by simp [fatalError]
@[simp] theorem fatalError_script (e : Err) (cmd w0 : Word) (s : State) : (fatalError e cmd w0 s).script = s.script := by simp [fatalError]
@[simp] theorem fatalError_sched (e : Err) (cmd w0 : Word) (s : State) : (fatalError e cmd w0 s).sched = s.sched := by simp [fatalError]
@[simp] theorem fatalError_rdata (e : Err) (cmd w0 : Word) (s : State) : (fatalError e cmd w0 s).rdata = s.rdata := by simp [fatalError]
@[simp] theorem fatalError_mdata (e : Err) (cmd w0 : Word) (s : State) : (fatalError e cmd w0 s).mdata = s.mdata := by simp [fatalError]
@[simp] theorem fatalError_lstate (e : Err) (cmd w0 : Word) (s : State) : (fatalError e cmd w0 s).lstate = s.lstate := by simp [fatalError]
@[simp] theorem fatalError_layer (e : Err) (cmd w0 : Word) (s : State) : (fatalError e cmd w0 s).layer = s.layer := by simp [fatalError]
@[simp] theorem fatalError_owned (e : Err) (cmd w0 : Word) (s : State) : (fatalError e cmd w0 s).owned = s.owned := by simp [fatalError]
@[simp] theorem fatalError_lresult (e : Err) (cmd w0 : Word) (s : State) : (fatalError e cmd w0 s).lresult = s.lresult := by simp [fatalError]

/-! ## `recordVal` -/

@[simp] theorem recordVal_mem (e : Err) (s : State) : (recordVal e s).mem = s.mem := by unfold recordVal; split <;> rfl
@[simp] theorem recordVal_td (e : Err) (s : State) : (recordVal e s).td = s.td := by unfold recordVal; split <;> rfl
@[simp] theorem recordVal_queue (e : Err) (s : State) : (recordVal e s).queue = s.queue := by unfold recordVal; split <;> rfl
@[simp] theorem recordVal_issued (e : Err) (s : State) : (recordVal e s).issued = s.issued := by unfold recordVal; split <;> rfl
@[simp] theorem recordVal_retired (e : Err) (s : State) : (recordVal e s).retired = s.retired := by unfold recordVal; split <;> rfl
@[simp] theorem recordVal_err (e : Err) (s : State) : (recordVal e s).err = s.err := by unfold recordVal; split <;> rfl
@[simp] theorem recordVal_wpq (e : Err) (s : State) : (recordVal e s).wpq = s.wpq := by unfold recordVal; split <;> rfl
@[simp] theorem recordVal_wpn (e : Err) (s : State) : (recordVal e s).wpn = s.wpn := by unfold recordVal; split <;> rfl
@[simp] theorem recordVal_errInfo (e : Err) (s : State) : (recordVal e s).errInfo = s.errInfo := by unfold recordVal; split <;> rfl
@[simp] theorem recordVal_errCmd (e : Err) (s : State) : (recordVal e s).errCmd = s.errCmd := by unfold recordVal; split <;> rfl
@[simp] theorem recordVal_errW0 (e : Err) (s : State) : (recordVal e s).errW0 = s.errW0 := by unfold recordVal; split <;> rfl
@[simp] theorem recordVal_vstat (e : Err) (s : State) : (recordVal e s).vstat = if s.vecode = 0 then e.word else s.vstat := by unfold recordVal; split <;> rfl
@[simp] theorem recordVal_vcmd (e : Err) (s : State) : (recordVal e s).vcmd = if s.vecode = 0 then s.retired else s.vcmd := by unfold recordVal; split <;> rfl
@[simp] theorem recordVal_cmdw0 (e : Err) (s : State) : (recordVal e s).cmdw0 = s.cmdw0 := by unfold recordVal; split <;> rfl
@[simp] theorem recordVal_cmdw1 (e : Err) (s : State) : (recordVal e s).cmdw1 = s.cmdw1 := by unfold recordVal; split <;> rfl
@[simp] theorem recordVal_cmdw2 (e : Err) (s : State) : (recordVal e s).cmdw2 = s.cmdw2 := by unfold recordVal; split <;> rfl
@[simp] theorem recordVal_cmdw3 (e : Err) (s : State) : (recordVal e s).cmdw3 = s.cmdw3 := by unfold recordVal; split <;> rfl
@[simp] theorem recordVal_params (e : Err) (s : State) : (recordVal e s).params = s.params := by unfold recordVal; split <;> rfl
@[simp] theorem recordVal_unsynced (e : Err) (s : State) : (recordVal e s).unsynced = s.unsynced := by unfold recordVal; split <;> rfl
@[simp] theorem recordVal_discarded (e : Err) (s : State) : (recordVal e s).discarded = s.discarded := by unfold recordVal; split <;> rfl
@[simp] theorem recordVal_memDraw (e : Err) (s : State) : (recordVal e s).memDraw = s.memDraw := by unfold recordVal; split <;> rfl
@[simp] theorem recordVal_draws (e : Err) (s : State) : (recordVal e s).draws = s.draws := by unfold recordVal; split <;> rfl
@[simp] theorem recordVal_script (e : Err) (s : State) : (recordVal e s).script = s.script := by unfold recordVal; split <;> rfl
@[simp] theorem recordVal_sched (e : Err) (s : State) : (recordVal e s).sched = s.sched := by unfold recordVal; split <;> rfl
@[simp] theorem recordVal_rdata (e : Err) (s : State) : (recordVal e s).rdata = s.rdata := by unfold recordVal; split <;> rfl
@[simp] theorem recordVal_mdata (e : Err) (s : State) : (recordVal e s).mdata = s.mdata := by unfold recordVal; split <;> rfl
@[simp] theorem recordVal_lstate (e : Err) (s : State) : (recordVal e s).lstate = s.lstate := by unfold recordVal; split <;> rfl
@[simp] theorem recordVal_layer (e : Err) (s : State) : (recordVal e s).layer = s.layer := by unfold recordVal; split <;> rfl
@[simp] theorem recordVal_owned (e : Err) (s : State) : (recordVal e s).owned = s.owned := by unfold recordVal; split <;> rfl
@[simp] theorem recordVal_lresult (e : Err) (s : State) : (recordVal e s).lresult = s.lresult := by unfold recordVal; split <;> rfl

/-! ## `executeKernel` -/

@[simp] theorem executeKernel_mem (k : Kernel) (compute : State → List Host.Cell) (s : State) : (executeKernel k compute s).mem = Memory.setAll s.mem (compute s) := by cases k <;> rfl
@[simp] theorem executeKernel_td (k : Kernel) (compute : State → List Host.Cell) (s : State) : (executeKernel k compute s).td = s.td := by cases k <;> rfl
@[simp] theorem executeKernel_queue (k : Kernel) (compute : State → List Host.Cell) (s : State) : (executeKernel k compute s).queue = s.queue := by cases k <;> rfl
@[simp] theorem executeKernel_issued (k : Kernel) (compute : State → List Host.Cell) (s : State) : (executeKernel k compute s).issued = s.issued := by cases k <;> rfl
@[simp] theorem executeKernel_retired (k : Kernel) (compute : State → List Host.Cell) (s : State) : (executeKernel k compute s).retired = s.retired := by cases k <;> rfl
@[simp] theorem executeKernel_err (k : Kernel) (compute : State → List Host.Cell) (s : State) : (executeKernel k compute s).err = s.err := by cases k <;> rfl
@[simp] theorem executeKernel_wpq (k : Kernel) (compute : State → List Host.Cell) (s : State) : (executeKernel k compute s).wpq = (markPending k s).wpq := by cases k <;> rfl
@[simp] theorem executeKernel_wpn (k : Kernel) (compute : State → List Host.Cell) (s : State) : (executeKernel k compute s).wpn = (markPending k s).wpn := by cases k <;> rfl
@[simp] theorem executeKernel_errInfo (k : Kernel) (compute : State → List Host.Cell) (s : State) : (executeKernel k compute s).errInfo = s.errInfo := by cases k <;> rfl
@[simp] theorem executeKernel_errCmd (k : Kernel) (compute : State → List Host.Cell) (s : State) : (executeKernel k compute s).errCmd = s.errCmd := by cases k <;> rfl
@[simp] theorem executeKernel_errW0 (k : Kernel) (compute : State → List Host.Cell) (s : State) : (executeKernel k compute s).errW0 = s.errW0 := by cases k <;> rfl
@[simp] theorem executeKernel_vstat (k : Kernel) (compute : State → List Host.Cell) (s : State) : (executeKernel k compute s).vstat = s.vstat := by cases k <;> rfl
@[simp] theorem executeKernel_vcmd (k : Kernel) (compute : State → List Host.Cell) (s : State) : (executeKernel k compute s).vcmd = s.vcmd := by cases k <;> rfl
@[simp] theorem executeKernel_cmdw0 (k : Kernel) (compute : State → List Host.Cell) (s : State) : (executeKernel k compute s).cmdw0 = s.cmdw0 := by cases k <;> rfl
@[simp] theorem executeKernel_cmdw1 (k : Kernel) (compute : State → List Host.Cell) (s : State) : (executeKernel k compute s).cmdw1 = s.cmdw1 := by cases k <;> rfl
@[simp] theorem executeKernel_cmdw2 (k : Kernel) (compute : State → List Host.Cell) (s : State) : (executeKernel k compute s).cmdw2 = s.cmdw2 := by cases k <;> rfl
@[simp] theorem executeKernel_cmdw3 (k : Kernel) (compute : State → List Host.Cell) (s : State) : (executeKernel k compute s).cmdw3 = s.cmdw3 := by cases k <;> rfl
@[simp] theorem executeKernel_params (k : Kernel) (compute : State → List Host.Cell) (s : State) : (executeKernel k compute s).params = s.params := by cases k <;> rfl
@[simp] theorem executeKernel_unsynced (k : Kernel) (compute : State → List Host.Cell) (s : State) : (executeKernel k compute s).unsynced = s.unsynced ++ shapedIntervals s.td k.outputs := by cases k <;> rfl
@[simp] theorem executeKernel_discarded (k : Kernel) (compute : State → List Host.Cell) (s : State) : (executeKernel k compute s).discarded = s.discarded := by cases k <;> rfl
@[simp] theorem executeKernel_memDraw (k : Kernel) (compute : State → List Host.Cell) (s : State) : (executeKernel k compute s).memDraw = s.memDraw := by cases k <;> rfl
@[simp] theorem executeKernel_draws (k : Kernel) (compute : State → List Host.Cell) (s : State) : (executeKernel k compute s).draws = s.draws + 1 := by cases k <;> rfl
@[simp] theorem executeKernel_script (k : Kernel) (compute : State → List Host.Cell) (s : State) : (executeKernel k compute s).script = s.script := by cases k <;> rfl
@[simp] theorem executeKernel_sched (k : Kernel) (compute : State → List Host.Cell) (s : State) : (executeKernel k compute s).sched = s.sched := by cases k <;> rfl
@[simp] theorem executeKernel_rdata (k : Kernel) (compute : State → List Host.Cell) (s : State) : (executeKernel k compute s).rdata = s.rdata := by cases k <;> rfl
@[simp] theorem executeKernel_mdata (k : Kernel) (compute : State → List Host.Cell) (s : State) : (executeKernel k compute s).mdata = s.mdata := by cases k <;> rfl
@[simp] theorem executeKernel_lstate (k : Kernel) (compute : State → List Host.Cell) (s : State) : (executeKernel k compute s).lstate = s.lstate := by cases k <;> rfl
@[simp] theorem executeKernel_layer (k : Kernel) (compute : State → List Host.Cell) (s : State) : (executeKernel k compute s).layer = s.layer := by cases k <;> rfl
@[simp] theorem executeKernel_owned (k : Kernel) (compute : State → List Host.Cell) (s : State) : (executeKernel k compute s).owned = s.owned := by cases k <;> rfl
@[simp] theorem executeKernel_lresult (k : Kernel) (compute : State → List Host.Cell) (s : State) : (executeKernel k compute s).lresult = s.lresult := by cases k <;> rfl

/-! ## `hostError` -/

@[simp] theorem hostError_mem (e : Err) (w0 : Word) (s : State) : (hostError e w0 s).mem = (s.forget (queuedOutputs s (s.queue.take 1))).mem := by simp [hostError]
@[simp] theorem hostError_td (e : Err) (w0 : Word) (s : State) : (hostError e w0 s).td = s.td := by simp [hostError]
@[simp] theorem hostError_queue (e : Err) (w0 : Word) (s : State) : (hostError e w0 s).queue = [] := by simp [hostError]
@[simp] theorem hostError_issued (e : Err) (w0 : Word) (s : State) : (hostError e w0 s).issued = s.retired := by simp [hostError]
@[simp] theorem hostError_retired (e : Err) (w0 : Word) (s : State) : (hostError e w0 s).retired = s.retired := by simp [hostError]
@[simp] theorem hostError_err (e : Err) (w0 : Word) (s : State) : (hostError e w0 s).err = true := by simp [hostError]
@[simp] theorem hostError_wpq (e : Err) (w0 : Word) (s : State) : (hostError e w0 s).wpq = s.wpq := by simp [hostError]
@[simp] theorem hostError_wpn (e : Err) (w0 : Word) (s : State) : (hostError e w0 s).wpn = s.wpn := by simp [hostError]
@[simp] theorem hostError_errInfo (e : Err) (w0 : Word) (s : State) : (hostError e w0 s).errInfo = if s.err then s.errInfo else e.word := by
  cases h : s.err <;> simp [hostError, fatalError, latchError, h]
@[simp] theorem hostError_errCmd (e : Err) (w0 : Word) (s : State) : (hostError e w0 s).errCmd = if s.err then s.errCmd else s.issued := by
  cases h : s.err <;> simp [hostError, fatalError, latchError, h]
@[simp] theorem hostError_errW0 (e : Err) (w0 : Word) (s : State) : (hostError e w0 s).errW0 = if s.err then s.errW0 else w0 := by
  cases h : s.err <;> simp [hostError, fatalError, latchError, h]
@[simp] theorem hostError_vstat (e : Err) (w0 : Word) (s : State) : (hostError e w0 s).vstat = s.vstat := by simp [hostError]
@[simp] theorem hostError_vcmd (e : Err) (w0 : Word) (s : State) : (hostError e w0 s).vcmd = s.vcmd := by simp [hostError]
@[simp] theorem hostError_cmdw0 (e : Err) (w0 : Word) (s : State) : (hostError e w0 s).cmdw0 = s.cmdw0 := by simp [hostError]
@[simp] theorem hostError_cmdw1 (e : Err) (w0 : Word) (s : State) : (hostError e w0 s).cmdw1 = s.cmdw1 := by simp [hostError]
@[simp] theorem hostError_cmdw2 (e : Err) (w0 : Word) (s : State) : (hostError e w0 s).cmdw2 = s.cmdw2 := by simp [hostError]
@[simp] theorem hostError_cmdw3 (e : Err) (w0 : Word) (s : State) : (hostError e w0 s).cmdw3 = s.cmdw3 := by simp [hostError]
@[simp] theorem hostError_params (e : Err) (w0 : Word) (s : State) : (hostError e w0 s).params = s.params := by simp [hostError]
@[simp] theorem hostError_unsynced (e : Err) (w0 : Word) (s : State) : (hostError e w0 s).unsynced = s.unsynced := by simp [hostError]
@[simp] theorem hostError_discarded (e : Err) (w0 : Word) (s : State) : (hostError e w0 s).discarded = s.discarded ++ s.queue := by simp [hostError]
@[simp] theorem hostError_memDraw (e : Err) (w0 : Word) (s : State) : (hostError e w0 s).memDraw = s.memDraw := by simp [hostError]
@[simp] theorem hostError_draws (e : Err) (w0 : Word) (s : State) : (hostError e w0 s).draws = s.draws + 1 := by simp [hostError]
@[simp] theorem hostError_script (e : Err) (w0 : Word) (s : State) : (hostError e w0 s).script = s.script := by simp [hostError]
@[simp] theorem hostError_sched (e : Err) (w0 : Word) (s : State) : (hostError e w0 s).sched = s.sched := by simp [hostError]
@[simp] theorem hostError_rdata (e : Err) (w0 : Word) (s : State) : (hostError e w0 s).rdata = s.rdata := by simp [hostError]
@[simp] theorem hostError_mdata (e : Err) (w0 : Word) (s : State) : (hostError e w0 s).mdata = s.mdata := by simp [hostError]
@[simp] theorem hostError_lstate (e : Err) (w0 : Word) (s : State) : (hostError e w0 s).lstate = s.lstate := by simp [hostError]
@[simp] theorem hostError_layer (e : Err) (w0 : Word) (s : State) : (hostError e w0 s).layer = s.layer := by simp [hostError]
@[simp] theorem hostError_owned (e : Err) (w0 : Word) (s : State) : (hostError e w0 s).owned = s.owned := by simp [hostError]
@[simp] theorem hostError_lresult (e : Err) (w0 : Word) (s : State) : (hostError e w0 s).lresult = s.lresult := by simp [hostError]

/-! ## `hardReset` -/

@[simp] theorem hardReset_mem (s : State) : (hardReset s).mem = [] := rfl
@[simp] theorem hardReset_td (s : State) : (hardReset s).td = Vector.replicate 16 Desc.null := rfl
@[simp] theorem hardReset_queue (s : State) : (hardReset s).queue = [] := rfl
@[simp] theorem hardReset_issued (s : State) : (hardReset s).issued = 0 := rfl
@[simp] theorem hardReset_retired (s : State) : (hardReset s).retired = 0 := rfl
@[simp] theorem hardReset_err (s : State) : (hardReset s).err = false := rfl
@[simp] theorem hardReset_wpq (s : State) : (hardReset s).wpq = false := rfl
@[simp] theorem hardReset_wpn (s : State) : (hardReset s).wpn = false := rfl
@[simp] theorem hardReset_errInfo (s : State) : (hardReset s).errInfo = 0 := rfl
@[simp] theorem hardReset_errCmd (s : State) : (hardReset s).errCmd = 0 := rfl
@[simp] theorem hardReset_errW0 (s : State) : (hardReset s).errW0 = 0 := rfl
@[simp] theorem hardReset_vstat (s : State) : (hardReset s).vstat = 0 := rfl
@[simp] theorem hardReset_vcmd (s : State) : (hardReset s).vcmd = 0 := rfl
@[simp] theorem hardReset_cmdw0 (s : State) : (hardReset s).cmdw0 = 0 := rfl
@[simp] theorem hardReset_cmdw1 (s : State) : (hardReset s).cmdw1 = 0 := rfl
@[simp] theorem hardReset_cmdw2 (s : State) : (hardReset s).cmdw2 = 0 := rfl
@[simp] theorem hardReset_cmdw3 (s : State) : (hardReset s).cmdw3 = 0 := rfl
@[simp] theorem hardReset_params (s : State) : (hardReset s).params = s.params := rfl
@[simp] theorem hardReset_unsynced (s : State) : (hardReset s).unsynced = [] := rfl
@[simp] theorem hardReset_discarded (s : State) : (hardReset s).discarded = [] := rfl
@[simp] theorem hardReset_memDraw (s : State) : (hardReset s).memDraw = s.draws := rfl
@[simp] theorem hardReset_draws (s : State) : (hardReset s).draws = s.draws + 1 := rfl
@[simp] theorem hardReset_script (s : State) : (hardReset s).script = s.script := rfl
@[simp] theorem hardReset_sched (s : State) : (hardReset s).sched = s.sched := rfl
@[simp] theorem hardReset_rdata (s : State) : (hardReset s).rdata = s.rdata := rfl
@[simp] theorem hardReset_mdata (s : State) : (hardReset s).mdata = s.mdata := rfl
@[simp] theorem hardReset_lstate (s : State) : (hardReset s).lstate = .unconfigured := rfl
@[simp] theorem hardReset_layer (s : State) : (hardReset s).layer = none := rfl
@[simp] theorem hardReset_owned (s : State) : (hardReset s).owned = Owned.nothing := rfl
@[simp] theorem hardReset_lresult (s : State) : (hardReset s).lresult = s.lresult := rfl

/-! ## `softReset` -/

@[simp] theorem softReset_mem (is : List Interval) (s : State) : (softReset is s).mem = (s.forget is).mem := rfl
@[simp] theorem softReset_td (is : List Interval) (s : State) : (softReset is s).td = Vector.replicate 16 Desc.null := rfl
@[simp] theorem softReset_queue (is : List Interval) (s : State) : (softReset is s).queue = [] := rfl
@[simp] theorem softReset_issued (is : List Interval) (s : State) : (softReset is s).issued = 0 := rfl
@[simp] theorem softReset_retired (is : List Interval) (s : State) : (softReset is s).retired = 0 := rfl
@[simp] theorem softReset_err (is : List Interval) (s : State) : (softReset is s).err = false := rfl
@[simp] theorem softReset_wpq (is : List Interval) (s : State) : (softReset is s).wpq = false := rfl
@[simp] theorem softReset_wpn (is : List Interval) (s : State) : (softReset is s).wpn = false := rfl
@[simp] theorem softReset_errInfo (is : List Interval) (s : State) : (softReset is s).errInfo = 0 := rfl
@[simp] theorem softReset_errCmd (is : List Interval) (s : State) : (softReset is s).errCmd = 0 := rfl
@[simp] theorem softReset_errW0 (is : List Interval) (s : State) : (softReset is s).errW0 = 0 := rfl
@[simp] theorem softReset_vstat (is : List Interval) (s : State) : (softReset is s).vstat = 0 := rfl
@[simp] theorem softReset_vcmd (is : List Interval) (s : State) : (softReset is s).vcmd = 0 := rfl
@[simp] theorem softReset_cmdw0 (is : List Interval) (s : State) : (softReset is s).cmdw0 = 0 := rfl
@[simp] theorem softReset_cmdw1 (is : List Interval) (s : State) : (softReset is s).cmdw1 = 0 := rfl
@[simp] theorem softReset_cmdw2 (is : List Interval) (s : State) : (softReset is s).cmdw2 = 0 := rfl
@[simp] theorem softReset_cmdw3 (is : List Interval) (s : State) : (softReset is s).cmdw3 = 0 := rfl
@[simp] theorem softReset_params (is : List Interval) (s : State) : (softReset is s).params = s.params := rfl
@[simp] theorem softReset_unsynced (is : List Interval) (s : State) : (softReset is s).unsynced = [] := rfl
@[simp] theorem softReset_discarded (is : List Interval) (s : State) : (softReset is s).discarded = [] := rfl
@[simp] theorem softReset_memDraw (is : List Interval) (s : State) : (softReset is s).memDraw = s.memDraw := rfl
@[simp] theorem softReset_draws (is : List Interval) (s : State) : (softReset is s).draws = s.draws + 1 := rfl
@[simp] theorem softReset_script (is : List Interval) (s : State) : (softReset is s).script = s.script := rfl
@[simp] theorem softReset_sched (is : List Interval) (s : State) : (softReset is s).sched = s.sched := rfl
@[simp] theorem softReset_rdata (is : List Interval) (s : State) : (softReset is s).rdata = s.rdata := rfl
@[simp] theorem softReset_mdata (is : List Interval) (s : State) : (softReset is s).mdata = s.mdata := rfl
@[simp] theorem softReset_lstate (is : List Interval) (s : State) : (softReset is s).lstate = .unconfigured := rfl
@[simp] theorem softReset_layer (is : List Interval) (s : State) : (softReset is s).layer = none := rfl
@[simp] theorem softReset_owned (is : List Interval) (s : State) : (softReset is s).owned = Owned.nothing := rfl
@[simp] theorem softReset_lresult (is : List Interval) (s : State) : (softReset is s).lresult = s.lresult := rfl

/-! ## The pending bits -/

@[simp] theorem markPending_bsign_wpq (a b sa sb sc sd s) : (markPending (.bsign a b sa sb sc sd) s).wpq = true := rfl
@[simp] theorem markPending_bsign_wpn (a b sa sb sc sd s) : (markPending (.bsign a b sa sb sc sd) s).wpn = s.wpn := rfl
@[simp] theorem markPending_bnorm_wpq (sa sb win s) : (markPending (.bnorm sa sb win) s).wpq = s.wpq := rfl
@[simp] theorem markPending_bnorm_wpn (sa sb win s) : (markPending (.bnorm sa sb win) s).wpn = true := rfl
@[simp] theorem markPending_bconv_wpq (b sa sb sc sd se sf sx sy s) :
    (markPending (.bconv b sa sb sc sd se sf sx sy) s).wpq = true := rfl
@[simp] theorem markPending_bconv_wpn (b sa sb sc sd se sf sx sy s) :
    (markPending (.bconv b sa sb sc sd se sf sx sy) s).wpn = s.wpn := rfl

end Sys2Proof.Machine
end

