-- ==== Sys2Proof/Laws/Memory.lean ====
section
/-! SUPPORT. Tensor memory: what a read sees after writes, and that every operation keeps the canonical form. -/

namespace Sys2Proof.Machine

/-! ## One byte -/

@[simp] theorem Memory.get_nil (a : Nat) : Memory.get [] a = none := rfl

theorem Memory.get_cons (k : Nat) (v : Byte) (m : Memory) (a : Nat) :
    Memory.get ((k, v) :: m) a = if k = a then some v else Memory.get m a := rfl

/-- A byte read back after it is written. -/
@[simp] theorem Memory.get_set_same (m : Memory) (a : Nat) (b : Byte) : (Memory.set m a b).get a = some b := by
  induction m with
  | nil => simp [Memory.set, Memory.get]
  | cons p rest ih =>
    obtain ⟨k, v⟩ := p
    simp only [Memory.set]
    split
    · simp [Memory.get]
    · split
      · simp [Memory.get]
      · have : k ≠ a := by omega
        simp [Memory.get, this, ih]

/-- A write leaves every other byte alone. -/
theorem Memory.get_set_other (m : Memory) {a a' : Nat} (b : Byte) (h : a' ≠ a) :
    (Memory.set m a b).get a' = m.get a' := by
  induction m with
  | nil => simp [Memory.set, Memory.get, Ne.symm h]
  | cons p rest ih =>
    obtain ⟨k, v⟩ := p
    simp only [Memory.set]
    split
    · simp [Memory.get, Ne.symm h]
    · split
      · rename_i h1 h2
        subst h2
        simp [Memory.get, Ne.symm h]
      · simp [Memory.get, ih]

theorem Memory.get_set (m : Memory) (a a' : Nat) (b : Byte) :
    (Memory.set m a b).get a' = if a' = a then some b else m.get a' := by
  split
  · subst_vars; simp
  · exact Memory.get_set_other m b ‹_›

/-- The cells after one write are the written cell and cells that were there. -/
theorem Memory.mem_set {m : Memory} {a : Nat} {b : Byte} {p : Host.Cell} (h : p ∈ Memory.set m a b) :
    p = (a, b) ∨ p ∈ m := by
  induction m with
  | nil => simpa [Memory.set] using h
  | cons q rest ih =>
    obtain ⟨k, v⟩ := q
    simp only [Memory.set] at h
    split at h
    · simpa using h
    · split at h
      · rcases List.mem_cons.1 h with h | h
        · exact .inl h
        · exact .inr (List.mem_cons_of_mem _ h)
      · rcases List.mem_cons.1 h with h | h
        · exact .inr (h ▸ List.mem_cons_self)
        · exact (ih h).imp id (List.mem_cons_of_mem _)

/-- A write keeps the canonical form. -/
theorem Memory.set_wf {m : Memory} (h : Memory.wf m) (a : Nat) (b : Byte) : Memory.wf (Memory.set m a b) := by
  induction m with
  | nil => simp [Memory.set, Memory.wf]
  | cons p rest ih =>
    obtain ⟨k, v⟩ := p
    obtain ⟨hk, hrest⟩ := List.pairwise_cons.1 h
    simp only [Memory.set]
    split
    · refine List.pairwise_cons.2 ⟨fun q hq => ?_, h⟩
      rcases List.mem_cons.1 hq with rfl | hq
      · assumption
      · have := hk q hq; simp only at this ⊢; omega
    · split
      · subst_vars; exact List.pairwise_cons.2 ⟨hk, hrest⟩
      · refine List.pairwise_cons.2 ⟨fun q hq => ?_, ih hrest⟩
        rcases Memory.mem_set hq with rfl | hq
        · simp only; omega
        · exact hk q hq

/-! ## Many bytes -/

@[simp] theorem Memory.setAll_nil (m : Memory) : Memory.setAll m [] = m := rfl

@[simp] theorem Memory.setAll_cons (m : Memory) (p : Host.Cell) (ps : List Host.Cell) :
    Memory.setAll m (p :: ps) = Memory.setAll (Memory.set m p.1 p.2) ps := rfl

theorem Memory.setAll_append (m : Memory) (ps qs : List Host.Cell) :
    Memory.setAll m (ps ++ qs) = Memory.setAll (Memory.setAll m ps) qs := by
  simp [Memory.setAll, List.foldl_append]

/-- Writes keep the canonical form. -/
theorem Memory.setAll_wf {m : Memory} (h : Memory.wf m) (ps : List Host.Cell) : Memory.wf (Memory.setAll m ps) := by
  induction ps generalizing m with
  | nil => exact h
  | cons p ps ih => exact ih (Memory.set_wf h p.1 p.2)

/-- The cells after writes are written cells and cells that were there. -/
theorem Memory.mem_setAll {m : Memory} {ps : List Host.Cell} {p : Host.Cell} (h : p ∈ Memory.setAll m ps) :
    p ∈ ps ∨ p ∈ m := by
  induction ps generalizing m with
  | nil => exact .inr h
  | cons q ps ih =>
    rcases ih h with h | h
    · exact .inl (List.mem_cons_of_mem _ h)
    · rcases Memory.mem_set h with rfl | h
      · exact .inl List.mem_cons_self
      · exact .inr h

/-- Bytes at other addresses are as before. -/
theorem Memory.get_setAll_of_not_mem (m : Memory) (ps : List Host.Cell) (a : Nat) (h : ∀ p ∈ ps, p.1 ≠ a) :
    (Memory.setAll m ps).get a = m.get a := by
  induction ps generalizing m with
  | nil => rfl
  | cons p ps ih =>
    rw [Memory.setAll_cons, ih _ fun q hq => h q (List.mem_cons_of_mem _ hq)]
    exact Memory.get_set_other m p.2 (h p List.mem_cons_self).symm

/-- A byte reads as it was written when all writes to its address agree. -/
theorem Memory.get_setAll_of_mem (m : Memory) (ps : List Host.Cell) (a : Nat) (b : Byte) (hmem : (a, b) ∈ ps)
    (huniq : ∀ p ∈ ps, p.1 = a → p.2 = b) : (Memory.setAll m ps).get a = some b := by
  induction ps generalizing m with
  | nil => cases hmem
  | cons p ps ih =>
    rw [Memory.setAll_cons]
    by_cases hin : (a, b) ∈ ps
    · exact ih _ hin fun q hq => huniq q (List.mem_cons_of_mem _ hq)
    · obtain rfl : (a, b) = p := by
        rcases List.mem_cons.1 hmem with h | h
        · exact h
        · exact absurd h hin
      rw [Memory.get_setAll_of_not_mem]
      · simp
      · rintro ⟨k, v⟩ hq rfl
        obtain rfl : v = b := huniq _ (List.mem_cons_of_mem _ hq) rfl
        exact hin hq

/-- Canonical memories with the same bytes are the same memory. -/
theorem Memory.ext_of_get {m n : Memory} (hm : Memory.wf m) (hn : Memory.wf n) (h : ∀ a, m.get a = n.get a) : m = n := by
  have get_none : ∀ (m : Memory) (a : Nat), (∀ p ∈ m, a < p.1) → m.get a = none := by
    intro m a
    induction m with
    | nil => intro _; rfl
    | cons p rest ih =>
      intro hlt
      have hp := hlt p List.mem_cons_self
      rw [show p :: rest = (p.1, p.2) :: rest from rfl, Memory.get_cons, if_neg (by omega)]
      exact ih fun q hq => hlt q (List.mem_cons_of_mem _ hq)
  induction m generalizing n with
  | nil =>
    cases n with
    | nil => rfl
    | cons p n => simpa [Memory.get] using h p.1
  | cons p m ih =>
    cases n with
    | nil => simpa [Memory.get] using h p.1
    | cons q n =>
      obtain ⟨hp, hm'⟩ := List.pairwise_cons.1 hm
      obtain ⟨hq, hn'⟩ := List.pairwise_cons.1 hn
      obtain ⟨k, v⟩ := p
      obtain ⟨k', v'⟩ := q
      have hk : k = k' := by
        rcases Nat.lt_trichotomy k k' with hlt | heq | hlt
        · have := h k
          rw [Memory.get_cons, if_pos rfl, Memory.get_cons, if_neg (by omega),
            get_none n k fun p hp' => by have := hq p hp'; simp only at this; omega] at this
          cases this
        · exact heq
        · have := h k'
          rw [Memory.get_cons, if_neg (by omega), Memory.get_cons, if_pos rfl,
            get_none m k' fun p hp' => by have := hp p hp'; simp only at this; omega] at this
          cases this
      subst hk
      have hv : v = v' := by simpa [Memory.get_cons] using h k
      subst hv
      refine congrArg _ (ih hm' hn' fun a => ?_)
      by_cases ha : k = a
      · subst ha
        rw [get_none m k fun p hp' => hp p hp', get_none n k fun p hp' => hq p hp']
      · simpa [Memory.get_cons, ha] using h a

/-! ## Reads of the state -/

/-- A read after writes that leave the byte alone. -/
theorem readByte_writeCells_of_not_mem (s : State) (ps : List Host.Cell) (a : Nat) (h : ∀ p ∈ ps, p.1 ≠ a) :
    (s.writeCells ps).readByte a = s.readByte a := by
  simp [State.readByte, Memory.get_setAll_of_not_mem s.mem ps a h]

/-- A read after writes whose cells at the address all hold `b`. -/
theorem readByte_writeCells_of_mem (s : State) (ps : List Host.Cell) (a : Nat) (b : Byte) (hmem : (a, b) ∈ ps)
    (huniq : ∀ p ∈ ps, p.1 = a → p.2 = b) : (s.writeCells ps).readByte a = b := by
  simp [State.readByte, Memory.get_setAll_of_mem s.mem ps a b hmem huniq]

/-- Reads depend on memory and on the power-on draw only. -/
theorem readByte_congr {s t : State} (hm : t.mem = s.mem) (hd : t.memDraw = s.memDraw) (a : Nat) :
    t.readByte a = s.readByte a := by
  simp [State.readByte, hm, hd]

/-- The four bytes of a word read (R11). -/
theorem memRead_four (s : State) (a : Nat) :
    s.memRead a 4 = (s.readByte a).toNat + (s.readByte (a + 1)).toNat * 256 + (s.readByte (a + 2)).toNat * 65536
      + (s.readByte (a + 3)).toNat * 16777216 := by
  simp only [State.memRead, List.range_succ, List.range_zero, List.nil_append, List.map_append, List.map_cons,
    List.map_nil, List.sum_append, List.sum_cons, List.sum_nil, Nat.add_zero, Nat.reducePow, Nat.mul_one]

/-- A word read depends on its four bytes. -/
theorem ldF32_congr {s t : State} {a b : Nat} (h : ∀ k < 4, t.readByte (a + k) = s.readByte (b + k)) :
    t.ldF32 a = s.ldF32 b := by
  have h0 : t.readByte a = s.readByte b := h 0 (by omega)
  rw [State.ldF32, State.ldF32, memRead_four, memRead_four, h0, h 1 (by omega), h 2 (by omega), h 3 (by omega)]

/-- The four cells of a word. -/
theorem mem_wordCells {p : Host.Cell} {a : Nat} {f : Word} :
    p ∈ wordCells a f ↔ ∃ k < 4, p = (a + k, f.extractLsb' (8 * k) 8) := by
  simp only [wordCells, List.mem_map, List.mem_range]
  exact ⟨fun ⟨k, h, e⟩ => ⟨k, h, e.symm⟩, fun ⟨k, h, e⟩ => ⟨k, h, e.symm⟩⟩

/-- A word is read back from its four bytes (R11, R61). -/
theorem ldF32_eq_of_bytes {s : State} {a : Nat} {f : Word}
    (h : ∀ k < 4, s.readByte (a + k) = f.extractLsb' (8 * k) 8) : s.ldF32 a = f := by
  have h0 : s.readByte a = f.extractLsb' 0 8 := h 0 (by omega)
  have hf := f.isLt
  apply BitVec.eq_of_toNat_eq
  rw [State.ldF32, memRead_four, h0, h 1 (by omega), h 2 (by omega), h 3 (by omega)]
  simp only [BitVec.toNat_ofNat, BitVec.extractLsb'_toNat, Nat.shiftRight_eq_div_pow]
  omega

/-- The cells a reset or an abandoned command draws lie in the interval and in the address space. -/
theorem mem_freeCells {p : Host.Cell} {draw memSize : Nat} {i : Interval} (h : p ∈ freeCells draw memSize i) :
    i.lo ≤ p.1 ∧ p.1 < i.hi ∧ p.1 < memSize := by
  simp only [freeCells, List.mem_map, List.mem_range'_1] at h
  obtain ⟨a, ⟨h1, h2⟩, rfl⟩ := h
  simp only
  omega

/-- Forgetting intervals leaves the bytes outside them alone. -/
theorem readByte_forget_of_not_inAny (s : State) (is : List Interval) (a : Nat) (h : inAny is a = false) :
    (s.forget is).readByte a = s.readByte a := by
  have : (Memory.setAll s.mem (is.flatMap (freeCells s.draws s.params.memSize))).get a = s.mem.get a := by
    apply Memory.get_setAll_of_not_mem
    rintro p hp rfl
    obtain ⟨i, hi, hpi⟩ := List.mem_flatMap.1 hp
    have := mem_freeCells hpi
    have hno : i.has p.1 = false := by
      simp only [inAny, List.any_eq_false] at h
      simpa using h i hi
    simp [Interval.has] at hno
    omega
  simp [State.readByte, this]

end Sys2Proof.Machine
end

