-- ==== Sys2Proof/Laws/Checks.lean ====
section
/-! SUPPORT. What each check says when it passes, what `AutoShape` may change, and the cases of `RunKernel`. -/

namespace Sys2Proof.Machine

/-! ## Peeling a sequence of checks -/

@[simp] theorem require_eq_ok {p : Prop} [Decidable p] {e : Err} {u : Unit} : require p e = .ok u ↔ p := by
  unfold require; split <;> simp_all

@[simp] theorem require_eq_error {p : Prop} [Decidable p] {e e' : Err} : require p e = .error e' ↔ ¬p ∧ e = e' := by
  unfold require; split <;> simp_all

theorem except_bind_eq_ok {α β : Type} {x : Except Err α} {f : α → Except Err β} {b : β} :
    (x >>= f) = .ok b ↔ ∃ a, x = .ok a ∧ f a = .ok b := by
  cases x <;> simp [bind, Except.bind]

theorem except_bind_eq_error {α β : Type} {x : Except Err α} {f : α → Except Err β} {e : Err} :
    (x >>= f) = .error e ↔ x = .error e ∨ ∃ a, x = .ok a ∧ f a = .error e := by
  cases x <;> simp [bind, Except.bind]

theorem exists_unit {p : Unit → Prop} : (∃ u, p u) ↔ p () := ⟨fun ⟨_, h⟩ => h, fun h => ⟨(), h⟩⟩

/-! ## `CheckOperand` -/

/-- What a shaped operand that passes `CheckOperand` satisfies (R180). -/
structure ShapedOk (memSize : Nat) (o : Operand) (d : Desc) : Prop where
  dtype : d.dtype = o.ty.code
  extents : d.extentsOk
  strides : d.stridesOk o.ty
  base : d.baseOk o.ty
  padding : o.fetch = true → fetchRowBytes d.w ≤ d.s1
  range : d.base.toNat + d.extent (o.rowBytes d) ≤ memSize

/-- `CheckOperand` passes exactly on a bound descriptor that is well formed, or, for an output outside EXEC mode, unshaped. -/
theorem checkOperand_eq_ok {m : Mode} {memSize : Nat} {t : TdTable} {o : Operand} {u : Unit} :
    checkOperand m memSize t o = .ok u ↔
      (t.at o.slot).bound = true ∧
        (((t.at o.slot).shaped = false ∧ m ≠ .exec ∧ o.role = .output)
          ∨ ((t.at o.slot).shaped = true ∧ ShapedOk memSize o (t.at o.slot))) := by
  unfold checkOperand
  cases hb : (t.at o.slot).bound <;> cases hs : (t.at o.slot).shaped <;> simp only [hb, hs]
  · simp
  · simp
  · cases m <;> cases o.role <;> simp
  · simp only [Bool.not_true, Bool.false_eq_true, if_false, except_bind_eq_ok, require_eq_ok, true_and, false_and,
      reduceCtorEq, false_or, exists_and_left, exists_const]
    constructor
    · rintro ⟨h1, h2, h3, h4, h5, h6⟩; exact ⟨h1, h2, h3, h4, h5, h6⟩
    · rintro ⟨h1, h2, h3, h4, h5, h6⟩; exact ⟨h1, h2, h3, h4, h5, h6⟩

/-- `Extent` of a descriptor none of whose extents is 0 is a natural number (R26, R27). -/
theorem extent_of_extentsOk {d : Desc} (h : d.extentsOk) (row : Nat) :
    d.extent row = ((d.n - 1) * d.s3 + (d.c - 1) * d.s2 + (d.h - 1) * d.s1 + row : Nat) := by
  obtain ⟨-, ⟨hh, -⟩, ⟨hc, -⟩, ⟨hn, -⟩⟩ := h
  simp only [Desc.extent]
  push_cast [Nat.cast_sub hh, Nat.cast_sub hc, Nat.cast_sub hn]
  rfl

/-- An address lies in the interval of a descriptor exactly when its offset from `BASE` is below `Extent` (R27). -/
theorem span_has {d : Desc} {row a : Nat} :
    (d.span row).has a = true ↔ d.base.toNat ≤ a ∧ (a : Int) < d.base.toNat + d.extent row := by
  unfold Desc.span Interval.has
  rw [Bool.and_eq_true, decide_eq_true_iff, decide_eq_true_iff]
  dsimp only
  omega

/-- A descriptor of a type with a row size has its rows sized by it, whatever slot names it (R25). -/
theorem rowType_of_dtype {d : Desc} {ty : DType} (ty' : DType) (h : d.dtype = ty.code) : d.rowType ty' = ty := by
  cases ty <;> simp [Desc.rowType, h, DType.code]

/-- On a descriptor of the type its slot requires, the rows of an operand are those of R27. -/
theorem rowBytes_of_dtype {o : Operand} {d : Desc} (h : d.dtype = o.ty.code) (hf : o.fetch = true → o.ty = .f32) :
    o.rowBytes d = if o.fetch then fetchRowBytes d.w else o.ty.rowBytes d.w := by
  unfold Operand.rowBytes
  rw [rowType_of_dtype _ h]
  cases ho : o.fetch <;> simp_all

/-- Only F32 operands are fetched by groups (R67). -/
theorem fetch_f32 {k : Kernel} {o : Operand} (h : o ∈ k.operands) (hf : o.fetch = true) : o.ty = .f32 := by
  cases k with
  | bsign a b sa sb sc sd => cases a <;> cases b <;> simp [Kernel.operands] at h <;> rcases h with h | h | h | h <;> simp_all
  | bnorm sa sb win => simp [Kernel.operands] at h; rcases h with h | h <;> simp_all
  | bconv bias sa sb sc sd se sf sx sy =>
    cases bias <;> simp [Kernel.operands] at h <;> rcases h with h | h | h | h | h | h <;> simp_all

theorem checkOperands_eq_ok {m : Mode} {memSize : Nat} {t : TdTable} {os : List Operand} {u : Unit} :
    checkOperands m memSize t os = .ok u ↔ ∀ o ∈ os, checkOperand m memSize t o = .ok () := by
  induction os with
  | nil => simp [checkOperands]
  | cons o os ih => simp [checkOperands, except_bind_eq_ok, exists_unit, ih]

/-- In EXEC mode every operand of a command that passes is shaped and well formed. -/
theorem checkOperand_exec {memSize : Nat} {t : TdTable} {o : Operand} {u : Unit}
    (h : checkOperand .exec memSize t o = .ok u) :
    (t.at o.slot).bound = true ∧ (t.at o.slot).shaped = true ∧ ShapedOk memSize o (t.at o.slot) := by
  obtain ⟨hb, h | ⟨hs, ho⟩⟩ := checkOperand_eq_ok.1 h
  · exact absurd rfl h.2.1
  · exact ⟨hb, hs, ho⟩

/-! ## Derived shapes and `AutoShape` -/

theorem checkDerived_eq_ok {t : TdTable} {ds : List Derived} {u : Unit} :
    checkDerived t ds = .ok u ↔ ∀ o ∈ ds, (t.at o.slot).shaped = true → (t.at o.slot).shape = o.shape := by
  induction ds with
  | nil => simp [checkDerived]
  | cons o ds ih => simp [checkDerived, except_bind_eq_ok, ih]

@[simp] theorem TdTable.at_put_same (t : TdTable) (i : Slot) (d : Desc) : TdTable.at (TdTable.put t i d) i = d := by
  simp [TdTable.at, TdTable.put]

theorem TdTable.at_put_other (t : TdTable) {i j : Slot} (d : Desc) (h : j ≠ i) :
    TdTable.at (TdTable.put t i d) j = TdTable.at t j := by
  have : i.toNat ≠ j.toNat := fun h' => h (BitVec.eq_of_toNat_eq h'.symm)
  simp [TdTable.at, TdTable.put, this]

/-- `AutoShape` leaves a shaped output alone. -/
theorem autoShape_of_shaped {memSize : Nat} {t : TdTable} {o : Derived} (hs : (t.at o.slot).shaped = true) :
    autoShape memSize t o = .ok t := if_pos hs

/-- The bytes from `BASE` to the end of the tensor `AutoShape` lays out (R181). -/
def shapedEnd (d : Desc) (ty : DType) (sh : Shape) : Int :=
  (d.dense ty sh).base.toNat + (d.dense ty sh).extent (ty.rowBytes (d.dense ty sh).w)

/-- `AutoShape` on an unshaped output. -/
theorem autoShape_of_unshaped {memSize : Nat} {t : TdTable} {o : Derived} (hs : (t.at o.slot).shaped = false) :
    autoShape memSize t o =
      (require ((t.at o.slot).baseOk o.ty) ⟨.baseAlign, o.slot⟩ >>= fun _ =>
        require (o.ty.rowBytes o.shape.e0 * o.shape.e1 * o.shape.e2 < 2 ^ 32
          ∧ shapedEnd (t.at o.slot) o.ty o.shape ≤ memSize) ⟨.range, o.slot⟩ >>= fun _ =>
        .ok (t.put o.slot ((t.at o.slot).dense o.ty o.shape))) :=
  if_neg (by rw [hs]; decide)

/-- `AutoShape` passes on a shaped output, or shapes it when it is aligned and has room (R181). -/
theorem autoShape_eq_ok {memSize : Nat} {t t' : TdTable} {o : Derived} :
    autoShape memSize t o = .ok t' ↔
      ((t.at o.slot).shaped = true ∧ t' = t)
        ∨ ((t.at o.slot).shaped = false ∧ (t.at o.slot).baseOk o.ty
            ∧ o.ty.rowBytes o.shape.e0 * o.shape.e1 * o.shape.e2 < 2 ^ 32
            ∧ shapedEnd (t.at o.slot) o.ty o.shape ≤ memSize
            ∧ t' = t.put o.slot ((t.at o.slot).dense o.ty o.shape)) := by
  cases hs : (t.at o.slot).shaped
  · rw [autoShape_of_unshaped hs]
    constructor
    · intro h
      obtain ⟨_, h1, h⟩ := except_bind_eq_ok.1 h
      obtain ⟨_, h2, h⟩ := except_bind_eq_ok.1 h
      obtain ⟨h2, h3⟩ := require_eq_ok.1 h2
      exact .inr ⟨rfl, require_eq_ok.1 h1, h2, h3, (Except.ok.inj h).symm⟩
    · rintro (⟨h, _⟩ | ⟨_, h1, h2, h3, rfl⟩)
      · cases h
      · exact except_bind_eq_ok.2 ⟨(), require_eq_ok.2 h1, except_bind_eq_ok.2 ⟨(), require_eq_ok.2 ⟨h2, h3⟩, rfl⟩⟩
  · rw [autoShape_of_shaped hs]
    constructor
    · intro h; exact .inl ⟨rfl, (Except.ok.inj h).symm⟩
    · rintro (⟨_, rfl⟩ | ⟨h, _⟩)
      · rfl
      · cases h

/-- What shaping may do to a descriptor: nothing to a shaped one, and nothing to `BASE` and `BOUND` of any (R29). -/
def KeepsDesc (d d' : Desc) : Prop :=
  d'.base = d.base ∧ d'.bound = d.bound ∧ (d.shaped = true → d' = d)

theorem autoShape_keeps {memSize : Nat} {t t' : TdTable} {o : Derived} (h : autoShape memSize t o = .ok t') (j : Slot) :
    KeepsDesc (t.at j) (t'.at j) := by
  rcases autoShape_eq_ok.1 h with ⟨_, rfl⟩ | ⟨hs, _, _, _, rfl⟩
  · exact ⟨rfl, rfl, fun _ => rfl⟩
  · by_cases hj : j = o.slot
    · subst hj; rw [TdTable.at_put_same]; exact ⟨rfl, rfl, fun h => by rw [hs] at h; cases h⟩
    · rw [TdTable.at_put_other _ _ hj]; exact ⟨rfl, rfl, fun _ => rfl⟩

theorem autoShapeAll_keeps {memSize : Nat} {t t' : TdTable} {ds : List Derived}
    (h : autoShapeAll memSize t ds = .ok t') (j : Slot) : KeepsDesc (t.at j) (t'.at j) := by
  induction ds generalizing t with
  | nil => simp only [autoShapeAll, Except.ok.injEq] at h; subst h; exact ⟨rfl, rfl, fun _ => rfl⟩
  | cons o ds ih =>
    simp only [autoShapeAll, except_bind_eq_ok] at h
    obtain ⟨t1, h1, h2⟩ := h
    have k1 := autoShape_keeps h1 j
    have k2 := ih h2
    refine ⟨k2.1.trans k1.1, k2.2.1.trans k1.2.1, fun hs => ?_⟩
    have := k1.2.2 hs
    rw [this] at k2
    exact k2.2.2 hs

/-- With every output shaped, as in EXEC mode, shaping changes nothing (R176). -/
theorem autoShapeAll_of_shaped {memSize : Nat} {t t' : TdTable} {ds : List Derived}
    (hs : ∀ o ∈ ds, (t.at o.slot).shaped = true) (h : autoShapeAll memSize t ds = .ok t') : t' = t := by
  induction ds with
  | nil => simpa [autoShapeAll, eq_comm] using h
  | cons o ds ih =>
    rw [autoShapeAll, autoShape_of_shaped (hs o List.mem_cons_self)] at h
    exact ih (fun p hp => hs p (List.mem_cons_of_mem _ hp)) h

/-! ## The checks as a whole -/

/-- Passing the checks is passing each of them in turn. -/
theorem checks_eq_ok {k : Kernel} {m : Mode} {memSize : Nat} {wpq : Bool} {t t' : TdTable} :
    k.checks m memSize wpq t = .ok t' ↔
      k.windowCheck = .ok () ∧ (∀ o ∈ k.operands, checkOperand m memSize t o = .ok ()) ∧ k.fitCheck t = .ok ()
        ∧ (∀ o ∈ k.derived t, (t.at o.slot).shaped = true → (t.at o.slot).shape = o.shape)
        ∧ autoShapeAll memSize t (k.derived t) = .ok t' ∧ checkOverlap t' [] k.operands = .ok ()
        ∧ k.hazardCheck m wpq = .ok () := by
  unfold Kernel.checks
  simp only [except_bind_eq_ok, checkOperands_eq_ok, checkDerived_eq_ok]
  constructor
  · rintro ⟨_, h1, _, h2, _, h3, _, h4, t1, h5, _, h6, _, h7, h8⟩
    cases h8
    exact ⟨h1, h2, h3, h4, h5, h6, h7⟩
  · rintro ⟨h1, h2, h3, h4, h5, h6, h7⟩
    exact ⟨_, h1, (), h2, _, h3, (), h4, t', h5, _, h6, _, h7, rfl⟩

/-- A derived output is an output operand of the command. -/
theorem derived_mem_operands {k : Kernel} {t : TdTable} {o : Derived} (h : o ∈ k.derived t) :
    ∃ p ∈ k.operands, p.slot = o.slot ∧ p.role = .output ∧ p.ty = o.ty := by
  cases k with
  | bsign a b sa sb sc sd =>
    cases a <;> cases b <;>
      simp only [Kernel.derived, Bool.false_eq_true, if_true, if_false, List.append_nil, List.mem_append, List.mem_cons,
        List.not_mem_nil, or_false] at h <;> rcases h with h <;> simp_all [Kernel.operands]
    all_goals (try rcases h with rfl | rfl) <;> (try rcases h with (rfl | rfl) | rfl) <;> simp_all
  | bnorm sa sb win =>
    simp only [Kernel.derived, List.mem_cons, List.not_mem_nil, or_false] at h
    subst h; simp [Kernel.operands]
  | bconv bias sa sb sc sd se sf sx sy =>
    simp only [Kernel.derived, List.mem_cons, List.not_mem_nil, or_false] at h
    subst h
    exact ⟨⟨sf, .output, .f32, false⟩, by simp [Kernel.operands], rfl, rfl, rfl⟩

/-- In EXEC mode the checks answer the table they were given (R176). -/
theorem checks_exec_table {k : Kernel} {memSize : Nat} {wpq : Bool} {t t' : TdTable}
    (h : k.checks .exec memSize wpq t = .ok t') : t' = t := by
  obtain ⟨_, hops, _, _, hauto, _, _⟩ := checks_eq_ok.1 h
  refine autoShapeAll_of_shaped (fun o ho => ?_) hauto
  obtain ⟨p, hp, hslot, _⟩ := derived_mem_operands ho
  rw [← hslot]
  exact (checkOperand_exec (hops p hp)).2.1

/-! ## `RunKernel` -/

/-- Everything `RunKernel` can do (R176). -/
theorem runKernel_cases (w0 : Word) (m : Mode) (k : Kernel) (compute : State → List Host.Cell) (s : State) :
    (∃ e, k.checks m s.params.memSize s.wpq s.td = .error e ∧ m = .val
        ∧ runKernel w0 m k compute s = retire (recordVal e s))
      ∨ (∃ e, k.checks m s.params.memSize s.wpq s.td = .error e ∧ m ≠ .val
        ∧ runKernel w0 m k compute s = fatalError e s.retired w0 s)
      ∨ (∃ t, k.checks m s.params.memSize s.wpq s.td = .ok t ∧ m = .val ∧ runKernel w0 m k compute s = retire s)
      ∨ (∃ t, k.checks m s.params.memSize s.wpq s.td = .ok t ∧ m = .cfg
        ∧ runKernel w0 m k compute s = retire { s with td := t })
      ∨ (∃ t, k.checks m s.params.memSize s.wpq s.td = .ok t ∧ m = .exec
        ∧ runKernel w0 m k compute s = retire (executeKernel k compute s)) := by
  unfold runKernel
  cases h : k.checks m s.params.memSize s.wpq s.td <;> cases m <;> simp

end Sys2Proof.Machine
end

