-- ==== Sys2Proof/Laws/Decode.lean ====
section
/-! SUPPORT. The fields of an encoded word: what each reads back as, and which bits of it are 0. -/

namespace Sys2Proof

/-! ## Word 1 -/

theorem slotWord_toNat (sa sb sc sd se sf : Slot) :
    (slotWord sa sb sc sd se sf).toNat
      = sa.toNat + sb.toNat * 16 + sc.toNat * 256 + sd.toNat * 4096 + se.toNat * 65536 + sf.toNat * 1048576 := by
  have := sa.isLt; have := sb.isLt; have := sc.isLt; have := sd.isLt; have := se.isLt; have := sf.isLt
  simp only [slotWord, BitVec.toNat_ofNat]
  omega

/-- A field of a word is a quotient and a remainder of it. -/
theorem field_toNat (w : Word) (lo len : Nat) : (w.extractLsb' lo len).toNat = w.toNat / 2 ^ lo % 2 ^ len := by
  simp [Nat.shiftRight_eq_div_pow]

theorem zeroBits_iff (w : Word) (lo len : Nat) : zeroBits w lo len = true ↔ w.toNat / 2 ^ lo % 2 ^ len = 0 := by
  simp only [zeroBits, beq_iff_eq, ← BitVec.toNat_inj, field_toNat, BitVec.toNat_ofNat, Nat.zero_mod]

/-- The six slots read back from word 1 (R92). -/
theorem slot_slotWord (w0 w2 w3 : Word) (sa sb sc sd se sf : Slot) :
    let c : Command := ⟨w0, slotWord sa sb sc sd se sf, w2, w3⟩
    c.slot 0 = sa ∧ c.slot 1 = sb ∧ c.slot 2 = sc ∧ c.slot 3 = sd ∧ c.slot 4 = se ∧ c.slot 5 = sf := by
  have := sa.isLt; have := sb.isLt; have := sc.isLt; have := sd.isLt; have := se.isLt; have := sf.isLt
  simp only [Command.slot]
  refine ⟨?_, ?_, ?_, ?_, ?_, ?_⟩ <;> apply BitVec.eq_of_toNat_eq <;> rw [field_toNat, slotWord_toNat] <;> omega

/-! ## Words 2 and 3 -/

theorem byteWord_toNat (b0 b1 b2 b3 : Byte) :
    (byteWord b0 b1 b2 b3).toNat = b0.toNat + b1.toNat * 256 + b2.toNat * 65536 + b3.toNat * 16777216 := by
  have := b0.isLt; have := b1.isLt; have := b2.isLt; have := b3.isLt
  simp only [byteWord, BitVec.toNat_ofNat]
  omega

/-- The four bytes read back from word 2 (R93). -/
theorem win_byteWord (w0 w1 w3 : Word) (b0 b1 b2 b3 : Byte) :
    let c : Command := ⟨w0, w1, byteWord b0 b1 b2 b3, w3⟩
    c.win 0 = b0 ∧ c.win 1 = b1 ∧ c.win 2 = b2 ∧ c.win 3 = b3 := by
  have := b0.isLt; have := b1.isLt; have := b2.isLt; have := b3.isLt
  simp only [Command.win]
  refine ⟨?_, ?_, ?_, ?_⟩ <;> apply BitVec.eq_of_toNat_eq <;> rw [field_toNat, byteWord_toNat] <;> omega

/-- The four bytes read back from word 3 (R94). -/
theorem pad_byteWord (w0 w1 w2 : Word) (b0 b1 b2 b3 : Byte) :
    let c : Command := ⟨w0, w1, w2, byteWord b0 b1 b2 b3⟩
    c.pad 0 = b0 ∧ c.pad 1 = b1 ∧ c.pad 2 = b2 ∧ c.pad 3 = b3 := by
  have := b0.isLt; have := b1.isLt; have := b2.isLt; have := b3.isLt
  simp only [Command.pad]
  refine ⟨?_, ?_, ?_, ?_⟩ <;> apply BitVec.eq_of_toNat_eq <;> rw [field_toNat, byteWord_toNat] <;> omega

end Sys2Proof
end

