-- ==== Sys2Proof/Laws/Exec.lean ====
section
/-! SUPPORT. Once and for all what `exec` and the agents' steps can do, so that no proof unfolds 23 meanings. -/

namespace Sys2Proof.Machine

/-- The bytes a kernel command computes. -/
def computeOf : Kernel → State → List Host.Cell
  | .bsign a b sa sb sc sd => computeBsign a b sa sb sc sd
  | .bnorm sa sb win => computeBnorm sa sb win
  | .bconv bias sa sb sc sd se sf sx sy => computeBconv bias sa sb sc sd se sf sx sy

/-- A kernel command runs `RunKernel` with its mode, its checks and its computation (R175, R176). -/
theorem exec_of_kernelOf {i : Instr} {m : Mode} {k : Kernel} (h : kernelOf i = some (m, k)) (s : State) :
    exec i s = .next (runKernel (encode i).w0 m k (computeOf k) s) := by
  cases i <;> simp only [kernelOf, Option.some.injEq, Prod.mk.injEq, reduceCtorEq] at h <;> obtain ⟨rfl, rfl⟩ := h <;> rfl

theorem exec_nop (s : State) : exec .nop s = .next (retire s) := rfl

theorem exec_sync (s : State) : exec .sync s = .next (retire (drain s)) := rfl

/-- Every command is `NOP`, `SYNC` or a kernel command. -/
theorem instr_cases (i : Instr) : i = .nop ∨ i = .sync ∨ ∃ m k, kernelOf i = some (m, k) := by
  cases i <;> simp [kernelOf]

/-- Everything a command can do. It never faults and is never refused: its errors are next states (R217). -/
theorem exec_cases (i : Instr) (s : State) :
    (i = .nop ∧ exec i s = .next (retire s)) ∨ (i = .sync ∧ exec i s = .next (retire (drain s)))
      ∨ ∃ m k, kernelOf i = some (m, k) ∧ exec i s = .next (runKernel (encode i).w0 m k (computeOf k) s) := by
  rcases instr_cases i with rfl | rfl | ⟨m, k, h⟩
  · exact .inl ⟨rfl, rfl⟩
  · exact .inr (.inl ⟨rfl, rfl⟩)
  · exact .inr (.inr ⟨m, k, h, exec_of_kernelOf h s⟩)

/-- Everything the sequencer can do (R175). -/
theorem sequencerStep_cases (s : State) :
    ((s.err = true ∨ s.queue = []) ∧ sequencerStep s = .next s)
      ∨ (s.err = false ∧ ∃ c q, s.queue = c :: q ∧
          ((∃ i, decode c = .ok i ∧ sequencerStep s = exec i s)
            ∨ ∃ e, decode c = .error e ∧ sequencerStep s = .next (fatalError (illegalErr e) s.retired c.w0 s))) := by
  unfold sequencerStep
  cases he : s.err
  · cases hq : s.queue with
    | nil => simp
    | cons c q =>
      right
      refine ⟨rfl, c, q, rfl, ?_⟩
      cases hd : decode c <;> simp [hd]
  · simp

/-- A step is the step of the agent whose turn it is (R73). -/
theorem step_cases (s : State) :
    (mover s = .host ∧ step s = hostStep (dropTurn s)) ∨ (mover s = .sequencer ∧ step s = sequencerStep (dropTurn s)) := by
  unfold step agentStep
  cases h : mover s <;> simp

end Sys2Proof.Machine
end

