-- ==== Sys2Proof/Laws/Host.lean ====
section
/-! SUPPORT. Once and for all what a register write and a host action can do, and what a packed byte holds. -/

namespace Sys2Proof.Machine

/-! ## Register writes -/

/-- Everything a write to `CMDW3` can do once the value is stored (R42). -/
theorem pushStaged_cases (s : State) :
    (s.err = true ∧ pushStaged s = s)
      ∨ (s.err = false ∧ s.qfull = true ∧ pushStaged s = hostError ⟨.queueFull, 15⟩ s.cmdw0 s)
      ∨ (s.err = false ∧ s.qfull = false
          ∧ pushStaged s = { s with queue := s.queue ++ [s.staged], issued := s.issued + 1 }) := by
  unfold pushStaged
  cases s.err <;> cases s.qfull <;> simp

/-- Everything a write into a descriptor window can do (R43). -/
theorem writeTd_cases (off : Nat) (v : Word) (s : State) :
    (s.err = true ∧ writeTd off v s = s)
      ∨ (s.err = false ∧ s.idle = true ∧ writeTd off v s =
          { s with td := TdTable.put s.td (tdIndex off) ((s.tdAt (tdIndex off)).writeField (tdField off) v) })
      ∨ (s.err = false ∧ s.idle = false ∧ writeTd off v s = hostError ⟨.busyWrite, tdIndex off⟩ 0 s) := by
  unfold writeTd
  cases s.err <;> cases s.idle <;> simp

/-- Everything a register write can do (R179). -/
theorem writeReg_cases (off : Nat) (v : Word) (s : State) :
    (isTdWindow off = true ∧ writeReg off v s = writeTd off v s)
      ∨ (off = 0x01C ∧ writeReg off v s = { s with vstat := 0, vcmd := 0 })
      ∨ (off = 0x02C ∧ v.getLsbD 0 = true ∧ writeReg off v s = softResetNow s)
      ∨ (off = 0x030 ∧ writeReg off v s = { s with cmdw0 := v })
      ∨ (off = 0x034 ∧ writeReg off v s = { s with cmdw1 := v })
      ∨ (off = 0x038 ∧ writeReg off v s = { s with cmdw2 := v })
      ∨ (off = 0x03C ∧ writeReg off v s = pushStaged { s with cmdw3 := v })
      ∨ writeReg off v s = s := by
  unfold writeReg
  split
  · exact .inl ⟨‹_›, rfl⟩
  · repeat' (first | split | rfl)
    all_goals simp_all

/-! ## Host actions -/

/-- Two intervals meet exactly when they share a byte (R182). -/
theorem meets_iff {i j : Interval} : i.meets j = true ↔ ∃ x, i.has x = true ∧ j.has x = true := by
  simp only [Interval.meets, Interval.has, Bool.and_eq_true, decide_eq_true_eq]
  exact ⟨fun h => ⟨max i.lo j.lo, by omega⟩, fun ⟨x, h⟩ => by omega⟩

/-- A range touches the intervals exactly when one of its bytes lies in one of them: byte by byte or at once, a host access is
judged alike (R79). -/
theorem touchesAny_iff {is : List Interval} {a n : Nat} :
    touchesAny is a n = true ↔ ∃ x, a ≤ x ∧ x < a + n ∧ inAny is x = true := by
  simp only [touchesAny, inAny, List.any_eq_true, meets_iff, Interval.has, Bool.and_eq_true, decide_eq_true_eq]
  exact ⟨fun ⟨i, hi, x, h, h'⟩ => ⟨x, h'.1, h'.2, i, hi, h⟩, fun ⟨x, hlo, hhi, i, hi, h⟩ => ⟨i, hi, x, h, hlo, hhi⟩⟩

/-- No byte of a range that touches no interval lies in one. -/
theorem inAny_of_not_touchesAny {is : List Interval} {a n x : Nat} (h : touchesAny is a n = false) (hlo : a ≤ x)
    (hhi : x < a + n) : inAny is x = false :=
  Bool.eq_false_iff.2 fun hx => Bool.eq_false_iff.1 h (touchesAny_iff.2 ⟨x, hlo, hhi, hx⟩)

/-- What any host write must leave alone (R79, R201). -/
theorem padRefusal_eq_none {s : State} {a n : Nat} :
    s.padRefusal a n = none ↔ touchesAny s.owned.others a n = false ∧ touchesAny s.inUse a n = false := by
  unfold State.padRefusal
  cases touchesAny s.owned.others a n <;> cases touchesAny s.inUse a n <;> simp

/-- What any other host write may write (R79, R201, R247). -/
theorem writeRefusal_eq_none {s : State} {a n : Nat} :
    s.writeRefusal a n = none ↔
      (touchesAny s.owned.pin a n = true → s.endedWell = true) ∧ touchesAny s.owned.others a n = false
        ∧ touchesAny s.inUse a n = false := by
  unfold State.writeRefusal
  cases touchesAny s.owned.pin a n <;> cases s.endedWell <;> simp [padRefusal_eq_none]

/-- When nothing is pending but the `BSIGN.A` of the weights (R198). -/
theorem onlyPreparePending_iff {s : State} {l : Layer} :
    s.onlyPreparePending l = true ↔
      s.wpn = false ∧ (∀ c ∈ s.queue, c = encode (.bsignAExec l.w l.bw l.al))
        ∧ (s.wpq = true → ∀ i ∈ s.unsynced, i ∈ s.owned.weights) := by
  unfold State.onlyPreparePending
  cases s.wpn <;> cases s.wpq <;> simp [List.all_eq_true]

/-- When the previous run of a layer has ended (R247). -/
theorem previousRunEnded_iff {s : State} {l : Layer} :
    s.previousRunEnded l = true ↔ s.err = false ∧ s.onlyPreparePending l = true := by
  simp [State.previousRunEnded]

/-- What the padding step of `l.run` may write (R79, R201, R247). -/
theorem runPadRefusal_eq_none {s : State} {l : Layer} {a n : Nat} :
    s.runPadRefusal l a n = none ↔
      s.onlyPreparePending l = true ∧ touchesAny s.owned.others a n = false ∧ touchesAny s.inUse a n = false := by
  unfold State.runPadRefusal
  cases s.onlyPreparePending l <;> simp [padRefusal_eq_none]

/-- Everything the padding step can do when it is not stopped (R194). -/
theorem padInto_eq_next {r : Nat → Nat → Option Refusal} {slot : Slot} {inp : PadInput} {s t : State}
    (h : padInto r slot inp s = .next t) :
    ∃ cells : List Host.Cell,
      (∀ p ∈ cells, p.1 < s.params.memSize ∧ ∃ a, r a 4 = none ∧ a ≤ p.1 ∧ p.1 < a + 4)
        ∧ t = { s.writeCells cells with draws := s.draws + 1 } := by
  simp only [padInto] at h
  split at h
  · cases h
  rename_i hsize
  split at h
  · cases h
  rename_i hnone
  cases h
  refine ⟨_, fun p hp => ?_, rfl⟩
  obtain ⟨q, hq, hp⟩ := List.mem_flatMap.1 hp
  obtain ⟨k, hk, rfl⟩ := mem_wordCells.1 hp
  simp only [List.any_eq_true, not_exists, not_and, decide_eq_true_eq] at hsize
  have hlt := hsize q hq
  exact ⟨by simp only; omega, q.1, List.findSome?_eq_none_iff.1 hnone q hq, by simp only; omega, by simp only; omega⟩

/-- Everything a host action can do when it is not stopped. -/
theorem hostAct_next_cases {a : HostAction} {s t : State} (h : hostAct a s = .next t) :
    (∃ off v, a = .wr off v ∧ regAccessOk off = true ∧ t = writeReg off v s)
      ∨ (a = .hardReset ∧ t = hardReset s)
      ∨ (∃ cells, (∀ p ∈ cells, p.1 < s.params.memSize ∧ inAny s.inUse p.1 = false ∧ inAny s.owned.others p.1 = false)
          ∧ t = { s.writeCells cells with draws := t.draws })
      ∨ (∃ l, a = .lConfigured l ∧ t = hostConfigured l s)
      ∨ (a = .lPrepared ∧ t = hostPrepared s)
      ∨ t = { s with rdata := t.rdata, mdata := t.mdata, draws := t.draws, script := t.script, lresult := t.lresult } := by
  cases a with
  | wr off v =>
    simp only [hostAct, hostWr] at h
    split at h
    · exact .inl ⟨off, v, rfl, ‹_›, (Host.Outcome.next.inj h).symm⟩
    · cases h
  | rd off =>
    simp only [hostAct, hostRd] at h
    split at h
    · cases h; simp
    · cases h
  | otherAccess off w => cases h
  | memWrite a bs =>
    simp only [hostAct, hostMemWrite] at h
    split at h
    · cases h
    split at h
    · cases h
    cases h
    rename_i hsize _ hnone
    obtain ⟨_, hothers, huse⟩ := writeRefusal_eq_none.1 hnone
    refine .inr (.inr (.inl ⟨_, fun p hp => ?_, rfl⟩))
    obtain ⟨k, hk, rfl⟩ := List.mem_mapIdx.1 hp
    exact ⟨by simp only; omega, inAny_of_not_touchesAny huse (by simp) (by simp only; omega),
      inAny_of_not_touchesAny hothers (by simp) (by simp only; omega)⟩
  | memRead a n =>
    simp only [hostAct, hostMemRead] at h
    split at h
    · cases h
    split at h
    · cases h
    · cases h; simp
  | wait c =>
    simp only [hostAct, hostWait, Host.Outcome.next.injEq] at h
    split at h <;> subst h <;> simp
  | hardReset => simp only [hostAct, Host.Outcome.next.injEq] at h; exact .inr (.inl ⟨rfl, h.symm⟩)
  | hostPad pin inp =>
    obtain ⟨cells, hcells, rfl⟩ := padInto_eq_next h
    refine .inr (.inr (.inl ⟨cells, fun p hp => ?_, rfl⟩))
    obtain ⟨hsize, a, hr, hlo, hhi⟩ := hcells p hp
    obtain ⟨_, hothers, huse⟩ := writeRefusal_eq_none.1 hr
    exact ⟨hsize, inAny_of_not_touchesAny huse hlo hhi, inAny_of_not_touchesAny hothers hlo hhi⟩
  | lValidate l =>
    simp only [hostAct, hostValidate, Host.Outcome.next.injEq] at h
    subst h; simp
  | lConfigure l =>
    simp only [hostAct, hostConfigure] at h
    split at h <;> cases h
    simp
  | lConfigured l => simp only [hostAct, Host.Outcome.next.injEq] at h; exact .inr (.inr (.inr (.inl ⟨l, rfl, h.symm⟩)))
  | lPrepare =>
    simp only [hostAct, hostPrepare] at h
    split at h <;> cases h <;> simp
  | lPrepared =>
    simp only [hostAct, Host.Outcome.next.injEq] at h
    exact .inr (.inr (.inr (.inr (.inl ⟨rfl, h.symm⟩))))
  | lRun inp =>
    simp only [hostAct, hostRun] at h
    split at h
    · cases h
    · cases h
    · split at h <;> cases h
      simp
  | lPad inp =>
    simp only [hostAct, hostLayerPad] at h
    split at h
    · cases h
    obtain ⟨cells, hcells, rfl⟩ := padInto_eq_next h
    refine .inr (.inr (.inl ⟨cells, fun p hp => ?_, rfl⟩))
    obtain ⟨hsize, a, hr, hlo, hhi⟩ := hcells p hp
    obtain ⟨_, hothers, huse⟩ := runPadRefusal_eq_none.1 hr
    exact ⟨hsize, inAny_of_not_touchesAny huse hlo hhi, inAny_of_not_touchesAny hothers hlo hhi⟩
  | lRunDone =>
    simp only [hostAct, hostRunDone, Host.Outcome.next.injEq] at h
    subst h; simp

/-! ## Packed bytes -/

/-- Bit `7 - k` of a packed byte is element `k` of its group (R62). -/
theorem packByte_getLsbD (f : Nat → Bool) {k : Nat} (hk : k < 8) : (packByte f).getLsbD (7 - k) = f k := by
  have h : ∀ b0 b1 b2 b3 b4 b5 b6 b7 : Bool, ∀ k < 8,
      (packByte fun k => [b0, b1, b2, b3, b4, b5, b6, b7].getD k false).getLsbD (7 - k)
        = [b0, b1, b2, b3, b4, b5, b6, b7].getD k false := by decide +kernel
  have e : packByte f = packByte fun k => [f 0, f 1, f 2, f 3, f 4, f 5, f 6, f 7].getD k false := rfl
  rw [e, h _ _ _ _ _ _ _ _ k hk]
  match k, hk with
  | 0, _ | 1, _ | 2, _ | 3, _ | 4, _ | 5, _ | 6, _ | 7, _ => rfl

end Sys2Proof.Machine
end

