-- ==== Sys2Proof/Laws/PerInstr.lean ====
section
/-! SUPPORT. The family `TableRow`: the words the encoder writes lie in the instruction's row of spec/opcode_table.json, the
row's match and mask copied from the table (R103), one lemma for each constructor. -/

namespace Sys2Proof.Laws

/-- The row of an instruction: word 0 whole, and the masks of words 1, 2 and 3; every masked bit outside word 0 is 0 in
`match` (R103). -/
def tableRow : Instr → Word × Word × Word × Word
  | .nop => (0x00000001, 0xFFFFFFFF, 0xFFFFFFFF, 0xFFFFFFFF)
  | .sync => (0x00000002, 0xFFFFFFFF, 0xFFFFFFFF, 0xFFFFFFFF)
  | .bsignExec _ _ => (0x00000010, 0xFFFFFF00, 0xFFFFFFFF, 0xFFFFFFFF)
  | .bsignCfg _ _ => (0x00000110, 0xFFFFFF00, 0xFFFFFFFF, 0xFFFFFFFF)
  | .bsignVal _ _ => (0x00000210, 0xFFFFFF00, 0xFFFFFFFF, 0xFFFFFFFF)
  | .bsignAExec _ _ _ => (0x00000410, 0xFFFFF000, 0xFFFFFFFF, 0xFFFFFFFF)
  | .bsignACfg _ _ _ => (0x00000510, 0xFFFFF000, 0xFFFFFFFF, 0xFFFFFFFF)
  | .bsignAVal _ _ _ => (0x00000610, 0xFFFFF000, 0xFFFFFFFF, 0xFFFFFFFF)
  | .bsignBExec _ _ _ => (0x00000810, 0xFFFF0F00, 0xFFFFFFFF, 0xFFFFFFFF)
  | .bsignBCfg _ _ _ => (0x00000910, 0xFFFF0F00, 0xFFFFFFFF, 0xFFFFFFFF)
  | .bsignBVal _ _ _ => (0x00000A10, 0xFFFF0F00, 0xFFFFFFFF, 0xFFFFFFFF)
  | .bsignABExec _ _ _ _ => (0x00000C10, 0xFFFF0000, 0xFFFFFFFF, 0xFFFFFFFF)
  | .bsignABCfg _ _ _ _ => (0x00000D10, 0xFFFF0000, 0xFFFFFFFF, 0xFFFFFFFF)
  | .bsignABVal _ _ _ _ => (0x00000E10, 0xFFFF0000, 0xFFFFFFFF, 0xFFFFFFFF)
  | .bnormExec _ _ _ => (0x00000011, 0xFFFFFF00, 0, 0)
  | .bnormCfg _ _ _ => (0x00000111, 0xFFFFFF00, 0, 0)
  | .bnormVal _ _ _ => (0x00000211, 0xFFFFFF00, 0, 0)
  | .bconvExec _ _ _ _ _ _ _ => (0x00000012, 0xFF000F00, 0x0000FFFF, 0xFFFFFFFF)
  | .bconvCfg _ _ _ _ _ _ _ => (0x00000112, 0xFF000F00, 0x0000FFFF, 0xFFFFFFFF)
  | .bconvVal _ _ _ _ _ _ _ => (0x00000212, 0xFF000F00, 0x0000FFFF, 0xFFFFFFFF)
  | .bconvBExec _ _ _ _ _ _ _ _ => (0x00000412, 0xFF000000, 0x0000FFFF, 0xFFFFFFFF)
  | .bconvBCfg _ _ _ _ _ _ _ _ => (0x00000512, 0xFF000000, 0x0000FFFF, 0xFFFFFFFF)
  | .bconvBVal _ _ _ _ _ _ _ _ => (0x00000612, 0xFF000000, 0x0000FFFF, 0xFFFFFFFF)

/-- A bit of a field that is 0 is 0. -/
theorem getLsbD_of_zeroBits {w : Word} {lo len i : Nat} (h : w.toNat / 2 ^ lo % 2 ^ len = 0) (h1 : lo ≤ i)
    (h2 : i < lo + len) : w.getLsbD i = false := by
  have hz : w.extractLsb' lo len = 0#len := by
    apply BitVec.eq_of_toNat_eq; rw [field_toNat, h]; simp
  have hb := congrArg (fun b => b.getLsbD (i - lo)) hz
  have hl : i - lo < len := by omega
  simpa [BitVec.getLsbD_extractLsb', hl, Nat.add_sub_cancel' h1] using hb

/-- A word under a mask is 0 when its bits are 0 wherever the mask has a 1. -/
theorem and_mask_eq_zero {w mask : Word} (h : ∀ i < 32, mask.getLsbD i = true → w.getLsbD i = false) :
    w &&& mask = 0 := by
  apply BitVec.eq_of_getLsbD_eq
  intro i hi
  cases hm : mask.getLsbD i
  · simp [hm]
  · simp [h i hi hm]

/-- The masks of word 1 in the table against the slots the encoder leaves 0. -/
theorem slotWord_mask_bsign (sa sb : Slot) : slotWord sa sb 0 0 0 0 &&& 0xFFFFFF00 = 0 := by
  have := sa.isLt; have := sb.isLt
  refine and_mask_eq_zero fun i hi hm => getLsbD_of_zeroBits (lo := 8) (len := 24) ?_ ?_ hi
  · rw [slotWord_toNat]; simp only [BitVec.ofNat_eq_ofNat, BitVec.toNat_ofNat]; omega
  · revert hm; revert i; decide

theorem slotWord_mask_bsignA (sa sb sc : Slot) : slotWord sa sb sc 0 0 0 &&& 0xFFFFF000 = 0 := by
  have := sa.isLt; have := sb.isLt; have := sc.isLt
  refine and_mask_eq_zero fun i hi hm => getLsbD_of_zeroBits (lo := 12) (len := 20) ?_ ?_ hi
  · rw [slotWord_toNat]; simp only [BitVec.ofNat_eq_ofNat, BitVec.toNat_ofNat]; omega
  · revert hm; revert i; decide

theorem slotWord_mask_bsignB (sa sb sd : Slot) : slotWord sa sb 0 sd 0 0 &&& 0xFFFF0F00 = 0 := by
  have := sa.isLt; have := sb.isLt; have := sd.isLt
  refine and_mask_eq_zero fun i hi hm => ?_
  have hr : (8 ≤ i ∧ i < 8 + 4) ∨ (16 ≤ i ∧ i < 16 + 16) := by revert hm; revert i; decide
  rcases hr with ⟨h1, h2⟩ | ⟨h1, h2⟩ <;> refine getLsbD_of_zeroBits ?_ h1 h2 <;> rw [slotWord_toNat] <;>
    simp only [BitVec.ofNat_eq_ofNat, BitVec.toNat_ofNat] <;> omega

theorem slotWord_mask_bsignAB (sa sb sc sd : Slot) : slotWord sa sb sc sd 0 0 &&& 0xFFFF0000 = 0 := by
  have := sa.isLt; have := sb.isLt; have := sc.isLt; have := sd.isLt
  refine and_mask_eq_zero fun i hi hm => getLsbD_of_zeroBits (lo := 16) (len := 16) ?_ ?_ hi
  · rw [slotWord_toNat]; simp only [BitVec.ofNat_eq_ofNat, BitVec.toNat_ofNat]; omega
  · revert hm; revert i; decide

theorem slotWord_mask_bconv (sa sb sd se sf : Slot) : slotWord sa sb 0 sd se sf &&& 0xFF000F00 = 0 := by
  have := sa.isLt; have := sb.isLt; have := sd.isLt; have := se.isLt; have := sf.isLt
  refine and_mask_eq_zero fun i hi hm => ?_
  have hr : (8 ≤ i ∧ i < 8 + 4) ∨ (24 ≤ i ∧ i < 24 + 8) := by revert hm; revert i; decide
  rcases hr with ⟨h1, h2⟩ | ⟨h1, h2⟩ <;> refine getLsbD_of_zeroBits ?_ h1 h2 <;> rw [slotWord_toNat] <;>
    simp only [BitVec.ofNat_eq_ofNat, BitVec.toNat_ofNat] <;> omega

theorem slotWord_mask_bconvB (sa sb sc sd se sf : Slot) : slotWord sa sb sc sd se sf &&& 0xFF000000 = 0 := by
  have := sa.isLt; have := sb.isLt; have := sc.isLt; have := sd.isLt; have := se.isLt; have := sf.isLt
  refine and_mask_eq_zero fun i hi hm => getLsbD_of_zeroBits (lo := 24) (len := 8) ?_ ?_ hi
  · rw [slotWord_toNat]; omega
  · revert hm; revert i; decide

/-- The mask of word 2 of a `BCONV*`: KW and KH are 0. -/
theorem byteWord_mask_bconv (sx sy : Byte) : byteWord 0 0 sx sy &&& 0x0000FFFF = 0 := by
  refine and_mask_eq_zero fun i hi hm => getLsbD_of_zeroBits (lo := 0) (len := 16) ?_ (Nat.zero_le i) ?_
  · rw [byteWord_toNat]; simp only [BitVec.ofNat_eq_ofNat, BitVec.toNat_ofNat]; omega
  · revert hm; revert i; decide

end Sys2Proof.Laws

/-- Every word of the encoded command, under the mask of the row, is the row's match (R103). -/
def Sys2Proof.Laws.TableRow.Statement (i : Sys2Proof.Instr) : Prop :=
  (Sys2Proof.encode i).w0 = (Sys2Proof.Laws.tableRow i).1
    ∧ (Sys2Proof.encode i).w1 &&& (Sys2Proof.Laws.tableRow i).2.1 = 0
    ∧ (Sys2Proof.encode i).w2 &&& (Sys2Proof.Laws.tableRow i).2.2.1 = 0
    ∧ (Sys2Proof.encode i).w3 &&& (Sys2Proof.Laws.tableRow i).2.2.2 = 0

namespace Sys2Proof.Laws

theorem TableRow.nop : TableRow.Statement .nop := ⟨rfl, rfl, rfl, rfl⟩

theorem TableRow.sync : TableRow.Statement .sync := ⟨rfl, rfl, rfl, rfl⟩

theorem TableRow.bsignExec (sa sb : Slot) : TableRow.Statement (.bsignExec sa sb) :=
  ⟨rfl, slotWord_mask_bsign sa sb, BitVec.zero_and, BitVec.zero_and⟩

theorem TableRow.bsignCfg (sa sb : Slot) : TableRow.Statement (.bsignCfg sa sb) :=
  ⟨rfl, slotWord_mask_bsign sa sb, BitVec.zero_and, BitVec.zero_and⟩

theorem TableRow.bsignVal (sa sb : Slot) : TableRow.Statement (.bsignVal sa sb) :=
  ⟨rfl, slotWord_mask_bsign sa sb, BitVec.zero_and, BitVec.zero_and⟩

theorem TableRow.bsignAExec (sa sb sc : Slot) : TableRow.Statement (.bsignAExec sa sb sc) :=
  ⟨rfl, slotWord_mask_bsignA sa sb sc, BitVec.zero_and, BitVec.zero_and⟩

theorem TableRow.bsignACfg (sa sb sc : Slot) : TableRow.Statement (.bsignACfg sa sb sc) :=
  ⟨rfl, slotWord_mask_bsignA sa sb sc, BitVec.zero_and, BitVec.zero_and⟩

theorem TableRow.bsignAVal (sa sb sc : Slot) : TableRow.Statement (.bsignAVal sa sb sc) :=
  ⟨rfl, slotWord_mask_bsignA sa sb sc, BitVec.zero_and, BitVec.zero_and⟩

theorem TableRow.bsignBExec (sa sb sd : Slot) : TableRow.Statement (.bsignBExec sa sb sd) :=
  ⟨rfl, slotWord_mask_bsignB sa sb sd, BitVec.zero_and, BitVec.zero_and⟩

theorem TableRow.bsignBCfg (sa sb sd : Slot) : TableRow.Statement (.bsignBCfg sa sb sd) :=
  ⟨rfl, slotWord_mask_bsignB sa sb sd, BitVec.zero_and, BitVec.zero_and⟩

theorem TableRow.bsignBVal (sa sb sd : Slot) : TableRow.Statement (.bsignBVal sa sb sd) :=
  ⟨rfl, slotWord_mask_bsignB sa sb sd, BitVec.zero_and, BitVec.zero_and⟩

theorem TableRow.bsignABExec (sa sb sc sd : Slot) : TableRow.Statement (.bsignABExec sa sb sc sd) :=
  ⟨rfl, slotWord_mask_bsignAB sa sb sc sd, BitVec.zero_and, BitVec.zero_and⟩

theorem TableRow.bsignABCfg (sa sb sc sd : Slot) : TableRow.Statement (.bsignABCfg sa sb sc sd) :=
  ⟨rfl, slotWord_mask_bsignAB sa sb sc sd, BitVec.zero_and, BitVec.zero_and⟩

theorem TableRow.bsignABVal (sa sb sc sd : Slot) : TableRow.Statement (.bsignABVal sa sb sc sd) :=
  ⟨rfl, slotWord_mask_bsignAB sa sb sc sd, BitVec.zero_and, BitVec.zero_and⟩

theorem TableRow.bnormExec (sa sb : Slot) (win : Window) : TableRow.Statement (.bnormExec sa sb win) :=
  ⟨rfl, slotWord_mask_bsign sa sb, BitVec.and_zero, BitVec.and_zero⟩

theorem TableRow.bnormCfg (sa sb : Slot) (win : Window) : TableRow.Statement (.bnormCfg sa sb win) :=
  ⟨rfl, slotWord_mask_bsign sa sb, BitVec.and_zero, BitVec.and_zero⟩

theorem TableRow.bnormVal (sa sb : Slot) (win : Window) : TableRow.Statement (.bnormVal sa sb win) :=
  ⟨rfl, slotWord_mask_bsign sa sb, BitVec.and_zero, BitVec.and_zero⟩

theorem TableRow.bconvExec (sa sb sd se sf : Slot) (sx sy : Byte) : TableRow.Statement (.bconvExec sa sb sd se sf sx sy) :=
  ⟨rfl, slotWord_mask_bconv sa sb sd se sf, byteWord_mask_bconv sx sy, BitVec.zero_and⟩

theorem TableRow.bconvCfg (sa sb sd se sf : Slot) (sx sy : Byte) : TableRow.Statement (.bconvCfg sa sb sd se sf sx sy) :=
  ⟨rfl, slotWord_mask_bconv sa sb sd se sf, byteWord_mask_bconv sx sy, BitVec.zero_and⟩

theorem TableRow.bconvVal (sa sb sd se sf : Slot) (sx sy : Byte) : TableRow.Statement (.bconvVal sa sb sd se sf sx sy) :=
  ⟨rfl, slotWord_mask_bconv sa sb sd se sf, byteWord_mask_bconv sx sy, BitVec.zero_and⟩

theorem TableRow.bconvBExec (sa sb sc sd se sf : Slot) (sx sy : Byte) : TableRow.Statement (.bconvBExec sa sb sc sd se sf sx sy) :=
  ⟨rfl, slotWord_mask_bconvB sa sb sc sd se sf, byteWord_mask_bconv sx sy, BitVec.zero_and⟩

theorem TableRow.bconvBCfg (sa sb sc sd se sf : Slot) (sx sy : Byte) : TableRow.Statement (.bconvBCfg sa sb sc sd se sf sx sy) :=
  ⟨rfl, slotWord_mask_bconvB sa sb sc sd se sf, byteWord_mask_bconv sx sy, BitVec.zero_and⟩

theorem TableRow.bconvBVal (sa sb sc sd se sf : Slot) (sx sy : Byte) : TableRow.Statement (.bconvBVal sa sb sc sd se sf sx sy) :=
  ⟨rfl, slotWord_mask_bconvB sa sb sc sd se sf, byteWord_mask_bconv sx sy, BitVec.zero_and⟩

end Sys2Proof.Laws
end

