-- ==== Sys2Proof/Tests/Slice0.lean ====
section
/-! SUPPORT. The model's own tests: ill-formed commands, every command's words written from the tables of R91 to R103, single
steps with the results of 95_test_vectors, and for every statement with hypotheses a state that meets them (`witness_…`). -/

namespace Sys2Proof.Tests

-- One theorem after another: each of the many kernel evaluations below would else wait in a thread of its own.
set_option Elab.async false

open Sys2Proof.Machine Sys2Proof.Safety

/-! ## Ill-formed commands (checks 4 and 18) -/

theorem test_bsign_alias : (Instr.bsignExec 1 1).wellFormed = false := by decide
theorem test_bsignA_two_outputs : (Instr.bsignAExec 1 2 2).wellFormed = false := by decide
theorem test_bsignB_alias : (Instr.bsignBVal 1 2 1).wellFormed = false := by decide
theorem test_bsignAB_two_outputs : (Instr.bsignABCfg 1 2 3 3).wellFormed = false := by decide
theorem test_bnorm_zero_window : (Instr.bnormExec 1 2 ⟨0, 1, 1, 1, 0, 0, 0, 0⟩).wellFormed = false := by decide
theorem test_bnorm_zero_height : (Instr.bnormExec 1 2 ⟨1, 0, 1, 1, 0, 0, 0, 0⟩).wellFormed = false := by decide
theorem test_bnorm_zero_stride : (Instr.bnormCfg 1 2 ⟨1, 1, 1, 0, 0, 0, 0, 0⟩).wellFormed = false := by decide
theorem test_bnorm_alias : (Instr.bnormVal 2 2 ⟨1, 1, 1, 1, 0, 0, 0, 0⟩).wellFormed = false := by decide
theorem test_bconv_zero_stride : (Instr.bconvExec 1 2 3 4 5 0 1).wellFormed = false := by decide
theorem test_bconv_alias : (Instr.bconvExec 1 2 3 4 4 1 1).wellFormed = false := by decide
theorem test_bconvB_alias : (Instr.bconvBCfg 1 2 3 4 5 3 1 1).wellFormed = false := by decide
theorem test_wellFormed : (Instr.bconvBCfg 5 6 3 7 9 4 1 1).wellFormed = true := by decide

/-! ## Decoding: words written from the tables of R91 to R99 and R103 -/

theorem test_decode_nop : decode ⟨0x00000001, 0, 0, 0⟩ = .ok .nop := by decide
theorem test_decode_sync : decode ⟨0x00000002, 0, 0, 0⟩ = .ok .sync := by decide
theorem test_decode_bsignExec : decode ⟨0x00000010, 0x00000021, 0, 0⟩ = .ok (.bsignExec 1 2) := by decide
theorem test_decode_bsignCfg : decode ⟨0x00000110, 0x000000F0, 0, 0⟩ = .ok (.bsignCfg 0 15) := by decide
theorem test_decode_bsignVal : decode ⟨0x00000210, 0x0000000F, 0, 0⟩ = .ok (.bsignVal 15 0) := by decide
theorem test_decode_bsignAExec : decode ⟨0x00000410, 0x00000321, 0, 0⟩ = .ok (.bsignAExec 1 2 3) := by decide
theorem test_decode_bsignACfg : decode ⟨0x00000510, 0x00000762, 0, 0⟩ = .ok (.bsignACfg 2 6 7) := by decide
theorem test_decode_bsignAVal : decode ⟨0x00000610, 0x00000F00, 0, 0⟩ = .ok (.bsignAVal 0 0 15) := by decide
theorem test_decode_bsignBExec : decode ⟨0x00000810, 0x00008051, 0, 0⟩ = .ok (.bsignBExec 1 5 8) := by decide
theorem test_decode_bsignBCfg : decode ⟨0x00000910, 0x0000F021, 0, 0⟩ = .ok (.bsignBCfg 1 2 15) := by decide
theorem test_decode_bsignBVal : decode ⟨0x00000A10, 0x00001032, 0, 0⟩ = .ok (.bsignBVal 2 3 1) := by decide
theorem test_decode_bsignABExec : decode ⟨0x00000C10, 0x00004321, 0, 0⟩ = .ok (.bsignABExec 1 2 3 4) := by decide
theorem test_decode_bsignABCfg : decode ⟨0x00000D10, 0x00003210, 0, 0⟩ = .ok (.bsignABCfg 0 1 2 3) := by decide
theorem test_decode_bsignABVal : decode ⟨0x00000E10, 0x0000FEDC, 0, 0⟩ = .ok (.bsignABVal 12 13 14 15) := by decide
theorem test_decode_bnormExec :
    decode ⟨0x00000011, 0x00000098, 0x01020303, 0x00000101⟩ = .ok (.bnormExec 8 9 ⟨3, 3, 2, 1, 1, 1, 0, 0⟩) := by decide
theorem test_decode_bnormCfg :
    decode ⟨0x00000111, 0x00000098, 0x04030201, 0x08070605⟩ = .ok (.bnormCfg 8 9 ⟨1, 2, 3, 4, 5, 6, 7, 8⟩) := by decide
theorem test_decode_bnormVal :
    decode ⟨0x00000211, 0x000000A1, 0xFF000000, 0xFE000000⟩ = .ok (.bnormVal 1 10 ⟨0, 0, 0, 255, 0, 0, 0, 254⟩) := by decide
theorem test_decode_bconvExec :
    decode ⟨0x00000012, 0x00497065, 0x01010000, 0⟩ = .ok (.bconvExec 5 6 7 9 4 1 1) := by decide
theorem test_decode_bconvCfg :
    decode ⟨0x00000112, 0x00497065, 0xFF020000, 0⟩ = .ok (.bconvCfg 5 6 7 9 4 2 255) := by decide
theorem test_decode_bconvVal :
    decode ⟨0x00000212, 0x00F00000, 0, 0⟩ = .ok (.bconvVal 0 0 0 0 15 0 0) := by decide
theorem test_decode_bconvBExec :
    decode ⟨0x00000412, 0x00497365, 0x01020000, 0⟩ = .ok (.bconvBExec 5 6 3 7 9 4 2 1) := by decide
theorem test_decode_bconvBCfg :
    decode ⟨0x00000512, 0x00497365, 0x01010000, 0⟩ = .ok (.bconvBCfg 5 6 3 7 9 4 1 1) := by decide
theorem test_decode_bconvBVal :
    decode ⟨0x00000612, 0x00654321, 0x01010000, 0⟩ = .ok (.bconvBVal 1 2 3 4 5 6 1 1) := by decide
/-- The table's numbering: word 1 is bits 63:32. -/
theorem test_decodeTableWord : decodeTableWord 128 0x00000000010000000049706500000012 = some (.bconvExec 5 6 7 9 4 0 1) := by
  decide
/-- Vectors E1 to E8 of 95_test_vectors. -/
theorem test_decode_illegal_opcode : decode ⟨0x00000013, 0, 0, 0⟩ = .error .opcode ∧ decode ⟨0, 0, 0, 0⟩ = .error .opcode := by
  decide
theorem test_decode_illegal_mode : decode ⟨0x00000301, 0, 0, 0⟩ = .error .mode ∧ decode ⟨0x00000101, 0, 0, 0⟩ = .error .mode := by
  decide
theorem test_decode_illegal_field :
    decode ⟨0x00000010, 0x21, 1, 0⟩ = .error .field ∧ decode ⟨0x00001210, 0x21, 0, 0⟩ = .error .field
      ∧ decode ⟨0x00010010, 0x21, 0, 0⟩ = .error .field ∧ decode ⟨0x00000010, 0x321, 0, 0⟩ = .error .field := by decide

/-! ## A small state -/

/-- A bound descriptor with a shape. -/
def desc (ty : BitVec 4) (base w h c n s1 s2 s3 : Nat) : Desc :=
  ⟨BitVec.ofNat 32 base, true, true, ty, BitVec.ofNat 32 w, BitVec.ofNat 32 h, BitVec.ofNat 32 c, BitVec.ofNat 32 n,
    BitVec.ofNat 32 s1, BitVec.ofNat 32 s2, BitVec.ofNat 32 s3⟩

/-- A bound descriptor without a shape. -/
def bare (base : Nat) : Desc := { Desc.null with base := BitVec.ofNat 32 base, bound := true }

/-- F32 patterns stored one after another. -/
def cellsAt (a : Nat) (ws : List Word) : List Host.Cell := (ws.mapIdx fun k w => wordCells (a + 4 * k) w).flatten

/-- The descriptors of the small state: 0 to 3 a `BSIGN.AB` of two 8-element rows of depth 1, 10 to 12 its outputs unshaped;
8 and 9 a `BNORM`; 5, 6, 4, 7, 14, 15 a `BCONV.B`; 13 an unshaped output. -/
def smallTable : TdTable :=
  #v[desc 1 0x000 8 1 1 2 64 64 64, desc 2 0x100 8 1 1 2 1 1 1, desc 1 0x110 2 1 1 1 8 8 8, desc 1 0x120 8 1 1 2 32 32 32,
     desc 1 0xB00 1 1 1 1 4 4 4, desc 2 0xA00 10 2 1 1 2 4 4, desc 2 0xA80 2 2 1 1 1 2 2, desc 1 0xB10 1 1 1 1 4 4 4,
     desc 1 0x800 4 3 1 1 16 48 48, desc 1 0x900 2 1 1 1 8 8 8, bare 0x180, bare 0x188, bare 0x1A0, bare 0xC00,
     desc 1 0xB20 9 1 1 1 36 36 36, desc 1 0xB80 9 1 1 1 36 36 36]

/-- The source of the `BSIGN` is that of P1 in 95_test_vectors, then eight elements of magnitude 1; the beta of the `BNORM` and the operands of the `BCONV` are those of
vectors N2 and D3 of 95_test_vectors, with a bias of 0.25. -/
def smallMemory : Memory :=
  cellsAt 0x000 [0x3F800000, 0xBF800000, 0x40000000, 0xC0000000, 0x00000000, 0x40400000, 0xC0400000, 0x3F000000]
    ++ cellsAt 0x040 (List.replicate 7 0xBF800000 ++ [0x3F800000])
    ++ cellsAt 0x800 [0x3F800000, 0x40000000, 0x40400000, 0x40800000, 0x3F000000, 0x3E800000, 0x3E000000, 0x41000000,
      0x40C00000, 0x40A00000, 0x40E00000, 0x41100000]
    ++ [(0xA00, 0xB4), (0xA01, 0xC0), (0xA02, 0x69), (0xA03, 0x7F), (0xA80, 0xFF), (0xA81, 0x40)]
    ++ cellsAt 0xB00 [0x3E800000] ++ cellsAt 0xB10 [0x3F800000] ++ cellsAt 0xB20 (List.replicate 9 0x3F800000)

/-- The small state: idle, nothing pending, MEMSIZE = 0x1000, QDEPTH = 8. -/
def small : State := { State.reset with td := smallTable, mem := smallMemory }

/-- The small state with commands queued. -/
def queued (cs : List Command) : State := { small with queue := cs, issued := BitVec.ofNat 32 cs.length }

/-- The outcome is a next state of which `p` holds. -/
def ran (o : Host.Outcome State Fault Refusal) (p : State → Bool) : Bool :=
  match o with
  | .next t => p t
  | .fault _ => false
  | .refused _ => false

theorem of_ran {o : Host.Outcome State Fault Refusal} (P : State → Prop) [DecidablePred P]
    (h : ran o (fun t => decide (P t)) = true) : ∃ t, o = .next t ∧ P t := by
  cases o with
  | next t => exact ⟨t, rfl, of_decide_eq_true h⟩
  | fault r => cases h
  | refused r => cases h

/-- Several host or sequencer steps are not run here: a test runs one command on the small state. -/
abbrev After (i : Instr) (s : State) (P : State → Prop) : Prop := ∃ t, exec i s = .next t ∧ P t

/-! ## Deciding the premises -/

theorem holds {p : Prop} (d : Decidable p) (h : @decide p d = true) : p := of_decide_eq_true h

theorem fails {p : Prop} (d : Decidable p) (h : @decide p d = false) : ¬p := of_decide_eq_false h

/-- `FailsCheck` as a test. -/
def decCheck (c : Command) (k : Nat) : Decidable (FailsCheck c k) := by
  letI d1 : Decidable (BadOpcode c) := by unfold BadOpcode; exact inferInstance
  letI d2 : Decidable (BadMode c) := by unfold BadMode; exact inferInstance
  letI df : ∀ k, Decidable (FlagDefined c k) := fun k => by unfold FlagDefined; exact inferInstance
  letI ds : ∀ k, Decidable (SlotUsed c k) := fun k => by unfold SlotUsed; exact inferInstance
  letI d3 : Decidable (BadField c) := by unfold BadField; exact inferInstance
  unfold FailsCheck; exact inferInstance

/-- `WellFormed` as a test. -/
def decWellFormed (memSize : Nat) (d : Desc) (ty : DType) (row : Nat) : Decidable (WellFormed memSize d ty row) := by
  unfold WellFormed; cases ty <;> exact inferInstance

/-- `InputReady` as a test. -/
def decInput (memSize : Nat) (d : Desc) (ty : DType) : Decidable (InputReady memSize d ty) := by
  letI := decWellFormed; unfold InputReady; exact inferInstance

/-- `SourceReady` as a test. -/
def decSource (memSize : Nat) (d : Desc) : Decidable (SourceReady memSize d) := by
  letI := decWellFormed; unfold SourceReady; exact inferInstance

/-- `OutputReady` as a test. -/
def decOutput (m : Mode) (memSize : Nat) (d : Desc) (ty : DType) (sh : Shape) : Decidable (OutputReady m memSize d ty sh) := by
  letI := decWellFormed; unfold OutputReady; cases ty <;> exact inferInstance

/-- `Apart` as a test. -/
def decApart (i j : Interval) : Decidable (Apart i j) := by unfold Apart; exact inferInstance

/-- `BsignReady` as a test. -/
def decBsign (m : Mode) (a b : Bool) (s : State) (sa sb sc sd : Slot) : Decidable (BsignReady m a b s sa sb sc sd) := by
  letI := decSource; letI := decOutput; letI := decApart; unfold BsignReady; exact inferInstance

/-- `BnormReady` as a test. -/
def decBnorm (m : Mode) (s : State) (sa sb : Slot) (win : Window) : Decidable (BnormReady m s sa sb win) := by
  letI := decInput; letI := decOutput; letI := decApart; unfold BnormReady; exact inferInstance

/-- `BconvReady` as a test. -/
def decBconv (m : Mode) (bias : Bool) (s : State) (sa sb sc sd se sf : Slot) (sx sy : Byte) :
    Decidable (BconvReady m bias s sa sb sc sd se sf sx sy) := by
  letI := decInput; letI := decOutput; letI := decApart; unfold BconvReady; exact inferInstance

/-! ## One step each -/

/-- R177's example. -/
theorem test_nop : After .nop { small with retired := 4, issued := 5 } (fun t => t.retired = 5 ∧ t.issued = 5 ∧ t.err = false) :=
  of_ran _ (by decide +kernel)

theorem test_sync : After .sync { small with wpq := true, wpn := true } (fun t => t.wpq = false ∧ t.wpn = false ∧ t.retired = 1) :=
  of_ran _ (by decide +kernel)

/-- P1: the byte is 0xA5; the second row has one positive element, the last. -/
theorem test_bsign : After (.bsignExec 0 1) small (fun t =>
    t.readByte 0x100 = 0xA5 ∧ t.readByte 0x101 = 0x01 ∧ t.wpq = true ∧ t.wpn = false) := of_ran _ (by decide +kernel)

/-- P1: alpha[0] = 12.5/8 = 1.5625; alpha[1] = 1.0 (R126). -/
theorem test_bsignA : After (.bsignAExec 0 1 2) small (fun t =>
    t.ldF32 0x110 = 0x3FC80000 ∧ t.ldF32 0x114 = 0x3F800000 ∧ t.td = small.td) := of_ran _ (by decide +kernel)

/-- Depth 1: beta is the magnitude (R131); -2 becomes 2.0. -/
theorem test_bsignB : After (.bsignBExec 0 1 3) small (fun t =>
    t.ldF32 0x120 = 0x3F800000 ∧ t.ldF32 0x12C = 0x40000000 ∧ t.ldF32 0x13C = 0x3F000000) := of_ran _ (by decide +kernel)

theorem test_bsignAB : After (.bsignABExec 0 1 2 3) small (fun t =>
    t.ldF32 0x110 = 0x3FC80000 ∧ t.ldF32 0x140 = 0x3F800000 ∧ t.ldF32 0x040 = 0xBF800000 ∧ t.retired = 1) :=
  of_ran _ (by decide +kernel)

/-- Dense strides: 1, 1, 1 for the rows of one byte, 8 for two alphas, 32 for beta (R181). -/
theorem test_bsignABCfg : After (.bsignABCfg 0 10 11 12) small (fun t =>
    t.tdAt 10 = desc 2 0x180 8 1 1 2 1 1 1 ∧ t.tdAt 11 = desc 1 0x188 2 1 1 1 8 8 8
      ∧ t.tdAt 12 = desc 1 0x1A0 8 1 1 2 32 32 32 ∧ t.mem = small.mem ∧ t.wpq = false) := of_ran _ (by decide +kernel)

theorem test_bsignVal_reports : After (.bsignVal 0 10) { small with td := TdTable.put smallTable 10 Desc.null } (fun t =>
    t.vstat = 0x000A0A01 ∧ t.vcmd = 0 ∧ t.err = false ∧ t.retired = 1) := of_ran _ (by decide +kernel)

/-- Vector N2: stride 2, one column of padding on each side. -/
theorem test_bnorm : After (.bnormExec 8 9 ⟨3, 3, 2, 1, 1, 1, 0, 0⟩) small (fun t =>
    t.ldF32 0x900 = 0x3FD1C71D ∧ t.ldF32 0x904 = 0x408871C7 ∧ t.wpn = true ∧ t.wpq = false) := of_ran _ (by decide +kernel)

/-- R147. -/
theorem test_bnorm_hazard : After (.bnormExec 8 9 ⟨3, 3, 2, 1, 1, 1, 0, 0⟩) { small with wpq := true } (fun t =>
    t.errInfo = 0x00082808 ∧ t.err = true ∧ t.retired = 0 ∧ t.mem = small.mem ∧ t.wpq = true) := of_ran _ (by decide +kernel)

theorem test_bnormCfg : After (.bnormCfg 8 13 ⟨3, 3, 2, 1, 1, 1, 0, 0⟩) small (fun t =>
    t.tdAt 13 = desc 1 0xC00 2 1 1 1 8 8 8) := of_ran _ (by decide +kernel)

/-- Vector D3: the matches for ox = 0 and ox = 8 are 3 and 4, so the outputs are 2.0 and 4.0. -/
theorem test_bconv : After (.bconvExec 5 6 7 14 15 1 1) small (fun t =>
    t.ldF32 0xB80 = 0x40000000 ∧ t.ldF32 0xBA0 = 0x40800000 ∧ t.ldF32 0xB90 = 0xC0000000 ∧ t.wpq = true) :=
  of_ran _ (by decide +kernel)

/-- The same with a bias of 0.25. -/
theorem test_bconvB : After (.bconvBExec 5 6 4 7 14 15 1 1) small (fun t =>
    t.ldF32 0xB80 = 0x40100000 ∧ t.ldF32 0xBA0 = 0x40880000) := of_ran _ (by decide +kernel)

theorem test_bconvCfg : After (.bconvCfg 5 6 7 14 13 1 1) small (fun t =>
    t.tdAt 13 = desc 1 0xC00 9 1 1 1 36 36 36) := of_ran _ (by decide +kernel)

/-- Vector E12: `wr TD[2].BASE` while a `NOP` is queued. -/
theorem test_busy_write : ∃ t, hostAct (.wr 0x180 0x40) (queued [⟨1, 0, 0, 0⟩]) = .next t
    ∧ t.errInfo = 0x00021F0A ∧ t.errCmd = 1 ∧ t.errW0 = 0 ∧ t.status = 0x00000003 ∧ t.td = smallTable :=
  of_ran _ (by decide +kernel)

/-- Vectors A1, A4 to A8, A12, A14. -/
theorem test_floats : fdiv32 0 0x3F800000 (cvtU32 9) = 0x3DE38E39 ∧ cvtS32 16777217 = 0x4B800000
    ∧ cvtS32 16777219 = 0x4B800002 ∧ cvtS32 (-16777217) = 0xCB800000 ∧ cvtS32 2147483647 = 0x4F000000
    ∧ cvtS32 (-2147483647) = 0xCF000000 ∧ fadd32 0 0x80000000 0 = 0 ∧ fabs32 0xFFC00001 = 0x7FC00001 := by decide +kernel

/-- The step that the host places runs the command of the word. -/
theorem test_withFetchWord : ∃ t, step (State.reset.withFetchWord 128 0x00000000000000000000000000000002) = .next t
    ∧ t.retired = 1 ∧ t.queue = [] ∧ t.err = false := of_ran _ (by decide +kernel)

/-! ## Witnesses: encoding and steps -/

theorem witness_DecodedCommandEncodesBack : decode ⟨0x00000412, 0x00497365, 0x01020000, 0⟩ = .ok (.bconvBExec 5 6 3 7 9 4 2 1) := by
  decide

theorem witness_IllegalCommand_check1 : FailsCheck ⟨0, 0, 0, 0⟩ 1 ∧ FailsCheck ⟨0x00000303, 0, 0, 0⟩ 1
    ∧ (queued [⟨0, 0, 0, 0⟩]).err = false ∧ mover (queued [⟨0, 0, 0, 0⟩]) = .sequencer :=
  ⟨holds (decCheck _ _) (by decide +kernel), holds (decCheck _ _) (by decide +kernel), rfl, by decide +kernel⟩

theorem witness_IllegalCommand_check2 : FailsCheck ⟨0x00000310, 0x321, 0, 0⟩ 2 ∧ FailsCheck ⟨0x00000101, 0, 0, 0⟩ 2 :=
  ⟨holds (decCheck _ _) (by decide +kernel), holds (decCheck _ _) (by decide +kernel)⟩

/-- Check 3 at its boundaries: the lowest must-be-zero bit of each word, the first undefined flag, the first unused slot. -/
theorem witness_IllegalCommand_check3 : ∀ c ∈ ([⟨0x00010010, 0x21, 0, 0⟩, ⟨0x00001210, 0x21, 0, 0⟩,
    ⟨0x00000012, 0x01000000, 0x01010000, 0⟩, ⟨0x00000010, 0x00000121, 0, 0⟩, ⟨0x00000012, 0, 0x01010001, 0⟩,
    ⟨0x00000010, 0x21, 0x00010000, 0⟩, ⟨0x00000412, 0, 0x01010000, 1⟩] : List Command), FailsCheck c 3 :=
  fun c hc => holds (decCheck c 3) (by revert c; decide +kernel)

theorem witness_LegalCommand : ∀ k, ¬FailsCheck ⟨0x00000412, 0x00497365, 0x01020000, 0⟩ k := by
  intro k h
  have hk : k = 1 ∨ k = 2 ∨ k = 3 := by
    rcases h with ⟨_, h⟩ | ⟨_, _, h⟩ | ⟨_, _, _, h⟩
    · exact .inl h
    · exact .inr (.inl h)
    · exact .inr (.inr h)
  rcases hk with rfl | rfl | rfl <;> exact fails (decCheck _ _) (by decide +kernel) h

theorem witness_StepRunsDecodedCommand : (queued [⟨2, 0, 0, 0⟩]).queue = ⟨2, 0, 0, 0⟩ :: []
    ∧ (queued [⟨2, 0, 0, 0⟩]).err = false ∧ mover (queued [⟨2, 0, 0, 0⟩]) = .sequencer ∧ decode ⟨2, 0, 0, 0⟩ = .ok .sync := by
  decide +kernel

/-- The small state with a script for the host. -/
def scripted (as : List HostAction) : State := { small with script := as }

theorem witness_StepRunsHostAction :
    (scripted [.rd 0]).script = .rd 0 :: [] ∧ mover (scripted [.rd 0]) = .host := by decide +kernel

theorem witness_NopRetires : opcNumber ⟨0x00010001, 0, 0, 0⟩ = 1 ∧ (⟨0x00010001, 0, 0, 0⟩ : Command) ≠ ⟨1, 0, 0, 0⟩ := by decide

/-! ## Witnesses: operands ready -/

theorem witness_BsignExecComputes : BsignReady .exec false false small 0 1 0 0 ∧ BsignReady .exec true false small 0 1 2 0
    ∧ BsignReady .exec false true small 0 1 0 3 ∧ BsignReady .exec true true small 0 1 2 3 :=
  ⟨holds (decBsign ..) (by decide +kernel), holds (decBsign ..) (by decide +kernel),
    holds (decBsign ..) (by decide +kernel), holds (decBsign ..) (by decide +kernel)⟩

theorem witness_BsignCfgShapesOutputs : BsignReady .cfg false false small 0 10 0 0 ∧ BsignReady .cfg true false small 0 10 11 0
    ∧ BsignReady .cfg false true small 0 10 0 12 ∧ BsignReady .cfg true true small 0 10 2 12 :=
  ⟨holds (decBsign ..) (by decide +kernel), holds (decBsign ..) (by decide +kernel),
    holds (decBsign ..) (by decide +kernel), holds (decBsign ..) (by decide +kernel)⟩

theorem witness_BsignValOnlyRetires : BsignReady .val false false small 0 10 0 0 ∧ BsignReady .val true false small 0 1 11 0
    ∧ BsignReady .val false true small 0 10 0 12 ∧ BsignReady .val true true small 0 1 2 3 :=
  ⟨holds (decBsign ..) (by decide +kernel), holds (decBsign ..) (by decide +kernel),
    holds (decBsign ..) (by decide +kernel), holds (decBsign ..) (by decide +kernel)⟩

/-- The window of vector N2. -/
def smallWindow : Window := ⟨3, 3, 2, 1, 1, 1, 0, 0⟩

theorem witness_BnormExecComputes : BnormReady .exec small 8 9 smallWindow ∧ small.wpq = false :=
  ⟨holds (decBnorm ..) (by decide +kernel), rfl⟩

theorem witness_BnormCfgShapesOutput : BnormReady .cfg small 8 13 smallWindow ∧ BnormReady .cfg small 8 9 smallWindow :=
  ⟨holds (decBnorm ..) (by decide +kernel), holds (decBnorm ..) (by decide +kernel)⟩

theorem witness_BnormValOnlyRetires : BnormReady .val { small with wpq := true } 8 13 smallWindow :=
  holds (decBnorm ..) (by decide +kernel)

theorem witness_BnormHazardFaults :
    BnormReady .exec { small with wpq := true } 8 9 smallWindow ∧ State.wpq { small with wpq := true } = true :=
  ⟨holds (decBnorm ..) (by decide +kernel), rfl⟩

theorem witness_BconvExecComputes :
    BconvReady .exec false small 5 6 0 7 14 15 1 1 ∧ BconvReady .exec true small 5 6 4 7 14 15 1 1 :=
  ⟨holds (decBconv ..) (by decide +kernel), holds (decBconv ..) (by decide +kernel)⟩

theorem witness_BconvCfgShapesOutput :
    BconvReady .cfg false small 5 6 0 7 14 13 1 1 ∧ BconvReady .cfg true small 5 6 4 7 14 15 1 1 :=
  ⟨holds (decBconv ..) (by decide +kernel), holds (decBconv ..) (by decide +kernel)⟩

theorem witness_BconvValOnlyRetires :
    BconvReady .val false small 5 6 0 7 14 13 1 1 ∧ BconvReady .val true small 5 6 4 7 14 13 1 1 :=
  ⟨holds (decBconv ..) (by decide +kernel), holds (decBconv ..) (by decide +kernel)⟩

/-! ## Witnesses: errors of commands -/

theorem witness_UnreadyCommandFailsFatally : small.params.InRange
    ∧ kernelOf (.bsignExec 0 10) = some (.exec, .bsign false false 0 10 0 0) ∧ ¬Ready small (.bsignExec 0 10) :=
  ⟨by decide, rfl, fails (decBsign .exec false false small 0 10 0 0) (by decide +kernel)⟩

theorem witness_UnreadyValCommandReports :
    kernelOf (.bnormVal 8 8 smallWindow) = some (.val, .bnorm 8 8 smallWindow) ∧ ¬Ready small (.bnormVal 8 8 smallWindow) :=
  ⟨rfl, fun h => fails (decBnorm .val small 8 8 smallWindow) (by decide +kernel) h.1⟩

theorem witness_FirstFailingOperand_window : ¬WindowOk (.bnorm 8 9 ⟨3, 0, 1, 1, 0, 0, 0, 0⟩) ∧ ¬WindowOk (.bconv false 5 6 0 7 14 15 1 0) := by
  delta WindowOk; decide

/-- The first operand fails, and the second after a first that passes. -/
theorem witness_FirstFailingOperand_operand :
    (Kernel.bsign false false 10 1 0 0).operands = [] ++ ⟨10, .input, .f32, true⟩ :: [⟨1, .output, .bit, false⟩]
      ∧ operandError .cfg 0x1000 (small.tdAt 10) ⟨10, .input, .f32, true⟩ = some (1, 11)
      ∧ (Kernel.bsign false false 0 2 0 0).operands = [⟨0, .input, .f32, true⟩] ++ ⟨2, .output, .bit, false⟩ :: []
      ∧ operandError .val 0x1000 (small.tdAt 0) ⟨0, .input, .f32, true⟩ = none
      ∧ operandError .val 0x1000 (small.tdAt 2) ⟨2, .output, .bit, false⟩ = some (2, 13) := by decide +kernel

/-- Every check of R180 at a boundary, as vectors B8 have it. -/
theorem witness_FirstFailingOperand_checks :
    operandError .exec 0x1000 (bare 0) ⟨0, .output, .bit, false⟩ = some (5, 12)
      ∧ operandError .cfg 0x1000 (bare 0) ⟨0, .output, .bit, false⟩ = none
      ∧ operandError .cfg 0x1000 Desc.null ⟨0, .output, .bit, false⟩ = some (1, 10)
      ∧ operandError .cfg 0x1000 (desc 1 0 4 0 1 1 32 32 32) ⟨0, .input, .f32, true⟩ = some (3, 14)
      ∧ operandError .cfg 0x1000 (desc 1 0 4 2 1 1 32 32 64) ⟨0, .input, .f32, true⟩ = some (3, 15)
      ∧ operandError .cfg 0x1000 (desc 1 2 4 1 1 1 32 32 32) ⟨0, .input, .f32, true⟩ = some (7, 16)
      ∧ operandError .cfg 0x1000 (desc 1 0 4 1 1 1 16 16 16) ⟨0, .input, .f32, true⟩ = some (4, 21)
      ∧ operandError .cfg 0x1000 (desc 1 0xFF0 4 1 1 1 32 32 32) ⟨0, .input, .f32, true⟩ = some (7, 17)
      ∧ operandError .cfg 0x1000 (desc 1 0xFE0 4 1 1 1 32 32 32) ⟨0, .input, .f32, true⟩ = none := by decide +kernel

/-- A K of the wrong shape fails check 19, the third later check of a `BNORM`; a source of depth 2 fails check 22, the first. -/
theorem witness_FirstFailingLaterCheck : WindowOk (.bnorm 8 14 smallWindow)
    ∧ (∀ o ∈ (Kernel.bnorm 8 14 smallWindow).operands, operandError .exec 0x1000 (small.tdAt o.slot) o = none)
    ∧ (∃ c0 c1 c2 after, laterChecks .exec small (.bnorm 8 14 smallWindow) = [c0, c1] ++ c2 :: after
        ∧ (∀ d ∈ [c0, c1], d.passes) ∧ ¬c2.passes ∧ (c2.code, c2.chk, c2.td) = (3, 19, 14)) := by
  refine ⟨by delta WindowOk; decide, by decide +kernel, _, _, _, _, rfl, ?_, ?_, rfl⟩
  · simp only [List.mem_cons, List.not_mem_nil, or_false, forall_eq_or_imp, forall_eq]
    constructor <;> decide +kernel
  · show ¬(_ → _)
    decide +kernel

/-- Every later check of a ready `BNORM` passes. -/
theorem witness_LaterChecksPass : ∀ c ∈ laterChecks .exec small (.bnorm 8 9 smallWindow), c.passes := by
  show ∀ c ∈ ([_, _, _, _, _, _, _] : List LaterCheck), c.passes
  simp only [List.forall_mem_cons, List.not_mem_nil, IsEmpty.forall_iff, implies_true, and_true]
  delta Apart
  decide +kernel

theorem witness_IllFormedCommand : (Instr.bsignABVal 1 2 3 2).wellFormed = false := by decide

/-! ## Witnesses: rules of the whole machine -/

/-- `BSIGN` in EXEC mode as a queued command. -/
def bsignCommand : Command := ⟨0x00000010, 0x00000010, 0, 0⟩

theorem witness_StatusBits_wpq_set : ∃ t, step (queued [bsignCommand]) = .next t ∧ t.wpq = true :=
  of_ran _ (by decide +kernel)

theorem witness_StatusBits_wpn_set :
    ∃ t, step (queued [⟨0x00000011, 0x00000098, 0x01020303, 0x00000101⟩]) = .next t ∧ t.wpn = true :=
  of_ran _ (by decide +kernel)

theorem witness_StatusBits_cleared :
    ∃ t, step { queued [⟨2, 0, 0, 0⟩] with wpq := true, wpn := true } = .next t ∧ t.wpq = false ∧ t.wpn = false :=
  of_ran _ (by decide +kernel)

theorem witness_StatusBits_err_set : ∃ t, step (queued [⟨0, 0, 0, 0⟩]) = .next t ∧ t.err = true := of_ran _ (by decide +kernel)

theorem witness_StatusBits_err_cleared :
    ∃ t, step { scripted [.wr 0x02C 1] with err := true, errInfo := 0x000F0106 } = .next t ∧ t.err = false :=
  of_ran _ (by decide +kernel)

/-- The small state in the error state, with a push to come. -/
def stopped : State := { scripted [.wr 0x03C 0] with err := true, errInfo := 0x000F0106, errW0 := 0x00000013 }

theorem stopped_no_reset : ¬ResetNext stopped := by
  rintro ⟨_, rest, h | ⟨v, _, h⟩⟩
  · simp [stopped, scripted] at h
  · simp [stopped, scripted] at h

theorem witness_ErrorStateIsSticky : (∃ t, step stopped = .next t ∧ t.queue = []) ∧ stopped.err = true ∧ ¬ResetNext stopped :=
  ⟨of_ran _ (by decide +kernel), rfl, stopped_no_reset⟩

theorem witness_DescriptorChanges_host :
    ∃ t, step (scripted [.wr 0x100 0x40]) = .next t ∧ t.tdAt 0 ≠ (scripted [.wr 0x100 0x40]).tdAt 0 :=
  of_ran _ (by decide +kernel)

theorem witness_DescriptorChanges_cfg :
    ∃ t, step (queued [⟨0x00000110, 0x000000A0, 0, 0⟩]) = .next t ∧ t.tdAt 10 ≠ small.tdAt 10 := of_ran _ (by decide +kernel)

theorem witness_QueueMovesInOrder :
    (∃ t, step (scripted [.wr 0x03C 0]) = .next t ∧ t.queue ≠ []) ∧ ¬ResetNext (scripted [.wr 0x03C 0]) := by
  refine ⟨of_ran _ (by decide +kernel), ?_⟩
  rintro ⟨_, rest, h | ⟨v, _, h⟩⟩ <;> simp [scripted] at h

theorem witness_QueueMovesInOrder_retire :
    (∃ t, step (queued [bsignCommand]) = .next t ∧ t.queue = []) ∧ ¬ResetNext (queued [bsignCommand]) := by
  refine ⟨of_ran _ (by decide +kernel), ?_⟩
  rintro ⟨_, rest, h | ⟨v, _, h⟩⟩ <;> simp [queued, small, State.reset, State.resetWith] at h

theorem witness_StepKeepsMemoryInRange :
    (∃ t, step (queued [bsignCommand]) = .next t ∧ t.mem ≠ smallMemory) ∧ MemoryOk (queued [bsignCommand]) :=
  ⟨of_ran _ (by decide +kernel), by delta MemoryOk; decide +kernel⟩

theorem small_errorOk (cs : List Command) : ErrorOk (queued cs) ∧ ValOk (queued cs) :=
  ⟨⟨fun _ => ⟨rfl, rfl, rfl, rfl⟩, fun h => nomatch h⟩, ⟨fun _ => ⟨rfl, rfl⟩, fun h => absurd rfl h⟩⟩

theorem witness_StepKeepsQueueAndErrorRegisters :
    (∃ t, step (queued [⟨0, 0, 0, 0⟩]) = .next t ∧ t.err = true) ∧ QueueOk (queued [⟨0, 0, 0, 0⟩])
      ∧ ErrorOk (queued [⟨0, 0, 0, 0⟩]) ∧ ValOk (queued [⟨0, 0, 0, 0⟩]) :=
  ⟨of_ran _ (by decide +kernel), by delta QueueOk; decide +kernel, small_errorOk _⟩

theorem witness_StepKeepsPendingAndLayer :
    (∃ t, step (queued [bsignCommand]) = .next t ∧ t.unsynced ≠ []) ∧ PendingOk (queued [bsignCommand])
      ∧ LayerOk (queued [bsignCommand]) :=
  ⟨of_ran _ (by decide +kernel), fun _ _ => rfl, ⟨fun _ => rfl, fun _ => rfl⟩, fun _ => rfl⟩

/-! ## Witnesses: reset, registers, memory -/

theorem witness_SoftResetClearsBlock : BitVec.getLsbD (0xFFFFFFFF : Word) 0 = true ∧ small.params.InRange ∧ QueueOk small
    ∧ PendingOk small ∧ ErrorOk small ∧ small.qlen = 0 ∧ small.err = false ∧ small.wpq = false ∧ small.wpn = false :=
  ⟨by decide, by decide, by delta QueueOk; decide +kernel, fun _ _ => rfl, (small_errorOk []).1, by decide +kernel, rfl, rfl, rfl⟩

/-- `BSIGN` behind a command that a fatal error has discarded with it, as the state is then. -/
def failedState : State := { small with err := true, errInfo := 0x000F0106, discarded := [⟨0, 0, 0, 0⟩, bsignCommand] }

/-- R245, R78, V4: the packed bytes of the discarded `BSIGN` (descriptor 1, two of them) read as `any`, those behind them do not;
R79: the host may not write its source; R49: a soft reset makes them `any`, and the others stay. -/
theorem test_discarded_outputs :
    inAny failedState.unseen 0x100 = true ∧ inAny failedState.unseen 0x101 = true ∧ inAny failedState.unseen 0x102 = false
    ∧ failedState.writeRefusal 0x03F 1 = some .tensorInUse ∧ failedState.writeRefusal 0x110 4 = none
    ∧ inAny (queuedOutputs failedState failedState.unretired) 0x101 = true
    ∧ inAny (queuedOutputs failedState failedState.unretired) 0x102 = false := by decide +kernel

/-- R217: the fatal error of a step puts the commands it discards there. -/
theorem test_error_discards : ∃ t, step (queued [⟨0, 0, 0, 0⟩, bsignCommand]) = .next t ∧ t.queue = []
    ∧ t.discarded = [⟨0, 0, 0, 0⟩, bsignCommand] := of_ran _ (by decide +kernel)

/-- R27 where an extent is 0: F32 (4, 0, 1, 1) with stride 16 has `Extent` 0 and guards nothing; with `FetchRowBytes`, 32 bytes
longer less 16. -/
theorem test_extent_zero : (desc 1 0x100 4 0 1 1 16 16 16).extent 16 = 0 ∧ (desc 1 0x100 4 0 1 1 16 16 16).extent 32 = 16
    ∧ (desc 1 0x100 4 0 0 1 16 16 16).extent 16 = -16 ∧ ((desc 1 0x100 4 0 0 1 16 16 16).span 16).meets ⟨0, 0x1000⟩ = false
    ∧ (desc 1 0x100 4 2 1 1 16 32 32).extent 16 = 32 := by decide +kernel

/-- R79: an operand of 0 columns (Extent 0) in the middle of a range guards no byte of it. -/
theorem test_empty_interval : touchesAny [⟨0x102, 0x102⟩] 0x100 4 = false ∧ touchesAny [⟨0x102, 0x103⟩] 0x100 4 = true
    ∧ Interval.meets ⟨0x102, 0x102⟩ ⟨0x102, 0x102⟩ = false := by decide

theorem witness_IdentityRegistersRead : small.params.InRange ∧ Params.InRange ⟨2 ^ 31, 255, 255⟩ := by decide

theorem witness_StatusRegisterReads : QueueOk small ∧ QueueOk (queued (List.replicate 8 ⟨1, 0, 0, 0⟩)) := by
  delta QueueOk; decide +kernel

theorem witness_StagingRegistersPush : stopped.err = true ∧ small.err = false ∧ small.qlen ≠ small.params.qDepth
    ∧ (queued (List.replicate 7 ⟨1, 0, 0, 0⟩)).qlen ≠ 8 ∧ (queued (List.replicate 8 ⟨1, 0, 0, 0⟩)).err = false
    ∧ (queued (List.replicate 8 ⟨1, 0, 0, 0⟩)).qlen = (queued []).params.qDepth := by decide +kernel

theorem witness_DescriptorWindowWrites : (∀ f ∈ [0x00, 0x04, 0x20, 0x24, 0x3C], f % 4 = 0 ∧ f < 0x40)
    ∧ small.err = false ∧ small.qlen = 0 ∧ (queued [bsignCommand]).qlen ≠ 0 ∧ stopped.err = true := by decide +kernel

theorem witness_OtherOffsetsBehave : (∀ off ∈ [0x040, 0x0FC, 0x500, 0xFFC],
      off % 4 = 0 ∧ ((0x040 ≤ off ∧ off < 0x100) ∨ (0x500 ≤ off ∧ off < 0x1000)))
    ∧ (∀ off ∈ [0x001, 0xFFF, 0x1000], off % 4 ≠ 0 ∨ 0x1000 ≤ off) ∧ BitVec.getLsbD (0xFFFFFFFE : Word) 0 = false := by decide

theorem small_idle : QueueOk small ∧ PendingOk small ∧ small.qlen = 0 ∧ small.wpq = false ∧ small.wpn = false :=
  ⟨by delta QueueOk; decide +kernel, fun _ _ => rfl, by decide +kernel, rfl, rfl⟩

theorem small_endedWell : ErrorOk small ∧ EndedWell small := ⟨(small_errorOk []).1, small_idle.2.2.1, rfl, rfl, rfl⟩

theorem witness_HostReadsResultsWhenIdle : 0 + 0x1000 ≤ small.params.memSize ∧ touchesAny small.intermediates 0 0x1000 = false := by
  decide

theorem witness_HostWriteStoresBytes : 0xFFC + [(1 : Byte), 2, 3, 4].length ≤ small.params.memSize
    ∧ touchesAny small.owned.others 0xFFC 4 = false ∧ touchesAny small.owned.pin 0xFFC 4 = false := by decide

/-- Next to the packed bytes of a discarded command. -/
theorem witness_HostWrite_error : 0x110 + 4 ≤ failedState.params.memSize ∧ touchesAny failedState.owned.others 0x110 4 = false
    ∧ touchesAny failedState.owned.pin 0x110 4 = false ∧ touchesAny failedState.inUse 0x110 4 = false
    ∧ bsignCommand ∈ failedState.unretired := by decide +kernel

/-- The last byte of the input, and of the shaped output, of a command behind another in the queue. -/
theorem witness_HostAccess_queued : (queued [⟨1, 0, 0, 0⟩, bsignCommand]).owned = Owned.nothing
    ∧ bsignCommand ∈ (queued [⟨1, 0, 0, 0⟩, bsignCommand]).unretired ∧ decode bsignCommand = .ok (.bsignExec 0 1)
    ∧ kernelOf (.bsignExec 0 1) = some (.exec, .bsign false false 0 1 0 0)
    ∧ (∀ o ∈ (Kernel.bsign false false 0 1 0 0).operands, (small.tdAt o.slot).bound = true ∧ (small.tdAt o.slot).shaped = true)
    ∧ (Operand.interval smallTable ⟨0, .input, .f32, true⟩).has 0x3F = true
    ∧ (Operand.interval smallTable ⟨1, .output, .bit, false⟩).has 0x101 = true
    ∧ 0x101 < (queued [⟨1, 0, 0, 0⟩, bsignCommand]).params.memSize := by decide +kernel

/-- Alpha and beta of a `BSIGN.AB`, K of a `BNORM`, the output of a `BCONV`. -/
theorem witness_HostAccess_retired : Ready small (.bsignABExec 0 1 2 3) ∧ Ready small (.bnormExec 8 9 smallWindow)
    ∧ Ready small (.bconvExec 5 6 7 14 15 1 1) :=
  ⟨witness_BsignExecComputes.2.2.2, ⟨witness_BnormExecComputes.1, fun _ => rfl⟩, witness_BconvExecComputes.1⟩

/-- The unshaped K of a `BNORM` in CFG mode at the head of the queue, its last byte. -/
theorem witness_HostAccess_unshaped :
    decode ⟨0x00000111, 0x000000D8, 0x01020303, 0x00000101⟩ = .ok (.bnormCfg 8 13 smallWindow)
    ∧ Ready (queued [⟨0x00000111, 0x000000D8, 0x01020303, 0x00000101⟩]) (.bnormCfg 8 13 smallWindow)
    ∧ derivedOutputs small (.bnorm 8 13 smallWindow) = [⟨13, .f32, ⟨2, 1, 1, 1⟩⟩]
    ∧ (outputRange (small.tdAt 13) .f32 ⟨2, 1, 1, 1⟩).has 0xC07 = true ∧ (small.tdAt 13).shaped = false :=
  ⟨by decide, ⟨holds (decBnorm .cfg _ 8 13 smallWindow) (by decide +kernel), fun h => nomatch h⟩, by decide +kernel,
    by decide +kernel, by decide +kernel⟩

/-- An output that waits for its `SYNC` while a `NOP` retires. -/
theorem witness_HostAccess_unsynced :
    (∃ t, step { queued [⟨1, 0, 0, 0⟩] with unsynced := [⟨0x080, 0x084⟩] } = .next t ∧ t.retired = 1)
    ∧ ¬ResetNext { queued [⟨1, 0, 0, 0⟩] with unsynced := [⟨0x080, 0x084⟩] } ∧ decode ⟨1, 0, 0, 0⟩ ≠ .ok .sync
    ∧ inAny [⟨0x080, 0x084⟩] 0x083 = true := by
  refine ⟨of_ran _ (by decide +kernel), ?_, by decide, by decide⟩
  rintro ⟨_, rest, h | ⟨v, _, h⟩⟩ <;> simp [queued, small, State.reset, State.resetWith] at h

/-! ## Witnesses: the layer -/

/-- The layer of program P2 of 95_test_vectors. -/
def p2Layer : Layer := ⟨1, 2, none, 4, 5, 6, 7, 8, 9, 1, 1⟩

/-- The descriptors of program P2 before `l.configure`. -/
def p2 (out : Desc) : State :=
  { State.reset with td :=
      #v[Desc.null, desc 1 0x000 1 1 1 1 32 32 32, desc 1 0x040 1 1 1 1 32 32 32, Desc.null, out, bare 0x0C0, bare 0x0C4,
         bare 0x0C8, bare 0x0CC, bare 0x0D0, Desc.null, Desc.null, Desc.null, Desc.null, Desc.null, Desc.null] }

/-- The same after `l.configure`: its descriptors shaped, the intervals of its tensors guarded. -/
def p2Configured : State :=
  { State.reset with
    td := #v[Desc.null, desc 1 0x000 1 1 1 1 32 32 32, desc 1 0x040 1 1 1 1 32 32 32, Desc.null, desc 1 0x080 1 1 1 1 4 4 4,
      desc 2 0x0C0 1 1 1 1 1 1 1, desc 2 0x0C4 1 1 1 1 1 1 1, desc 1 0x0C8 1 1 1 1 4 4 4, desc 1 0x0CC 1 1 1 1 4 4 4,
      desc 1 0x0D0 1 1 1 1 4 4 4, Desc.null, Desc.null, Desc.null, Desc.null, Desc.null, Desc.null]
    lstate := .configured
    layer := some p2Layer
    owned := ⟨[⟨0x000, 0x004⟩], [⟨0x0C0, 0x0C1⟩, ⟨0x0C4, 0x0C5⟩, ⟨0x0C8, 0x0CC⟩, ⟨0x0CC, 0x0D0⟩, ⟨0x0D0, 0x0D4⟩],
      [⟨0x0C4, 0x0C5⟩, ⟨0x0C8, 0x0CC⟩]⟩ }

/-- R27 for the six intermediates of P2. -/
theorem test_lConfigured : ∃ t, hostAct (.lConfigured p2Layer)
      { p2Configured with lstate := .unconfigured, layer := none, owned := Owned.nothing } = .next t
    ∧ t = p2Configured := of_ran _ (by decide +kernel)

/-- The input of P2's runs. -/
def p2Input : PadInput := ⟨1, 1, 0, 0, 0, 0, 0, [0x3F000000]⟩

/-- P2's padding step in `l.run`, while the `BSIGN.A` of `l.prepare` is queued, and when it has retired with no `SYNC` after it;
and R247: the same write by the host is refused then. -/
theorem test_pad_during_run :
    (∃ t, hostAct (.lPad p2Input)
        { p2Configured with lstate := .prepared, wpq := true, unsynced := [⟨0x0C4, 0x0C5⟩, ⟨0x0C8, 0x0CC⟩] } = .next t
      ∧ t.ldF32 0 = 0x3F000000)
    ∧ (∃ t, hostAct (.lPad p2Input)
        { p2Configured with lstate := .prepared, queue := [⟨0x00000410, 0x00000762, 0, 0⟩], issued := 1 } = .next t
      ∧ t.ldF32 0 = 0x3F000000)
    ∧ State.writeRefusal { p2Configured with wpq := true } 0 1 = some .runNotEnded :=
  ⟨of_ran _ (by decide +kernel), of_ran _ (by decide +kernel), by decide +kernel⟩

/-- R247: no padding step, and no `l.run`, while the last output of an earlier run waits for its `SYNC`, and no `l.run` in the
error state. -/
theorem test_pad_before_run_ended :
    State.runPadRefusal { p2Configured with wpq := true, unsynced := [⟨0x080, 0x084⟩] } p2Layer 0 4 = some .runNotEnded
    ∧ State.previousRunEnded { p2Configured with wpq := true, unsynced := [⟨0x080, 0x084⟩] } p2Layer = false
    ∧ State.previousRunEnded { p2Configured with err := true } p2Layer = false := by decide +kernel

/-- R198: the `BSIGN.A` of `l.prepare` has failed before the padding step of its `l.run`, which pads and then returns
`ERRINFO`. -/
theorem test_run_with_failed_prepare :
    (∃ t, hostAct (.lPad p2Input) { p2Configured with lstate := .prepared, err := true, errInfo := 0x00020F03, errW0 := 0x410 }
      = .next t ∧ t.ldF32 0 = 0x3F000000 ∧ t.errInfo = 0x00020F03)
    ∧ ∃ t, hostAct .lRunDone { p2Configured with lstate := .prepared, err := true, errInfo := 0x00020F03 } = .next t
      ∧ t.lresult = 0x00020F03 := ⟨of_ran _ (by decide +kernel), of_ran _ (by decide +kernel)⟩

/-- A wait on `QLEN <= 2` (R104). -/
theorem test_wait_atMost : (StatusCond.atMost 0xFF00 0x200).holds 0x00000201 = true
    ∧ (StatusCond.atMost 0xFF00 0x200).holds 0x00000300 = false
    ∧ (StatusCond.either (.bits 2 2) (.neg (.bits 0xFF00 0x300))).holds 0x00000300 = false := by decide

/-- R25, R241: an F32 descriptor in the queue as the packed output of a `BSIGN` has rows of 4 bytes an element. -/
theorem test_interval_by_dtype : Operand.interval smallTable ⟨8, .output, .bit, false⟩
    = Operand.interval smallTable ⟨8, .input, .f32, false⟩ := by decide +kernel

theorem witness_HostAccess_layer : inAny p2Configured.intermediates 0x003 = true
    ∧ inAny p2Configured.owned.others 0x0D3 = true ∧ inAny p2Configured.owned.pin 0x0D3 = false
    ∧ inAny p2Configured.owned.pin 0x000 = true ∧ ¬EndedWell { p2Configured with wpq := true } :=
  ⟨by decide, by decide, by decide, by decide, fun h => nomatch h.2.2.1⟩

/-- The weights of a configured layer, the last byte a `BSIGN.A` of them fetches, and its output `out`. -/
theorem witness_HostAccess_layer_queued :
    State.queue { p2Configured with queue := [⟨0x00000410, 0x00000762, 0, 0⟩], issued := 1 } = [⟨0x00000410, 0x00000762, 0, 0⟩]
    ∧ decode ⟨0x00000410, 0x00000762, 0, 0⟩ = .ok (.bsignAExec 2 6 7) ∧ inAny p2Configured.intermediates 0x05F = false
    ∧ (Operand.interval p2Configured.td ⟨2, .input, .f32, true⟩).has 0x05F = true
    ∧ inAny p2Configured.intermediates 0x080 = false
    ∧ (Operand.interval p2Configured.td ⟨4, .output, .f32, false⟩).has 0x080 = true := by decide +kernel

/-- The last byte of `pin`, of `kk`, and of `al`, and the types of all six intermediates. -/
theorem witness_LayerGuards : InTensor (p2Configured.tdAt 1) 0x003 ∧ InTensor (p2Configured.tdAt 9) 0x0D3
    ∧ InTensor (p2Configured.tdAt 7) 0x0CB ∧ ∀ p ∈ ([1, 5, 6, 7, 8, 9] : List Slot), HasRows (p2Configured.tdAt p) := by
  delta HasRows
  refine ⟨⟨by decide, by decide, 4, .inl (by decide), by decide, by decide⟩,
    ⟨by decide, by decide, 4, .inl (by decide), by decide, by decide⟩,
    ⟨by decide, by decide, 4, .inl (by decide), by decide, by decide⟩, by decide +kernel⟩

/-- A configured layer's `pin`, the previous run having ended. -/
theorem witness_HostWrite_pin : QueueOk p2Configured ∧ PendingOk p2Configured ∧ ErrorOk p2Configured
    ∧ EndedWell p2Configured ∧ 0x000 + 4 ≤ p2Configured.params.memSize
    ∧ touchesAny p2Configured.owned.others 0x000 4 = false ∧ touchesAny p2Configured.owned.pin 0x000 4 = true :=
  ⟨by delta QueueOk; decide +kernel, fun _ _ => rfl, ⟨fun _ => ⟨rfl, rfl, rfl, rfl⟩, fun h => nomatch h⟩,
    ⟨by decide +kernel, rfl, rfl, rfl⟩, by decide, by decide, by decide⟩

theorem witness_LayerStateMovesForward :
    (∃ t, step { p2 (bare 0x080) with script := [.lConfigured p2Layer] } = .next t ∧ t.lstate = .configured)
      ∧ (∃ t, step { p2Configured with script := [.lPrepared] } = .next t ∧ t.lstate = .prepared)
      ∧ ∃ t, step { p2Configured with script := [.hardReset], lstate := .prepared } = .next t ∧ t.lstate = .unconfigured :=
  ⟨of_ran _ (by decide +kernel), of_ran _ (by decide +kernel), of_ran _ (by decide +kernel)⟩

/-- A layer that validates and one whose output is null. -/
theorem witness_ValidateForetellsConfigure : p2Layer.window 1 (p2 (bare 0x080)).td = ⟨1, 1, 1, 1, 0, 0, 0, 0⟩
    ∧ (execAll (layerCommands p2Layer ⟨1, 1, 1, 1, 0, 0, 0, 0⟩) (p2 (bare 0x080))).err = false
    ∧ p2Layer.window 1 (p2 Desc.null).td = ⟨1, 1, 1, 1, 0, 0, 0, 0⟩
    ∧ (execAll (layerCommands p2Layer ⟨1, 1, 1, 1, 0, 0, 0, 0⟩) (p2 Desc.null)).errInfo = 0x00040A01 := by decide +kernel

theorem witness_LayerRoutines :
    small.lstate = .unconfigured ∧ small.err = false ∧ p2Configured.lstate = .configured
      ∧ p2Configured.layer = some p2Layer ∧ State.lstate { p2Configured with lstate := .prepared } = .prepared
      ∧ stopped.err = true := by decide +kernel

/-- `pin` is descriptor 8, four elements wide: two elements of input, one of padding on each side; as an action of its own and
in a layer. -/
theorem witness_HostpadWritesPaddedInput : InputReady small.params.memSize (small.tdAt 8) .f32
    ∧ EndedWell small ∧ small.inUse = [] ∧ small.owned.others = []
    ∧ (List.replicate 6 (0x3F800000 : Word)).length = 2 * 3 * (small.tdAt 8).c * (small.tdAt 8).n
    ∧ p2Configured.layer = some p2Layer ∧ p2Layer.pin = 1
    ∧ InputReady p2Configured.params.memSize (p2Configured.tdAt 1) .f32 ∧ (small.tdAt 10).shaped = false :=
  ⟨holds (decInput ..) (by decide +kernel), ⟨small_idle.2.2.1, rfl, rfl, rfl⟩, by decide +kernel, rfl, by decide +kernel, rfl,
    rfl, holds (decInput ..) (by decide +kernel), by decide +kernel⟩

/-- `l.run` and its padding step in a first run, those of a run while an earlier one has not ended, and `hostpad` into `pin`
then. -/
theorem witness_Hostpad_previous_run : PreviousRunEnded p2Configured p2Layer ∧ OnlyPreparePending p2Configured p2Layer
    ∧ ¬OnlyPreparePending { p2Configured with wpq := true, unsynced := [⟨0x080, 0x084⟩] } p2Layer
    ∧ ¬PreviousRunEnded { p2Configured with err := true } p2Layer
    ∧ p2Configured.inUse = [] ∧ touchesAny p2Configured.owned.others 0x000 4 = false
    ∧ EndedWell p2Configured ∧ ¬EndedWell { p2Configured with wpq := true }
    ∧ (∀ x < 1, ∀ y < 1, ∀ c < 1, ∀ n < 1, touchesAny p2Configured.owned.pin ((p2Configured.tdAt 1).addrF32 x y c n) 4 = true) := by
  have h : OnlyPreparePending p2Configured p2Layer := by delta OnlyPreparePending; decide +kernel
  refine ⟨⟨rfl, h⟩, h, ?_, fun h => (nomatch h.1), by decide +kernel, by decide +kernel, ?_, fun h => (nomatch h.2.2.1),
    by decide +kernel⟩
  · delta OnlyPreparePending; decide +kernel
  · delta EndedWell; decide +kernel

/-! ## Witnesses: arithmetic -/

theorem witness_DotProductIntegerLaws : (small.tdAt 6).w * (small.tdAt 6).h * (small.tdAt 5).c ≤ 2 ^ 31 - 1 := by decide +kernel

theorem witness_PackedByteMatchCount : (desc 2 0xA80 8 1 1 1 1 1 1).w ≤ 8 ∧ 8 % 8 = 0 ∧ (desc 2 0xA80 1 1 1 1 1 1 1).w ≤ 8 := by
  decide +kernel

theorem witness_SumRoundsToNearest : IsFinite 0x7F7FFFFF ∧ IsFinite 0x72FFFFFF ∧ IsFinite 0x73000000
    ∧ |f32Val 0x7F7FFFFF + f32Val 0x72FFFFFF| < overflowBound ∧ (overflowBound : Int) ≤ |f32Val 0x7F7FFFFF + f32Val 0x73000000|
    ∧ f32Val 0x80000000 + f32Val 0x80000000 = 0 ∧ f32IsInf 0xFF800000 = true := by delta IsFinite; decide +kernel

theorem witness_ProductRoundsToNearest : IsFinite 0x7F7FFFFF ∧ IsFinite 0x3F800000 ∧ IsFinite 0x40000000
    ∧ |f32Val 0x7F7FFFFF * f32Val 0x3F800000| < overflowBound * 2 ^ 149
    ∧ (overflowBound : Int) * 2 ^ 149 ≤ |f32Val 0x7F7FFFFF * f32Val 0x40000000|
    ∧ f32IsInf 0xFF800000 = true ∧ f32IsNaN 0xFF800000 = false ∧ f32IsNaN 1 = false := by delta IsFinite; decide +kernel

theorem witness_QuotientRoundsToNearest : IsFinite 0x7F7FFFFF ∧ IsFinite 0xBF800000 ∧ f32Mag 0xBF800000 ≠ 0
    ∧ (f32Mag 0x7F7FFFFF : Int) * 2 ^ 149 < overflowBound * f32Mag 0xBF800000 ∧ f32Mag 1 ≠ 0 ∧ IsFinite 1
    ∧ (overflowBound : Int) * f32Mag 1 ≤ f32Mag 0x7F7FFFFF * 2 ^ 149 ∧ f32IsInf 0x7F800000 = true
    ∧ BitVec.toNat (0x80000000 : Word) % 2 ^ 31 = 0 := by delta IsFinite; decide +kernel

theorem witness_NaNExactlyForInvalid : QuietNaN 0x7FC00000 ∧ QuietNaN 0xFFFFFFFF := by delta QuietNaN; decide

theorem witness_ConversionsRoundToNearest : (2 : Nat) ^ 32 - 1 < 2 ^ 32 ∧ (-2 : Int) ^ 31 ≤ 2 ^ 31 - 1 := by decide

theorem witness_StatisticsNeverNegative : BsignReady .exec true false small 0 1 2 0 ∧ BsignReady .exec false true small 0 1 0 3
    ∧ BsignReady .exec true true small 0 1 2 3 := witness_BsignExecComputes.2

theorem witness_BetaOfDepthOne : BsignReady .exec false true small 0 1 0 3 ∧ BsignReady .exec true true small 0 1 2 3
    ∧ (small.tdAt 0).c = 1 ∧ f32IsNaN (small.getF32 (small.tdAt 0) 1 0 0 1) = false :=
  ⟨witness_BsignExecComputes.2.2.1, witness_BsignExecComputes.2.2.2, by decide +kernel, by decide +kernel⟩

/-- The source as eight columns of depth 2, with alpha at descriptor 4. -/
def deep : State :=
  { small with
    td := TdTable.put (TdTable.put (TdTable.put smallTable 0 (desc 1 0x000 8 1 2 1 64 64 128)) 1 (desc 2 0x100 8 1 2 1 1 1 2)) 3
      (desc 1 0x120 8 1 1 1 32 32 32) }

/-- Its column 1 holds -1.0 twice. -/
theorem witness_BetaOfConstantColumn : BsignReady .exec false true deep 0 1 0 3 ∧ BsignReady .exec true true deep 0 1 4 3
    ∧ (deep.tdAt 0).c = 2 ∧ 1 < (deep.tdAt 0).w ∧ 0 < (deep.tdAt 0).h ∧ 0 < (deep.tdAt 0).n
    ∧ IsFinite 0x3F800000 ∧ f32Neg 0x3F800000 = false
    ∧ (∀ c < 2, fabs32 (deep.getF32 (deep.tdAt 0) 1 0 c 0) = 0x3F800000)
    ∧ ∀ k ≤ (2 : Nat), ∃ z, IsFinite z ∧ f32Val z = k * f32Val 0x3F800000 := by
  refine ⟨holds (decBsign ..) (by decide +kernel), holds (decBsign ..) (by decide +kernel), by decide +kernel, by decide +kernel,
    by decide +kernel, by decide +kernel, by delta IsFinite; decide, by decide, by decide +kernel, ?_⟩
  intro k hk
  match k, hk with
  | 0, _ => exact ⟨0, by delta IsFinite; decide, by decide +kernel⟩
  | 1, _ => exact ⟨0x3F800000, by delta IsFinite; decide, by decide +kernel⟩
  | 2, _ => exact ⟨0x40000000, by delta IsFinite; decide, by decide +kernel⟩

/-- Block 1 of the small source: magnitude 1.0 throughout, the partial sums 1.0 to 8.0 exact. -/
theorem witness_AlphaOfConstantBlock : BsignReady .exec true false small 0 1 2 0
    ∧ BsignReady .exec true true small 0 1 2 3 ∧ 1 < (small.tdAt 0).n
    ∧ IsFinite 0x3F800000 ∧ f32Neg 0x3F800000 = false
    ∧ (∀ x y c, x < (small.tdAt 0).w → y < (small.tdAt 0).h → c < (small.tdAt 0).c →
        fabs32 (small.getF32 (small.tdAt 0) x y c 1) = 0x3F800000)
    ∧ (small.tdAt 0).w * (small.tdAt 0).h * (small.tdAt 0).c ≤ 2 ^ 24
    ∧ ∀ k ≤ (small.tdAt 0).w * (small.tdAt 0).h * (small.tdAt 0).c, ∃ z, IsFinite z ∧ f32Val z = k * f32Val 0x3F800000 := by
  have hall : ∀ x < 8, ∀ y < 1, ∀ c < 1, fabs32 (small.getF32 (small.tdAt 0) x y c 1) = 0x3F800000 := by decide +kernel
  have hw : (small.tdAt 0).w = 8 ∧ (small.tdAt 0).h = 1 ∧ (small.tdAt 0).c = 1 := by decide +kernel
  refine ⟨witness_BsignExecComputes.2.1, witness_BsignExecComputes.2.2.2, by decide +kernel, by delta IsFinite; decide, by decide,
    ?_, by decide +kernel, ?_⟩
  · intro x y c hx hy hc
    exact hall x (hw.1 ▸ hx) y (hw.2.1 ▸ hy) c (hw.2.2 ▸ hc)
  · rw [hw.1, hw.2.1, hw.2.2]
    intro k hk
    match k, hk with
    | 0, _ => exact ⟨0, by delta IsFinite; decide, by decide +kernel⟩
    | 1, _ => exact ⟨0x3F800000, by delta IsFinite; decide, by decide +kernel⟩
    | 2, _ => exact ⟨0x40000000, by delta IsFinite; decide, by decide +kernel⟩
    | 3, _ => exact ⟨0x40400000, by delta IsFinite; decide, by decide +kernel⟩
    | 4, _ => exact ⟨0x40800000, by delta IsFinite; decide, by decide +kernel⟩
    | 5, _ => exact ⟨0x40A00000, by delta IsFinite; decide, by decide +kernel⟩
    | 6, _ => exact ⟨0x40C00000, by delta IsFinite; decide, by decide +kernel⟩
    | 7, _ => exact ⟨0x40E00000, by delta IsFinite; decide, by decide +kernel⟩
    | 8, _ => exact ⟨0x41000000, by delta IsFinite; decide, by decide +kernel⟩

/-- Another memory: the padding of row 0 has been written. -/
theorem witness_SourcePaddingReachesNoResult :
    kernelOf (.bsignABExec 0 1 2 3) = some (.exec, .bsign true true 0 1 2 3) ∧ BsignReady .exec true true small 0 1 2 3
    ∧ ∀ x y c n, x < (small.tdAt 0).w → y < (small.tdAt 0).h → c < (small.tdAt 0).c → n < (small.tdAt 0).n →
      State.getF32 { small with mem := Memory.set smallMemory 0x20 0xFF } (small.tdAt 0) x y c n
        = small.getF32 (small.tdAt 0) x y c n := by
  have hall : ∀ x < 8, ∀ y < 1, ∀ c < 1, ∀ n < 2,
      State.getF32 { small with mem := Memory.set smallMemory 0x20 0xFF } (small.tdAt 0) x y c n
        = small.getF32 (small.tdAt 0) x y c n := by decide +kernel
  have hw : (small.tdAt 0).w = 8 ∧ (small.tdAt 0).h = 1 ∧ (small.tdAt 0).c = 1 ∧ (small.tdAt 0).n = 2 := by decide +kernel
  refine ⟨rfl, witness_BsignExecComputes.2.2.2, ?_⟩
  intro x y c n hx hy hc hn
  exact hall x (hw.1 ▸ hx) y (hw.2.1 ▸ hy) c (hw.2.2.1 ▸ hc) n (hw.2.2.2 ▸ hn)

theorem witness_CellOrderDoesNotMatter : MemoryOk small
    ∧ ((computeBnorm 8 9 smallWindow small).reverse.Perm (computeBnorm 8 9 smallWindow small)
      ∧ BnormReady .exec small 8 9 smallWindow)
    ∧ ((computeBsign true true 0 1 2 3 small).reverse.Perm (computeBsign true true 0 1 2 3 small)
      ∧ BsignReady .exec true true small 0 1 2 3)
    ∧ (computeBconv true 5 6 4 7 14 15 1 1 small).reverse.Perm (computeBconv true 5 6 4 7 14 15 1 1 small)
      ∧ BconvReady .exec true small 5 6 4 7 14 15 1 1 :=
  ⟨by delta MemoryOk; decide +kernel, ⟨List.reverse_perm _, witness_BnormExecComputes.1⟩,
    ⟨List.reverse_perm _, witness_BsignExecComputes.2.2.2⟩, List.reverse_perm _, witness_BconvExecComputes.2⟩

end Sys2Proof.Tests
end

