-- ==== Sys2Proof/Proofs/FloatPatterns.lean ====
section
/-! SUPPORT. The binary32 patterns: a pattern is its sign and its low 31 bits, the low bits order the magnitudes, and rounding
splits a quotient into a significand and a remainder. -/

namespace Sys2Proof.Proofs

open Sys2Proof.Machine Sys2Proof.Safety

/-! ## Sign and low bits -/

/-- The low 31 bits of a pattern: exponent and fraction fields together. -/
def lowBits (x : Word) : Nat := x.toNat % 2 ^ 31

/-- The magnitude, in units of 2^-149, of a pattern with the given low 31 bits. -/
def lowMag (l : Nat) : Nat := if l < 2 ^ 23 then l else (2 ^ 23 + l % 2 ^ 23) * 2 ^ (l / 2 ^ 23 - 1)

theorem lowBits_lt (x : Word) : lowBits x < 2 ^ 31 := Nat.mod_lt _ (by decide)

theorem f32Exp_eq (x : Word) : f32Exp x = lowBits x / 2 ^ 23 := by
  rw [f32Exp, field_toNat, lowBits]
  omega

theorem f32Frac_eq (x : Word) : f32Frac x = lowBits x % 2 ^ 23 := by
  rw [f32Frac, field_toNat, lowBits]
  omega

theorem f32Neg_eq (x : Word) : f32Neg x = decide (2 ^ 31 ≤ x.toNat) := BitVec.msb_eq_decide x

theorem f32Mag_eq (x : Word) : f32Mag x = lowMag (lowBits x) := by
  rw [f32Mag, lowMag, f32Exp_eq, f32Frac_eq]
  by_cases h : lowBits x < 2 ^ 23
  · rw [if_pos (Nat.div_eq_of_lt h), if_pos h, Nat.mod_eq_of_lt h]
  · rw [if_neg (by omega), if_neg h]

/-! ## The three classes of patterns -/

theorem isFinite_iff (x : Word) : IsFinite x ↔ lowBits x < f32InfLow := by
  have := lowBits_lt x
  rw [IsFinite, f32Exp_eq, f32InfLow]
  omega

theorem f32IsInf_iff (x : Word) : f32IsInf x = true ↔ lowBits x = f32InfLow := by
  have := lowBits_lt x
  rw [f32IsInf, f32Exp_eq, f32Frac_eq, f32InfLow, Bool.and_eq_true, beq_iff_eq, beq_iff_eq]
  omega

theorem f32IsNaN_iff (x : Word) : f32IsNaN x = true ↔ f32InfLow < lowBits x := by
  have := lowBits_lt x
  rw [f32IsNaN, f32Exp_eq, f32Frac_eq, f32InfLow, Bool.and_eq_true, beq_iff_eq, bne_iff_ne]
  omega

theorem not_nan_of_finite {x : Word} (h : IsFinite x) : f32IsNaN x = false := by
  rw [isFinite_iff] at h
  rw [← Bool.not_eq_true, f32IsNaN_iff]
  omega

theorem not_inf_of_finite {x : Word} (h : IsFinite x) : f32IsInf x = false := by
  rw [isFinite_iff] at h
  rw [← Bool.not_eq_true, f32IsInf_iff]
  omega

theorem not_nan_of_inf {x : Word} (h : f32IsInf x = true) : f32IsNaN x = false := by
  rw [f32IsInf_iff] at h
  rw [← Bool.not_eq_true, f32IsNaN_iff]
  omega

/-- A pattern that is neither a NaN nor an infinity is finite. -/
theorem isFinite_of_not {x : Word} (hn : f32IsNaN x = false) (hi : f32IsInf x = false) : IsFinite x := by
  rw [← Bool.not_eq_true, f32IsNaN_iff] at hn
  rw [← Bool.not_eq_true, f32IsInf_iff] at hi
  rw [isFinite_iff]
  omega

theorem lowMag_eq_zero_iff (l : Nat) : lowMag l = 0 ↔ l = 0 := by
  rw [lowMag]
  split
  · exact Iff.rfl
  · have : 0 < (2 ^ 23 + l % 2 ^ 23) * 2 ^ (l / 2 ^ 23 - 1) := by positivity
    omega

theorem f32Mag_eq_zero_iff (x : Word) : f32Mag x = 0 ↔ lowBits x = 0 := by
  rw [f32Mag_eq, lowMag_eq_zero_iff]

/-! ## Packed patterns -/

theorem f32Pack_toNat (neg : Bool) {low : Nat} (h : low < 2 ^ 31) :
    (f32Pack neg low).toNat = (if neg then 2 ^ 31 else 0) + low := by
  rw [f32Pack, BitVec.toNat_ofNat]
  cases neg <;> simp <;> omega

theorem lowBits_pack (neg : Bool) {low : Nat} (h : low < 2 ^ 31) : lowBits (f32Pack neg low) = low := by
  rw [lowBits, f32Pack_toNat neg h]
  cases neg <;> simp <;> omega

theorem f32Neg_pack (neg : Bool) {low : Nat} (h : low < 2 ^ 31) : f32Neg (f32Pack neg low) = neg := by
  rw [f32Neg_eq, f32Pack_toNat neg h]
  cases neg
  · simpa using h
  · simp

theorem f32Val_pack (neg : Bool) {low : Nat} (h : low < 2 ^ 31) :
    f32Val (f32Pack neg low) = if neg then -(lowMag low : Int) else lowMag low := by
  rw [f32Val, f32Neg_pack neg h, f32Mag_eq, lowBits_pack neg h]

/-! ## Magnitudes are ordered as the low bits are -/

/-- With `s` as exponent field less 1 and `q` as significand, the hidden bit and a carry out of it included, the low bits are a
sum. -/
theorem lowMag_add (s q : Nat) (hq : q ≤ 2 ^ 24) (hs : s = 0 ∨ 2 ^ 23 ≤ q) : lowMag (s * 2 ^ 23 + q) = q * 2 ^ s := by
  rw [lowMag]
  by_cases hsub : q < 2 ^ 23
  · obtain rfl : s = 0 := hs.resolve_right (by omega)
    rw [if_pos (by omega)]
    omega
  · rw [if_neg (by omega)]
    rcases Nat.lt_or_eq_of_le hq with hlt | rfl
    · rw [show (s * 2 ^ 23 + q) % 2 ^ 23 = q - 2 ^ 23 by omega, show (s * 2 ^ 23 + q) / 2 ^ 23 - 1 = s by omega,
        show 2 ^ 23 + (q - 2 ^ 23) = q by omega]
    · rw [show (s * 2 ^ 23 + 2 ^ 24) % 2 ^ 23 = 0 by omega, show (s * 2 ^ 23 + 2 ^ 24) / 2 ^ 23 - 1 = s + 1 by omega, pow_succ]
      ring

/-- Neighbouring patterns have growing magnitudes. -/
theorem lowMag_lt_succ (l : Nat) : lowMag l < lowMag (l + 1) := by
  have hq := Nat.mod_lt l (show 0 < 2 ^ 23 by decide)
  by_cases hsub : l < 2 ^ 23
  · have h0 := lowMag_add 0 l (by omega) (.inl rfl)
    have h1 := lowMag_add 0 (l + 1) (by omega) (.inl rfl)
    simp only [Nat.zero_mul, Nat.zero_add, pow_zero, Nat.mul_one] at h0 h1
    omega
  · obtain ⟨s, q, hs, hl, hu⟩ : ∃ s q, l = s * 2 ^ 23 + q ∧ 2 ^ 23 ≤ q ∧ q < 2 ^ 24 :=
      ⟨l / 2 ^ 23 - 1, l % 2 ^ 23 + 2 ^ 23, by omega, by omega, by omega⟩
    subst hs
    rw [lowMag_add s q (by omega) (.inr hl), Nat.add_assoc, lowMag_add s (q + 1) (by omega) (.inr (by omega))]
    exact Nat.mul_lt_mul_of_pos_right (Nat.lt_succ_self q) (by positivity)

theorem lowMag_strictMono : StrictMono lowMag := strictMono_nat_of_lt_succ lowMag_lt_succ

/-! ## Rounding -/

/-- The bits dropped by `f32Round`. -/
def roundShift (num den : Nat) : Nat := Nat.log2 (num / den) - 23

/-- The significand before rounding. -/
def roundQuot (num den : Nat) : Nat := num / (den * 2 ^ roundShift num den)

/-- What is rounded away. -/
def roundRem (num den : Nat) : Nat := num % (den * 2 ^ roundShift num den)

/-- Whether `f32Round` rounds up: past the middle, or in the middle with an odd significand. -/
def RoundsUp (num den : Nat) : Prop :=
  den * 2 ^ roundShift num den < 2 * roundRem num den
    ∨ 2 * roundRem num den = den * 2 ^ roundShift num den ∧ roundQuot num den % 2 = 1

theorem f32Round_of_up {num den : Nat} (h : RoundsUp num den) :
    f32Round num den = min (roundShift num den * 2 ^ 23 + roundQuot num den + 1) f32InfLow := by
  simp only [RoundsUp, roundShift, roundQuot, roundRem] at h
  simp only [f32Round, if_pos h, roundShift, roundQuot]

theorem f32Round_of_down {num den : Nat} (h : ¬RoundsUp num den) :
    f32Round num den = min (roundShift num den * 2 ^ 23 + roundQuot num den) f32InfLow := by
  simp only [RoundsUp, roundShift, roundQuot, roundRem] at h
  simp only [f32Round, if_neg h, roundShift, roundQuot, Nat.add_zero]

theorem f32Round_le (num den : Nat) : f32Round num den ≤ f32InfLow := Nat.min_le_right _ _

theorem f32Round_lt (num den : Nat) : f32Round num den < 2 ^ 31 :=
  Nat.lt_of_le_of_lt (f32Round_le num den) (by decide)

theorem round_split (num den : Nat) :
    num = roundQuot num den * (den * 2 ^ roundShift num den) + roundRem num den := by
  rw [Nat.mul_comm]
  exact (Nat.div_add_mod _ _).symm

theorem roundRem_lt (num : Nat) {den : Nat} (h : 0 < den) : roundRem num den < den * 2 ^ roundShift num den :=
  Nat.mod_lt _ (by positivity)

theorem roundQuot_lt (num den : Nat) : roundQuot num den < 2 ^ 24 := by
  rw [roundQuot, ← Nat.div_div_eq_div_mul, Nat.div_lt_iff_lt_mul (by positivity), ← pow_add]
  calc num / den < 2 ^ (Nat.log2 (num / den) + 1) := Nat.lt_log2_self
    _ ≤ 2 ^ (24 + roundShift num den) := Nat.pow_le_pow_right (by decide) (by rw [roundShift]; omega)

/-- Unless no bit is dropped the significand has its hidden bit. -/
theorem roundQuot_normal (num den : Nat) : roundShift num den = 0 ∨ 2 ^ 23 ≤ roundQuot num den := by
  refine or_iff_not_imp_left.2 fun hs => ?_
  have hlog : Nat.log2 (num / den) = roundShift num den + 23 := by rw [roundShift] at hs ⊢; omega
  have hne : num / den ≠ 0 := by
    rintro h
    rw [h] at hlog
    simp at hlog
  rw [roundQuot, ← Nat.div_div_eq_div_mul, Nat.le_div_iff_mul_le (by positivity), ← pow_add, Nat.add_comm, ← hlog]
  exact Nat.log2_self_le hne

/-- The pattern below the rounded value. -/
def roundLow (num den : Nat) : Nat := roundShift num den * 2 ^ 23 + roundQuot num den

theorem lowMag_roundLow (num den : Nat) : lowMag (roundLow num den) = roundQuot num den * 2 ^ roundShift num den :=
  lowMag_add _ _ (roundQuot_lt num den).le (roundQuot_normal num den)

theorem lowMag_roundLow_succ (num den : Nat) :
    lowMag (roundLow num den + 1) = (roundQuot num den + 1) * 2 ^ roundShift num den := by
  have hlt := roundQuot_lt num den
  have hn := roundQuot_normal num den
  rw [roundLow, Nat.add_assoc, lowMag_add _ _ (by omega) (by omega)]

theorem f32Round_eq (num den : Nat) :
    (RoundsUp num den ∧ f32Round num den = min (roundLow num den + 1) f32InfLow)
      ∨ (¬RoundsUp num den ∧ f32Round num den = min (roundLow num den) f32InfLow) := by
  by_cases h : RoundsUp num den
  · exact .inl ⟨h, f32Round_of_up h⟩
  · exact .inr ⟨h, f32Round_of_down h⟩

end Sys2Proof.Proofs
end

