-- ==== Sys2Proof/Proofs/FloatRounding.lean ====
section
/-! SUPPORT. Rounding picks the nearer of two neighbouring patterns, the even one in the middle, and infinity from the overflow
bound on (R14). -/

namespace Sys2Proof.Proofs

open Sys2Proof.Machine Sys2Proof.Safety

theorem lowMag_roundLow_mul (num den : Nat) :
    lowMag (roundLow num den) * den = roundQuot num den * (den * 2 ^ roundShift num den) := by
  rw [lowMag_roundLow]
  ring

theorem lowMag_roundLow_succ_mul (num den : Nat) :
    lowMag (roundLow num den + 1) * den
      = roundQuot num den * (den * 2 ^ roundShift num den) + den * 2 ^ roundShift num den := by
  rw [lowMag_roundLow_succ]
  ring

/-- A finite result is one of the two neighbours. -/
theorem f32Round_neighbour {num den : Nat} (hfin : f32Round num den < f32InfLow) :
    (RoundsUp num den ∧ f32Round num den = roundLow num den + 1)
      ∨ (¬RoundsUp num den ∧ f32Round num den = roundLow num den) := by
  rcases f32Round_eq num den with ⟨hup, heq⟩ | ⟨hup, heq⟩
  · exact .inl ⟨hup, by generalize f32InfLow = cap at *; omega⟩
  · exact .inr ⟨hup, by generalize f32InfLow = cap at *; omega⟩

/-- No magnitude is nearer to the rounded value, and one as near is the same unless the last bit is even. -/
theorem round_nearest {num den : Nat} (hd : 0 < den) (hfin : f32Round num den < f32InfLow) (l : Nat) :
    ((lowMag (f32Round num den) * den : Nat) - num : Int).natAbs ≤ ((lowMag l * den : Nat) - num : Int).natAbs
      ∧ (((lowMag (f32Round num den) * den : Nat) - num : Int).natAbs = ((lowMag l * den : Nat) - num : Int).natAbs →
          lowMag l ≠ lowMag (f32Round num den) → f32Round num den % 2 = 0) := by
  have hsplit := round_split num den
  have hrem := roundRem_lt num hd
  have hlow := lowMag_roundLow_mul num den
  have hhigh := lowMag_roundLow_succ_mul num den
  have hpar : roundLow num den % 2 = roundQuot num den % 2 := by rw [roundLow]; omega
  have hnear := f32Round_neighbour hfin
  -- every other pattern lies at or below the lower neighbour, or at or above the upper one
  have hside : lowMag l * den ≤ lowMag (roundLow num den) * den ∨ lowMag (roundLow num den + 1) * den ≤ lowMag l * den := by
    rcases Nat.lt_or_ge (roundLow num den) l with h | h
    · exact .inr (Nat.mul_le_mul_right _ (lowMag_strictMono.monotone h))
    · exact .inl (Nat.mul_le_mul_right _ (lowMag_strictMono.monotone h))
  have hne : lowMag l ≠ lowMag (f32Round num den) → lowMag l * den ≠ lowMag (f32Round num den) * den :=
    fun h h' => h (Nat.eq_of_mul_eq_mul_right hd h')
  unfold RoundsUp at hnear
  generalize lowMag l * den = m at *
  generalize den * 2 ^ roundShift num den = unit at *
  generalize roundQuot num den * unit = whole at *
  rcases hnear with ⟨hup, heq⟩ | ⟨hup, heq⟩ <;> rw [heq] at hne ⊢ <;> omega

/-! ## Overflow -/

/-- Rounding reaches infinity exactly from the overflow bound on. -/
theorem f32Round_lt_iff {num den : Nat} (hd : 0 < den) :
    f32Round num den < f32InfLow ↔ num < overflowBound * den := by
  have hsplit := round_split num den
  have hrem := roundRem_lt num hd
  have hq := roundQuot_lt num den
  have hn := roundQuot_normal num den
  have hround := f32Round_eq num den
  -- the unit of the last place, against half of that of the largest exponent
  obtain ⟨half, hhalf⟩ : ∃ half, half = den * 2 ^ 252 := ⟨_, rfl⟩
  obtain ⟨cap, hinf, hcap⟩ : ∃ cap, f32InfLow = cap ∧ cap = 255 * 2 ^ 23 := ⟨_, rfl, rfl⟩
  have hbound : overflowBound * den = 33554431 * half := by
    rw [overflowBound, hhalf, Nat.mul_assoc, Nat.mul_comm den, show 2 ^ 25 - 1 = 33554431 by norm_num]
  have hmono : ∀ {a b : Nat}, a ≤ b → den * 2 ^ a ≤ den * 2 ^ b :=
    fun h => Nat.mul_le_mul_left _ (Nat.pow_le_pow_right (by decide) h)
  have h253 : den * 2 ^ 253 = 2 * half := by rw [hhalf, Nat.pow_succ 2 252]; ac_rfl
  have h254 : den * 2 ^ 254 = 2 * (2 * half) := by rw [← h253, Nat.pow_succ 2 253]; ac_rfl
  obtain ⟨unit, hunit⟩ : ∃ unit, den * 2 ^ roundShift num den = unit := ⟨_, rfl⟩
  have hsmall : roundShift num den < 253 → unit ≤ half := fun h => hunit ▸ hhalf ▸ hmono (Nat.le_of_lt_succ h)
  have hmid : roundShift num den = 253 → unit = 2 * half := fun h => by rw [← hunit, h, h253]
  have hbig : 253 < roundShift num den → 2 * (2 * half) ≤ unit := fun h => hunit ▸ h254 ▸ hmono h
  have hpos : 0 < half := by rw [hhalf]; positivity
  unfold RoundsUp roundLow at hround
  rw [hunit] at hsplit hrem hround
  rw [hinf] at hround
  rw [hinf, hbound]
  clear hinf hbound hmono h253 h254 hhalf hunit hd
  generalize roundShift num den = s at *
  generalize roundQuot num den = q at *
  generalize roundRem num den = r at *
  generalize f32Round num den = p at *
  rcases Nat.lt_trichotomy s 253 with hs | hs | hs
  · -- a smaller exponent: below the bound
    have hle : q * unit ≤ 16777215 * unit := Nat.mul_le_mul_right _ (by omega)
    generalize q * unit = whole at *
    omega
  · -- the largest exponent: the bound is in the middle of the last significand and the carry
    obtain rfl := hmid hs
    rcases Nat.lt_or_eq_of_le (show q ≤ 16777215 by omega) with hlt | rfl
    · have hle : q * (2 * half) ≤ 16777214 * (2 * half) := Nat.mul_le_mul_right _ (by omega)
      generalize q * (2 * half) = whole at *
      omega
    · omega
  · -- a larger exponent: above the bound
    have hle : 8388608 * unit ≤ q * unit := Nat.mul_le_mul_right _ (by omega)
    generalize q * unit = whole at *
    omega

/-- From the overflow bound on the rounded pattern is that of infinity. -/
theorem f32Round_of_overflow {num den : Nat} (hd : 0 < den) (h : overflowBound * den ≤ num) :
    f32Round num den = f32InfLow := by
  exact Nat.le_antisymm (f32Round_le num den) (Nat.not_lt.1 (mt (f32Round_lt_iff hd).1 (Nat.not_lt.2 h)))

/-! ## Signed values -/

/-- The factor of a sign bit. -/
def signOf (neg : Bool) : Int := if neg then -1 else 1

theorem signOf_mul_self (neg : Bool) : signOf neg * signOf neg = 1 := by cases neg <;> rfl

theorem abs_signOf (neg : Bool) : |signOf neg| = 1 := by cases neg <;> rfl

theorem signOf_mul_cancel (neg : Bool) {v w : Int} (h : signOf neg * v = signOf neg * w) : v = w := by
  calc v = signOf neg * (signOf neg * v) := by rw [← mul_assoc, signOf_mul_self, one_mul]
    _ = w := by rw [h, ← mul_assoc, signOf_mul_self, one_mul]

theorem signOf_bne (p q : Bool) : signOf (p != q) = signOf p * signOf q := by cases p <;> cases q <;> rfl

theorem f32Val_eq (x : Word) : f32Val x = signOf (f32Neg x) * f32Mag x := by
  rw [f32Val]
  cases f32Neg x <;> simp [signOf]

/-- An integer is its sign times its magnitude. -/
theorem signOf_mul_natAbs (e : Int) : signOf (decide (e < 0)) * e.natAbs = e := by
  by_cases h : e < 0 <;> simp only [signOf, h, decide_true, decide_false, if_true, Bool.false_eq_true, if_false] <;> omega

/-- A sign drops out of a distance. -/
theorem abs_signOf_sub (neg : Bool) (v den num : Int) :
    |v * den - signOf neg * num| = |signOf neg * v * den - num| := by
  calc |v * den - signOf neg * num|
      = |signOf neg| * |v * den - signOf neg * num| := by rw [abs_signOf, one_mul]
    _ = |signOf neg * v * den - signOf neg * signOf neg * num| := by rw [← abs_mul]; congr 1; ring
    _ = |signOf neg * v * den - num| := by rw [signOf_mul_self, one_mul]

/-- Seen with a sign, a value is a magnitude or negative. -/
theorem signed_value_cases (neg : Bool) (z : Word) :
    signOf neg * f32Val z = lowMag (lowBits z) ∨ signOf neg * f32Val z < 0 := by
  rw [f32Val_eq, f32Mag_eq]
  cases neg <;> cases f32Neg z <;> simp only [signOf, if_true, Bool.false_eq_true, if_false] <;> omega

/-- The same with the negative values, which are farther from the exact quotient than 0 is. -/
theorem round_nearest_int {num den : Nat} (hd : 0 < den) (hfin : f32Round num den < f32InfLow) {w : Int}
    (hw : (∃ l, w = lowMag l) ∨ w < 0) :
    |(lowMag (f32Round num den) : Int) * den - num| ≤ |w * den - num|
      ∧ (|(lowMag (f32Round num den) : Int) * den - num| = |w * den - num| → w ≠ lowMag (f32Round num den) →
          f32Round num den % 2 = 0) := by
  rw [Int.abs_eq_natAbs, Int.abs_eq_natAbs]
  rcases hw with ⟨l, rfl⟩ | hneg
  · obtain ⟨hle, htie⟩ := round_nearest hd hfin l
    exact ⟨by exact_mod_cast hle, fun heq hne => htie (by exact_mod_cast heq) (by exact_mod_cast hne)⟩
  · have hzero := (round_nearest hd hfin 0).1
    have hneg : w * den < 0 := mul_neg_of_neg_of_pos hneg (by exact_mod_cast hd)
    rw [show lowMag 0 = 0 from rfl, Nat.zero_mul] at hzero
    rw [← Int.natCast_mul]
    generalize w * (den : Int) = far at *
    generalize lowMag (f32Round num den) * den = near at *
    clear hfin
    exact ⟨by omega, fun heq => by omega⟩

/-- Below the overflow bound the rounding of `num / den`, packed with a sign, is the binary32 nearest to the signed quotient,
ties to even. -/
theorem nearest_pack (neg : Bool) {num den : Nat} (hd : 0 < den) (h : num < overflowBound * den) :
    Nearest (f32Pack neg (f32Round num den)) (signOf neg * num) den := by
  have hfin := (f32Round_lt_iff hd).2 h
  have hlt := f32Round_lt num den
  have hval : signOf neg * f32Val (f32Pack neg (f32Round num den)) = lowMag (f32Round num den) := by
    rw [f32Val_eq, f32Neg_pack neg hlt, ← mul_assoc, signOf_mul_self, one_mul, f32Mag_eq, lowBits_pack neg hlt]
  have key := fun z => round_nearest_int hd hfin ((signed_value_cases neg z).imp_left fun h => ⟨_, h⟩)
  refine ⟨(isFinite_iff _).2 (by rwa [lowBits_pack neg hlt]), fun z _ => ?_, fun z _ heq hne => ?_⟩
  · rw [abs_signOf_sub, abs_signOf_sub, hval]
    exact (key z).1
  · rw [abs_signOf_sub, abs_signOf_sub, hval] at heq
    have heven := (key z).2 heq fun h => hne (signOf_mul_cancel neg (h.trans hval.symm))
    rw [BitVec.getLsbD, f32Pack_toNat neg hlt, Nat.testBit_zero]
    cases neg <;> simp <;> omega

/-- A quotient that drops no bits is exact. -/
theorem f32Val_pack_exact (neg : Bool) {num den : Nat} (hd : 0 < den) (h : num < overflowBound * den)
    (hdvd : den * 2 ^ roundShift num den ∣ num) :
    f32Val (f32Pack neg (f32Round num den)) * den = signOf neg * num := by
  have hfin := (f32Round_lt_iff hd).2 h
  have hsplit := round_split num den
  have hrem : roundRem num den = 0 := Nat.mod_eq_zero_of_dvd hdvd
  have hunit : 0 < den * 2 ^ roundShift num den := by positivity
  have heq : f32Round num den = roundLow num den := by
    rcases f32Round_neighbour hfin with ⟨hup, -⟩ | ⟨-, heq⟩
    · unfold RoundsUp at hup
      generalize den * 2 ^ roundShift num den = unit at *
      omega
    · exact heq
  have hmag : lowMag (f32Round num den) * den = num := by rw [heq, lowMag_roundLow_mul]; omega
  rw [f32Val_eq, f32Neg_pack neg (f32Round_lt num den), f32Mag_eq, lowBits_pack neg (f32Round_lt num den), mul_assoc]
  exact_mod_cast congrArg (fun m : Nat => signOf neg * (m : Int)) hmag

end Sys2Proof.Proofs
end

