-- ==== Sys2Proof/Proofs/FloatOps.lean ====
section
/-! SUPPORT. The float primitives of R14, case by case, and the obligations about them. -/

namespace Sys2Proof.Proofs

open Sys2Proof.Machine Sys2Proof.Safety

/-! ## The operations on finite operands -/

theorem f32Pack_false_inf : f32Pack false f32InfLow = 0x7F800000 := by decide

theorem f32Pack_true_inf : f32Pack true f32InfLow = 0xFF800000 := by decide

/-- The infinity of a product's or quotient's sign. -/
theorem f32Pack_bne_inf (p q : Bool) : f32Pack (p != q) f32InfLow = if p = q then 0x7F800000 else 0xFF800000 := by
  cases p <;> cases q <;> decide

/-- The zero of a quotient's sign. -/
theorem f32Pack_bne_zero (p q : Bool) : f32Pack (p != q) 0 = if p = q then 0 else 0x80000000 := by
  cases p <;> cases q <;> decide

/-- The sign of a sum: that of the exact sum, and of an exact zero negative only for two negative operands. -/
def sumSign (a b : Word) : Bool :=
  if f32Val a + f32Val b = 0 then f32Neg a && f32Neg b else decide (f32Val a + f32Val b < 0)

theorem signOf_sumSign (a b : Word) : signOf (sumSign a b) * (f32Val a + f32Val b).natAbs = f32Val a + f32Val b := by
  rw [sumSign]
  split
  · next h => rw [h]; simp
  · exact signOf_mul_natAbs _

theorem fadd32_finite {nan a b : Word} (ha : IsFinite a) (hb : IsFinite b) :
    fadd32 nan a b = f32Pack (sumSign a b) (f32Round (f32Val a + f32Val b).natAbs 1) := by
  simp only [fadd32, sumSign, not_nan_of_finite ha, not_nan_of_finite hb,
    not_inf_of_finite ha, not_inf_of_finite hb, Bool.or_self, Bool.false_eq_true, if_false]
  split
  · next h => rw [h]; rfl
  · rfl

theorem fmul32_finite {nan a b : Word} (ha : IsFinite a) (hb : IsFinite b) :
    fmul32 nan a b = f32Pack (f32Neg a != f32Neg b) (f32Round (f32Mag a * f32Mag b) (2 ^ 149)) := by
  simp only [fmul32, not_nan_of_finite ha, not_nan_of_finite hb,
    not_inf_of_finite ha, not_inf_of_finite hb, Bool.or_self, Bool.false_eq_true, if_false]

theorem fdiv32_finite {nan a b : Word} (ha : IsFinite a) (hb : IsFinite b) (h0 : f32Mag b ≠ 0) :
    fdiv32 nan a b = f32Pack (f32Neg a != f32Neg b) (f32Round (f32Mag a * 2 ^ 149) (f32Mag b)) := by
  simp only [fdiv32, not_nan_of_finite ha, not_nan_of_finite hb,
    not_inf_of_finite ha, not_inf_of_finite hb, h0, Bool.or_self, Bool.false_eq_true, if_false]

/-! ## The operations on infinities and zeros -/

theorem fadd32_inf_left {nan a b : Word} (ha : f32IsInf a = true) (hb : IsFinite b ∨ b = a) : fadd32 nan a b = a := by
  rcases hb with hb | rfl
  · simp [fadd32, not_nan_of_inf ha, not_nan_of_finite hb, ha, not_inf_of_finite hb]
  · simp [fadd32, not_nan_of_inf ha, ha]

theorem fadd32_inf_right {nan a b : Word} (hb : f32IsInf b = true) (ha : IsFinite a) : fadd32 nan a b = b := by
  simp [fadd32, not_nan_of_inf hb, not_nan_of_finite ha, not_inf_of_finite ha, hb]

theorem fmul32_inf {nan a b : Word} (hinf : f32IsInf a = true ∨ f32IsInf b = true) (ha : f32IsNaN a = false)
    (hb : f32IsNaN b = false) (ha0 : f32Mag a ≠ 0) (hb0 : f32Mag b ≠ 0) :
    fmul32 nan a b = f32Pack (f32Neg a != f32Neg b) f32InfLow := by
  cases hia : f32IsInf a
  · simp [fmul32, ha, hb, ha0, hia, hinf.resolve_left (by simp [hia])]
  · simp [fmul32, ha, hb, hb0, hia]

theorem fdiv32_by_inf {nan a b : Word} (ha : IsFinite a) (hb : f32IsInf b = true) :
    fdiv32 nan a b = f32Pack (f32Neg a != f32Neg b) 0 := by
  simp [fdiv32, not_nan_of_finite ha, not_nan_of_inf hb, not_inf_of_finite ha, hb]

theorem fdiv32_of_inf {nan a b : Word} (ha : f32IsInf a = true) (hb : IsFinite b) :
    fdiv32 nan a b = f32Pack (f32Neg a != f32Neg b) f32InfLow := by
  simp [fdiv32, not_nan_of_inf ha, not_nan_of_finite hb, ha, not_inf_of_finite hb]

theorem fdiv32_by_zero {nan a b : Word} (ha : IsFinite a) (hb : IsFinite b) (ha0 : f32Mag a ≠ 0) (hb0 : f32Mag b = 0) :
    fdiv32 nan a b = f32Pack (f32Neg a != f32Neg b) f32InfLow := by
  simp [fdiv32, not_nan_of_finite ha, not_nan_of_finite hb, not_inf_of_finite ha, not_inf_of_finite hb, ha0, hb0]

/-! ## NaN results -/

theorem not_nan_pack (neg : Bool) {low : Nat} (h : low ≤ f32InfLow) : f32IsNaN (f32Pack neg low) = false := by
  rw [← Bool.not_eq_true, f32IsNaN_iff, lowBits_pack neg (Nat.lt_of_le_of_lt h (by decide))]
  exact Nat.not_lt.2 h

/-- The operands of a sum that is a NaN. -/
def InvalidSum (a b : Word) : Prop :=
  f32IsNaN a = true ∨ f32IsNaN b = true ∨ f32IsInf a = true ∧ f32IsInf b = true ∧ f32Neg a ≠ f32Neg b

/-- The operands of a product that is a NaN. -/
def InvalidProduct (a b : Word) : Prop :=
  f32IsNaN a = true ∨ f32IsNaN b = true ∨ f32IsInf a = true ∧ f32Mag b = 0 ∨ f32Mag a = 0 ∧ f32IsInf b = true

/-- The operands of a quotient that is a NaN. -/
def InvalidQuotient (a b : Word) : Prop :=
  f32IsNaN a = true ∨ f32IsNaN b = true ∨ f32IsInf a = true ∧ f32IsInf b = true ∨ f32Mag a = 0 ∧ f32Mag b = 0

/-- An infinity is no zero. -/
theorem mag_ne_zero_of_inf {x : Word} (h : f32IsInf x = true) : f32Mag x ≠ 0 := by
  rw [f32IsInf_iff] at h
  rw [Ne, f32Mag_eq_zero_iff, h]
  decide

/-- A sum is the given NaN for the invalid operands, and else no NaN. -/
theorem fadd32_nan_cases (nan a b : Word) :
    InvalidSum a b ∧ fadd32 nan a b = nan ∨ ¬InvalidSum a b ∧ f32IsNaN (fadd32 nan a b) = false := by
  unfold InvalidSum
  cases hna : f32IsNaN a
  case true => simp [fadd32, hna]
  cases hnb : f32IsNaN b
  case true => simp [fadd32, hnb]
  cases hia : f32IsInf a <;> cases hib : f32IsInf b
  · have ha := isFinite_of_not hna hia
    have hb := isFinite_of_not hnb hib
    exact .inr ⟨by simp, by rw [fadd32_finite ha hb]; exact not_nan_pack _ (f32Round_le _ _)⟩
  · rw [fadd32_inf_right hib (isFinite_of_not hna hia)]
    exact .inr ⟨by simp, hnb⟩
  · rw [fadd32_inf_left hia (.inl (isFinite_of_not hnb hib))]
    exact .inr ⟨by simp, hna⟩
  · by_cases hs : f32Neg a = f32Neg b <;> simp [fadd32, hna, hnb, hia, hib, hs]

/-- A product is the given NaN for the invalid operands, and else no NaN. -/
theorem fmul32_nan_cases (nan a b : Word) :
    InvalidProduct a b ∧ fmul32 nan a b = nan ∨ ¬InvalidProduct a b ∧ f32IsNaN (fmul32 nan a b) = false := by
  unfold InvalidProduct
  cases hna : f32IsNaN a
  case true => simp [fmul32, hna]
  cases hnb : f32IsNaN b
  case true => simp [fmul32, hnb]
  cases hia : f32IsInf a <;> cases hib : f32IsInf b
  · have ha := isFinite_of_not hna hia
    have hb := isFinite_of_not hnb hib
    exact .inr ⟨by simp, by rw [fmul32_finite ha hb]; exact not_nan_pack _ (f32Round_le _ _)⟩
  · by_cases h0 : f32Mag a = 0
    · simp [fmul32, hna, hnb, hia, hib, h0]
    · rw [fmul32_inf (.inr hib) hna hnb h0 (mag_ne_zero_of_inf hib)]
      exact .inr ⟨by simp [h0], not_nan_pack _ (Nat.le_refl _)⟩
  · by_cases h0 : f32Mag b = 0
    · simp [fmul32, hna, hnb, hia, hib, h0]
    · rw [fmul32_inf (.inl hia) hna hnb (mag_ne_zero_of_inf hia) h0]
      exact .inr ⟨by simp [h0], not_nan_pack _ (Nat.le_refl _)⟩
  · have ha0 := mag_ne_zero_of_inf hia
    have hb0 := mag_ne_zero_of_inf hib
    rw [fmul32_inf (.inl hia) hna hnb ha0 hb0]
    exact .inr ⟨by simp [ha0, hb0], not_nan_pack _ (Nat.le_refl _)⟩

/-- A quotient is the given NaN for the invalid operands, and else no NaN. -/
theorem fdiv32_nan_cases (nan a b : Word) :
    InvalidQuotient a b ∧ fdiv32 nan a b = nan ∨ ¬InvalidQuotient a b ∧ f32IsNaN (fdiv32 nan a b) = false := by
  unfold InvalidQuotient
  cases hna : f32IsNaN a
  case true => simp [fdiv32, hna]
  cases hnb : f32IsNaN b
  case true => simp [fdiv32, hnb]
  cases hia : f32IsInf a <;> cases hib : f32IsInf b
  · have ha := isFinite_of_not hna hia
    have hb := isFinite_of_not hnb hib
    by_cases hb0 : f32Mag b = 0
    · by_cases ha0 : f32Mag a = 0
      · simp [fdiv32, hna, hnb, hia, hib, ha0, hb0]
      · rw [fdiv32_by_zero ha hb ha0 hb0]
        exact .inr ⟨by simp [ha0], not_nan_pack _ (Nat.le_refl _)⟩
    · rw [fdiv32_finite ha hb hb0]
      exact .inr ⟨by simp [hb0], not_nan_pack _ (f32Round_le _ _)⟩
  · rw [fdiv32_by_inf (isFinite_of_not hna hia) hib]
    exact .inr ⟨by simp [mag_ne_zero_of_inf hib], not_nan_pack _ (Nat.zero_le _)⟩
  · rw [fdiv32_of_inf hia (isFinite_of_not hnb hib)]
    exact .inr ⟨by simp [mag_ne_zero_of_inf hia], not_nan_pack _ (Nat.le_refl _)⟩
  · simp [fdiv32, hna, hnb, hia, hib]

/-- What the cases of one operation say of its result. -/
theorem nan_iff_of_cases {nan r : Word} {p : Prop} (hn : f32IsNaN nan = true)
    (h : p ∧ r = nan ∨ ¬p ∧ f32IsNaN r = false) : (f32IsNaN r = true ↔ p) ∧ (f32IsNaN r = true → r = nan) := by
  rcases h with ⟨hp, rfl⟩ | ⟨hp, hr⟩
  · exact ⟨iff_of_true hn hp, fun _ => rfl⟩
  · simp [hp, hr]

/-! ## The comparison with zero -/

/-- `fgt0` holds exactly from the least positive pattern to +infinity: clear sign bit, low bits not 0, no NaN. -/
theorem fgt0_iff (v : Word) : fgt0 v = true ↔ 1 ≤ v.toNat ∧ v.toNat ≤ 0x7F800000 := by
  have hlt := v.isLt
  have hinf : f32InfLow = 0x7F800000 := rfl
  have hpos : 0 < f32Mag v ↔ lowBits v ≠ 0 := by rw [Nat.pos_iff_ne_zero, Ne, f32Mag_eq_zero_iff]
  rw [fgt0, Bool.and_eq_true, Bool.and_eq_true, Bool.or_eq_true, Bool.not_eq_true', Bool.not_eq_true', decide_eq_true_iff,
    hpos, f32IsInf_iff, f32Neg_eq, decide_eq_false_iff_not, ← Bool.not_eq_true, f32IsNaN_iff, hinf, lowBits]
  omega

/-- A pattern with the exponent field all ones and the top fraction bit set is a quiet NaN. -/
theorem quietNaN_of_fields {x : Word} (hexp : x.extractLsb' 23 8 = BitVec.allOnes 8) (htop : x.getLsbD 22 = true) :
    QuietNaN x := by
  have hfrac : f32Frac x ≠ 0 := by
    intro h
    have hbit : (x.extractLsb' 0 23).getLsbD 22 = true := by simpa [BitVec.getLsbD_extractLsb'] using htop
    rw [BitVec.eq_of_toNat_eq (y := 0#23) h] at hbit
    exact absurd hbit (by decide)
  have hexp : f32Exp x = 255 := by rw [f32Exp, hexp]; rfl
  exact ⟨by simp [f32IsNaN, hexp, hfrac], htop⟩

/-- The NaN drawn for a cell is quiet (log 4). -/
theorem quietNaN_quiet (free : Word) : QuietNaN (f32Quiet free) := by
  apply quietNaN_of_fields
  · rw [f32Quiet, BitVec.extractLsb'_or]
    exact BitVec.or_allOnes
  · rw [f32Quiet, BitVec.getLsbD_or]
    exact Bool.or_true _

/-! ## The obligations -/

/-- Settles O49: the mask of `fabs32` keeps the low bits. -/
theorem signAndMagnitudePatterns : Obligations.SignAndMagnitudePatterns := by
  refine fun v => ⟨fgt0_iff v, ?_⟩
  rw [fabs32, BitVec.toNat_and]
  exact Nat.and_two_pow_sub_one_eq_mod v.toNat 31

/-- Settles O50: the exact sum rounded once. -/
theorem sumRoundsToNearest : Obligations.SumRoundsToNearest := by
  intro nan a b
  refine ⟨fun ha hb => ?_, fadd32_inf_left, fadd32_inf_right⟩
  dsimp only
  rw [fadd32_finite ha hb, Int.abs_eq_natAbs]
  have hsign := signOf_sumSign a b
  generalize he : f32Val a + f32Val b = e at *
  refine ⟨fun h => ?_, fun h => ?_, fun h => ?_, fun h => ?_⟩
  · have hnear := nearest_pack (sumSign a b) (num := e.natAbs) (den := 1) (by decide) (by exact_mod_cast h)
    rwa [hsign] at hnear
  · have h0 : e ≠ 0 := by
      rintro rfl
      exact absurd h (by norm_num [overflowBound])
    rw [f32Round_of_overflow (by decide) (by exact_mod_cast h), sumSign, he, if_neg h0]
    by_cases hneg : e < 0
    · rw [if_pos hneg, decide_eq_true hneg, f32Pack_true_inf]
    · rw [if_neg hneg, decide_eq_false hneg, f32Pack_false_inf]
  · rw [f32Neg_pack _ (f32Round_lt _ _), sumSign, he, if_neg h]
  · rw [f32Neg_pack _ (f32Round_lt _ _), sumSign, he, if_pos h]

/-- Settles O51: the exact product rounded once. -/
theorem productRoundsToNearest : Obligations.ProductRoundsToNearest := by
  intro nan a b
  constructor
  · intro ha hb
    dsimp only
    have hval : f32Val a * f32Val b = signOf (f32Neg a != f32Neg b) * (f32Mag a * f32Mag b : Nat) := by
      rw [f32Val_eq, f32Val_eq, signOf_bne]
      push_cast
      ring
    have habs : |f32Val a * f32Val b| = (f32Mag a * f32Mag b : Nat) := by
      rw [hval, abs_mul, abs_signOf, one_mul, Int.abs_eq_natAbs, Int.natAbs_natCast]
    rw [fmul32_finite ha hb, habs, hval]
    have hd : 0 < 2 ^ 149 := by positivity
    refine ⟨fun h => ?_, fun h => ?_, f32Neg_pack _ (f32Round_lt _ _)⟩
    · exact_mod_cast nearest_pack _ hd (by exact_mod_cast h)
    · rw [f32Round_of_overflow hd (by exact_mod_cast h)]
      exact lowBits_pack _ (by decide)
  · intro hinf hna hnb ha0 hb0
    rw [fmul32_inf hinf hna hnb (mt (f32Mag_eq_zero_iff a).1 ha0) (mt (f32Mag_eq_zero_iff b).1 hb0), f32Pack_bne_inf]

/-- Settles O52: the exact quotient rounded once. -/
theorem quotientRoundsToNearest : Obligations.QuotientRoundsToNearest := by
  intro nan a b
  refine ⟨fun ha hb hb0 => ?_, fun ha hb => ?_, fun h => ?_⟩
  · dsimp only
    have hd : 0 < f32Mag b := Nat.pos_of_ne_zero hb0
    have hval : (if f32Neg b then -1 else 1) * f32Val a * 2 ^ 149
        = signOf (f32Neg a != f32Neg b) * (f32Mag a * 2 ^ 149 : Nat) := by
      rw [f32Val_eq, signOf_bne, ← signOf]
      push_cast
      ring
    rw [fdiv32_finite ha hb hb0, hval]
    refine ⟨fun h => ?_, fun h => ?_, f32Neg_pack _ (f32Round_lt _ _)⟩
    · exact nearest_pack _ hd (by exact_mod_cast h)
    · rw [f32Round_of_overflow hd (by exact_mod_cast h)]
      exact lowBits_pack _ (by decide)
  · rw [fdiv32_by_inf ha hb, f32Pack_bne_zero]
  · rw [← f32Pack_bne_inf]
    rcases h with ⟨ha, hb⟩ | ⟨ha, ha0, hb0⟩
    · exact fdiv32_of_inf ha hb
    · have hb : IsFinite b := (isFinite_iff b).2 (by rw [lowBits, hb0]; decide)
      exact fdiv32_by_zero ha hb (mt (f32Mag_eq_zero_iff a).1 ha0) ((f32Mag_eq_zero_iff b).2 hb0)

/-- An integer below 2^32, in units of 2^-149, is below the overflow bound. -/
theorem int_lt_overflow {n : Nat} (h : n < 2 ^ 32) : n * 2 ^ 149 < overflowBound * 1 := by
  calc n * 2 ^ 149 < 2 ^ 32 * 2 ^ 149 := Nat.mul_lt_mul_of_pos_right h (by positivity)
    _ ≤ overflowBound * 1 := by norm_num [overflowBound]

/-- An integer up to 2^24 fits a significand: rounding it drops only zeros. -/
theorem int_no_bits_dropped {n : Nat} (h : n ≤ 2 ^ 24) : 1 * 2 ^ roundShift (n * 2 ^ 149) 1 ∣ n * 2 ^ 149 := by
  rcases Nat.eq_zero_or_pos n with rfl | hpos
  · simp
  rw [one_mul, roundShift, Nat.div_one]
  rcases Nat.lt_or_eq_of_le h with hlt | rfl
  · have hlog : Nat.log2 (n * 2 ^ 149) < 173 := by
      rw [Nat.log2_lt (by positivity)]
      calc n * 2 ^ 149 < 2 ^ 24 * 2 ^ 149 := Nat.mul_lt_mul_of_pos_right hlt (by positivity)
        _ = 2 ^ 173 := by norm_num
    exact Dvd.dvd.mul_left (pow_dvd_pow 2 (by omega)) n
  · rw [← pow_add, Nat.log2_two_pow]
    exact pow_dvd_pow 2 (by decide)

/-- An integer of 32 bits converts to the nearest binary32, exactly up to 2^24. -/
theorem int_pack_nearest (neg : Bool) {n : Nat} (h : n < 2 ^ 32) :
    Nearest (f32Pack neg (f32Round (n * 2 ^ 149) 1)) (signOf neg * n * 2 ^ 149) 1
      ∧ (n ≤ 2 ^ 24 → f32Val (f32Pack neg (f32Round (n * 2 ^ 149) 1)) = signOf neg * n * 2 ^ 149) := by
  have hcast : signOf neg * (n : Int) * 2 ^ 149 = signOf neg * (n * 2 ^ 149 : Nat) := by
    push_cast
    ring
  rw [hcast]
  refine ⟨nearest_pack neg (by decide) (int_lt_overflow h), fun hle => ?_⟩
  have hexact := f32Val_pack_exact neg (by decide) (int_lt_overflow h) (int_no_bits_dropped hle)
  rwa [Nat.cast_one, mul_one] at hexact

/-- Settles O53: both conversions round a 32-bit integer once. -/
theorem conversionsRoundToNearest : Obligations.ConversionsRoundToNearest := by
  constructor
  · intro n hn
    simpa only [cvtU32, signOf, Bool.false_eq_true, if_false, one_mul] using int_pack_nearest false hn
  · intro v hlo hhi
    have key := int_pack_nearest (decide (v < 0)) (n := v.natAbs) (by omega)
    rw [signOf_mul_natAbs] at key
    exact ⟨key.1, fun h => key.2 (by rw [Int.abs_eq_natAbs] at h; exact_mod_cast h)⟩

/-- Settles O54: by the cases of each operation. -/
theorem nanExactlyForInvalid : Obligations.NaNExactlyForInvalid := by
  intro nan a b hq
  obtain ⟨hadd, hadd'⟩ := nan_iff_of_cases hq.1 (fadd32_nan_cases nan a b)
  obtain ⟨hmul, hmul'⟩ := nan_iff_of_cases hq.1 (fmul32_nan_cases nan a b)
  obtain ⟨hdiv, hdiv'⟩ := nan_iff_of_cases hq.1 (fdiv32_nan_cases nan a b)
  unfold InvalidProduct at hmul
  unfold InvalidQuotient at hdiv
  simp only [f32Mag_eq_zero_iff] at hmul hdiv
  refine ⟨hadd, hmul, hdiv, fun r hr => ?_⟩
  simp only [List.mem_cons, List.not_mem_nil, or_false] at hr
  rcases hr with rfl | rfl | rfl
  · exact hadd'
  · exact hmul'
  · exact hdiv'

end Sys2Proof.Proofs
end

