-- ==== Sys2Proof/Proofs/PackedCount.lean ====
section
/-! SUPPORT. Counting matches on packed bytes (R15, R160). -/

namespace Sys2Proof.Proofs

open Sys2Proof.Machine Sys2Proof.Safety

/-- Bit `k` of `xnor8` says whether the bits agree. -/
theorem xnor8_getLsbD (a b : Byte) {k : Nat} (hk : k < 8) :
    (xnor8 a b).getLsbD k = decide (a.getLsbD k = b.getLsbD k) := by
  have hones : ∀ k < 8, (0xFF : Byte).getLsbD k = true := by decide
  rw [xnor8, BitVec.getLsbD_xor, BitVec.getLsbD_xor, hones k hk]
  cases a.getLsbD k <;> cases b.getLsbD k <;> rfl

/-- The mask of R160 selects the first `w` elements of a packed byte. -/
theorem mask_getLsbD {w i : Nat} (hw : w ≤ 8) (hi : i < 8) :
    (BitVec.ofNat 8 (0xFF * 2 ^ (8 - w))).getLsbD (7 - i) = decide (i < w) := by
  have h : ∀ w ≤ 8, ∀ i < 8, (BitVec.ofNat 8 (0xFF * 2 ^ (8 - w))).getLsbD (7 - i) = decide (i < w) := by decide
  exact h w hw i hi

/-- `popcnt8`, counted from the top bit down, as the elements of a row lie in a byte (R62). -/
theorem popcnt8_from_top (b : Byte) : popcnt8 b = ((List.range 8).map fun i => (b.getLsbD (7 - i)).toNat).sum := by
  simp only [popcnt8, List.range_succ, List.range_zero, List.nil_append, List.map_append, List.map_cons, List.map_nil,
    List.sum_append, List.sum_cons, List.sum_nil, Nat.reduceSub]
  omega

/-- A sum in which only the first `w` terms count. -/
theorem sum_range_guard (f : Nat → Nat) {w n : Nat} (h : w ≤ n) :
    ((List.range n).map fun i => if i < w then f i else 0).sum = ((List.range w).map f).sum := by
  obtain ⟨k, rfl⟩ := Nat.exists_eq_add_of_le h
  have hhead : (List.range w).map (fun i => if i < w then f i else 0) = (List.range w).map f :=
    List.map_congr_left fun i hi => if_pos (List.mem_range.1 hi)
  have htail : ((List.range k).map fun i => if w + i < w then f (w + i) else 0) = (List.range k).map fun _ => 0 :=
    List.map_congr_left fun i _ => if_neg (by omega)
  rw [List.range_add, List.map_append, List.map_map, List.sum_append, hhead, Function.comp_def, htail]
  simp

/-- A row that starts at a byte boundary: element `i` of its first byte. -/
theorem getBit_of_boundary (s : State) (d : Desc) {x0 i : Nat} (y c n : Nat) (h0 : x0 % 8 = 0) (hi : i < 8) :
    s.getBit d (x0 + i) y c n = (s.readByte (d.addrByte (x0 / 8) y c n)).getLsbD (7 - i) := by
  rw [State.getBit, show (x0 + i) / 8 = x0 / 8 by omega, show (x0 + i) % 8 = i by omega]

/-- Settles O48: bit `7 - i` of the masked XNOR is the match of column `i`. -/
theorem packedByteMatchCount : Obligations.PackedByteMatchCount := by
  intro s act wts x0 y j c n oc hw h0
  rw [popcnt8_from_top, ← sum_range_guard _ hw]
  refine congrArg List.sum (List.map_congr_left fun i hi => ?_)
  have hi : i < 8 := List.mem_range.1 hi
  have hact := getBit_of_boundary s act y c n h0 hi
  have hwts := getBit_of_boundary s wts (x0 := 0) j c oc rfl hi
  rw [Nat.zero_add, Nat.zero_div] at hwts
  rw [BitVec.getLsbD_and, xnor8_getLsbD _ _ (by omega), mask_getLsbD hw hi, hact, hwts]
  by_cases hiw : i < wts.w <;> simp [hiw, Desc.addrByte, Bool.toNat]

end Sys2Proof.Proofs
end

