-- ==== Sys2Proof/Proofs/Outputs.lean ====
section
/-! SUPPORT. An output tensor as a list of byte writes: every byte of a row of the derived shape is written once, inside the
interval of the output, and reads back as written (R63, R64, R70). -/

namespace Sys2Proof.Proofs

open Sys2Proof.Machine Sys2Proof.Safety

/-! ## Offsets in a tensor of nested strides (R26 (c)) -/

/-- An offset below the stride, in row `y` of `h`. -/
theorem offset_lt {r y s h : Nat} (hr : r < s) (hy : y < h) : r + y * s < h * s := by
  calc r + y * s < s + y * s := Nat.add_lt_add_right hr _
    _ = (y + 1) * s := by ring
    _ ≤ h * s := Nat.mul_le_mul_right _ hy

/-- An offset below the stride and its row are determined by the address. -/
theorem offset_inj {r r' y y' s : Nat} (hr : r < s) (hr' : r' < s) (h : r + y * s = r' + y' * s) : r = r' ∧ y = y' := by
  have hmod := congrArg (· % s) h
  have hdiv := congrArg (· / s) h
  have hs : 0 < s := by omega
  simp only [Nat.add_mul_mod_self_right, Nat.mod_eq_of_lt hr, Nat.mod_eq_of_lt hr'] at hmod
  simp only [Nat.add_mul_div_right _ _ hs, Nat.div_eq_of_lt hr, Nat.div_eq_of_lt hr', Nat.zero_add] at hdiv
  exact ⟨hmod, hdiv⟩

/-- The four bytes of an element are bytes of its row. -/
theorem addrF32_add (d : Desc) (x y c n k : Nat) : d.addrF32 x y c n + k = d.addrByte (4 * x + k) y c n := by
  simp only [Desc.addrF32, Desc.addrByte]
  ring

/-! ## Ready outputs in EXEC mode -/

/-- In EXEC mode a ready output is shaped, exactly as derived (R121 step 7). -/
theorem outputReady_exec {memSize : Nat} {d : Desc} {ty : DType} {sh : Shape} (h : OutputReady .exec memSize d ty sh) :
    d.shaped = true ∧ WellFormed memSize d ty (ty.rowBytes d.w) ∧ d.shape = sh := by
  obtain ⟨-, h | h⟩ := h
  · exact h
  · exact absurd rfl h.2.1

theorem outputRange_exec {memSize : Nat} {d : Desc} {ty : DType} {sh : Shape} (h : OutputReady .exec memSize d ty sh) :
    outputRange d ty sh = d.span (ty.rowBytes d.w) := if_pos (outputReady_exec h).1

/-- Bytes of rows of a well formed tensor at one address are the same byte. -/
theorem addrByte_inj {memSize row : Nat} {d : Desc} {ty : DType} (hwf : WellFormed memSize d ty row)
    {b y c n b' y' c' n' : Nat} (hb : b < ty.rowBytes d.w) (hy : y < d.h) (hc : c < d.c)
    (hb' : b' < ty.rowBytes d.w) (hy' : y' < d.h) (hc' : c' < d.c)
    (h : d.addrByte b y c n = d.addrByte b' y' c' n') : b = b' ∧ y = y' ∧ c = c' ∧ n = n' := by
  obtain ⟨-, -, -, -, -, -, -, -, -, hs1, hs2, hs3, -, -⟩ := hwf
  have hrow : b < d.s1 := Nat.lt_of_lt_of_le hb hs1
  have hrow' : b' < d.s1 := Nat.lt_of_lt_of_le hb' hs1
  have hplane := Nat.lt_of_lt_of_le (offset_lt hrow hy) hs2
  have hplane' := Nat.lt_of_lt_of_le (offset_lt hrow' hy') hs2
  have hblock := Nat.lt_of_lt_of_le (offset_lt hplane hc) hs3
  have hblock' := Nat.lt_of_lt_of_le (offset_lt hplane' hc') hs3
  simp only [Desc.addrByte, Nat.add_assoc, Nat.add_left_cancel_iff] at h
  simp only [← Nat.add_assoc] at h
  obtain ⟨hoff, hn⟩ := offset_inj hblock hblock' h
  obtain ⟨hoff, hc⟩ := offset_inj hplane hplane' hoff
  obtain ⟨hb, hy⟩ := offset_inj hrow hrow' hoff
  exact ⟨hb, hy, hc, hn⟩

/-- Bytes of rows of a well formed tensor lie in its interval (R27). -/
theorem span_has_addrByte {memSize row : Nat} {d : Desc} {ty : DType} (hwf : WellFormed memSize d ty row)
    {b y c n : Nat} (hb : b < ty.rowBytes d.w) (hy : y < d.h) (hc : c < d.c) (hn : n < d.n) :
    (d.span (ty.rowBytes d.w)).has (d.addrByte b y c n) = true := by
  obtain ⟨-, hw1, hw2, hh1, hh2, hc1, hc2, hn1, hn2, -⟩ := hwf
  have hext := extent_of_extentsOk ⟨⟨hw1, hw2⟩, ⟨hh1, hh2⟩, ⟨hc1, hc2⟩, ⟨hn1, hn2⟩⟩ (ty.rowBytes d.w)
  have h1 : y * d.s1 ≤ (d.h - 1) * d.s1 := Nat.mul_le_mul_right _ (by omega)
  have h2 : c * d.s2 ≤ (d.c - 1) * d.s2 := Nat.mul_le_mul_right _ (by omega)
  have h3 : n * d.s3 ≤ (d.n - 1) * d.s3 := Nat.mul_le_mul_right _ (by omega)
  rw [span_has, hext, Desc.addrByte]
  omega

/-- Intervals that share no byte hold no common address. -/
theorem ne_of_apart {i j : Interval} (h : Apart i j) {a b : Nat} (ha : i.has a = true) (hb : j.has b = true) : a ≠ b := by
  simp only [Interval.has, Bool.and_eq_true, decide_eq_true_iff] at ha hb
  unfold Apart at h
  omega

/-! ## Lists of byte writes -/

/-- Writes to one address agree. -/
def Agree (cells : List Host.Cell) : Prop := ∀ p ∈ cells, ∀ q ∈ cells, p.1 = q.1 → p.2 = q.2

/-- The writes lie in an interval. -/
def WithinRange (i : Interval) (cells : List Host.Cell) : Prop := ∀ p ∈ cells, i.has p.1 = true

theorem Agree.append {ps qs : List Host.Cell} (hp : Agree ps) (hq : Agree qs) (h : ∀ p ∈ ps, ∀ q ∈ qs, p.1 ≠ q.1) :
    Agree (ps ++ qs) := by
  intro p hpm q hqm heq
  rcases List.mem_append.1 hpm with hpm | hpm <;> rcases List.mem_append.1 hqm with hqm | hqm
  · exact hp p hpm q hqm heq
  · exact absurd heq (h p hpm q hqm)
  · exact absurd heq.symm (h q hqm p hpm)
  · exact hq p hpm q hqm heq

/-- The cells are the bytes of the rows of a tensor of shape `sh` laid out by `d`, with the values `val b y c n`. -/
def WritesRows (d : Desc) (ty : DType) (sh : Shape) (val : Nat → Nat → Nat → Nat → Byte) (cells : List Host.Cell) :
    Prop :=
  ∀ p, p ∈ cells ↔ ∃ b y c n, b < ty.rowBytes sh.e0 ∧ y < sh.e1 ∧ c < sh.e2 ∧ n < sh.e3
    ∧ p = (d.addrByte b y c n, val b y c n)

section
variable {memSize : Nat} {d : Desc} {ty : DType} {sh : Shape} {val : Nat → Nat → Nat → Nat → Byte}
  {part cells : List Host.Cell}

theorem agree_of_writesRows (hr : OutputReady .exec memSize d ty sh) (hw : WritesRows d ty sh val part) : Agree part := by
  obtain ⟨-, hwf, rfl⟩ := outputReady_exec hr
  intro p hp q hq heq
  obtain ⟨b, y, c, n, hb, hy, hc, -, rfl⟩ := (hw p).1 hp
  obtain ⟨b', y', c', n', hb', hy', hc', -, rfl⟩ := (hw q).1 hq
  obtain ⟨rfl, rfl, rfl, rfl⟩ := addrByte_inj hwf hb hy hc hb' hy' hc' heq
  rfl

theorem withinRange_of_writesRows (hr : OutputReady .exec memSize d ty sh) (hw : WritesRows d ty sh val part) :
    WithinRange (outputRange d ty sh) part := by
  rw [outputRange_exec hr]
  obtain ⟨-, hwf, rfl⟩ := outputReady_exec hr
  intro p hp
  obtain ⟨b, y, c, n, hb, hy, hc, hn, rfl⟩ := (hw p).1 hp
  exact span_has_addrByte hwf hb hy hc hn

/-- A written byte reads back, among writes that agree. -/
theorem readByte_of_writesRows (s : State) (hw : WritesRows d ty sh val part) (hsub : part ⊆ cells) (hag : Agree cells)
    {b y c n : Nat} (hb : b < ty.rowBytes sh.e0) (hy : y < sh.e1) (hc : c < sh.e2) (hn : n < sh.e3) :
    (s.writeCells cells).readByte (d.addrByte b y c n) = val b y c n := by
  have hmem := hsub ((hw _).2 ⟨b, y, c, n, hb, hy, hc, hn, rfl⟩)
  exact readByte_writeCells_of_mem s cells _ _ hmem fun p hp heq => hag p hp _ hmem heq

end

/-! ## Tensors of F32 elements -/

/-- The bytes of the rows whose elements are `f x y c n`. -/
def wordRows (f : Nat → Nat → Nat → Nat → Word) (b y c n : Nat) : Byte := (f (b / 4) y c n).extractLsb' (8 * (b % 4)) 8

section
variable {d : Desc} {sh : Shape} {f : Nat → Nat → Nat → Nat → Word} {part cells : List Host.Cell}

/-- Storing every element is writing the bytes of every row. -/
theorem writesRows_of_words
    (h : ∀ p, p ∈ part ↔ ∃ x y c n, x < sh.e0 ∧ y < sh.e1 ∧ c < sh.e2 ∧ n < sh.e3
      ∧ p ∈ wordCells (d.addrF32 x y c n) (f x y c n)) :
    WritesRows d .f32 sh (wordRows f) part := by
  intro p
  rw [h]
  constructor
  · rintro ⟨x, y, c, n, hx, hy, hc, hn, hp⟩
    obtain ⟨k, hk, rfl⟩ := mem_wordCells.1 hp
    refine ⟨4 * x + k, y, c, n, by simp only [DType.rowBytes]; omega, hy, hc, hn, ?_⟩
    rw [addrF32_add, wordRows, show (4 * x + k) / 4 = x by omega, show (4 * x + k) % 4 = k by omega]
  · rintro ⟨b, y, c, n, hb, hy, hc, hn, rfl⟩
    simp only [DType.rowBytes] at hb
    refine ⟨b / 4, y, c, n, by omega, hy, hc, hn, mem_wordCells.2 ⟨b % 4, Nat.mod_lt _ (by decide), ?_⟩⟩
    rw [addrF32_add, wordRows, Nat.div_add_mod]

/-- A stored element reads back, among writes that agree. -/
theorem getF32_of_writesRows (s : State) (hw : WritesRows d .f32 sh (wordRows f) part) (hsub : part ⊆ cells)
    (hag : Agree cells) {x y c n : Nat} (hx : x < sh.e0) (hy : y < sh.e1) (hc : c < sh.e2) (hn : n < sh.e3) :
    (s.writeCells cells).getF32 d x y c n = f x y c n := by
  refine ldF32_eq_of_bytes fun k hk => ?_
  rw [addrF32_add, readByte_of_writesRows s hw hsub hag (by simp only [DType.rowBytes]; omega) hy hc hn, wordRows,
    show (4 * x + k) / 4 = x by omega, show (4 * x + k) % 4 = k by omega]

/-- Every written byte is a byte of an element (R70). -/
theorem elementByte_of_writesRows {val : Nat → Nat → Nat → Nat → Byte} (hw : WritesRows d .f32 sh val part)
    {p : Host.Cell} (hp : p ∈ part) : ElementByte d sh p.1 := by
  obtain ⟨b, y, c, n, hb, hy, hc, hn, rfl⟩ := (hw p).1 hp
  simp only [DType.rowBytes] at hb
  refine ⟨b / 4, y, c, n, b % 4, by omega, hy, hc, hn, Nat.mod_lt _ (by decide), ?_⟩
  rw [addrF32_add, Nat.div_add_mod]

end

end Sys2Proof.Proofs
end

