-- ==== Sys2Proof/Proofs/ReadyChecks.lean ====
section
/-! SUPPORT. Ready operands pass the checks of R121, R141 and R156 in EXEC mode, and what a command that passes them leaves of
the registers. -/

namespace Sys2Proof.Proofs

open Sys2Proof.Machine Sys2Proof.Safety

/-! ## Operands (R180) -/

/-- A well formed descriptor passes every part of `CheckOperand` on a shaped operand. -/
theorem shapedOk_of_wellFormed {memSize row : Nat} {o : Operand} {d : Desc} (hwf : WellFormed memSize d o.ty row)
    (hf : o.fetch = true → o.ty = .f32 ∧ fetchRowBytes d.w ≤ d.s1)
    (hrow : (if o.fetch then fetchRowBytes d.w else o.ty.rowBytes d.w) = row) : ShapedOk memSize o d := by
  obtain ⟨hty, hw1, hw2, hh1, hh2, hc1, hc2, hn1, hn2, hs1, hs2, hs3, halign, hrange⟩ := hwf
  have hty : d.dtype = o.ty.code := by
    rw [hty]
    cases o.ty <;> rfl
  refine ⟨hty, ⟨⟨hw1, hw2⟩, ⟨hh1, hh2⟩, ⟨hc1, hc2⟩, ⟨hn1, hn2⟩⟩, ⟨hs1, hs2, hs3, fun h => ?_⟩, fun h => ?_,
    fun h => (hf h).2, ?_⟩
  · obtain ⟨-, h1, h2, h3⟩ := halign h
    exact ⟨Nat.mod_eq_zero_of_dvd h1, Nat.mod_eq_zero_of_dvd h2, Nat.mod_eq_zero_of_dvd h3⟩
  · exact Nat.mod_eq_zero_of_dvd (halign h).1
  · rwa [rowBytes_of_dtype hty fun h => (hf h).1, hrow]

section
variable {m : Mode} {memSize : Nat} {t : TdTable} {slot : Slot} {ty : DType} {sh : Shape}

theorem checkOperand_input (h : InputReady memSize (t.at slot) ty) :
    checkOperand m memSize t ⟨slot, .input, ty, false⟩ = .ok () := by
  obtain ⟨hb, hs, hwf⟩ := h
  exact checkOperand_eq_ok.2 ⟨hb, .inr ⟨hs, shapedOk_of_wellFormed hwf nofun rfl⟩⟩

theorem checkOperand_source (h : SourceReady memSize (t.at slot)) :
    checkOperand m memSize t ⟨slot, .input, .f32, true⟩ = .ok () := by
  obtain ⟨hb, hs, hwf, hpad⟩ := h
  exact checkOperand_eq_ok.2 ⟨hb, .inr ⟨hs, shapedOk_of_wellFormed hwf (fun _ => ⟨rfl, hpad⟩) rfl⟩⟩

theorem checkOperand_output (h : OutputReady m memSize (t.at slot) ty sh) :
    checkOperand m memSize t ⟨slot, .output, ty, false⟩ = .ok () := by
  obtain ⟨hb, ⟨hs, hwf, -⟩ | ⟨hs, hm, -⟩⟩ := h
  · exact checkOperand_eq_ok.2 ⟨hb, .inr ⟨hs, shapedOk_of_wellFormed hwf nofun rfl⟩⟩
  · exact checkOperand_eq_ok.2 ⟨hb, .inl ⟨hs, hm, rfl⟩⟩

/-- Check 19 passes on a ready output. -/
theorem shape_of_outputReady {d : Desc} (h : OutputReady m memSize d ty sh) (hs : d.shaped = true) : d.shape = sh := by
  obtain ⟨-, ⟨-, -, hsh⟩ | ⟨hno, -⟩⟩ := h
  · exact hsh
  · rw [hs] at hno; cases hno

/-! ## Intervals (R27, R182) -/

theorem interval_input (h : InputReady memSize (t.at slot) ty) :
    Operand.interval t ⟨slot, .input, ty, false⟩ = inputRange (t.at slot) ty := by
  obtain ⟨-, -, hty, -⟩ := h
  have hty : (t.at slot).dtype = ty.code := by rw [hty]; cases ty <;> rfl
  rw [Operand.interval, rowBytes_of_dtype hty fun h => Bool.noConfusion h]
  rfl

theorem interval_source (h : SourceReady memSize (t.at slot)) :
    Operand.interval t ⟨slot, .input, .f32, true⟩ = sourceRange (t.at slot) := by
  obtain ⟨-, -, ⟨hty, -⟩, -⟩ := h
  rw [Operand.interval, rowBytes_of_dtype hty fun _ => rfl]
  rfl

theorem interval_output (h : OutputReady .exec memSize (t.at slot) ty sh) :
    Operand.interval t ⟨slot, .output, ty, false⟩ = outputRange (t.at slot) ty sh := by
  obtain ⟨-, ⟨hty, -⟩, -⟩ := outputReady_exec h
  have hty : (t.at slot).dtype = ty.code := by rw [hty]; cases ty <;> rfl
  rw [outputRange_exec h, Operand.interval, rowBytes_of_dtype hty fun h => Bool.noConfusion h]
  rfl

end

theorem meets_comm (i j : Interval) : i.meets j = j.meets i := by
  rw [Interval.meets, Interval.meets, Nat.max_comm, Nat.min_comm]

theorem meets_of_apart {i j : Interval} (h : Apart i j) : i.meets j = false := by
  unfold Apart at h
  rw [Interval.meets, decide_eq_false_iff_not]
  omega

/-- Two operands that check 18 lets stand together: both inputs, or without a common byte. -/
def Compatible (t : TdTable) (p o : Operand) : Prop :=
  p.role = .output ∨ o.role = .output → (p.interval t).meets (o.interval t) = false

/-- `CheckOverlap` passes when every two operands are compatible (R182). -/
theorem checkOverlap_of_compatible {t : TdTable} {before os : List Operand}
    (hbefore : ∀ p ∈ before, ∀ o ∈ os, Compatible t p o) (hos : os.Pairwise (Compatible t)) :
    checkOverlap t before os = .ok () := by
  induction os generalizing before with
  | nil => rfl
  | cons o os ih =>
    obtain ⟨ho, hos⟩ := List.pairwise_cons.1 hos
    refine except_bind_eq_ok.2 ⟨(), require_eq_ok.2 fun hrole => List.all_eq_true.2 fun p hp => ?_, ih ?_ hos⟩
    · rw [Bool.not_eq_true']
      rcases List.mem_append.1 hp with hp | hp
      · rw [meets_comm]
        exact hbefore p hp o List.mem_cons_self (.inr hrole)
      · exact ho p hp (.inl hrole)
    · intro p hp q hq
      rcases List.mem_append.1 hp with hp | hp
      · exact hbefore p hp q (List.mem_cons_of_mem _ hq)
      · obtain rfl := List.mem_singleton.1 hp
        exact ho q hq

/-- Inputs before one output: only the output's interval matters. -/
theorem compatible_of_inputs {t : TdTable} {ins : List Operand} {out : Operand} (hin : ∀ o ∈ ins, o.role = .input)
    (hout : ∀ o ∈ ins, Apart (out.interval t) (o.interval t)) : (ins ++ [out]).Pairwise (Compatible t) := by
  refine List.pairwise_append.2 ⟨List.pairwise_of_forall_mem_list fun p hp o ho hrole => ?_, List.pairwise_singleton _ _,
    fun o ho p hp _ => ?_⟩
  · rw [hin p hp, hin o ho] at hrole
    exact absurd hrole (by decide)
  · obtain rfl := List.mem_singleton.1 hp
    rw [meets_comm]
    exact meets_of_apart (hout o ho)

/-- The inputs of a `BCONV*`, in slot order (R98). -/
def bconvInputs (bias : Bool) (sa sb sc sd se : Slot) : List Operand :=
  [⟨sa, .input, .bit, false⟩, ⟨sb, .input, .bit, false⟩] ++ (if bias then [⟨sc, .input, .f32, false⟩] else [])
    ++ [⟨sd, .input, .f32, false⟩, ⟨se, .input, .f32, false⟩]

theorem bconv_operands (bias : Bool) (sa sb sc sd se sf : Slot) (sx sy : Byte) :
    (Kernel.bconv bias sa sb sc sd se sf sx sy).operands
      = bconvInputs bias sa sb sc sd se ++ [⟨sf, .output, .f32, false⟩] := by
  simp only [Kernel.operands, bconvInputs, List.append_assoc, List.cons_append, List.nil_append]

/-- `AutoShape` passes over shaped outputs. -/
theorem autoShapeAll_ok {memSize : Nat} {t : TdTable} {ds : List Derived} (h : ∀ o ∈ ds, (t.at o.slot).shaped = true) :
    autoShapeAll memSize t ds = .ok t := by
  induction ds with
  | nil => rfl
  | cons o ds ih =>
    rw [autoShapeAll, autoShape_of_shaped (h o List.mem_cons_self)]
    exact ih fun p hp => h p (List.mem_cons_of_mem _ hp)

/-- A list of one element or none. -/
theorem mem_optional {α : Type} {a : Bool} {x o : α} : o ∈ (if a then [x] else []) ↔ a = true ∧ o = x := by
  cases a <;> simp

theorem pairwise_optional {α : Type} {r : α → α → Prop} (a : Bool) (x : α) : (if a then [x] else []).Pairwise r := by
  cases a <;> simp

/-! ## The checks of each family in EXEC mode -/

/-- In EXEC mode the checks come down to the operands, their derived shapes, the fit, the intervals and the hazard. -/
theorem checks_exec_ok {k : Kernel} {memSize : Nat} {wpq : Bool} {t : TdTable} (hwin : k.windowCheck = .ok ())
    (hops : ∀ o ∈ k.operands, checkOperand .exec memSize t o = .ok ()) (hfit : k.fitCheck t = .ok ())
    (hder : ∀ o ∈ k.derived t, OutputReady .exec memSize (t.at o.slot) o.ty o.shape)
    (hover : k.operands.Pairwise (Compatible t)) (hhaz : k.hazardCheck .exec wpq = .ok ()) :
    k.checks .exec memSize wpq t = .ok t :=
  checks_eq_ok.2 ⟨hwin, hops, hfit, fun o ho => shape_of_outputReady (hder o ho),
    autoShapeAll_ok fun o ho => (outputReady_exec (hder o ho)).1, checkOverlap_of_compatible nofun hover, hhaz⟩

theorem bsign_checks_exec {a b : Bool} {s : State} {sa sb sc sd : Slot} (h : BsignReady .exec a b s sa sb sc sd) :
    (Kernel.bsign a b sa sb sc sd).checks .exec s.params.memSize s.wpq s.td = .ok s.td := by
  obtain ⟨hsrc, hcount, hpk, hal, hbe, hpksrc, hala, hbea, halbe⟩ := h
  apply checks_exec_ok
  case hwin => rfl
  case hops =>
    intro o ho
    simp only [Kernel.operands, List.mem_append, List.mem_cons, List.not_mem_nil, or_false, mem_optional] at ho
    rcases ho with ((rfl | rfl) | ⟨ha, rfl⟩) | ⟨hb, rfl⟩
    · exact checkOperand_source hsrc
    · exact checkOperand_output hpk
    · exact checkOperand_output (hal ha)
    · exact checkOperand_output (hbe hb)
  case hfit => exact require_eq_ok.2 hcount
  case hder =>
    intro o ho
    simp only [Kernel.derived, List.mem_append, List.mem_cons, List.not_mem_nil, or_false, mem_optional] at ho
    rcases ho with (rfl | ⟨ha, rfl⟩) | ⟨hb, rfl⟩
    · exact hpk
    · exact hal ha
    · exact hbe hb
  case hover =>
    have isrc := interval_source hsrc
    have ipk := interval_output hpk
    simp only [Kernel.operands, List.cons_append, List.nil_append, List.pairwise_cons,
      List.pairwise_append, pairwise_optional, List.mem_cons, List.mem_append, mem_optional, true_and]
    refine ⟨?_, ?_, ?_⟩
    · rintro o (rfl | ⟨ha, rfl⟩ | ⟨hb, rfl⟩) _
      · rw [isrc, ipk, meets_comm]
        exact meets_of_apart hpksrc
      · rw [isrc, interval_output (hal ha), meets_comm]
        exact meets_of_apart (hala ha).1
      · rw [isrc, interval_output (hbe hb), meets_comm]
        exact meets_of_apart (hbea hb).1
    · rintro o (⟨ha, rfl⟩ | ⟨hb, rfl⟩) _
      · rw [ipk, interval_output (hal ha), meets_comm]
        exact meets_of_apart (hala ha).2
      · rw [ipk, interval_output (hbe hb), meets_comm]
        exact meets_of_apart (hbea hb).2
    · rintro o ⟨ha, rfl⟩ p ⟨hb, rfl⟩ _
      rw [interval_output (hal ha), interval_output (hbe hb)]
      exact meets_of_apart (halbe ha hb)
  case hhaz => rfl

theorem bnorm_checks_exec {s : State} {sa sb : Slot} {win : Window} (h : BnormReady .exec s sa sb win)
    (hwpq : s.wpq = false) : (Kernel.bnorm sa sb win).checks .exec s.params.memSize s.wpq s.td = .ok s.td := by
  obtain ⟨hkw, hkh, hsx, hsy, hin, hdepth, hfitw, hfith, hout, hapart⟩ := h
  apply checks_exec_ok
  case hwin => exact require_eq_ok.2 ⟨hkw, hkh, hsx, hsy⟩
  case hops =>
    intro o ho
    simp only [Kernel.operands, List.mem_cons, List.not_mem_nil, or_false] at ho
    rcases ho with rfl | rfl
    · exact checkOperand_input hin
    · exact checkOperand_output hout
  case hfit => exact except_bind_eq_ok.2 ⟨(), require_eq_ok.2 hdepth, require_eq_ok.2 ⟨hfitw, hfith⟩⟩
  case hder =>
    intro o ho
    simp only [Kernel.derived, List.mem_cons, List.not_mem_nil, or_false] at ho
    subst ho
    exact hout
  case hover =>
    refine compatible_of_inputs (ins := [⟨sa, .input, .f32, false⟩]) (fun o ho => ?_) (fun o ho => ?_)
    · rw [List.mem_singleton.1 ho]
    · rw [List.mem_singleton.1 ho, interval_input hin, interval_output hout]
      exact hapart
  case hhaz => exact require_eq_ok.2 fun _ => hwpq

theorem bconv_checks_exec {bias : Bool} {s : State} {sa sb sc sd se sf : Slot} {sx sy : Byte}
    (h : BconvReady .exec bias s sa sb sc sd se sf sx sy) :
    (Kernel.bconv bias sa sb sc sd se sf sx sy).checks .exec s.params.memSize s.wpq s.td = .ok s.td := by
  obtain ⟨hsx, hsy, hact, hwts, hbias, hal, hk, hdepth, hfitw, hfith, hcount, hbsh, hash, hksh, hout, oact, owts, oal, ok,
    obias⟩ := h
  apply checks_exec_ok
  case hwin => exact require_eq_ok.2 ⟨hsx, hsy⟩
  case hops =>
    intro o ho
    simp only [Kernel.operands, List.mem_append, List.mem_cons, List.not_mem_nil, or_false, mem_optional] at ho
    rcases ho with ((rfl | rfl) | ⟨hb, rfl⟩) | rfl | rfl | rfl
    · exact checkOperand_input hact
    · exact checkOperand_input hwts
    · exact checkOperand_input (hbias hb)
    · exact checkOperand_input hal
    · exact checkOperand_input hk
    · exact checkOperand_output hout
  case hfit =>
    simp only [Kernel.fitCheck, except_bind_eq_ok, require_eq_ok, exists_const]
    exact ⟨hdepth, ⟨hfitw, hfith⟩, hcount, hbsh, hash, hksh⟩
  case hder =>
    intro o ho
    simp only [Kernel.derived, List.mem_cons, List.not_mem_nil, or_false] at ho
    subst ho
    exact hout
  case hover =>
    rw [bconv_operands]
    refine compatible_of_inputs (fun o ho => ?_) fun o ho => ?_
    · simp only [bconvInputs, List.mem_append, List.mem_cons, List.not_mem_nil, or_false, mem_optional] at ho
      rcases ho with ((rfl | rfl) | ⟨-, rfl⟩) | rfl | rfl <;> rfl
    · rw [interval_output hout]
      simp only [bconvInputs, List.mem_append, List.mem_cons, List.not_mem_nil, or_false, mem_optional] at ho
      rcases ho with ((rfl | rfl) | ⟨hb, rfl⟩) | rfl | rfl
      · rw [interval_input hact]; exact oact
      · rw [interval_input hwts]; exact owts
      · rw [interval_input (hbias hb)]; exact obias hb
      · rw [interval_input hal]; exact oal
      · rw [interval_input hk]; exact ok
  case hhaz => rfl

/-! ## A command that completes in EXEC mode -/

/-- The state a kernel command leaves in EXEC mode once its checks have passed (R176). -/
def completed (k : Kernel) (s : State) : State := retire (executeKernel k (computeOf k) s)

theorem exec_completed {i : Instr} {k : Kernel} {s : State} (hk : kernelOf i = some (.exec, k))
    (hok : k.checks .exec s.params.memSize s.wpq s.td = .ok s.td) : exec i s = .next (completed k s) := by
  rw [exec_of_kernelOf hk, runKernel, hok]
  rfl

theorem completed_retiredOnly (k : Kernel) (s : State) : RetiredOnly s (completed k s) := by
  constructor <;> simp [completed]

@[simp] theorem completed_td (k : Kernel) (s : State) : (completed k s).td = s.td := by simp [completed]
@[simp] theorem completed_wpq (k : Kernel) (s : State) : (completed k s).wpq = (markPending k s).wpq := by simp [completed]
@[simp] theorem completed_wpn (k : Kernel) (s : State) : (completed k s).wpn = (markPending k s).wpn := by simp [completed]

/-- Of memory, a command that completes changes what it computes. -/
theorem completed_readByte (k : Kernel) (s : State) (a : Nat) :
    (completed k s).readByte a = (s.writeCells (computeOf k s)).readByte a := by
  apply readByte_congr <;> simp [completed]

/-- A byte that is no computed cell keeps its value (R70). -/
theorem completed_readByte_of_not_mem {k : Kernel} {s : State} {a : Nat} (h : ∀ p ∈ computeOf k s, p.1 ≠ a) :
    (completed k s).readByte a = s.readByte a := by
  rw [completed_readByte, readByte_writeCells_of_not_mem s _ a h]

theorem completed_getF32 (k : Kernel) (s : State) (d : Desc) (x y c n : Nat) :
    (completed k s).getF32 d x y c n = (s.writeCells (computeOf k s)).getF32 d x y c n :=
  ldF32_congr fun _ _ => completed_readByte k s _

theorem completed_getBit (k : Kernel) (s : State) (d : Desc) (x y c n : Nat) :
    (completed k s).getBit d x y c n = (s.writeCells (computeOf k s)).getBit d x y c n := by
  rw [State.getBit, State.getBit, completed_readByte]

end Sys2Proof.Proofs
end

