-- ==== Sys2Proof/Proofs/KernelResults.lean ====
section
/-! SUPPORT. What each kernel computes: the cells as rows of its output tensors, the loops of the spec, and the obligations
about EXEC mode. -/

namespace Sys2Proof.Proofs

open Sys2Proof.Machine Sys2Proof.Safety

/-! ## BSIGN: the cells -/

theorem packedCells_writesRows (s : State) (src dst : Desc) :
    WritesRows dst .bit (packedShape src) (packedByte s src dst) (packedCells s src dst) := by
  intro p
  simp only [packedCells, List.mem_flatMap, List.mem_map, List.mem_range]
  constructor
  · rintro ⟨n, hn, c, hc, y, hy, g, hg, rfl⟩
    exact ⟨g, y, c, n, hg, hy, hc, hn, rfl⟩
  · rintro ⟨g, y, c, n, hg, hy, hc, hn, rfl⟩
    exact ⟨n, hn, c, hc, y, hy, g, hg, rfl⟩

theorem alphaCells_writesRows (s : State) (src dst : Desc) :
    WritesRows dst .f32 (alphaShape src) (wordRows fun x _ _ _ => alphaValue s src dst x) (alphaCells s src dst) := by
  refine writesRows_of_words fun p => ?_
  simp only [alphaCells, List.mem_flatMap, List.mem_range, alphaShape, Nat.lt_one_iff]
  constructor
  · rintro ⟨n, hn, hp⟩
    exact ⟨n, 0, 0, 0, hn, rfl, rfl, rfl, hp⟩
  · rintro ⟨n, _, _, _, hn, rfl, rfl, rfl, hp⟩
    exact ⟨n, hn, hp⟩

theorem betaCells_writesRows (s : State) (src dst : Desc) :
    WritesRows dst .f32 (betaShape src) (wordRows fun x y _ n => betaValue s src dst x y n) (betaCells s src dst) := by
  refine writesRows_of_words fun p => ?_
  simp only [betaCells, List.mem_flatMap, List.mem_range, betaShape, Nat.lt_one_iff]
  constructor
  · rintro ⟨n, hn, y, hy, x, hx, hp⟩
    exact ⟨x, y, 0, n, hx, hy, rfl, hn, hp⟩
  · rintro ⟨x, y, _, n, hx, hy, rfl, hn, hp⟩
    exact ⟨n, hn, y, hy, x, hx, hp⟩

theorem mem_computeBsign {a b : Bool} {sa sb sc sd : Slot} {s : State} {p : Host.Cell} :
    p ∈ computeBsign a b sa sb sc sd s ↔ p ∈ packedCells s (s.tdAt sa) (s.tdAt sb)
      ∨ (a = true ∧ p ∈ alphaCells s (s.tdAt sa) (s.tdAt sc)) ∨ (b = true ∧ p ∈ betaCells s (s.tdAt sa) (s.tdAt sd)) := by
  simp only [computeBsign, List.mem_append, List.mem_ite_nil_right, or_assoc]

theorem agree_optional {a : Bool} {l : List Host.Cell} (h : a = true → Agree l) : Agree (if a then l else []) := by
  cases a
  · exact nofun
  · exact h rfl

/-- The writes of a ready `BSIGN*` agree: within an output by its strides, between outputs by their intervals. -/
theorem agree_computeBsign {a b : Bool} {s : State} {sa sb sc sd : Slot} (h : BsignReady .exec a b s sa sb sc sd) :
    Agree (computeBsign a b sa sb sc sd s) := by
  obtain ⟨-, -, hpk, hal, hbe, -, hala, hbea, halbe⟩ := h
  have wpk := packedCells_writesRows s (s.tdAt sa) (s.tdAt sb)
  have wal := alphaCells_writesRows s (s.tdAt sa) (s.tdAt sc)
  have wbe := betaCells_writesRows s (s.tdAt sa) (s.tdAt sd)
  have rpk := withinRange_of_writesRows hpk wpk
  refine ((agree_of_writesRows hpk wpk).append (agree_optional fun ha => agree_of_writesRows (hal ha) wal) ?_).append
    (agree_optional fun hb => agree_of_writesRows (hbe hb) wbe) ?_
  · intro p hp q hq
    obtain ⟨ha, hq⟩ := List.mem_ite_nil_right.1 hq
    exact (ne_of_apart (hala ha).2 (withinRange_of_writesRows (hal ha) wal q hq) (rpk p hp)).symm
  · intro p hp q hq
    obtain ⟨hb, hq⟩ := List.mem_ite_nil_right.1 hq
    have rq := withinRange_of_writesRows (hbe hb) wbe q hq
    rcases List.mem_append.1 hp with hp | hp
    · exact (ne_of_apart (hbea hb).2 rq (rpk p hp)).symm
    · obtain ⟨ha, hp⟩ := List.mem_ite_nil_right.1 hp
      exact ne_of_apart (halbe ha hb) (withinRange_of_writesRows (hal ha) wal p hp) rq

/-! ## BSIGN: the values -/

theorem quietNaN_nanAt (s : State) (a : Nat) : QuietNaN (s.nanAt a) := quietNaN_quiet _

/-- The bit of an element in its packed byte is its sign (R123, R124). -/
theorem packedByte_bit (s : State) (src dst : Desc) {x : Nat} (y c n : Nat) (hx : x < src.w) :
    (packedByte s src dst (x / 8) y c n).getLsbD (7 - x % 8) = signBit (s.getF32 src x y c n) := by
  rw [packedByte, packByte_getLsbD _ (Nat.mod_lt _ (by decide)), Nat.div_add_mod, if_pos hx]

theorem signBit_eq (v : Word) : signBit v = decide (1 ≤ v.toNat ∧ v.toNat ≤ 0x7F800000) := by
  rw [signBit, Bool.eq_iff_iff, fgt0_iff, decide_eq_true_iff]

/-- The sum over a block is that of the three nested loops (R126). -/
theorem absSum_blockElements (nan : Word) (s : State) (src : Desc) (n : Nat) :
    absSum nan (blockElements s src n) = alphaSum nan s src n := by
  simp only [absSum, blockElements, alphaSum, loop, List.foldl_flatMap, List.foldl_map]

/-- The sum over a depth column is that of its loop (R127). -/
theorem absSum_column (nan : Word) (s : State) (src : Desc) (x y n : Nat) :
    absSum nan ((List.range src.c).map fun c => s.getF32 src x y c n) = betaSum nan s src x y n := by
  simp only [absSum, betaSum, loop, List.foldl_map]

theorem bsign_done {a b : Bool} {s : State} {sa sb sc sd : Slot} (h : BsignReady .exec a b s sa sb sc sd) :
    BsignDone a b s (completed (.bsign a b sa sb sc sd) s) sa sb sc sd := by
  have hag := agree_computeBsign h
  have wpk := packedCells_writesRows s (s.tdAt sa) (s.tdAt sb)
  have wal := alphaCells_writesRows s (s.tdAt sa) (s.tdAt sc)
  have wbe := betaCells_writesRows s (s.tdAt sa) (s.tdAt sd)
  constructor
  case rest => exact completed_retiredOnly _ _
  case td => exact completed_td _ _
  case wpq => exact completed_wpq _ _
  case wpn => exact completed_wpn _ _
  case signs =>
    intro x y c n hx hy hc hn
    have hgroup : x / 8 < DType.bit.rowBytes (packedShape (s.tdAt sa)).e0 := by
      simp only [DType.rowBytes, packedShape, ceil8]
      omega
    rw [completed_getBit, State.getBit, computeOf,
      readByte_of_writesRows s wpk (fun _ hp => mem_computeBsign.2 (.inl hp)) hag hgroup hy hc hn, packedByte_bit _ _ _ _ _ _ hx,
      signBit_eq]
  case alpha =>
    intro ha n hn
    refine ⟨s.nanAt ((s.tdAt sc).addrF32 n 0 0 0), quietNaN_nanAt _ _, ?_⟩
    rw [completed_getF32, computeOf, getF32_of_writesRows s wal (fun _ hp => mem_computeBsign.2 (.inr (.inl ⟨ha, hp⟩))) hag hn
      Nat.one_pos Nat.one_pos Nat.one_pos, alphaValue, absSum_blockElements]
  case beta =>
    intro hb x y n hx hy hn
    refine ⟨s.nanAt ((s.tdAt sd).addrF32 x y 0 n), quietNaN_nanAt _ _, ?_⟩
    rw [completed_getF32, computeOf, getF32_of_writesRows s wbe (fun _ hp => mem_computeBsign.2 (.inr (.inr ⟨hb, hp⟩))) hag hx hy
      Nat.one_pos hn, betaValue, absSum_column]
  case others =>
    intro adr hnpk hnal hnbe
    refine completed_readByte_of_not_mem ?_
    rintro p hp rfl
    rcases mem_computeBsign.1 hp with hp | ⟨ha, hp⟩ | ⟨hb, hp⟩
    · obtain ⟨g, y, c, n, hg, hy, hc, hn, rfl⟩ := (wpk p).1 hp
      exact hnpk ⟨g, y, c, n, hg, hy, hc, hn, rfl⟩
    · exact hnal ha (elementByte_of_writesRows wal hp)
    · exact hnbe hb (elementByte_of_writesRows wbe hp)

/-- A ready `BSIGN*` in EXEC mode completes. -/
theorem exec_bsign {a b : Bool} {s : State} {sa sb sc sd : Slot} {i : Instr}
    (hi : kernelOf i = some (.exec, .bsign a b sa sb sc sd)) (h : BsignReady .exec a b s sa sb sc sd) :
    ∃ t, exec i s = .next t ∧ BsignDone a b s t sa sb sc sd :=
  ⟨_, exec_completed hi (bsign_checks_exec h), bsign_done h⟩

/-- Settles O9: the four forms are one kernel under its flags. -/
theorem bsignExecComputes : Obligations.BsignExecComputes :=
  fun _ _ _ _ _ => ⟨exec_bsign rfl, exec_bsign rfl, exec_bsign rfl, exec_bsign rfl⟩

/-! ## BNORM -/

theorem computeBnorm_writesRows (s : State) (sa sb : Slot) (win : Window) :
    WritesRows (s.tdAt sb) .f32 (normShape (s.tdAt sa) win)
      (wordRows fun ox oy _ n => normValue s (s.tdAt sa) (s.tdAt sb) win ox oy n) (computeBnorm sa sb win s) := by
  refine writesRows_of_words fun p => ?_
  simp only [computeBnorm, List.mem_flatMap, List.mem_range, normShape, normSize, outSize, Nat.lt_one_iff]
  constructor
  · rintro ⟨n, hn, oy, hy, ox, hx, hp⟩
    exact ⟨ox, oy, 0, n, hx, hy, rfl, hn, hp⟩
  · rintro ⟨ox, oy, _, n, hx, hy, rfl, hn, hp⟩
    exact ⟨n, hn, oy, hy, ox, hx, hp⟩

/-- A tap by the padded coordinates is the tap by the integer coordinates (R144). -/
theorem tap_eq_tapAt (s : State) (b : Desc) (px py pl pt n : Nat) :
    tap s b px py pl pt n = tapAt s b ((px : Nat) - (pl : Int)) ((py : Nat) - (pt : Int)) n := by
  have hcond : (pl ≤ px ∧ px - pl < b.w ∧ pt ≤ py ∧ py - pt < b.h)
      ↔ (0 ≤ (px : Int) - pl ∧ (px : Int) - pl < b.w ∧ 0 ≤ (py : Int) - pt ∧ (py : Int) - pt < b.h) := by omega
  simp only [tap, tapAt, hcond, Int.toNat_sub]

/-- The fold over the taps is that of the two nested loops (R145). -/
theorem normValue_eq (s : State) (b k : Desc) (win : Window) (ox oy n : Nat) :
    normValue s b k win ox oy n = normSum (s.nanAt (k.addrF32 ox oy 0 n)) s b win ox oy n := by
  simp only [normValue, windowTaps, normSum, coefficient, loop, List.foldl_flatMap, List.foldl_map, tap_eq_tapAt]

theorem bnorm_done {s : State} {sa sb : Slot} {win : Window} (h : BnormReady .exec s sa sb win) :
    BnormDone s (completed (.bnorm sa sb win) s) sa sb win := by
  obtain ⟨-, -, -, -, -, -, -, -, hout, -⟩ := h
  have hw := computeBnorm_writesRows s sa sb win
  constructor
  case rest => exact completed_retiredOnly _ _
  case td => exact completed_td _ _
  case wpq => exact completed_wpq _ _
  case wpn => exact completed_wpn _ _
  case cells =>
    intro ox oy n hx hy hn
    refine ⟨s.nanAt ((s.tdAt sb).addrF32 ox oy 0 n), quietNaN_nanAt _ _, ?_⟩
    rw [completed_getF32, computeOf, getF32_of_writesRows s hw (List.Subset.refl _) (agree_of_writesRows hout hw) hx hy
      Nat.one_pos hn, normValue_eq]
  case others =>
    exact fun adr hno => completed_readByte_of_not_mem fun p hp heq => hno (heq ▸ elementByte_of_writesRows hw hp)

/-- Settles O10: ready operands pass the checks, and the loops are the fold over the taps. -/
theorem bnormExecComputes : Obligations.BnormExecComputes :=
  fun _ _ _ _ h hwpq => ⟨_, exec_completed rfl (bnorm_checks_exec h hwpq), bnorm_done h⟩

/-! ## BCONV -/

/-- The elements of the output, by column, row, channel and block. -/
def convRows (bias : Bool) (sa sb sc sd se sf : Slot) (sx sy : Byte) (s : State) (ox oy oc n : Nat) : Word :=
  convValue s (s.tdAt sa) (s.tdAt sb) (s.tdAt sd) (s.tdAt se) (s.tdAt sf) (if bias then some (s.tdAt sc) else none)
    sx.toNat sy.toNat ox oy oc n

theorem computeBconv_writesRows (bias : Bool) (sa sb sc sd se sf : Slot) (sx sy : Byte) (s : State) :
    WritesRows (s.tdAt sf) .f32 (convShape (s.tdAt sa) (s.tdAt sb) sx sy)
      (wordRows (convRows bias sa sb sc sd se sf sx sy s)) (computeBconv bias sa sb sc sd se sf sx sy s) := by
  refine writesRows_of_words fun p => ?_
  simp only [computeBconv, List.mem_flatMap, List.mem_range, convShape, convSize, outSize]
  constructor
  · rintro ⟨n, hn, oc, hc, oy, hy, ox, hx, hp⟩
    exact ⟨ox, oy, oc, n, hx, hy, hc, hn, hp⟩
  · rintro ⟨ox, oy, oc, n, hx, hy, hc, hn, hp⟩
    exact ⟨n, hn, oc, hc, oy, hy, ox, hx, hp⟩

/-- A loop that adds up integers is a sum. -/
theorem foldl_add_eq_sum (f : Nat → Int) (l : List Nat) (a : Int) : l.foldl (fun acc i => acc + f i) a = a + (l.map f).sum := by
  induction l generalizing a with
  | nil => simp
  | cons i l ih => rw [List.foldl_cons, ih, List.map_cons, List.sum_cons, add_assoc]

/-- The loops over the receptive field as sums (R170). -/
theorem fieldSum_eq_sum (s : State) (act wts : Desc) (sx sy ox oy oc n : Nat) (f : Bool → Bool → Int) :
    fieldSum s act wts sx sy ox oy oc n f
      = ((List.range act.c).map fun c => ((List.range wts.h).map fun j => ((List.range wts.w).map fun i =>
          f (s.getBit act (ox * sx + i) (oy * sy + j) c n) (s.getBit wts i j c oc)).sum).sum).sum := by
  simp only [fieldSum, foldl_add_eq_sum, zero_add]

/-- The match count is the loop of R159 and R170. -/
theorem matchCount_eq_matchSum (s : State) (act wts : Desc) (sx sy ox oy oc n : Nat) :
    (matchCount s act wts sx sy ox oy oc n : Int) = matchSum s act wts sx sy ox oy oc n := by
  rw [matchSum, fieldSum_eq_sum, matchCount]
  simp only [Nat.cast_list_sum, List.map_map, Function.comp_def, eqbit, Nat.cast_ite, Nat.cast_one, Nat.cast_zero]

theorem convRows_eq (bias : Bool) (sa sb sc sd se sf : Slot) (sx sy : Byte) (s : State) (ox oy oc n : Nat) :
    convRows bias sa sb sc sd se sf sx sy s ox oy oc n
      = rescaled (s.nanAt ((s.tdAt sf).addrF32 ox oy oc n)) (matchSum s (s.tdAt sa) (s.tdAt sb) sx.toNat sy.toNat ox oy oc n)
          ((s.tdAt sb).w * (s.tdAt sb).h * (s.tdAt sa).c) (s.getF32 (s.tdAt sd) oc 0 0 0)
          (s.getF32 (s.tdAt se) ox oy 0 n) (if bias then some (s.getF32 (s.tdAt sc) oc 0 0 0) else none) := by
  rw [convRows, convValue, dotValue, matchCount_eq_matchSum, fieldSize]
  cases bias <;> rfl

theorem bconv_done {bias : Bool} {s : State} {sa sb sc sd se sf : Slot} {sx sy : Byte}
    (h : BconvReady .exec bias s sa sb sc sd se sf sx sy) :
    BconvDone bias s (completed (.bconv bias sa sb sc sd se sf sx sy) s) sa sb sc sd se sf sx sy := by
  obtain ⟨-, -, -, -, -, -, -, -, -, -, -, -, -, -, hout, -⟩ := h
  have hw := computeBconv_writesRows bias sa sb sc sd se sf sx sy s
  constructor
  case rest => exact completed_retiredOnly _ _
  case td => exact completed_td _ _
  case wpq => exact completed_wpq _ _
  case wpn => exact completed_wpn _ _
  case cells =>
    intro ox oy oc n hx hy hc hn
    refine ⟨s.nanAt ((s.tdAt sf).addrF32 ox oy oc n), quietNaN_nanAt _ _, ?_⟩
    rw [completed_getF32, computeOf, getF32_of_writesRows s hw (List.Subset.refl _) (agree_of_writesRows hout hw) hx hy hc hn,
      convRows_eq]
  case others =>
    exact fun adr hno => completed_readByte_of_not_mem fun p hp heq => hno (heq ▸ elementByte_of_writesRows hw hp)

/-- A ready `BCONV*` in EXEC mode completes. -/
theorem exec_bconv {bias : Bool} {s : State} {sa sb sc sd se sf : Slot} {sx sy : Byte} {i : Instr}
    (hi : kernelOf i = some (.exec, .bconv bias sa sb sc sd se sf sx sy))
    (h : BconvReady .exec bias s sa sb sc sd se sf sx sy) :
    ∃ t, exec i s = .next t ∧ BconvDone bias s t sa sb sc sd se sf sx sy :=
  ⟨_, exec_completed hi (bconv_checks_exec h), bconv_done h⟩

/-- Settles O11: both forms are one kernel under its flag. -/
theorem bconvExecComputes : Obligations.BconvExecComputes :=
  fun _ _ _ _ _ _ _ _ _ => ⟨exec_bconv rfl, exec_bconv rfl⟩

end Sys2Proof.Proofs
end

