-- ==== Sys2Proof/Proofs/StepEffects.lean ====
section
/-! SUPPORT. Everything one step of the machine can do, said once: the effect of a host action or of a whole command on the
state whose turn has been used up. -/

namespace Sys2Proof.Proofs

open Sys2Proof.Machine Sys2Proof.Safety

/-! ## The ends of the layer's routines -/

/-- The end of `l.configure` changes only the host's variables (R196). -/
theorem hostConfigured_cases (l : Layer) (s : State) :
    (∃ r, hostConfigured l s = { s with lresult := r })
      ∨ (s.err = false ∧ s.lstate = .unconfigured
        ∧ hostConfigured l s = { s with lstate := .configured, layer := some l, owned := l.owned s.td, lresult := 0 }) := by
  unfold hostConfigured
  split
  · exact .inl ⟨_, rfl⟩
  next herr =>
    split
    · exact .inr ⟨eq_false_of_ne_true herr, ‹_›, rfl⟩
    · exact .inl ⟨s.lresult, rfl⟩

/-- The end of `l.prepare` changes only `LSTATE` (R197). -/
theorem hostPrepared_cases (s : State) :
    hostPrepared s = s ∨ (s.lstate = .configured ∧ hostPrepared s = { s with lstate := .prepared }) := by
  unfold hostPrepared
  split
  · exact .inr ⟨‹_›, rfl⟩
  · exact .inl rfl

/-! ## The effects of a step -/

/-- The sequencer runs `i`, decoded from the head of the queue (R175). -/
def RunsHead (s : State) (i : Instr) : Prop :=
  mover s = .sequencer ∧ s.err = false ∧ ∃ c q, s.queue = c :: q ∧ decode c = .ok i

/-- The host's next action is `a`. -/
def NextAction (s : State) (a : HostAction) : Prop := mover s = .host ∧ ∃ rest, s.script = a :: rest

/-- What a step from `s` can answer, `u` being `s` with the turn and the action taken off the schedule and the script. -/
inductive StepEffect (s u : State) : State → Prop
  /-- only the host's own variables change -/
  | hostVars (rdata : Word) (mdata : List Byte) (draws : Nat) (script : List HostAction) (lresult : Word) :
      StepEffect s u { u with rdata := rdata, mdata := mdata, draws := draws, script := script, lresult := lresult }
  | staged (w0 w1 w2 w3 : Word) : StepEffect s u { u with cmdw0 := w0, cmdw1 := w1, cmdw2 := w2, cmdw3 := w3 }
  | reportCleared : StepEffect s u { u with vstat := 0, vcmd := 0 }
  | memWritten (cells : List Host.Cell) (draws : Nat)
      (hcells : ∀ p ∈ cells, p.1 < u.params.memSize ∧ inAny u.inUse p.1 = false ∧ inAny u.owned.others p.1 = false) :
      StepEffect s u { u.writeCells cells with draws := draws }
  | hardReset (h : ResetNext s) : StepEffect s u (hardReset u)
  | softReset (is : List Interval) (h : ResetNext s) : StepEffect s u (softReset is u)
  | pushed (w3 : Word) (herr : s.err = false) (hroom : s.qlen ≠ s.params.qDepth) :
      StepEffect s u
        { u with cmdw3 := w3, queue := u.queue ++ [⟨u.cmdw0, u.cmdw1, u.cmdw2, w3⟩], issued := u.issued + 1 }
  | hostErred (e : Err) (w0 w3 : Word) (herr : s.err = false) : StepEffect s u (hostError e w0 { u with cmdw3 := w3 })
  | descWritten (off : Nat) (v : Word) (hact : NextAction s (.wr off v)) (hwin : isTdWindow off = true)
      (herr : s.err = false) (hidle : s.qlen = 0) :
      StepEffect s u { u with td := TdTable.put u.td (tdIndex off) ((u.tdAt (tdIndex off)).writeField (tdField off) v) }
  | layerConfigured (l : Layer) (hact : NextAction s (.lConfigured l)) (herr : s.err = false)
      (hstate : s.lstate = .unconfigured) :
      StepEffect s u { u with lstate := .configured, layer := some l, owned := l.owned u.td, lresult := 0 }
  | layerPrepared (hact : NextAction s .lPrepared) (hstate : s.lstate = .configured) :
      StepEffect s u { u with lstate := .prepared }
  /-- a `NOP`, or a VAL-mode command whose checks pass -/
  | retired (i : Instr) (hrun : RunsHead s i) : StepEffect s u (retire u)
  | synced (hrun : RunsHead s .sync) : StepEffect s u (retire (drain u))
  /-- the head does not decode, or its checks fail in CFG or EXEC mode -/
  | failed (e : Err) (w0 : Word) (herr : s.err = false) : StepEffect s u (fatalError e u.retired w0 u)
  | reported (i : Instr) (e : Err) (hrun : RunsHead s i) : StepEffect s u (retire (recordVal e u))
  | shaped (i : Instr) (k : Kernel) (t : TdTable) (hrun : RunsHead s i) (hk : kernelOf i = some (.cfg, k))
      (hok : k.checks .cfg u.params.memSize u.wpq u.td = .ok t) : StepEffect s u (retire { u with td := t })
  | executed (i : Instr) (k : Kernel) (hrun : RunsHead s i) (hk : kernelOf i = some (.exec, k))
      (hok : k.checks .exec u.params.memSize u.wpq u.td = .ok u.td) :
      StepEffect s u (retire (executeKernel k (computeOf k) u))

/-! ## Every step has one of them -/

section
variable {s t : State} {rest : List HostAction}

/-- `s` with the turn used up and the actions still to come. -/
abbrev taken (s : State) (rest : List HostAction) : State := { s with sched := s.sched.tail, script := rest }

theorem qlen_ne_of_not_qfull (h : s.qfull = false) : s.qlen ≠ s.params.qDepth := by simpa [State.qfull] using h

theorem qlen_eq_zero_of_idle (h : s.idle = true) : s.qlen = 0 := by simpa [State.idle] using h

theorem stepEffect_writeReg {off : Nat} {v : Word} (hact : NextAction s (.wr off v)) (hscript : s.script = .wr off v :: rest) :
    StepEffect s (taken s rest) (writeReg off v (taken s rest)) := by
  rcases writeReg_cases off v (taken s rest) with
    ⟨hwin, h⟩ | ⟨-, h⟩ | ⟨rfl, hv, h⟩ | ⟨-, h⟩ | ⟨-, h⟩ | ⟨-, h⟩ | ⟨-, h⟩ | h <;> rw [h]
  · rcases writeTd_cases off v (taken s rest) with ⟨-, h⟩ | ⟨herr, hidle, h⟩ | ⟨herr, -, h⟩ <;> rw [h]
    · exact .hostVars _ _ _ _ _
    · exact .descWritten off v hact hwin herr (qlen_eq_zero_of_idle hidle)
    · exact .hostErred _ _ s.cmdw3 herr
  · exact .reportCleared
  · exact .softReset _ ⟨hact.1, rest, .inr ⟨v, hv, hscript⟩⟩
  · exact .staged v _ _ _
  · exact .staged _ v _ _
  · exact .staged _ _ v _
  · rcases pushStaged_cases { taken s rest with cmdw3 := v } with ⟨-, h⟩ | ⟨herr, -, h⟩ | ⟨herr, hroom, h⟩ <;> rw [h]
    · exact .staged _ _ _ v
    · exact .hostErred _ _ v herr
    · exact .pushed v herr (qlen_ne_of_not_qfull hroom)
  · exact .hostVars _ _ _ _ _

theorem stepEffect_hostAct {a : HostAction} (hmover : mover s = .host) (hscript : s.script = a :: rest)
    (h : hostAct a (taken s rest) = .next t) : StepEffect s (taken s rest) t := by
  have hact : NextAction s a := ⟨hmover, rest, hscript⟩
  rcases hostAct_next_cases h with
    ⟨off, v, rfl, -, rfl⟩ | ⟨rfl, rfl⟩ | ⟨cells, hcells, ht⟩ | ⟨l, rfl, rfl⟩ | ⟨rfl, rfl⟩ | ht
  · exact stepEffect_writeReg hact hscript
  · exact .hardReset ⟨hmover, rest, .inl hscript⟩
  · rw [ht]
    exact .memWritten cells _ hcells
  · rcases hostConfigured_cases l (taken s rest) with ⟨r, h⟩ | ⟨herr, hstate, h⟩ <;> rw [h]
    · exact .hostVars _ _ _ _ r
    · exact .layerConfigured l hact herr hstate
  · rcases hostPrepared_cases (taken s rest) with h | ⟨hstate, h⟩ <;> rw [h]
    · exact .hostVars _ _ _ _ _
    · exact .layerPrepared hact hstate
  · rw [ht]
    exact .hostVars _ _ _ _ _

theorem stepEffect_exec {i : Instr} (hrun : RunsHead s i) (h : exec i (taken s rest) = .next t) :
    StepEffect s (taken s rest) t := by
  rcases exec_cases i (taken s rest) with ⟨-, he⟩ | ⟨rfl, he⟩ | ⟨m, k, hk, he⟩ <;> rw [he] at h <;> cases h
  · exact .retired i hrun
  · exact .synced hrun
  · rcases runKernel_cases (encode i).w0 m k (computeOf k) (taken s rest) with
      ⟨e, -, -, hr⟩ | ⟨e, -, -, hr⟩ | ⟨t, -, -, hr⟩ | ⟨t, hok, rfl, hr⟩ | ⟨t, hok, rfl, hr⟩ <;> rw [hr]
    · exact .reported i e hrun
    · exact .failed e _ hrun.2.1
    · exact .retired i hrun
    · exact .shaped i k t hrun hk hok
    · obtain rfl := checks_exec_table hok
      exact .executed i k hrun hk hok

/-- Every step has one of the effects. -/
theorem step_effect (h : step s = .next t) : ∃ rest, StepEffect s (taken s rest) t := by
  rcases step_cases s with ⟨hmover, hstep⟩ | ⟨hmover, hstep⟩ <;> rw [hstep] at h
  · unfold hostStep at h
    split at h
    case h_1 =>
      cases h
      exact ⟨s.script, .hostVars _ _ _ _ _⟩
    case h_2 a rest hscript => exact ⟨rest, stepEffect_hostAct hmover hscript h⟩
  · refine ⟨s.script, ?_⟩
    rcases sequencerStep_cases (dropTurn s) with ⟨-, he⟩ | ⟨herr, c, q, hq, ⟨i, hd, he⟩ | ⟨e, -, he⟩⟩ <;> rw [he] at h
    · cases h
      exact .hostVars _ _ _ _ _
    · exact stepEffect_exec ⟨hmover, herr, c, q, hq, hd⟩ h
    · cases h
      exact .failed _ _ herr

end

end Sys2Proof.Proofs
end

