-- ==== Sys2Proof/Proofs/StepRules.lean ====
section
/-! SUPPORT. The rules of the whole machine that speak of registers, queue and records, read off the effects a step can have:
in each proof the cases written out are the effects the rule is about, and no other effect touches its fields. -/

namespace Sys2Proof.Proofs

open Sys2Proof.Machine Sys2Proof.Safety

/-! ## The pending bits of a command in EXEC mode (R45, R76) -/

theorem markPending_wpq_of_true {k : Kernel} {s : State} (h : s.wpq = true) : (markPending k s).wpq = true := by
  cases k <;> simp [h]

theorem markPending_wpn_of_true {k : Kernel} {s : State} (h : s.wpn = true) : (markPending k s).wpn = true := by
  cases k <;> simp [h]

/-- Only a command on the Q path sets WPQ. -/
theorem ne_bnorm_of_markPending_wpq {k : Kernel} {s : State} (hs : s.wpq = false) (h : (markPending k s).wpq = true) :
    ∀ sa sb win, k ≠ .bnorm sa sb win := by
  rintro sa sb win rfl
  simp [hs] at h

/-- Only a command on the N path sets WPN. -/
theorem eq_bnorm_of_markPending_wpn {k : Kernel} {s : State} (hs : s.wpn = false) (h : (markPending k s).wpn = true) :
    ∃ sa sb win, k = .bnorm sa sb win := by
  cases k with
  | bnorm sa sb win => exact ⟨sa, sb, win, rfl⟩
  | bsign => simp [hs] at h
  | bconv => simp [hs] at h

/-- A command in EXEC mode leaves one of the bits set. -/
theorem markPending_pending (k : Kernel) (s : State) : (markPending k s).wpq = true ∨ (markPending k s).wpn = true := by
  cases k <;> simp

/-! ## The status bits (R45) -/

section
variable {s t : State} {rest : List HostAction}

theorem wpq_rises (he : StepEffect s (taken s rest) t) (hs : s.wpq = false) (ht : t.wpq = true) :
    t.retired = s.retired + 1 ∧ ∃ c q i k, s.queue = c :: q ∧ decode c = .ok i ∧ kernelOf i = some (.exec, k)
      ∧ ∀ sa sb win, k ≠ .bnorm sa sb win := by
  cases he
  case executed i k hrun hk _ =>
    obtain ⟨-, -, c, q, hq, hd⟩ := hrun
    rw [retire_wpq, executeKernel_wpq] at ht
    exact ⟨by simp, c, q, i, k, hq, hd, hk, ne_bnorm_of_markPending_wpq (s := taken s rest) hs ht⟩
  all_goals simp [hs] at ht

theorem wpn_rises (he : StepEffect s (taken s rest) t) (hs : s.wpn = false) (ht : t.wpn = true) :
    t.retired = s.retired + 1 ∧ ∃ c q i sa sb win, s.queue = c :: q ∧ decode c = .ok i
      ∧ kernelOf i = some (.exec, .bnorm sa sb win) := by
  cases he
  case executed i k hrun hk _ =>
    obtain ⟨-, -, c, q, hq, hd⟩ := hrun
    rw [retire_wpn, executeKernel_wpn] at ht
    obtain ⟨sa, sb, win, rfl⟩ := eq_bnorm_of_markPending_wpn (s := taken s rest) hs ht
    exact ⟨by simp, c, q, i, sa, sb, win, hq, hd, hk⟩
  all_goals simp [hs] at ht

theorem pending_falls (he : StepEffect s (taken s rest) t)
    (h : (s.wpq = true ∧ t.wpq = false) ∨ (s.wpn = true ∧ t.wpn = false)) :
    ResetNext s ∨ (t.retired = s.retired + 1 ∧ ∃ c q, s.queue = c :: q ∧ decode c = .ok .sync) := by
  cases he
  case hardReset hreset => exact .inl hreset
  case softReset hreset => exact .inl hreset
  case synced hrun =>
    obtain ⟨-, -, c, q, hq, hd⟩ := hrun
    exact .inr ⟨by simp, c, q, hq, hd⟩
  case executed k _ _ _ =>
    rw [retire_wpq, executeKernel_wpq, retire_wpn, executeKernel_wpn] at h
    rcases h with ⟨hs, ht⟩ | ⟨hs, ht⟩
    · rw [markPending_wpq_of_true (s := taken s rest) hs] at ht; cases ht
    · rw [markPending_wpn_of_true (s := taken s rest) hs] at ht; cases ht
  all_goals
    rcases h with ⟨hs, ht⟩ | ⟨hs, ht⟩ <;> simp [hs] at ht

theorem err_rises (he : StepEffect s (taken s rest) t) (hs : s.err = false) (ht : t.err = true) :
    t.queue = [] ∧ t.issued = t.retired ∧ ∃ e : Err, t.errInfo = e.word := by
  cases he
  case hostErred e w0 w3 _ => exact ⟨by simp, by simp, e, by simp [hs]⟩
  case failed e w0 _ => exact ⟨by simp, by simp, e, by simp [hs]⟩
  all_goals simp [hs] at ht

theorem err_falls (he : StepEffect s (taken s rest) t) (hs : s.err = true) (ht : t.err = false) : ResetNext s := by
  cases he
  case hardReset hreset => exact hreset
  case softReset hreset => exact hreset
  all_goals simp [hs] at ht

end

/-- Settles O23: each bit has its own causes among the effects of a step. -/
theorem statusBitsChangeOnlyAsStated : Obligations.StatusBitsChangeOnlyAsStated := by
  intro s t h
  obtain ⟨rest, he⟩ := step_effect h
  exact ⟨wpq_rises he, wpn_rises he, pending_falls he, err_rises he, err_falls he⟩

/-! ## The error state (R217, R219) -/

/-- With ERR = 1 the sequencer runs nothing. -/
theorem not_runsHead_of_err {s : State} {i : Instr} (h : s.err = true) : ¬RunsHead s i := by
  rintro ⟨-, hno, -⟩
  rw [h] at hno
  cases hno

/-- Settles O24: with ERR = 1 only the effects of dropped or harmless host actions are left. -/
theorem errorStateIsSticky : Obligations.ErrorStateIsSticky := by
  intro s t h herr hno
  obtain ⟨rest, he⟩ := step_effect h
  have hrun (i : Instr) : ¬RunsHead s i := not_runsHead_of_err herr
  cases he
  case hardReset hreset => exact absurd hreset hno
  case softReset hreset => exact absurd hreset hno
  all_goals simp_all

/-! ## The queue (R30, R31, R184) -/

/-- The queue and the counters of a step in which the head retires. -/
structure HeadRetires (s t : State) : Prop where
  queue : ∃ c, s.queue = c :: t.queue
  issued : t.issued = s.issued
  retired : t.retired = s.retired + 1

theorem headRetires {s t : State} {i : Instr} (hrun : RunsHead s i) (hq : t.queue = s.queue.tail)
    (hi : t.issued = s.issued) (hr : t.retired = s.retired + 1) : HeadRetires s t := by
  obtain ⟨-, -, c, q, hsq, -⟩ := hrun
  exact ⟨⟨c, by rw [hq, hsq, List.tail_cons]⟩, hi, hr⟩

/-- What a step does to the queue: a reset empties it, a push appends, a command that retires is the head, a fatal error
empties it. -/
theorem queue_effect {s t : State} {rest : List HostAction} (he : StepEffect s (taken s rest) t) :
    (ResetNext s ∧ t.queue = [] ∧ t.issued = 0 ∧ t.retired = 0)
      ∨ (t.queue = s.queue ∧ t.issued = s.issued ∧ t.retired = s.retired)
      ∨ (s.qlen ≠ s.params.qDepth ∧ ∃ c, t.queue = s.queue ++ [c] ∧ t.issued = s.issued + 1 ∧ t.retired = s.retired)
      ∨ HeadRetires s t
      ∨ (t.queue = [] ∧ t.issued = s.retired ∧ t.retired = s.retired ∧ t.err = true) := by
  cases he
  case hardReset hreset => exact .inl ⟨hreset, rfl, rfl, rfl⟩
  case softReset hreset => exact .inl ⟨hreset, rfl, rfl, rfl⟩
  case pushed hroom => exact .inr (.inr (.inl ⟨hroom, _, rfl, rfl, rfl⟩))
  case retired hrun => exact .inr (.inr (.inr (.inl (headRetires hrun rfl rfl rfl))))
  case synced hrun => exact .inr (.inr (.inr (.inl (headRetires hrun rfl rfl rfl))))
  case reported hrun => exact .inr (.inr (.inr (.inl (headRetires hrun (by simp) (by simp) (by simp)))))
  case shaped hrun _ _ => exact .inr (.inr (.inr (.inl (headRetires hrun rfl rfl rfl))))
  case executed hrun _ _ => exact .inr (.inr (.inr (.inl (headRetires hrun (by simp) (by simp) (by simp)))))
  case hostErred => exact .inr (.inr (.inr (.inr (by simp))))
  case failed => exact .inr (.inr (.inr (.inr (by simp))))
  all_goals exact .inr (.inl ⟨rfl, rfl, rfl⟩)

/-- Settles O26: the four ways the queue can move without a reset. -/
theorem queueMovesInOrder : Obligations.QueueMovesInOrder := by
  intro s t h hno
  obtain ⟨rest, he⟩ := step_effect h
  rcases queue_effect he with ⟨hreset, -⟩ | hsame | ⟨-, hpush⟩ | ⟨⟨c, hq⟩, hi, hr⟩ | herr
  · exact absurd hreset hno
  · exact .inl hsame
  · exact .inr (.inl hpush)
  · exact .inr (.inr (.inl ⟨c, hq, hi, hr⟩))
  · exact .inr (.inr (.inr herr))

/-! ## The invariants of the queue and the registers (R30, R37 to R39) -/

section
variable {s t : State} {rest : List HostAction}

/-- No step changes the parameters (R8). -/
theorem params_effect (he : StepEffect s (taken s rest) t) : t.params = s.params := by
  cases he <;> simp

/-- With room in the queue a push makes QLEN one more. -/
theorem qlen_pushed {issued retired : Word} (h : (issued - retired).toNat < 255) :
    (issued + 1 - retired).toNat = (issued - retired).toNat + 1 := by
  bv_omega

/-- With a command in the queue a retirement makes QLEN one less. -/
theorem qlen_retired {issued retired : Word} (h : 0 < (issued - retired).toNat) :
    (issued - (retired + 1)).toNat = (issued - retired).toNat - 1 := by
  bv_omega

theorem queueOk_effect (he : StepEffect s (taken s rest) t) (h : QueueOk s) : QueueOk t := by
  obtain ⟨hrange, hlen, hdepth⟩ := h
  have ⟨_, _, _, _, hmax, _⟩ := hrange
  have hparams := params_effect he
  rw [QueueOk, State.qlen, hparams]
  rw [State.qlen] at hlen hdepth
  refine ⟨hrange, ?_⟩
  rcases queue_effect he with ⟨-, hq, hi, hr⟩ | ⟨hq, hi, hr⟩ | ⟨hroom, c, hq, hi, hr⟩ | ⟨⟨c, hq⟩, hi, hr⟩ | ⟨hq, hi, hr, -⟩ <;>
    rw [hi, hr]
  · simp [hq]
  · rw [hq]
    exact ⟨hlen, hdepth⟩
  · rw [State.qlen] at hroom
    rw [qlen_pushed (by omega), hq, List.length_append, List.length_singleton]
    omega
  · rw [hq, List.length_cons] at hlen
    rw [qlen_retired (by omega)]
    omega
  · simp [hq]

theorem errorOk_effect (he : StepEffect s (taken s rest) t) (h : ErrorOk s) : ErrorOk t := by
  obtain ⟨hzero, hrec⟩ := h
  cases he
  case hardReset => exact ⟨fun _ => ⟨rfl, rfl, rfl, rfl⟩, nofun⟩
  case softReset => exact ⟨fun _ => ⟨rfl, rfl, rfl, rfl⟩, nofun⟩
  case hostErred e w0 w3 herr => exact ⟨by simp, fun _ => ⟨by simp, e, by simp [herr]⟩⟩
  case failed e w0 herr => exact ⟨by simp, fun _ => ⟨by simp, e, by simp [herr]⟩⟩
  case pushed herr _ => exact ⟨hzero, fun h => by simp [herr] at h⟩
  all_goals simp_all [ErrorOk]

theorem code_number_ne_zero (c : ECode) : c.number ≠ 0 := by
  cases c <;> decide

/-- VECODE of a report is the error's code (R37, R39). -/
theorem vecode_errWord (e : Err) : e.word.extractLsb' 0 8 = e.check.code.number := by
  apply BitVec.eq_of_toNat_eq
  have := e.check.code.number.isLt
  simp only [Err.word, field_toNat, BitVec.toNat_ofNat]
  omega

theorem valOk_of_report {s : State} (e : Err) (h : s.vstat = e.word) : ValOk s := by
  have hcode : s.vecode ≠ 0 := by
    rw [State.vecode, h, vecode_errWord]
    exact code_number_ne_zero _
  exact ⟨fun hzero => absurd hzero hcode, fun _ => ⟨e, h⟩⟩

theorem valOk_effect (he : StepEffect s (taken s rest) t) (h : ValOk s) : ValOk t := by
  cases he
  case hardReset => exact ⟨fun _ => ⟨rfl, rfl⟩, nofun⟩
  case softReset => exact ⟨fun _ => ⟨rfl, rfl⟩, nofun⟩
  case reportCleared => exact ⟨fun _ => ⟨rfl, rfl⟩, nofun⟩
  case reported e _ =>
    by_cases hv : (taken s rest).vecode = 0
    · exact valOk_of_report e (by simp [hv])
    · rw [recordVal, if_neg hv]
      exact h
  all_goals simpa [ValOk, State.vecode] using h

end

/-- Settles O28: each invariant is kept by each effect. -/
theorem stepKeepsQueueAndErrorRegisters : Obligations.StepKeepsQueueAndErrorRegisters := by
  intro s t h
  obtain ⟨rest, he⟩ := step_effect h
  exact ⟨queueOk_effect he, errorOk_effect he, valOk_effect he⟩

/-! ## The invariants of the pending bits and of the layer (R36, R191) -/

section
variable {s t : State} {rest : List HostAction}

theorem pendingOk_effect (he : StepEffect s (taken s rest) t) (h : PendingOk s) : PendingOk t := by
  cases he
  case hardReset => exact fun _ _ => rfl
  case softReset => exact fun _ _ => rfl
  case synced => exact fun _ _ => rfl
  case executed k _ _ _ =>
    intro hwpq hwpn
    rw [retire_wpq, executeKernel_wpq] at hwpq
    rw [retire_wpn, executeKernel_wpn] at hwpn
    rcases markPending_pending k (taken s rest) with hset | hset
    · rw [hset] at hwpq; cases hwpq
    · rw [hset] at hwpn; cases hwpn
  all_goals simpa [PendingOk] using h

theorem layerOk_effect (he : StepEffect s (taken s rest) t) (h : LayerOk s) : LayerOk t := by
  cases he
  case hardReset => exact ⟨iff_of_true rfl rfl, fun _ => rfl⟩
  case softReset => exact ⟨iff_of_true rfl rfl, fun _ => rfl⟩
  case layerConfigured => exact ⟨⟨nofun, nofun⟩, nofun⟩
  case layerPrepared hstate =>
    obtain ⟨hiff, hnone⟩ := h
    rw [hstate] at hiff
    exact ⟨⟨nofun, fun hl => nomatch hiff.2 hl⟩, hnone⟩
  all_goals simpa [LayerOk] using h

end

/-- Settles O29: only a command in EXEC mode makes an output wait, and it sets a pending bit; only the end of `l.configure` and
a reset touch the layer's operands. -/
theorem stepKeepsPendingAndLayer : Obligations.StepKeepsPendingAndLayer := by
  intro s t h
  obtain ⟨rest, he⟩ := step_effect h
  exact ⟨pendingOk_effect he, layerOk_effect he⟩

end Sys2Proof.Proofs
end

