-- ==== Sys2Proof/Proofs/ShapedTable.lean ====
section
/-! SUPPORT. The scratch table `AutoShape` answers (R181): which descriptors it shapes, how, and the interval a shaped output
then has. -/

namespace Sys2Proof.Proofs

open Sys2Proof.Machine Sys2Proof.Safety

/-! ## Inputs and outputs of a command -/

/-- The operand a derived output is (R98). -/
def derivedOperand (o : Derived) : Operand := ⟨o.slot, .output, o.ty, false⟩

/-- The input operands, in slot order. -/
def kernelInputs (k : Kernel) : List Operand := k.operands.filter (fun o => o.role == .input)

/-- Every output has a derived type and shape (R120, R140, R155). -/
theorem derived_outputs (k : Kernel) (t : TdTable) : (k.derived t).map derivedOperand = k.outputs := by
  cases k with
  | bsign a b sa sb sc sd => cases a <;> cases b <;> rfl
  | bnorm sa sb win => rfl
  | bconv bias sa sb sc sd se sf sx sy => cases bias <;> rfl

/-- In slot order the inputs come first (R98). -/
theorem operands_eq (k : Kernel) : k.operands = kernelInputs k ++ k.outputs := by
  cases k with
  | bsign a b sa sb sc sd => cases a <;> cases b <;> rfl
  | bnorm sa sb win => rfl
  | bconv bias sa sb sc sd se sf sx sy => cases bias <;> rfl

theorem mem_kernelInputs {k : Kernel} {o : Operand} : o ∈ kernelInputs k ↔ o ∈ k.operands ∧ o.role = .input := by
  simp [kernelInputs]

theorem derivedOperand_mem {k : Kernel} {t : TdTable} {o : Derived} (h : o ∈ k.derived t) :
    derivedOperand o ∈ k.operands := by
  rw [operands_eq, ← derived_outputs k t]
  exact List.mem_append_right _ (List.mem_map_of_mem h)

/-- An operand is an input or a derived output. -/
theorem operand_cases {k : Kernel} (t : TdTable) {o : Operand} (h : o ∈ k.operands) :
    o ∈ kernelInputs k ∨ ∃ d ∈ k.derived t, o = derivedOperand d := by
  rw [operands_eq, ← derived_outputs k t] at h
  rcases List.mem_append.1 h with h | h
  · exact .inl h
  · obtain ⟨d, hd, rfl⟩ := List.mem_map.1 h
    exact .inr ⟨d, hd, rfl⟩

/-! ## What `AutoShape` does to each descriptor -/

/-- A descriptor after `AutoShape` has passed over the outputs, `o` being the first of them that names it. -/
def shapedAs (d : Desc) : Option Derived → Desc
  | some o => if d.shaped then d else d.dense o.ty o.shape
  | none => d

/-- The first output that names a descriptor. -/
def firstNaming (ds : List Derived) (j : Slot) : Option Derived := ds.find? fun o => o.slot == j

theorem shapedAs_of_shaped {d : Desc} (h : d.shaped = true) (o : Option Derived) : shapedAs d o = d := by
  cases o with
  | none => rfl
  | some o => exact if_pos h

theorem shapedAs_of_unshaped {d : Desc} (h : d.shaped = false) (o : Derived) :
    shapedAs d (some o) = d.dense o.ty o.shape := if_neg (by simp [h])

theorem shaped_shapedAs (d : Desc) (o : Derived) : (shapedAs d (some o)).shaped = true := by
  cases h : d.shaped
  · rw [shapedAs_of_unshaped h]
    rfl
  · rw [shapedAs_of_shaped h, h]

theorem firstNaming_cons (o : Derived) (ds : List Derived) (j : Slot) :
    firstNaming (o :: ds) j = if o.slot = j then some o else firstNaming ds j := by
  by_cases hj : o.slot = j
  · rw [if_pos hj, firstNaming, List.find?_cons, beq_iff_eq.2 hj]
  · rw [if_neg hj, firstNaming, List.find?_cons, beq_eq_false_iff_ne.2 hj, firstNaming]

section
variable {memSize : Nat} {t t' : TdTable} {ds : List Derived}

theorem autoShape_at {o : Derived} (h : autoShape memSize t o = .ok t') (j : Slot) :
    t'.at j = if o.slot = j then shapedAs (t.at j) (some o) else t.at j := by
  rcases autoShape_eq_ok.1 h with ⟨hs, rfl⟩ | ⟨hs, -, -, -, rfl⟩
  · split
    · subst_vars
      rw [shapedAs_of_shaped hs]
    · rfl
  · split
    · subst_vars
      rw [TdTable.at_put_same, shapedAs_of_unshaped hs]
    · exact TdTable.at_put_other _ _ (Ne.symm ‹_›)

/-- An unshaped descriptor is shaped as the first output that names it (log 13); the others stay. -/
theorem autoShapeAll_at (h : autoShapeAll memSize t ds = .ok t') (j : Slot) :
    t'.at j = shapedAs (t.at j) (firstNaming ds j) := by
  induction ds generalizing t with
  | nil =>
    cases h
    rfl
  | cons o ds ih =>
    obtain ⟨t1, h1, h2⟩ := except_bind_eq_ok.1 h
    have h1 := autoShape_at h1 j
    rw [ih h2, h1, firstNaming_cons]
    by_cases hj : o.slot = j
    · rw [if_pos hj, if_pos hj, shapedAs_of_shaped (shaped_shapedAs _ _)]
    · rw [if_neg hj, if_neg hj]

theorem firstNaming_eq_some {j : Slot} {o : Derived} (h : firstNaming ds j = some o) : o ∈ ds ∧ o.slot = j :=
  ⟨List.mem_of_find?_eq_some h, by simpa using List.find?_some h⟩

/-- Where every output names its own descriptor, each is the first that names it. -/
theorem firstNaming_slot (hd : ds.Pairwise fun p q => p.slot ≠ q.slot) {o : Derived} (ho : o ∈ ds) :
    firstNaming ds o.slot = some o := by
  induction ds with
  | nil => cases ho
  | cons p ds ih =>
    obtain ⟨hp, hds⟩ := List.pairwise_cons.1 hd
    rw [firstNaming_cons]
    rcases List.mem_cons.1 ho with rfl | ho
    · exact if_pos rfl
    · rw [if_neg (hp o ho)]
      exact ih hds ho

theorem exists_firstNaming {o : Derived} (ho : o ∈ ds) : ∃ p, firstNaming ds o.slot = some p := by
  rw [← Option.isSome_iff_exists, firstNaming, List.find?_isSome]
  exact ⟨o, ho, beq_self_eq_true _⟩

/-- What `AutoShape` asks of an unshaped output (R181). -/
def HasRoom (memSize : Nat) (d : Desc) (o : Derived) : Prop :=
  d.baseOk o.ty ∧ o.ty.rowBytes o.shape.e0 * o.shape.e1 * o.shape.e2 < 2 ^ 32 ∧ shapedEnd d o.ty o.shape ≤ memSize

/-- `AutoShape` passes over outputs of which each has room. -/
theorem autoShapeAll_passes (h : ∀ o ∈ ds, (t.at o.slot).shaped = false → HasRoom memSize (t.at o.slot) o) :
    ∃ t', autoShapeAll memSize t ds = .ok t' := by
  induction ds generalizing t with
  | nil => exact ⟨t, rfl⟩
  | cons o ds ih =>
    have hstep : ∃ t1, autoShape memSize t o = .ok t1 := by
      cases hs : (t.at o.slot).shaped
      · obtain ⟨hbase, hsize, hend⟩ := h o List.mem_cons_self hs
        exact ⟨_, autoShape_eq_ok.2 (.inr ⟨hs, hbase, hsize, hend, rfl⟩)⟩
      · exact ⟨_, autoShape_of_shaped hs⟩
    obtain ⟨t1, h1⟩ := hstep
    have hrest : ∀ p ∈ ds, (t1.at p.slot).shaped = false → HasRoom memSize (t1.at p.slot) p := by
      intro p hp hs
      rw [autoShape_at h1] at hs ⊢
      split at hs
      · rw [shaped_shapedAs] at hs
        cases hs
      · rw [if_neg ‹_›]
        exact h p (List.mem_cons_of_mem _ hp) hs
    obtain ⟨t', h2⟩ := ih hrest
    exact ⟨t', except_bind_eq_ok.2 ⟨t1, h1, h2⟩⟩

/-- Where `AutoShape` passes, the first output that names an unshaped descriptor has room. -/
theorem hasRoom_of_firstNaming (h : autoShapeAll memSize t ds = .ok t') {j : Slot} {o : Derived}
    (ho : firstNaming ds j = some o) (hs : (t.at j).shaped = false) : HasRoom memSize (t.at j) o := by
  induction ds generalizing t with
  | nil => cases ho
  | cons p ds ih =>
    obtain ⟨t1, h1, h2⟩ := except_bind_eq_ok.1 h
    rw [firstNaming_cons] at ho
    by_cases hj : p.slot = j
    · rw [if_pos hj] at ho
      obtain rfl := Option.some.inj ho
      subst hj
      rcases autoShape_eq_ok.1 h1 with ⟨hshaped, -⟩ | ⟨-, hbase, hsize, hend, -⟩
      · rw [hs] at hshaped
        cases hshaped
      · exact ⟨hbase, hsize, hend⟩
    · rw [if_neg hj] at ho
      have hsame : t1.at j = t.at j := by rw [autoShape_at h1, if_neg hj]
      rw [← hsame]
      exact ih h2 ho (by rw [hsame]; exact hs)

end

/-! ## The dense layout (R181) -/

/-- The extents of a derived output: at least 1, and small enough for a descriptor's fields (R26, R140, log 14). -/
structure BoundedShape (sh : Shape) : Prop where
  e0 : 1 ≤ sh.e0 ∧ sh.e0 < 2 ^ 32
  e1 : 1 ≤ sh.e1 ∧ sh.e1 < 2 ^ 32
  e2 : 1 ≤ sh.e2 ∧ sh.e2 < 2 ^ 32
  e3 : 1 ≤ sh.e3 ∧ sh.e3 < 2 ^ 32

theorem rowBytes_pos (ty : DType) {w : Nat} (h : 1 ≤ w) : 1 ≤ ty.rowBytes w := by
  cases ty <;> simp only [DType.rowBytes, ceil8] <;> omega

section
variable {d : Desc} {ty : DType} {sh : Shape}

theorem toNat_ofNat_word {n : Nat} (h : n < 2 ^ 32) : (BitVec.ofNat 32 n).toNat = n := by
  rw [BitVec.toNat_ofNat, Nat.mod_eq_of_lt h]

/-- The fields of a dense descriptor are the numbers `AutoShape` gives it (R181). -/
theorem dense_fields (hb : BoundedShape sh) (hsize : ty.rowBytes sh.e0 * sh.e1 * sh.e2 < 2 ^ 32) :
    (d.dense ty sh).shape = sh ∧ (d.dense ty sh).s1 = ty.rowBytes sh.e0 ∧ (d.dense ty sh).s2 = ty.rowBytes sh.e0 * sh.e1
      ∧ (d.dense ty sh).s3 = ty.rowBytes sh.e0 * sh.e1 * sh.e2 := by
  obtain ⟨⟨-, h0⟩, ⟨p1, h1⟩, ⟨p2, h2⟩, ⟨-, h3⟩⟩ := hb
  have hs2 : ty.rowBytes sh.e0 * sh.e1 < 2 ^ 32 := Nat.lt_of_le_of_lt (Nat.le_mul_of_pos_right _ p2) hsize
  have hs1 : ty.rowBytes sh.e0 < 2 ^ 32 := Nat.lt_of_le_of_lt (Nat.le_mul_of_pos_right _ p1) hs2
  refine ⟨?_, toNat_ofNat_word hs1, toNat_ofNat_word hs2, toNat_ofNat_word hsize⟩
  rw [Desc.shape, Desc.w, Desc.h, Desc.c, Desc.n]
  simp only [Desc.dense, toNat_ofNat_word, h0, h1, h2, h3]

/-- The extent of a dense tensor is the number of its bytes (R27, R181). -/
theorem dense_extent (hb : BoundedShape sh) (hsize : ty.rowBytes sh.e0 * sh.e1 * sh.e2 < 2 ^ 32) :
    (d.dense ty sh).extent (ty.rowBytes (d.dense ty sh).w) = denseBytes ty sh := by
  obtain ⟨hsh, hs1, hs2, hs3⟩ := dense_fields (d := d) hb hsize
  have hw : (d.dense ty sh).w = sh.e0 := congrArg Shape.e0 hsh
  have hh : (d.dense ty sh).h = sh.e1 := congrArg Shape.e1 hsh
  have hc : (d.dense ty sh).c = sh.e2 := congrArg Shape.e2 hsh
  have hn : (d.dense ty sh).n = sh.e3 := congrArg Shape.e3 hsh
  rw [Desc.extent, hw, hh, hc, hn, hs1, hs2, hs3, denseBytes]
  push_cast
  ring

theorem shapedEnd_eq (hb : BoundedShape sh) (hsize : ty.rowBytes sh.e0 * sh.e1 * sh.e2 < 2 ^ 32) :
    shapedEnd d ty sh = (d.base.toNat + denseBytes ty sh : Nat) := by
  rw [shapedEnd, dense_extent hb hsize]
  rfl

end

end Sys2Proof.Proofs
end

