-- ==== Sys2Proof/Proofs/KernelReady.lean ====
section
/-! SUPPORT. The checks of R121, R141 and R156 pass exactly on ready operands, in every mode and for all families at once, and
the table they answer. -/

namespace Sys2Proof.Proofs

open Sys2Proof.Machine Sys2Proof.Safety

/-! ## Operands that are ready, whatever the family -/

/-- An input operand that passes `CheckOperand` (R180). -/
structure InputOk (memSize : Nat) (t : TdTable) (o : Operand) : Prop where
  bound : (t.at o.slot).bound = true
  shaped : (t.at o.slot).shaped = true
  ok : ShapedOk memSize o (t.at o.slot)

/-- The interval of a derived output, as it is or as it will be shaped (R27, R181). -/
def derivedRange (t : TdTable) (o : Derived) : Interval := outputRange (t.at o.slot) o.ty o.shape

/-- Everything the checks ask of a command but the hazard, for all families at once (R121, R141, R156). -/
structure KernelReady (m : Mode) (memSize : Nat) (t : TdTable) (k : Kernel) : Prop where
  window : k.windowCheck = .ok ()
  inputs : ∀ i ∈ kernelInputs k, InputOk memSize t i
  fit : k.fitCheck t = .ok ()
  outputs : ∀ o ∈ k.derived t, OutputReady m memSize (t.at o.slot) o.ty o.shape
  fromInputs : ∀ i ∈ kernelInputs k, ∀ o ∈ k.derived t, Apart (derivedRange t o) (i.interval t)
  fromOutputs : (k.derived t).Pairwise fun p q => Apart (derivedRange t p) (derivedRange t q)

/-! ## Descriptors and their intervals -/

section
variable {m : Mode} {memSize : Nat} {t t' : TdTable} {k : Kernel}

/-- A well formed descriptor has the type its operand requires (R26 (a)). -/
theorem dtype_of_wellFormed {row : Nat} {d : Desc} {ty : DType} (h : WellFormed memSize d ty row) : d.dtype = ty.code := by
  obtain ⟨hty, -⟩ := h
  rw [hty]
  cases ty <;> rfl

/-- What passes `CheckOperand` is well formed (R26, R180). -/
theorem wellFormed_of_shapedOk {o : Operand} {d : Desc} (h : ShapedOk memSize o d) (hf : o.fetch = true → o.ty = .f32) :
    WellFormed memSize d o.ty (if o.fetch then fetchRowBytes d.w else o.ty.rowBytes d.w) := by
  obtain ⟨hty, ⟨⟨hw1, hw2⟩, ⟨hh1, hh2⟩, ⟨hc1, hc2⟩, ⟨hn1, hn2⟩⟩, ⟨hs1, hs2, hs3, hmul⟩, hbase, -, hrange⟩ := h
  rw [rowBytes_of_dtype hty hf] at hrange
  refine ⟨?_, hw1, hw2, hh1, hh2, hc1, hc2, hn1, hn2, hs1, hs2, hs3, fun h => ?_, hrange⟩
  · rw [hty]
    cases o.ty <;> rfl
  · obtain ⟨h1, h2, h3⟩ := hmul h
    exact ⟨Nat.dvd_of_mod_eq_zero (hbase h), Nat.dvd_of_mod_eq_zero h1, Nat.dvd_of_mod_eq_zero h2,
      Nat.dvd_of_mod_eq_zero h3⟩

/-- A descriptor without an extent that is 0. -/
structure Positive (d : Desc) : Prop where
  w : 1 ≤ d.w
  h : 1 ≤ d.h
  c : 1 ≤ d.c
  n : 1 ≤ d.n

theorem positive_of_shapedOk {o : Operand} {d : Desc} (h : ShapedOk memSize o d) : Positive d := by
  obtain ⟨-, ⟨⟨hw, -⟩, ⟨hh, -⟩, ⟨hc, -⟩, ⟨hn, -⟩⟩, -⟩ := h
  exact ⟨hw, hh, hc, hn⟩

theorem positive_dense {d : Desc} {ty : DType} {sh : Shape} (hb : BoundedShape sh)
    (hsize : ty.rowBytes sh.e0 * sh.e1 * sh.e2 < 2 ^ 32) : Positive (d.dense ty sh) := by
  obtain ⟨hsh, -⟩ := dense_fields (d := d) hb hsize
  obtain ⟨⟨h0, -⟩, ⟨h1, -⟩, ⟨h2, -⟩, ⟨h3, -⟩⟩ := hb
  rw [← hsh] at h0 h1 h2 h3
  exact ⟨h0, h1, h2, h3⟩

/-- The interval of a tensor holds its `BASE`. -/
theorem span_nonempty {d : Desc} {row : Nat} (hd : Positive d) (hrow : 1 ≤ row) : (d.span row).lo < (d.span row).hi := by
  obtain ⟨-, hh, hc, hn⟩ := hd
  have h1 : 0 ≤ ((d.n : Int) - 1) * d.s3 := mul_nonneg (by omega) (by omega)
  have h2 : 0 ≤ ((d.c : Int) - 1) * d.s2 := mul_nonneg (by omega) (by omega)
  have h3 : 0 ≤ ((d.h : Int) - 1) * d.s1 := mul_nonneg (by omega) (by omega)
  simp only [Desc.span, Desc.extent]
  omega

theorem interval_nonempty {o : Operand} (h : Positive (t.at o.slot)) : (o.interval t).lo < (o.interval t).hi := by
  refine span_nonempty h ?_
  have hw := h.w
  unfold Operand.rowBytes
  split
  · simp only [fetchRowBytes, ceil8]
    omega
  · exact rowBytes_pos _ hw

theorem apart_symm {i j : Interval} (h : Apart i j) : Apart j i := Or.symm h

/-- Intervals with bytes that share none stand apart (R182). -/
theorem apart_of_not_meets {i j : Interval} (hi : i.lo < i.hi) (hj : j.lo < j.hi) (h : i.meets j = false) : Apart i j := by
  rw [Interval.meets, decide_eq_false_iff_not] at h
  unfold Apart
  omega

/-- Intervals with bytes and one first address do not stand apart. -/
theorem not_apart_of_lo_eq {i j : Interval} (hi : i.lo < i.hi) (hj : j.lo < j.hi) (h : i.lo = j.lo) : ¬Apart i j := by
  unfold Apart
  omega

/-! ## The derived shapes are within the descriptor's fields -/

theorem outSize_bounded (size window stride : Nat) (h : size < 2 ^ 31) :
    1 ≤ outSize size window stride ∧ outSize size window stride < 2 ^ 32 := by
  have hle := Nat.div_le_self (size - window) stride
  unfold outSize
  generalize (size - window) / stride = q at hle
  omega

/-- The extents of a derived output are bounded, since those of the inputs are (R26, R140, R155). -/
theorem derived_bounded (hin : ∀ i ∈ kernelInputs k, InputOk memSize t i) {o : Derived} (ho : o ∈ k.derived t) :
    BoundedShape o.shape := by
  have extents (i : Operand) (hi : i ∈ kernelInputs k) : (t.at i.slot).extentsOk := (hin i hi).ok.extents
  cases k with
  | bsign a b sa sb sc sd =>
    obtain ⟨hw, hh, hc, hn⟩ := extents ⟨sa, .input, .f32, true⟩ (by simp [kernelInputs, Kernel.operands])
    simp only [Kernel.derived, List.mem_append, List.mem_cons, List.not_mem_nil, or_false, mem_optional] at ho
    rcases ho with (rfl | ⟨-, rfl⟩) | ⟨-, rfl⟩ <;> constructor <;> dsimp only at * <;> omega
  | bnorm sa sb win =>
    obtain ⟨hw, hh, -, hn⟩ := extents ⟨sa, .input, .f32, false⟩ (by simp [kernelInputs, Kernel.operands])
    obtain rfl := List.mem_singleton.1 ho
    have := win.pl.isLt; have := win.pr.isLt; have := win.pt.isLt; have := win.pb.isLt
    refine ⟨outSize_bounded _ _ _ ?_, outSize_bounded _ _ _ ?_, ?_, ?_⟩ <;> dsimp only at * <;> omega
  | bconv bias sa sb sc sd se sf sx sy =>
    obtain ⟨hw, hh, -, hn⟩ := extents ⟨sa, .input, .bit, false⟩ (by simp [kernelInputs, Kernel.operands])
    obtain ⟨-, -, -, hm⟩ := extents ⟨sb, .input, .bit, false⟩ (by simp [kernelInputs, Kernel.operands])
    obtain rfl := List.mem_singleton.1 ho
    refine ⟨outSize_bounded _ _ _ ?_, outSize_bounded _ _ _ ?_, ?_, ?_⟩ <;> dsimp only at * <;> omega

/-! ## The interval of an output once it is shaped -/

section
variable {d : Desc} {ty : DType} {sh : Shape}

theorem outputRange_lo (d : Desc) (ty : DType) (sh : Shape) : (outputRange d ty sh).lo = d.base.toNat := by
  unfold outputRange
  split <;> rfl

/-- Room for the dense tensor, in the words of the check and in those of R181. -/
theorem hasRoom_iff {o : Derived} (hb : BoundedShape o.shape) :
    HasRoom memSize d o ↔ (o.ty = .f32 → 4 ∣ d.base.toNat) ∧ o.ty.rowBytes o.shape.e0 * o.shape.e1 * o.shape.e2 < 2 ^ 32
      ∧ d.base.toNat + denseBytes o.ty o.shape ≤ memSize := by
  unfold HasRoom Desc.baseOk
  simp only [Nat.dvd_iff_mod_eq_zero]
  refine and_congr_right fun _ => and_congr_right fun hsize => ?_
  rw [shapedEnd_eq hb hsize]
  exact Int.ofNat_le

/-- Once shaped, a ready output has the interval the statements give it (R27, R181). -/
theorem interval_shaped {o : Derived} (hr : OutputReady m memSize (t.at o.slot) o.ty o.shape) (hb : BoundedShape o.shape)
    (ht : t'.at o.slot = shapedAs (t.at o.slot) (some o)) : (derivedOperand o).interval t' = derivedRange t o := by
  have hspan (hty : (t'.at o.slot).dtype = o.ty.code) :
      (derivedOperand o).interval t' = (t'.at o.slot).span (o.ty.rowBytes (t'.at o.slot).w) := by
    rw [Operand.interval, rowBytes_of_dtype hty fun h => Bool.noConfusion h]
    rfl
  rw [derivedRange, outputRange]
  obtain ⟨-, ⟨hs, hwf, -⟩ | ⟨hs, -, -, hsize, -⟩⟩ := hr
  · rw [shapedAs_of_shaped hs] at ht
    rw [if_pos hs, ← ht]
    exact hspan (by rw [ht, dtype_of_wellFormed hwf])
  · rw [shapedAs_of_unshaped hs] at ht
    rw [if_neg (by simp [hs]), hspan (by rw [ht]; rfl), ht, Desc.span, dense_extent hb hsize]
    rfl

theorem positive_shaped {o : Derived} (hr : OutputReady m memSize (t.at o.slot) o.ty o.shape) (hb : BoundedShape o.shape)
    (ht : t'.at o.slot = shapedAs (t.at o.slot) (some o)) : Positive (t'.at o.slot) := by
  obtain ⟨-, ⟨hs, ⟨-, hw, -, hh, -, hc, -, hn, -⟩, -⟩ | ⟨hs, -, -, hsize, -⟩⟩ := hr
  · rw [ht, shapedAs_of_shaped hs]
    exact ⟨hw, hh, hc, hn⟩
  · rw [ht, shapedAs_of_unshaped hs]
    exact positive_dense hb hsize

/-- The range of a ready output holds its `BASE`. -/
theorem derivedRange_nonempty {o : Derived} (hr : OutputReady m memSize (t.at o.slot) o.ty o.shape)
    (hb : BoundedShape o.shape) : (derivedRange t o).lo < (derivedRange t o).hi := by
  let t1 := t.put o.slot (shapedAs (t.at o.slot) (some o))
  have ht : t1.at o.slot = shapedAs (t.at o.slot) (some o) := TdTable.at_put_same _ _ _
  rw [← interval_shaped hr hb ht]
  exact interval_nonempty (positive_shaped hr hb ht)

end

/-! ## `CheckOverlap` (R182) -/

theorem compatible_of_checkOverlap {before os : List Operand} {u : Unit} (h : checkOverlap t before os = .ok u) :
    (∀ o ∈ os, o.role = .output → ∀ p ∈ before, (o.interval t).meets (p.interval t) = false)
      ∧ os.Pairwise (Compatible t) := by
  induction os generalizing before with
  | nil => exact ⟨nofun, .nil⟩
  | cons o os ih =>
    obtain ⟨_, ho, hrest⟩ := except_bind_eq_ok.1 h
    have ho : o.role = .output → ∀ p ∈ before ++ os, (o.interval t).meets (p.interval t) = false := by
      intro hrole p hp
      have hp := List.all_eq_true.1 (require_eq_ok.1 ho hrole) p hp
      rwa [Bool.not_eq_true'] at hp
    obtain ⟨hbefore, hos⟩ := ih hrest
    refine ⟨fun q hq hrole p hp => ?_, List.pairwise_cons.2 ⟨fun q hq hrole => ?_, hos⟩⟩
    · rcases List.mem_cons.1 hq with rfl | hq
      · exact ho hrole p (List.mem_append_left _ hp)
      · exact hbefore q hq hrole p (List.mem_append_left _ hp)
    · rcases hrole with hrole | hrole
      · exact ho hrole q (List.mem_append_right _ hq)
      · rw [meets_comm]
        exact hbefore q hq hrole o (List.mem_append_right _ (List.mem_singleton_self o))

end

/-! ## The checks pass exactly on ready operands -/

section
variable {m : Mode} {memSize : Nat} {wpq : Bool} {t t' : TdTable} {k : Kernel}

theorem inputOk_of_checks (hok : k.checks m memSize wpq t = .ok t') : ∀ i ∈ kernelInputs k, InputOk memSize t i := by
  obtain ⟨-, hops, -⟩ := checks_eq_ok.1 hok
  intro i hi
  obtain ⟨hi, hrole⟩ := mem_kernelInputs.1 hi
  obtain ⟨hb, ⟨-, -, hout⟩ | ⟨hs, ho⟩⟩ := checkOperand_eq_ok.1 (hops i hi)
  · rw [hrole] at hout
    cases hout
  · exact ⟨hb, hs, ho⟩

/-- The first output that names a descriptor is ready, where the checks pass. -/
theorem outputReady_of_firstNaming (hok : k.checks m memSize wpq t = .ok t') {o : Derived}
    (ho : firstNaming (k.derived t) o.slot = some o) : OutputReady m memSize (t.at o.slot) o.ty o.shape := by
  have hb := derived_bounded (inputOk_of_checks hok) (firstNaming_eq_some ho).1
  obtain ⟨-, hops, -, hder, hauto, -⟩ := checks_eq_ok.1 hok
  have hmem := (firstNaming_eq_some ho).1
  obtain ⟨hbound, ⟨hs, hm, -⟩ | ⟨hs, hwf⟩⟩ := checkOperand_eq_ok.1 (hops _ (derivedOperand_mem hmem))
  · exact ⟨hbound, .inr ⟨hs, hm, (hasRoom_iff hb).1 (hasRoom_of_firstNaming hauto ho hs)⟩⟩
  · exact ⟨hbound, .inl ⟨hs, wellFormed_of_shapedOk hwf nofun, hder o hmem hs⟩⟩

/-- The descriptor of every derived output has bytes, once the checks have passed and it is shaped. -/
theorem positive_output_of_checks (hok : k.checks m memSize wpq t = .ok t') {o : Derived} (ho : o ∈ k.derived t) :
    Positive (t'.at o.slot) := by
  obtain ⟨-, -, -, -, hauto, -⟩ := checks_eq_ok.1 hok
  obtain ⟨p, hp⟩ := exists_firstNaming ho
  obtain ⟨hmem, hslot⟩ := firstNaming_eq_some hp
  rw [← hslot] at hp ⊢
  refine positive_shaped (outputReady_of_firstNaming hok hp) (derived_bounded (inputOk_of_checks hok) hmem) ?_
  rw [autoShapeAll_at hauto, hp]

/-- The checks leave the inputs as they were. -/
theorem input_at_of_checks (hok : k.checks m memSize wpq t = .ok t') {i : Operand} (hi : i ∈ kernelInputs k) :
    t'.at i.slot = t.at i.slot := by
  have hs := (inputOk_of_checks hok i hi).shaped
  obtain ⟨-, -, -, -, hauto, -⟩ := checks_eq_ok.1 hok
  rw [autoShapeAll_at hauto, shapedAs_of_shaped hs]

/-- Where the checks pass, two operands of which one is an output stand apart in the table they answer (R182). -/
theorem apart_of_checks (hok : k.checks m memSize wpq t = .ok t') :
    k.operands.Pairwise fun p q => p.role = .output ∨ q.role = .output → Apart (p.interval t') (q.interval t') := by
  have hpos (p : Operand) (hp : p ∈ k.operands) : (p.interval t').lo < (p.interval t').hi := by
    refine interval_nonempty ?_
    rcases operand_cases t hp with hi | ⟨o, ho, rfl⟩
    · rw [input_at_of_checks hok hi]
      exact positive_of_shapedOk (inputOk_of_checks hok p hi).ok
    · exact positive_output_of_checks hok ho
  obtain ⟨-, -, -, -, -, hover, -⟩ := checks_eq_ok.1 hok
  refine List.Pairwise.imp_of_mem (fun {p q} hp hq h hrole => ?_) (compatible_of_checkOverlap hover).2
  exact apart_of_not_meets (hpos p hp) (hpos q hq) (h hrole)

/-- Where the checks pass, every output names its own descriptor (R75, R182). -/
theorem slots_ne_of_checks (hok : k.checks m memSize wpq t = .ok t') :
    (k.derived t).Pairwise fun p q => p.slot ≠ q.slot := by
  have hap := apart_of_checks hok
  rw [operands_eq, ← derived_outputs k t] at hap
  obtain ⟨-, hout, -⟩ := List.pairwise_append.1 hap
  refine List.Pairwise.imp_of_mem (fun {p q} hp hq h heq => ?_) (List.pairwise_map.1 hout)
  refine not_apart_of_lo_eq (interval_nonempty (positive_output_of_checks hok hp))
    (interval_nonempty (positive_output_of_checks hok hq)) ?_ (h (.inl rfl))
  simp only [Operand.interval, Desc.span, derivedOperand, heq]

/-- The table the checks answer: each output shaped as derived (R181). -/
theorem output_at_of_checks (hok : k.checks m memSize wpq t = .ok t') {o : Derived} (ho : o ∈ k.derived t) :
    t'.at o.slot = shapedAs (t.at o.slot) (some o) := by
  have hfirst := firstNaming_slot (slots_ne_of_checks hok) ho
  obtain ⟨-, -, -, -, hauto, -⟩ := checks_eq_ok.1 hok
  rw [autoShapeAll_at hauto, hfirst]

theorem outputReady_of_checks (hok : k.checks m memSize wpq t = .ok t') {o : Derived} (ho : o ∈ k.derived t) :
    OutputReady m memSize (t.at o.slot) o.ty o.shape :=
  outputReady_of_firstNaming hok (firstNaming_slot (slots_ne_of_checks hok) ho)

/-- In the table the checks answer an output has its derived range (R27, R181). -/
theorem interval_of_checks (hok : k.checks m memSize wpq t = .ok t') {o : Derived} (ho : o ∈ k.derived t) :
    (derivedOperand o).interval t' = derivedRange t o :=
  interval_shaped (outputReady_of_checks hok ho) (derived_bounded (inputOk_of_checks hok) ho) (output_at_of_checks hok ho)

theorem kernelReady_of_checks (hok : k.checks m memSize wpq t = .ok t') : KernelReady m memSize t k := by
  have hap := apart_of_checks hok
  rw [operands_eq, ← derived_outputs k t] at hap
  obtain ⟨-, hout, hcross⟩ := List.pairwise_append.1 hap
  obtain ⟨hwin, -, hfit, -⟩ := checks_eq_ok.1 hok
  refine ⟨hwin, inputOk_of_checks hok, hfit, fun o ho => outputReady_of_checks hok ho, fun i hi o ho => ?_, ?_⟩
  · have h := hcross i hi _ (List.mem_map_of_mem ho) (.inr rfl)
    rw [interval_of_checks hok ho, Operand.interval, input_at_of_checks hok hi] at h
    exact apart_symm h
  · refine List.Pairwise.imp_of_mem (fun {p q} hp hq h => ?_) (List.pairwise_map.1 hout)
    rw [← interval_of_checks hok hp, ← interval_of_checks hok hq]
    exact h (.inl rfl)

/-- Ready outputs name different descriptors. -/
theorem slots_ne_of_ready (h : KernelReady m memSize t k) : (k.derived t).Pairwise fun p q => p.slot ≠ q.slot := by
  have hpos (o : Derived) (ho : o ∈ k.derived t) : (derivedRange t o).lo < (derivedRange t o).hi :=
    derivedRange_nonempty (h.outputs o ho) (derived_bounded h.inputs ho)
  refine List.Pairwise.imp_of_mem (fun {p q} hp hq hap heq => ?_) h.fromOutputs
  refine not_apart_of_lo_eq (hpos p hp) (hpos q hq) ?_ hap
  rw [derivedRange, derivedRange, outputRange_lo, outputRange_lo, heq]

theorem checkOperand_of_ready (h : KernelReady m memSize t k) {o : Operand} (ho : o ∈ k.operands) :
    checkOperand m memSize t o = .ok () := by
  rcases operand_cases t ho with hi | ⟨d, hd, rfl⟩
  · obtain ⟨hb, hs, hok⟩ := h.inputs o hi
    exact checkOperand_eq_ok.2 ⟨hb, .inr ⟨hs, hok⟩⟩
  · exact checkOperand_output (h.outputs d hd)

/-- On ready operands `AutoShape` passes. -/
theorem autoShapeAll_of_ready (h : KernelReady m memSize t k) : ∃ t', autoShapeAll memSize t (k.derived t) = .ok t' := by
  refine autoShapeAll_passes fun o ho hs => (hasRoom_iff (derived_bounded h.inputs ho)).2 ?_
  obtain ⟨-, ⟨hno, -⟩ | ⟨-, -, hroom⟩⟩ := h.outputs o ho
  · rw [hs] at hno
    cases hno
  · exact hroom

/-- On ready operands `CheckOverlap` passes. -/
theorem checkOverlap_of_ready (h : KernelReady m memSize t k) (hauto : autoShapeAll memSize t (k.derived t) = .ok t') :
    checkOverlap t' [] k.operands = .ok () := by
  have hin (i : Operand) (hi : i ∈ kernelInputs k) : i.interval t' = i.interval t := by
    rw [Operand.interval, autoShapeAll_at hauto, shapedAs_of_shaped (h.inputs i hi).shaped, ← Operand.interval]
  have hout (o : Derived) (ho : o ∈ k.derived t) : (derivedOperand o).interval t' = derivedRange t o :=
    interval_shaped (h.outputs o ho) (derived_bounded h.inputs ho)
      (by rw [autoShapeAll_at hauto, firstNaming_slot (slots_ne_of_ready h) ho])
  refine checkOverlap_of_compatible nofun ?_
  rw [operands_eq, ← derived_outputs k t]
  refine List.pairwise_append.2 ⟨List.pairwise_of_forall_mem_list fun i hi j hj hrole => ?_, List.pairwise_map.2 ?_, ?_⟩
  · rw [(mem_kernelInputs.1 hi).2, (mem_kernelInputs.1 hj).2] at hrole
    exact absurd hrole (by decide)
  · refine List.Pairwise.imp_of_mem (fun {p q} hp hq hap _ => ?_) h.fromOutputs
    rw [hout p hp, hout q hq]
    exact meets_of_apart hap
  · intro i hi p hp _
    obtain ⟨o, ho, rfl⟩ := List.mem_map.1 hp
    rw [hin i hi, hout o ho]
    exact meets_of_apart (apart_symm (h.fromInputs i hi o ho))

/-- The checks pass exactly on ready operands without a hazard. -/
theorem checks_ok_iff :
    (∃ t', k.checks m memSize wpq t = .ok t') ↔ KernelReady m memSize t k ∧ k.hazardCheck m wpq = .ok () := by
  constructor
  · rintro ⟨t', hok⟩
    obtain ⟨-, -, -, -, -, -, hhaz⟩ := checks_eq_ok.1 hok
    exact ⟨kernelReady_of_checks hok, hhaz⟩
  · rintro ⟨h, hhaz⟩
    obtain ⟨t', hauto⟩ := autoShapeAll_of_ready h
    exact ⟨t', checks_eq_ok.2 ⟨h.window, fun o ho => checkOperand_of_ready h ho, h.fit,
      fun o ho => shape_of_outputReady (h.outputs o ho), hauto, checkOverlap_of_ready h hauto, hhaz⟩⟩

end

end Sys2Proof.Proofs
end

