-- ==== Sys2Proof/Proofs/ReadyFamilies.lean ====
section
/-! SUPPORT. `Ready`, written family by family from the spec, is what the checks of each family ask: a command is ready exactly
when its checks pass. -/

namespace Sys2Proof.Proofs

open Sys2Proof.Machine Sys2Proof.Safety

/-! ## Inputs -/

section
variable {memSize : Nat} {t : TdTable} {slot : Slot} {ty : DType}

theorem inputOk_iff : InputOk memSize t ⟨slot, .input, ty, false⟩ ↔ InputReady memSize (t.at slot) ty := by
  constructor
  · rintro ⟨hb, hs, hok⟩
    exact ⟨hb, hs, wellFormed_of_shapedOk hok fun h => Bool.noConfusion h⟩
  · rintro ⟨hb, hs, hwf⟩
    exact ⟨hb, hs, shapedOk_of_wellFormed hwf (fun h => Bool.noConfusion h) rfl⟩

theorem inputOk_source_iff : InputOk memSize t ⟨slot, .input, .f32, true⟩ ↔ SourceReady memSize (t.at slot) := by
  constructor
  · rintro ⟨hb, hs, hok⟩
    exact ⟨hb, hs, wellFormed_of_shapedOk hok fun _ => rfl, hok.padding rfl⟩
  · rintro ⟨hb, hs, hwf, hpad⟩
    exact ⟨hb, hs, shapedOk_of_wellFormed hwf (fun _ => ⟨rfl, hpad⟩) rfl⟩

end

theorem kernelInputs_bsign (a b : Bool) (sa sb sc sd : Slot) :
    kernelInputs (.bsign a b sa sb sc sd) = [⟨sa, .input, .f32, true⟩] := by
  cases a <;> cases b <;> rfl

theorem kernelInputs_bnorm (sa sb : Slot) (win : Window) :
    kernelInputs (.bnorm sa sb win) = [⟨sa, .input, .f32, false⟩] := rfl

theorem kernelInputs_bconv (bias : Bool) (sa sb sc sd se sf : Slot) (sx sy : Byte) :
    kernelInputs (.bconv bias sa sb sc sd se sf sx sy) = bconvInputs bias sa sb sc sd se := by
  cases bias <;> rfl

theorem forall_mem_optional {α : Type} {a : Bool} {x : α} {p : α → Prop} :
    (∀ o ∈ (if a then [x] else []), p o) ↔ (a = true → p x) := by
  cases a <;> simp

theorem forall_mem_bconvInputs {bias : Bool} {sa sb sc sd se : Slot} {p : Operand → Prop} :
    (∀ o ∈ bconvInputs bias sa sb sc sd se, p o) ↔
      p ⟨sa, .input, .bit, false⟩ ∧ p ⟨sb, .input, .bit, false⟩ ∧ (bias = true → p ⟨sc, .input, .f32, false⟩)
        ∧ p ⟨sd, .input, .f32, false⟩ ∧ p ⟨se, .input, .f32, false⟩ := by
  cases bias <;> simp [bconvInputs]

/-- The derived outputs are those of R120, R140 and R155, as the statements list them. -/
theorem derived_eq (k : Kernel) (s : State) : k.derived s.td = derivedOutputs s k := by cases k <;> rfl

/-! ## The families -/

section
variable {m : Mode} {s : State}

theorem bsign_ready_iff {a b : Bool} {sa sb sc sd : Slot} :
    BsignReady m a b s sa sb sc sd ↔ KernelReady m s.params.memSize s.td (.bsign a b sa sb sc sd) := by
  constructor
  · rintro ⟨hsrc, hcount, hpk, hal, hbe, hpksrc, hala, hbea, halbe⟩
    constructor
    case window => rfl
    case fit => exact require_eq_ok.2 hcount
    case inputs =>
      rw [kernelInputs_bsign, List.forall_mem_singleton]
      exact inputOk_source_iff.2 hsrc
    case outputs =>
      simp only [derived_eq, derivedOutputs, List.forall_mem_append, List.forall_mem_singleton, forall_mem_optional]
      exact ⟨⟨hpk, hal⟩, hbe⟩
    case fromInputs =>
      rw [kernelInputs_bsign, List.forall_mem_singleton, interval_source hsrc]
      simp only [derived_eq, derivedOutputs, List.forall_mem_append, List.forall_mem_singleton, forall_mem_optional]
      exact ⟨⟨hpksrc, fun ha => (hala ha).1⟩, fun hb => (hbea hb).1⟩
    case fromOutputs =>
      simp only [derived_eq, derivedOutputs, List.pairwise_append, List.pairwise_singleton, pairwise_optional,
        List.forall_mem_append, List.forall_mem_singleton, forall_mem_optional, true_and]
      exact ⟨fun ha => apart_symm (hala ha).2, fun hb => apart_symm (hbea hb).2, fun ha hb => halbe ha hb⟩
  · rintro ⟨-, hin, hfit, hout, hfromIn, hfromOut⟩
    rw [kernelInputs_bsign, List.forall_mem_singleton] at hin hfromIn
    have hsrc := inputOk_source_iff.1 hin
    rw [interval_source hsrc] at hfromIn
    simp only [derived_eq, derivedOutputs, List.forall_mem_append, List.forall_mem_singleton, forall_mem_optional]
      at hout hfromIn
    simp only [derived_eq, derivedOutputs, List.pairwise_append, List.pairwise_singleton, pairwise_optional,
      List.forall_mem_append, List.forall_mem_singleton, forall_mem_optional, true_and] at hfromOut
    obtain ⟨⟨hpk, hal⟩, hbe⟩ := hout
    obtain ⟨⟨hpksrc, halsrc⟩, hbesrc⟩ := hfromIn
    obtain ⟨hpkal, hpkbe, halbe⟩ := hfromOut
    exact ⟨hsrc, require_eq_ok.1 hfit, hpk, hal, hbe, hpksrc, fun ha => ⟨halsrc ha, apart_symm (hpkal ha)⟩,
      fun hb => ⟨hbesrc hb, apart_symm (hpkbe hb)⟩, fun ha hb => halbe ha hb⟩

theorem bnorm_ready_iff {sa sb : Slot} {win : Window} :
    BnormReady m s sa sb win ↔ KernelReady m s.params.memSize s.td (.bnorm sa sb win) := by
  constructor
  · rintro ⟨hkw, hkh, hsx, hsy, hin, hdepth, hfitw, hfith, hout, hapart⟩
    constructor
    case window => exact require_eq_ok.2 ⟨hkw, hkh, hsx, hsy⟩
    case fit => exact except_bind_eq_ok.2 ⟨(), require_eq_ok.2 hdepth, require_eq_ok.2 ⟨hfitw, hfith⟩⟩
    case inputs =>
      rw [kernelInputs_bnorm, List.forall_mem_singleton]
      exact inputOk_iff.2 hin
    case outputs =>
      rw [derived_eq, derivedOutputs, List.forall_mem_singleton]
      exact hout
    case fromInputs =>
      rw [kernelInputs_bnorm, List.forall_mem_singleton, interval_input hin, derived_eq, derivedOutputs,
        List.forall_mem_singleton]
      exact hapart
    case fromOutputs => exact List.pairwise_singleton _ _
  · rintro ⟨hwin, hin, hfit, hout, hfromIn, -⟩
    rw [kernelInputs_bnorm, List.forall_mem_singleton] at hin hfromIn
    have hin := inputOk_iff.1 hin
    rw [interval_input hin, derived_eq, derivedOutputs, List.forall_mem_singleton] at hfromIn
    rw [derived_eq, derivedOutputs, List.forall_mem_singleton] at hout
    obtain ⟨hkw, hkh, hsx, hsy⟩ := require_eq_ok.1 hwin
    obtain ⟨_, hdepth, hfits⟩ := except_bind_eq_ok.1 hfit
    obtain ⟨hfitw, hfith⟩ := require_eq_ok.1 hfits
    exact ⟨hkw, hkh, hsx, hsy, hin, require_eq_ok.1 hdepth, hfitw, hfith, hout, hfromIn⟩

theorem bconv_ready_iff {bias : Bool} {sa sb sc sd se sf : Slot} {sx sy : Byte} :
    BconvReady m bias s sa sb sc sd se sf sx sy
      ↔ KernelReady m s.params.memSize s.td (.bconv bias sa sb sc sd se sf sx sy) := by
  constructor
  · rintro ⟨hsx, hsy, hact, hwts, hbias, hal, hk, hdepth, hfitw, hfith, hcount, hbsh, hash, hksh, hout, oact, owts, oal, ok,
      obias⟩
    constructor
    case window => exact require_eq_ok.2 ⟨hsx, hsy⟩
    case fit =>
      simp only [Kernel.fitCheck, except_bind_eq_ok, require_eq_ok, exists_const]
      exact ⟨hdepth, ⟨hfitw, hfith⟩, hcount, hbsh, hash, hksh⟩
    case inputs =>
      simp only [kernelInputs_bconv, forall_mem_bconvInputs, inputOk_iff]
      exact ⟨hact, hwts, hbias, hal, hk⟩
    case outputs =>
      rw [derived_eq, derivedOutputs, List.forall_mem_singleton]
      exact hout
    case fromInputs =>
      simp only [kernelInputs_bconv, forall_mem_bconvInputs, derived_eq, derivedOutputs, List.forall_mem_singleton]
      rw [interval_input hact, interval_input hwts, interval_input hal, interval_input hk]
      exact ⟨oact, owts, fun hb => interval_input (hbias hb) ▸ obias hb, oal, ok⟩
    case fromOutputs => exact List.pairwise_singleton _ _
  · rintro ⟨hwin, hin, hfit, hout, hfromIn, -⟩
    simp only [kernelInputs_bconv, forall_mem_bconvInputs, inputOk_iff] at hin
    obtain ⟨hact, hwts, hbias, hal, hk⟩ := hin
    simp only [kernelInputs_bconv, forall_mem_bconvInputs, derived_eq, derivedOutputs, List.forall_mem_singleton] at hfromIn
    rw [interval_input hact, interval_input hwts, interval_input hal, interval_input hk] at hfromIn
    obtain ⟨oact, owts, obias, oal, ok⟩ := hfromIn
    rw [derived_eq, derivedOutputs, List.forall_mem_singleton] at hout
    simp only [Kernel.fitCheck, except_bind_eq_ok, require_eq_ok, exists_const] at hfit
    obtain ⟨hdepth, ⟨hfitw, hfith⟩, hcount, hbsh, hash, hksh⟩ := hfit
    obtain ⟨hsx, hsy⟩ := require_eq_ok.1 hwin
    exact ⟨hsx, hsy, hact, hwts, hbias, hal, hk, hdepth, hfitw, hfith, hcount, hbsh, hash, hksh, hout, oact, owts, oal, ok,
      fun hb => interval_input (hbias hb) ▸ obias hb⟩

/-- A command is ready exactly when its operands are and it meets no hazard. -/
theorem ready_iff {i : Instr} {k : Kernel} (hk : kernelOf i = some (m, k)) :
    Ready s i ↔ KernelReady m s.params.memSize s.td k ∧ k.hazardCheck m s.wpq = .ok () := by
  rw [Ready, hk]
  cases k with
  | bsign a b sa sb sc sd => exact bsign_ready_iff.trans (and_iff_left rfl).symm
  | bnorm sa sb win => exact and_congr bnorm_ready_iff require_eq_ok.symm
  | bconv bias sa sb sc sd se sf sx sy => exact bconv_ready_iff.trans (and_iff_left rfl).symm

/-- A command is ready exactly when its checks pass. -/
theorem ready_iff_checks {i : Instr} {k : Kernel} (hk : kernelOf i = some (m, k)) :
    Ready s i ↔ ∃ t, k.checks m s.params.memSize s.wpq s.td = .ok t :=
  (ready_iff hk).trans checks_ok_iff.symm

end

end Sys2Proof.Proofs
end

