-- ==== Sys2Proof/Proofs/RaisedErrors.lean ====
section
/-! SUPPORT. Which errors the checks of a command can raise (R212, R214), and what a VAL-mode command whose checks fail leaves. -/

namespace Sys2Proof.Proofs

open Sys2Proof.Machine Sys2Proof.Safety

/-- Code and check of an error, as numbers (R211, R212). -/
def errPair (e : Err) : Nat × Nat := (e.check.code.number.toNat, e.check.number.toNat)

theorem errWord_errPair (e : Err) : e.word = errWord (errPair e).1 (errPair e).2 e.td.toNat := rfl

/-! ## The errors of each check -/

section
variable {m : Mode} {memSize : Nat} {t t' : TdTable} {k : Kernel} {e : Err}

theorem mem_raises_of_common {p : Nat × Nat} (h : p ∈ raises.common m) : p ∈ raises m k := by
  cases k <;> exact List.mem_append_left _ (List.mem_append_left _ h)

/-- The checks every command makes of its operands in every mode (R180 to R182). -/
theorem errPair_mem_common {c : Check} (td : Slot)
    (h : c ∈ [Check.unbound, .dtype, .extents, .strides, .baseAlign, .range, .overlap, .derivedShape]) :
    errPair ⟨c, td⟩ ∈ raises.common m := by
  refine List.mem_append_left _ ?_
  fin_cases h <;> exact of_decide_eq_true rfl

/-- An unshaped operand raises check 12 in EXEC mode, check 11 as an input in the others (R180). -/
theorem errPair_unshaped (td : Slot) :
    errPair ⟨if m = .exec then .unshapedExec else .unshapedInput, td⟩ ∈ raises.common m := by
  cases m <;> exact of_decide_eq_true rfl

/-- `CheckOperand` raises the errors common to all commands, and check 21 where the operand is fetched (R180, R121). -/
theorem errPair_of_checkOperand {o : Operand} (h : checkOperand m memSize t o = .error e) :
    errPair e ∈ raises.common m ∨ (o.fetch = true ∧ errPair e = (4, 21)) := by
  have unshaped := errPair_unshaped (m := m) o.slot
  unfold checkOperand at h
  dsimp only at h
  split at h
  case isTrue =>
    cases h
    exact .inl (errPair_mem_common _ (by simp))
  split at h
  case isTrue =>
    split at h
    case isTrue hm =>
      cases h
      exact .inl (by simpa only [if_pos hm] using unshaped)
    split at h <;> cases h
    case isFalse.isTrue hm _ => exact .inl (by simpa only [if_neg hm] using unshaped)
  simp only [except_bind_eq_error, require_eq_error, require_eq_ok, exists_const] at h
  rcases h with ⟨-, rfl⟩ | ⟨-, ⟨-, rfl⟩ | ⟨-, ⟨-, rfl⟩ | ⟨-, ⟨-, rfl⟩ | ⟨-, ⟨hpad, rfl⟩ | ⟨-, -, rfl⟩⟩⟩⟩⟩
  · exact .inl (errPair_mem_common _ (by simp))
  · exact .inl (errPair_mem_common _ (by simp))
  · exact .inl (errPair_mem_common _ (by simp))
  · exact .inl (errPair_mem_common _ (by simp))
  · exact .inr ⟨(Classical.not_imp.1 hpad).1, rfl⟩
  · exact .inl (errPair_mem_common _ (by simp))

theorem exists_of_checkOperands {os : List Operand} (h : checkOperands m memSize t os = .error e) :
    ∃ o ∈ os, checkOperand m memSize t o = .error e := by
  induction os with
  | nil => cases h
  | cons o os ih =>
    rcases except_bind_eq_error.1 h with h | ⟨_, -, h⟩
    · exact ⟨o, List.mem_cons_self, h⟩
    · obtain ⟨p, hp, h⟩ := ih h
      exact ⟨p, List.mem_cons_of_mem _ hp, h⟩

theorem errPair_of_checkDerived {ds : List Derived} (h : checkDerived t ds = .error e) : errPair e ∈ raises.common m := by
  induction ds with
  | nil => cases h
  | cons o ds ih =>
    rcases except_bind_eq_error.1 h with h | ⟨_, -, h⟩
    · obtain ⟨-, rfl⟩ := require_eq_error.1 h
      exact errPair_mem_common _ (by simp)
    · exact ih h

theorem errPair_of_autoShape {o : Derived} (h : autoShape memSize t o = .error e) : errPair e ∈ raises.common m := by
  cases hs : (t.at o.slot).shaped
  · rw [autoShape_of_unshaped hs] at h
    rcases except_bind_eq_error.1 h with h | ⟨_, -, h⟩
    · obtain ⟨-, rfl⟩ := require_eq_error.1 h
      exact errPair_mem_common _ (by simp)
    · rcases except_bind_eq_error.1 h with h | ⟨_, -, h⟩
      · obtain ⟨-, rfl⟩ := require_eq_error.1 h
        exact errPair_mem_common _ (by simp)
      · cases h
  · rw [autoShape_of_shaped hs] at h
    cases h

theorem errPair_of_autoShapeAll {ds : List Derived} (h : autoShapeAll memSize t ds = .error e) :
    errPair e ∈ raises.common m := by
  induction ds generalizing t with
  | nil => cases h
  | cons o ds ih =>
    rcases except_bind_eq_error.1 h with h | ⟨_, -, h⟩
    · exact errPair_of_autoShape h
    · exact ih h

theorem errPair_of_checkOverlap {before os : List Operand} (h : checkOverlap t before os = .error e) :
    errPair e ∈ raises.common m := by
  induction os generalizing before with
  | nil => cases h
  | cons o os ih =>
    rcases except_bind_eq_error.1 h with h | ⟨_, -, h⟩
    · obtain ⟨-, rfl⟩ := require_eq_error.1 h
      exact errPair_mem_common _ (by simp)
    · exact ih h

/-- Only the source of a `BSIGN` is fetched by groups (R67). -/
theorem bsign_of_fetch {o : Operand} (ho : o ∈ k.operands) (hf : o.fetch = true) :
    ∃ a b sa sb sc sd, k = .bsign a b sa sb sc sd := by
  cases k with
  | bsign a b sa sb sc sd => exact ⟨a, b, sa, sb, sc, sd, rfl⟩
  | bnorm sa sb win =>
    simp only [Kernel.operands, List.mem_cons, List.not_mem_nil, or_false] at ho
    rcases ho with rfl | rfl <;> cases hf
  | bconv bias sa sb sc sd se sf sx sy =>
    simp only [Kernel.operands, List.mem_append, List.mem_cons, List.not_mem_nil, or_false, mem_optional] at ho
    rcases ho with ((rfl | rfl) | ⟨-, rfl⟩) | rfl | rfl | rfl <;> cases hf

theorem errPair_of_operands (h : checkOperands m memSize t k.operands = .error e) : errPair e ∈ raises m k := by
  obtain ⟨o, ho, h⟩ := exists_of_checkOperands h
  rcases errPair_of_checkOperand h with hcommon | ⟨hf, hpair⟩
  · exact mem_raises_of_common hcommon
  · obtain ⟨a, b, sa, sb, sc, sd, rfl⟩ := bsign_of_fetch ho hf
    rw [hpair]
    exact List.mem_append_left _ (List.mem_append_right _ (List.mem_singleton_self _))

/-- Check 4 is made of windows and strides only (R141, R156). -/
theorem errPair_of_windowCheck (h : k.windowCheck = .error e) : errPair e ∈ raises m k := by
  cases k with
  | bsign => cases h
  | bnorm sa sb win =>
    obtain ⟨-, rfl⟩ := require_eq_error.1 h
    exact List.mem_append_left _ (List.mem_append_right _ (of_decide_eq_true rfl))
  | bconv bias sa sb sc sd se sf sx sy =>
    obtain ⟨-, rfl⟩ := require_eq_error.1 h
    exact List.mem_append_left _ (List.mem_append_right _ (of_decide_eq_true rfl))

/-- Check 20 of a `BSIGN` cannot fail once its source has passed `CheckOperand`: a tensor of 2^31 bytes holds fewer elements
(log 15). -/
theorem count_of_source {o : Operand} (hf : o.fetch = true) (hty : o.ty = .f32) (hmem : memSize ≤ 2 ^ 31) {d : Desc}
    (h : ShapedOk memSize o d) : d.w * d.h * d.c ≤ cntMax := by
  obtain ⟨hcode, hext, ⟨hs1, hs2, -⟩, -, -, hrange⟩ := h
  rw [rowBytes_of_dtype hcode fun _ => hty, if_pos hf, extent_of_extentsOk hext] at hrange
  rw [hty] at hs1
  obtain ⟨-, ⟨hh, -⟩, ⟨hc, -⟩, -⟩ := hext
  have hrow : 4 * d.w ≤ fetchRowBytes d.w := by unfold fetchRowBytes ceil8; omega
  have hplanes : (d.c - 1) * (d.h * (4 * d.w)) ≤ (d.c - 1) * d.s2 :=
    Nat.mul_le_mul_left _ ((Nat.mul_le_mul_left _ hs1).trans hs2)
  have hrows : (d.h - 1) * (4 * d.w) ≤ (d.h - 1) * d.s1 := Nat.mul_le_mul_left _ hs1
  have hall : 4 * (d.w * d.h * d.c) = (d.c - 1) * (d.h * (4 * d.w)) + (d.h - 1) * (4 * d.w) + 4 * d.w := by
    obtain ⟨c, hc⟩ := Nat.exists_eq_add_of_le' hc
    obtain ⟨h, hh⟩ := Nat.exists_eq_add_of_le' hh
    rw [hc, hh, Nat.add_sub_cancel, Nat.add_sub_cancel]
    ring
  unfold cntMax
  omega

/-- The checks that relate operands to each other raise the errors R214 lists for the family. -/
theorem errPair_of_fitCheck (hmem : memSize ≤ 2 ^ 31) (hops : ∀ o ∈ k.operands, checkOperand m memSize t o = .ok ())
    (h : k.fitCheck t = .error e) : errPair e ∈ raises m k := by
  cases k with
  | bsign a b sa sb sc sd =>
    obtain ⟨hcount, -⟩ := require_eq_error.1 h
    obtain ⟨-, ⟨-, -, hrole⟩ | ⟨-, hok⟩⟩ := checkOperand_eq_ok.1 (hops ⟨sa, .input, .f32, true⟩ (by simp [Kernel.operands]))
    · cases hrole
    · exact absurd (count_of_source rfl rfl hmem hok) hcount
  | bnorm sa sb win =>
    simp only [Kernel.fitCheck, except_bind_eq_error, require_eq_error, require_eq_ok, exists_const] at h
    refine List.mem_append_left _ (List.mem_append_right _ ?_)
    rcases h with ⟨-, rfl⟩ | ⟨-, -, rfl⟩ <;> exact of_decide_eq_true rfl
  | bconv bias sa sb sc sd se sf sx sy =>
    simp only [Kernel.fitCheck, except_bind_eq_error, require_eq_error, require_eq_ok, exists_const] at h
    rcases h with ⟨-, rfl⟩ | ⟨-, ⟨-, rfl⟩ | ⟨-, ⟨-, rfl⟩ | ⟨-, ⟨hbias, rfl⟩ | ⟨-, ⟨-, rfl⟩ | ⟨-, -, rfl⟩⟩⟩⟩⟩
    case inr.inr.inr.inl =>
      obtain ⟨rfl, -⟩ := Classical.not_imp.1 hbias
      exact List.mem_append_right _ (of_decide_eq_true rfl)
    all_goals exact List.mem_append_left _ (List.mem_append_right _ (of_decide_eq_true rfl))

theorem errPair_of_hazardCheck {wpq : Bool} (h : k.hazardCheck m wpq = .error e) : errPair e ∈ raises m k := by
  cases k with
  | bsign => cases h
  | bconv => cases h
  | bnorm sa sb win =>
    obtain ⟨hno, rfl⟩ := require_eq_error.1 h
    obtain ⟨rfl, -⟩ := Classical.not_imp.1 hno
    exact List.mem_append_right _ (of_decide_eq_true rfl)

/-- The checks of a command raise only errors R214 allows it in its mode. -/
theorem errPair_of_checks {wpq : Bool} (hmem : memSize ≤ 2 ^ 31) (h : k.checks m memSize wpq t = .error e) :
    errPair e ∈ raises m k := by
  simp only [Kernel.checks, except_bind_eq_error, checkOperands_eq_ok] at h
  rcases h with h | ⟨_, -, h | ⟨_, hops, h | ⟨_, -, h | ⟨_, -, h | ⟨_, -, h | ⟨_, -, h | ⟨_, -, h⟩⟩⟩⟩⟩⟩⟩
  · exact errPair_of_windowCheck h
  · exact errPair_of_operands h
  · exact errPair_of_fitCheck hmem hops h
  · exact mem_raises_of_common (errPair_of_checkDerived h)
  · exact mem_raises_of_common (errPair_of_autoShapeAll h)
  · exact mem_raises_of_common (errPair_of_checkOverlap h)
  · exact errPair_of_hazardCheck h
  · cases h

end

/-! ## An unready command (R176, R220) -/

/-- The checks of an unready command fail with an error R214 allows it. -/
theorem checks_error_of_not_ready {s : State} {i : Instr} {m : Mode} {k : Kernel} (hrange : s.params.InRange)
    (hk : kernelOf i = some (m, k)) (h : ¬Ready s i) :
    ∃ e, k.checks m s.params.memSize s.wpq s.td = .error e ∧ errPair e ∈ raises m k := by
  obtain ⟨-, -, hmem, -⟩ := hrange
  cases hc : k.checks m s.params.memSize s.wpq s.td with
  | ok t => exact absurd ((ready_iff_checks hk).2 ⟨t, hc⟩) h
  | error e => exact ⟨e, rfl, errPair_of_checks hmem hc⟩

/-- VECODE is the low byte of `VSTAT` (R39). -/
theorem vecode_eq_zero_iff (s : State) : s.vecode = 0 ↔ s.vstat.toNat % 256 = 0 := by
  rw [State.vecode, ← BitVec.toNat_inj, field_toNat]
  simp

/-- The report of a failing VAL-mode command, as R220 writes it. -/
theorem retire_recordVal (e : Err) (s : State) : retire (recordVal e s) = reported s e.word := by
  by_cases hv : s.vecode = 0
  · have hmod := (vecode_eq_zero_iff s).1 hv
    simp only [recordVal, if_pos hv, reported, if_pos hmod, retire]
  · have hmod := mt (vecode_eq_zero_iff s).2 hv
    simp only [recordVal, if_neg hv, reported, if_neg hmod, retire]

/-- Settles O19: the checks of an unready command fail, and `RunKernel` then reports and retires. -/
theorem unreadyValCommandReports : Obligations.UnreadyValCommandReports := by
  intro s i k hrange hk hno
  obtain ⟨e, he, hraises⟩ := checks_error_of_not_ready hrange hk hno
  refine ⟨errPair e, hraises, e.td, ?_⟩
  rw [exec_of_kernelOf hk, runKernel, he, ← errWord_errPair, ← retire_recordVal]

end Sys2Proof.Proofs
end

