-- ==== Sys2Proof/Proofs/TableAndMemory.lean ====
section
/-! SUPPORT. What a step can do to the descriptor table and to tensor memory: who writes a descriptor (R29), and that every byte
written lies in the address space (R21, R66). -/

namespace Sys2Proof.Proofs

open Sys2Proof.Machine Sys2Proof.Safety

/-! ## The descriptor table (R29) -/

/-- The window a register offset lies in (R32). -/
theorem tdIndex_bounds {off : Nat} (h : isTdWindow off = true) :
    0x100 + 0x40 * (tdIndex off).toNat ≤ off ∧ off < 0x140 + 0x40 * (tdIndex off).toNat := by
  simp only [isTdWindow, Bool.and_eq_true, decide_eq_true_eq] at h
  simp only [tdIndex, BitVec.toNat_ofNat]
  omega

/-- A descriptor the checks change was an unshaped output, which they shape, `BASE` and `BOUND` kept (R29, R181). -/
theorem changed_by_checks {m : Mode} {memSize : Nat} {wpq : Bool} {t t' : TdTable} {k : Kernel}
    (hok : k.checks m memSize wpq t = .ok t') {j : Slot} (hne : t'.at j ≠ t.at j) :
    (t.at j).shaped = false ∧ (t'.at j).shaped = true ∧ (t'.at j).base = (t.at j).base ∧ (t'.at j).bound = (t.at j).bound
      ∧ ∃ o ∈ k.operands, o.slot = j ∧ o.role = .output := by
  obtain ⟨-, -, -, -, hauto, -⟩ := checks_eq_ok.1 hok
  have hat := autoShapeAll_at hauto j
  have hs : (t.at j).shaped = false :=
    Bool.eq_false_iff.2 fun hs => hne (by rw [hat, shapedAs_of_shaped hs])
  cases hf : firstNaming (k.derived t) j with
  | none =>
    rw [hf] at hat
    exact absurd hat hne
  | some o =>
    obtain ⟨ho, hslot⟩ := firstNaming_eq_some hf
    rw [hf, shapedAs_of_unshaped hs] at hat
    rw [hat]
    exact ⟨hs, rfl, rfl, rfl, derivedOperand o, derivedOperand_mem ho, hslot, rfl⟩

/-- Settles O25: of the effects of a step only a write to a window, a CFG-mode command and a reset touch the table. -/
theorem descriptorChangesOnlyAsStated : Obligations.DescriptorChangesOnlyAsStated := by
  intro s t j h hne
  obtain ⟨rest, he⟩ := step_effect h
  cases he
  case hardReset hreset => exact .inl hreset
  case softReset hreset => exact .inl hreset
  case descWritten off v hact hwin herr hidle =>
    obtain ⟨hmover, rest, hscript⟩ := hact
    have hj : j = tdIndex off := Classical.byContradiction fun hj => hne (TdTable.at_put_other _ _ hj)
    obtain ⟨hlo, hhi⟩ := tdIndex_bounds hwin
    rw [← hj] at hlo hhi
    exact .inr (.inl ⟨hmover, herr, hidle, off, v, rest, hscript, hlo, hhi⟩)
  case shaped i k t' hrun hk hok =>
    obtain ⟨hmover, -, c, q, hq, hd⟩ := hrun
    obtain ⟨hs, hs', hbase, hbound, hout⟩ := changed_by_checks hok hne
    exact .inr (.inr ⟨hmover, rfl, hs, hs', hbase, hbound, c, q, i, k, hq, hd, hk, hout⟩)
  all_goals exact absurd (by simp [State.tdAt]) hne

/-! ## The computed cells lie in memory (R66, R70) -/

/-- The bytes of the rows of a ready output are in the address space (R26 (e), R66). -/
theorem lt_memSize_of_writesRows {memSize : Nat} {d : Desc} {ty : DType} {sh : Shape} {val : Nat → Nat → Nat → Nat → Byte}
    {part : List Host.Cell} (hr : OutputReady .exec memSize d ty sh) (hw : WritesRows d ty sh val part) {p : Host.Cell}
    (hp : p ∈ part) : p.1 < memSize := by
  have hin := withinRange_of_writesRows hr hw p hp
  rw [outputRange_exec hr, span_has] at hin
  obtain ⟨-, ⟨-, -, -, -, -, -, -, -, -, -, -, -, -, hrange⟩, -⟩ := outputReady_exec hr
  omega

/-- A ready command in EXEC mode computes bytes of the address space only. -/
theorem computeOf_lt_memSize {s : State} {k : Kernel} (h : KernelReady .exec s.params.memSize s.td k) {p : Host.Cell}
    (hp : p ∈ computeOf k s) : p.1 < s.params.memSize := by
  cases k with
  | bsign a b sa sb sc sd =>
    obtain ⟨-, -, hpk, hal, hbe, -⟩ := bsign_ready_iff.2 h
    rcases mem_computeBsign.1 hp with hp | ⟨ha, hp⟩ | ⟨hb, hp⟩
    · exact lt_memSize_of_writesRows hpk (packedCells_writesRows _ _ _) hp
    · exact lt_memSize_of_writesRows (hal ha) (alphaCells_writesRows _ _ _) hp
    · exact lt_memSize_of_writesRows (hbe hb) (betaCells_writesRows _ _ _) hp
  | bnorm sa sb win =>
    obtain ⟨-, -, -, -, -, -, -, -, hout, -⟩ := bnorm_ready_iff.2 h
    exact lt_memSize_of_writesRows hout (computeBnorm_writesRows _ _ _ _) hp
  | bconv bias sa sb sc sd se sf sx sy =>
    obtain ⟨-, -, -, -, -, -, -, -, -, -, -, -, -, -, hout, -⟩ := bconv_ready_iff.2 h
    exact lt_memSize_of_writesRows hout (computeBconv_writesRows _ _ _ _ _ _ _ _ _ _) hp

/-! ## The canonical form (log 2) -/

/-- Writes inside the address space keep the invariant of memory. -/
theorem memoryOk_of_setAll {s t : State} {cells : List Host.Cell} (h : MemoryOk s) (hm : t.mem = s.mem.setAll cells)
    (hp : t.params = s.params) (hcells : ∀ p ∈ cells, p.1 < s.params.memSize) : MemoryOk t := by
  obtain ⟨hwf, hlt⟩ := h
  rw [MemoryOk, hm, hp]
  refine ⟨Memory.setAll_wf hwf cells, fun p hmem => ?_⟩
  rcases Memory.mem_setAll hmem with hmem | hmem
  · exact hcells p hmem
  · exact hlt p hmem

/-- Bytes drawn are in the address space. -/
theorem forgotten_lt_memSize {is : List Interval} {draw memSize : Nat} {p : Host.Cell}
    (hp : p ∈ is.flatMap (freeCells draw memSize)) : p.1 < memSize := by
  obtain ⟨i, -, hp⟩ := List.mem_flatMap.1 hp
  exact (mem_freeCells hp).2.2

/-- Settles O27: every effect writes bytes of the address space only. -/
theorem stepKeepsMemoryInRange : Obligations.StepKeepsMemoryInRange := by
  intro s t h hok
  obtain ⟨rest, he⟩ := step_effect h
  cases he
  case memWritten cells draws hcells => exact memoryOk_of_setAll hok rfl rfl fun p hp => (hcells p hp).1
  case hardReset => exact ⟨.nil, nofun⟩
  case softReset => exact memoryOk_of_setAll hok rfl rfl fun p => forgotten_lt_memSize
  case hostErred => exact memoryOk_of_setAll hok (hostError_mem _ _ _) (by simp) fun p => forgotten_lt_memSize
  case executed k _ _ hchecks =>
    exact memoryOk_of_setAll hok (by simp) (by simp) fun p => computeOf_lt_memSize (kernelReady_of_checks hchecks)
  all_goals simpa [MemoryOk] using hok

end Sys2Proof.Proofs
end

