-- ==== Sys2Proof/Proofs/RegisterSpace.lean ====
section
/-! SUPPORT. The register space (R32 to R44) and the resets (R49, R241): what each offset reads and what a write to it does. -/

namespace Sys2Proof.Proofs

open Sys2Proof.Machine Sys2Proof.Safety

/-! ## Register accesses (R179) -/

section
variable {s : State} {off : Nat} {v : Word}

theorem hostAct_wr (h : regAccessOk off = true) : hostAct (.wr off v) s = .next (writeReg off v s) := if_pos h

theorem hostAct_rd (h : regAccessOk off = true) : hostAct (.rd off) s = .next { s with rdata := readReg s off } := if_pos h

theorem regAccessOk_iff : regAccessOk off = true ↔ off % 4 = 0 ∧ off < 0x1000 := by simp [regAccessOk]

theorem access_refused (h : off % 4 ≠ 0 ∨ 0x1000 ≤ off) :
    hostAct (.wr off v) s = .refused .registerAccess ∧ hostAct (.rd off) s = .refused .registerAccess := by
  have hno : ¬regAccessOk off = true := by
    rw [regAccessOk_iff]
    omega
  exact ⟨if_neg hno, if_neg hno⟩

/-- The offsets below and above the windows (R32). -/
theorem not_isTdWindow (h : off < 0x100 ∨ 0x500 ≤ off) : isTdWindow off = false := by
  simp only [isTdWindow, Bool.and_eq_false_iff, decide_eq_false_iff_not]
  omega

/-- A reserved offset outside the windows (R32, R44). -/
def Reserved (off : Nat) : Prop := (0x040 ≤ off ∧ off < 0x100) ∨ 0x500 ≤ off

theorem readReg_reserved (h : Reserved off) : readReg s off = 0 := by
  unfold Reserved at h
  simp only [readReg, not_isTdWindow (show off < 0x100 ∨ 0x500 ≤ off by omega), Bool.false_eq_true, if_false]
  repeat rw [if_neg (by omega)]

theorem writeReg_reserved (h : Reserved off) : writeReg off v s = s := by
  unfold Reserved at h
  simp only [writeReg, not_isTdWindow (show off < 0x100 ∨ 0x500 ≤ off by omega), Bool.false_eq_true, if_false]
  repeat rw [if_neg (by omega)]

end

theorem writeReg_ctrl (s : State) (v : Word) : writeReg 0x02C v s = if v.getLsbD 0 then softResetNow s else s := rfl

/-! ## Resets (R49, R183, R240, R241) -/

/-- STATUS of a block that is idle, its parameters in range, with no error and nothing pending (R36, R49). -/
theorem status_of_reset {s : State} (hq : s.issued = 0 ∧ s.retired = 0) (hf : s.err = false ∧ s.wpq = false ∧ s.wpn = false)
    (hdepth : 1 ≤ s.params.qDepth) : s.status = 0x00000001 := by
  obtain ⟨hi, hr⟩ := hq
  obtain ⟨he, hwq, hwn⟩ := hf
  have hqlen : s.qlen = 0 := by rw [State.qlen, hi, hr]; rfl
  have hfull : s.qfull = false := by
    rw [State.qfull, hqlen]
    exact beq_eq_false_iff_ne.2 (by omega)
  rw [State.status, State.idle, hqlen, hfull, he, hwq, hwn]
  rfl

/-- A soft reset changes memory only where a command not retired or not covered by a `SYNC` writes (R49). -/
theorem readByte_softResetNow {s : State} {a : Nat} (h1 : inAny s.unsynced a = false)
    (h2 : inAny (queuedOutputs s s.unretired) a = false) : (softResetNow s).readByte a = s.readByte a := by
  have hno : inAny (s.unsynced ++ queuedOutputs s s.unretired) a = false := by
    rw [inAny, List.any_append, ← inAny, ← inAny, h1, h2]
    rfl
  rw [← readByte_forget_of_not_inAny s _ a hno]
  exact readByte_congr rfl rfl a

/-- With nothing queued and no error, no command counts as not retired. -/
theorem unretired_eq_nil {s : State} (hqueue : QueueOk s) (herror : ErrorOk s) (hlen : s.qlen = 0) (herr : s.err = false) :
    s.unretired = [] := by
  obtain ⟨-, hlength, -⟩ := hqueue
  obtain ⟨-, -, -, hdiscarded⟩ := herror.1 herr
  rw [hlen] at hlength
  rw [State.unretired, hdiscarded, List.eq_nil_of_length_eq_zero hlength]
  rfl

/-- Settles O32: a write to `CTRL` with bit 0 set is the soft reset, whose fields are those of the reset state. -/
theorem softResetClearsBlock : Obligations.SoftResetClearsBlock := by
  intro s v hv hrange
  obtain ⟨-, -, -, hdepth, -⟩ := hrange
  have hact : hostAct (.wr 0x02C v) s = .next (softResetNow s) := by rw [hostAct_wr rfl, writeReg_ctrl, if_pos hv]
  have hstatus : readReg (softResetNow s) 0x00C = 0x00000001 := status_of_reset ⟨rfl, rfl⟩ ⟨rfl, rfl, rfl⟩ hdepth
  refine ⟨softResetNow s, hact, rfl, rfl, rfl, rfl, rfl, rfl, rfl, rfl, rfl, rfl, rfl, rfl, rfl, rfl, rfl, rfl, rfl, hstatus,
    rfl, rfl, rfl, fun a => readByte_softResetNow, fun hqueue hpending herror hlen herr hwpq hwpn a => ?_⟩
  apply readByte_softResetNow
  · rw [hpending hwpq hwpn]
    rfl
  · rw [unretired_eq_nil hqueue herror hlen herr]
    rfl

/-- Settles O33: the hardware reset is the reset state of the same parameters, but for the host's variables and the draws. -/
theorem hardResetClearsAll : Obligations.HardResetClearsAll := fun s => ⟨hardReset s, rfl, rfl⟩

/-- Every descriptor is null after reset (R49). -/
theorem reset_tdAt (j : Slot) : State.reset.tdAt j = Desc.null := by
  simp [State.tdAt, TdTable.at, State.reset, State.resetWith]

/-- A null descriptor reads 0 at every offset of its window (R49). -/
theorem null_readField (f : Nat) : Desc.null.readField f = 0 := by
  simp only [Desc.readField, Desc.null, Desc.cfgWord]
  repeat' split
  all_goals rfl

/-- Settles O31: the table of R49. -/
theorem resetStateReadsAsStated : Obligations.ResetStateReadsAsStated := by
  refine ⟨rfl, status_of_reset ⟨rfl, rfl⟩ ⟨rfl, rfl, rfl⟩ (by decide), rfl, rfl, fun off hoff => ?_, fun off hlo hhi => ?_,
    rfl, rfl, rfl, rfl⟩
  · fin_cases hoff <;> rfl
  · have hwin : isTdWindow off = true := by simp [isTdWindow, hlo, hhi]
    rw [readReg, if_pos hwin, reset_tdAt, null_readField]

/-- Settles O30: with everything empty or 0 each invariant holds at once. -/
theorem resetMeetsInvariants : Obligations.ResetMeetsInvariants :=
  ⟨⟨.nil, nofun⟩, ⟨by decide, rfl, Nat.zero_le _⟩, ⟨fun _ => ⟨rfl, rfl, rfl, rfl⟩, nofun⟩,
    ⟨fun _ => ⟨rfl, rfl⟩, fun h => absurd rfl h⟩, fun _ _ => rfl, ⟨iff_of_true rfl rfl, fun _ => rfl⟩⟩

/-! ## Registers that are read (R33 to R40) -/

/-- Settles O34: the bytes of `PARAM` and `MEMSZ` hold the parameters, which are in range. -/
theorem identityRegistersRead : Obligations.IdentityRegistersRead := by
  rintro s ⟨-, -, hmem, -, hdepth, -, hnw⟩
  refine ⟨rfl, ⟨s.param, rfl, ?_⟩, s.memsz, rfl, ?_⟩
  · simp only [State.param, BitVec.toNat_ofNat]
    omega
  · simp only [State.memsz, BitVec.toNat_ofNat]
    omega

/-- STATUS as a number, under the invariant of the queue (R36). -/
theorem status_toNat {s : State} (h : QueueOk s) :
    s.status.toNat = (if s.queue = [] then 1 else 0) + 2 * s.err.toNat + 4 * s.wpq.toNat + 8 * s.wpn.toNat
      + 16 * (if s.queue.length = s.params.qDepth then 1 else 0) + 256 * s.queue.length := by
  obtain ⟨⟨-, -, -, -, hdepth, -⟩, hlen, hle⟩ := h
  have hidle : s.idle.toNat = if s.queue = [] then 1 else 0 := by
    rw [State.idle, ← hlen]
    cases s.queue <;> simp
  have hfull : s.qfull.toNat = if s.queue.length = s.params.qDepth then 1 else 0 := by
    rw [State.qfull, hlen]
    split <;> simp [*]
  have := s.err.toNat_le; have := s.wpq.toNat_le; have := s.wpn.toNat_le; have := s.idle.toNat_le; have := s.qfull.toNat_le
  rw [← hidle, ← hfull, State.status, BitVec.toNat_ofNat, hlen]
  omega

/-- Settles O35: `STATUS` is computed, the other registers are fields. -/
theorem statusRegisterReads : Obligations.StatusRegisterReads :=
  fun s => ⟨fun h => ⟨s.status, rfl, status_toNat h⟩, rfl, rfl, rfl, rfl, rfl, rfl, rfl⟩

/-! ## The descriptor windows (R32, R43) -/

/-- The offset of field `f` in the window of descriptor `j` (R32). -/
abbrev windowOffset (j : Slot) (f : Nat) : Nat := 0x100 + 0x40 * j.toNat + f

section
variable {s : State} {j : Slot} {f : Nat}

theorem isTdWindow_windowOffset (hf : f < 0x40) : isTdWindow (windowOffset j f) = true := by
  have := j.isLt
  simp only [isTdWindow, windowOffset, Bool.and_eq_true, decide_eq_true_eq]
  omega

theorem tdIndex_windowOffset (hf : f < 0x40) : tdIndex (windowOffset j f) = j := by
  apply BitVec.eq_of_toNat_eq
  have := j.isLt
  simp only [tdIndex, windowOffset, BitVec.toNat_ofNat]
  omega

theorem tdField_windowOffset (hf : f < 0x40) : tdField (windowOffset j f) = f := by
  simp only [tdField, windowOffset]
  omega

/-- An offset of the windows is one of its descriptor's window. -/
theorem windowOffset_tdIndex {off : Nat} (h : isTdWindow off = true) : windowOffset (tdIndex off) (tdField off) = off := by
  simp only [isTdWindow, Bool.and_eq_true, decide_eq_true_eq] at h
  simp only [windowOffset, tdIndex, tdField, BitVec.toNat_ofNat]
  omega

theorem readReg_window (hf : f < 0x40) : readReg s (windowOffset j f) = (s.tdAt j).readField f := by
  rw [readReg, if_pos (isTdWindow_windowOffset hf), tdIndex_windowOffset hf, tdField_windowOffset hf]

theorem writeReg_window (hf : f < 0x40) (v : Word) : writeReg (windowOffset j f) v s = writeTd (windowOffset j f) v s :=
  if_pos (isTdWindow_windowOffset hf)

/-- A reserved offset of a window reads 0 and ignores writes (R44). -/
theorem readField_reserved {d : Desc} (hf : 0x20 < f) : d.readField f = 0 := by
  unfold Desc.readField
  repeat rw [if_neg (by omega)]

theorem writeField_reserved {d : Desc} {v : Word} (hf : 0x20 < f) : d.writeField f v = d := by
  unfold Desc.writeField
  repeat rw [if_neg (by omega)]

/-- A write to one field of a descriptor leaves what the others read. -/
theorem readField_writeField_other (d : Desc) {f g : Nat} (v : Word) (h : g ≠ f) :
    (d.writeField f v).readField g = d.readField g := by
  unfold Desc.writeField
  repeat' split
  case isFalse => rfl
  all_goals
    subst_vars
    simp only [Desc.readField, Desc.cfgWord, if_neg h]

/-- The bits of `CFG` that are kept are those under the mask 0xF3 (R43). -/
theorem cfgBits_of_byte : ∀ b : Byte,
    BitVec.ofNat 32 ((b.getLsbD 0).toNat + (b.getLsbD 1).toNat * 2 + (b.extractLsb' 4 4).toNat * 16)
      = b.setWidth 32 &&& 0x000000F3 := by decide +kernel

/-- `CFG` reads back the bits it has (R43). -/
theorem cfgWord_write (d : Desc) (v : Word) :
    Desc.cfgWord { d with bound := v.getLsbD 0, shaped := v.getLsbD 1, dtype := v.extractLsb' 4 4 } = v &&& 0x000000F3 := by
  have h0 : (v.setWidth 8).getLsbD 0 = v.getLsbD 0 := by simp
  have h1 : (v.setWidth 8).getLsbD 1 = v.getLsbD 1 := by simp
  have h4 : (v.setWidth 8).extractLsb' 4 4 = v.extractLsb' 4 4 := by
    apply BitVec.eq_of_toNat_eq
    simp only [field_toNat, BitVec.extractLsb'_toNat, BitVec.toNat_setWidth, Nat.shiftRight_eq_div_pow]
    omega
  have hmask : (v.setWidth 8).setWidth 32 &&& (0x000000F3 : Word) = v &&& 0x000000F3 := by
    rw [show (v.setWidth 8).setWidth 32 = v &&& 0x000000FF from ?_, BitVec.and_assoc]
    · rfl
    · apply BitVec.eq_of_toNat_eq
      have := v.isLt
      rw [BitVec.toNat_and, show (0x000000FF : Word).toNat = 2 ^ 8 - 1 from rfl, Nat.and_two_pow_sub_one_eq_mod]
      simp only [BitVec.toNat_setWidth]
      omega
  have hbyte := cfgBits_of_byte (v.setWidth 8)
  rwa [h0, h1, h4, hmask] at hbyte

/-- A field reads back what was written to it (R43, R44). -/
theorem readField_writeField_same (d : Desc) (v : Word) (halign : f % 4 = 0) :
    (d.writeField f v).readField f = if f = 0x04 then v &&& 0x000000F3 else if f ≤ 0x20 then v else 0 := by
  by_cases hf : 0x20 < f
  · rw [writeField_reserved hf, readField_reserved hf, if_neg (by omega), if_neg (by omega)]
  · have hcases : f = 0x00 ∨ f = 0x04 ∨ f = 0x08 ∨ f = 0x0C ∨ f = 0x10 ∨ f = 0x14 ∨ f = 0x18 ∨ f = 0x1C ∨ f = 0x20 := by
      omega
    rcases hcases with rfl | rfl | rfl | rfl | rfl | rfl | rfl | rfl | rfl
    case inr.inl => exact cfgWord_write d v
    all_goals rfl

end

/-- Settles O38: no such offset is one that a write acts on or a read finds. -/
theorem otherOffsetsBehave : Obligations.OtherOffsetsBehave := by
  intro s off v
  refine ⟨fun hoff => ?_, fun halign hoff => ?_, fun hv => ?_, rfl, rfl, fun j f hf => ?_, access_refused, fun _ => rfl⟩
  · fin_cases hoff <;> rfl
  · have hres : Reserved off := by unfold Reserved; omega
    have hok : regAccessOk off = true := regAccessOk_iff.2 ⟨halign, by omega⟩
    rw [hostAct_wr hok, hostAct_rd hok, writeReg_reserved hres, readReg_reserved hres]
    exact ⟨rfl, rfl⟩
  · rw [hostAct_wr rfl, writeReg_ctrl, hv]
    rfl
  · fin_cases hf <;> exact (readReg_window (by decide)).trans (readField_reserved (by decide))

/-! ## Errors of host accesses (R38, R213, R217) -/

/-- The error of a host access, in the words of R217: the record, the emptied queue, and the head's outputs abandoned. -/
theorem abandoned_hostError {s : State} (e : Err) (w0 w3 : Word) (herr : s.err = false) :
    Abandoned s (hostError e w0 { s with cmdw3 := w3 }) e.word w0 := by
  constructor
  case mem =>
    intro a ha
    have hforget := readByte_forget_of_not_inAny { s with cmdw3 := w3 } _ a ha
    exact (readByte_congr (hostError_mem _ _ _) (by simp) a).trans hforget
  all_goals simp [herr]

/-! ## The staging registers (R42) -/

section
variable {s : State}

theorem pushStaged_of_room (herr : s.err = false) (hroom : s.qlen ≠ s.params.qDepth) :
    pushStaged s = { s with queue := s.queue ++ [s.staged], issued := s.issued + 1 } := by
  have hno : s.qfull = false := beq_eq_false_iff_ne.2 hroom
  simp [pushStaged, herr, hno]

theorem pushStaged_of_full (herr : s.err = false) (hfull : s.qlen = s.params.qDepth) :
    pushStaged s = hostError ⟨.queueFull, 15⟩ s.cmdw0 s := by
  have hyes : s.qfull = true := beq_iff_eq.2 hfull
  simp [pushStaged, herr, hyes]

end

/-- Settles O36: the three cases of a push exclude each other. -/
theorem stagingRegistersPush : Obligations.StagingRegistersPush := by
  intro s v
  have hact : hostAct (.wr 0x03C v) s = .next (pushStaged { s with cmdw3 := v }) := rfl
  rw [hact]
  refine ⟨rfl, rfl, rfl, fun herr => congrArg _ (if_pos herr),
    fun herr hroom => congrArg _ (pushStaged_of_room herr hroom), fun herr hfull => ⟨_, rfl, ?_⟩, rfl, rfl, rfl, rfl⟩
  rw [pushStaged_of_full (s := { s with cmdw3 := v }) herr hfull]
  exact ⟨abandoned_hostError ⟨.queueFull, 15⟩ _ v herr, by simp⟩

/-! ## Writes into the descriptor windows (R43) -/

section
variable {s : State} {j : Slot} {f : Nat} {v : Word}

theorem writeTd_of_idle (herr : s.err = false) (hidle : s.qlen = 0) (hf : f < 0x40) :
    writeTd (windowOffset j f) v s = { s with td := TdTable.put s.td j ((s.tdAt j).writeField f v) } := by
  have hyes : s.idle = true := beq_iff_eq.2 hidle
  simp [writeTd, herr, hyes, tdIndex_windowOffset hf, tdField_windowOffset hf]

theorem writeTd_of_busy (herr : s.err = false) (hbusy : s.qlen ≠ 0) (hf : f < 0x40) :
    writeTd (windowOffset j f) v s = hostError ⟨.busyWrite, j⟩ 0 s := by
  have hno : s.idle = false := beq_eq_false_iff_ne.2 hbusy
  simp [writeTd, herr, hno, tdIndex_windowOffset hf]

/-- A write to one field of a descriptor changes what no other offset reads (R32, R43). -/
theorem readReg_put_other {off : Nat} (hoff : off ≠ windowOffset j f) :
    readReg { s with td := TdTable.put s.td j ((s.tdAt j).writeField f v) } off = readReg s off := by
  cases hwin : isTdWindow off
  · simp only [readReg, hwin, Bool.false_eq_true, if_false]
    rfl
  · rw [readReg, readReg, if_pos hwin, if_pos hwin]
    by_cases hj : tdIndex off = j
    · have hfield : tdField off ≠ f := by
        rintro rfl
        rw [← hj, windowOffset_tdIndex hwin] at hoff
        exact hoff rfl
      rw [hj, State.tdAt, TdTable.at_put_same, readField_writeField_other _ _ hfield]
    · rw [State.tdAt, TdTable.at_put_other _ _ hj, ← State.tdAt]

/-- Putting back the descriptor that is there changes nothing. -/
theorem put_td_eq {d : Desc} (h : d = s.tdAt j) : { s with td := TdTable.put s.td j d } = s := by
  have htd : TdTable.put s.td j d = s.td := by
    rw [h]
    exact Vector.set_getElem_self _
  rw [htd]

end

/-- Settles O37: the write acts on the one field at the offset, or raises the error, or is dropped. -/
theorem descriptorWindowWrites : Obligations.DescriptorWindowWrites := by
  intro s j f v halign hf
  have hoff : regAccessOk (windowOffset j f) = true := by
    have := j.isLt
    rw [regAccessOk_iff, windowOffset]
    omega
  rw [hostAct_wr hoff, hostAct_rd hoff, writeReg_window hf]
  refine ⟨fun herr hidle => ?_, fun herr hbusy => ?_, fun herr => congrArg _ (if_pos herr), rfl⟩
  · rw [writeTd_of_idle herr hidle hf]
    refine ⟨_, rfl, rfl, ?_⟩
    have hat : State.tdAt { s with td := TdTable.put s.td j ((s.tdAt j).writeField f v) } j = (s.tdAt j).writeField f v :=
      TdTable.at_put_same _ _ _
    rw [hat, readReg_window hf, hat, readField_writeField_same _ _ halign]
    refine ⟨?_, ?_, ?_, ?_, ?_, ?_, ?_, ?_, ?_, fun hres => put_td_eq (writeField_reserved hres), rfl,
      fun off => readReg_put_other⟩
    all_goals
      rintro rfl
      rfl
  · rw [writeTd_of_busy herr hbusy hf]
    exact ⟨_, rfl, abandoned_hostError ⟨.busyWrite, j⟩ 0 s.cmdw3 herr, by simp⟩

end Sys2Proof.Proofs
end

