-- ==== Sys2Proof/Proofs/HostAccess.lean ====
section
/-! SUPPORT. The host's accesses to tensor memory (R77 to R79, R201, R245, R247): what a write stores, and what must not be
touched. -/

namespace Sys2Proof.Proofs

open Sys2Proof.Machine Sys2Proof.Safety

/-! ## Addresses and intervals -/

theorem inAny_of_mem {is : List Interval} {i : Interval} {a : Nat} (h : i ∈ is) (ha : i.has a = true) : inAny is a = true :=
  List.any_eq_true.2 ⟨i, h, ha⟩

theorem inAny_append (is js : List Interval) (a : Nat) : inAny (is ++ js) a = (inAny is a || inAny js a) :=
  List.any_append

/-- An access to one byte touches what the byte lies in. -/
theorem touchesAny_one (is : List Interval) (a : Nat) : touchesAny is a 1 = inAny is a := by
  rw [Bool.eq_iff_iff, touchesAny_iff]
  constructor
  · rintro ⟨x, hlo, hhi, hx⟩
    obtain rfl : x = a := by omega
    exact hx
  · exact fun h => ⟨a, Nat.le_refl a, Nat.lt_succ_self a, h⟩

theorem endedWell_iff (s : State) : s.endedWell = true ↔ EndedWell s := by
  simp only [State.endedWell, State.idle, EndedWell, Bool.and_eq_true, beq_iff_eq, Bool.not_eq_true', and_assoc]

/-! ## Writes that are performed (R77) -/

/-- The cells of a host write: its bytes at consecutive addresses. -/
theorem mem_hostCells {a : Nat} {bs : List Byte} {p : Host.Cell} :
    p ∈ bs.mapIdx (fun k b => (a + k, b)) ↔ ∃ k, ∃ h : k < bs.length, p = (a + k, bs[k]) := by
  rw [List.mem_mapIdx]
  exact ⟨fun ⟨k, h, e⟩ => ⟨k, h, e.symm⟩, fun ⟨k, h, e⟩ => ⟨k, h, e.symm⟩⟩

theorem hostAct_memWrite {s : State} {a : Nat} {bs : List Byte} (hsize : a + bs.length ≤ s.params.memSize)
    (hnone : s.writeRefusal a bs.length = none) :
    hostAct (.memWrite a bs) s = .next (s.writeCells (bs.mapIdx fun k b => (a + k, b))) := by
  simp [hostAct, hostMemWrite, Nat.not_lt.2 hsize, hnone]

theorem readByte_written (s : State) (a : Nat) (bs : List Byte) {k : Nat} (hk : k < bs.length) :
    bs[k]? = some ((s.writeCells (bs.mapIdx fun k b => (a + k, b))).readByte (a + k)) := by
  rw [readByte_writeCells_of_mem s _ (a + k) bs[k] (mem_hostCells.2 ⟨k, hk, rfl⟩), List.getElem?_eq_getElem hk]
  intro p hp heq
  obtain ⟨l, hl, rfl⟩ := mem_hostCells.1 hp
  obtain rfl : l = k := Nat.add_left_cancel heq
  rfl

theorem readByte_outside (s : State) (a : Nat) (bs : List Byte) {adr : Nat} (h : adr < a ∨ a + bs.length ≤ adr) :
    (s.writeCells (bs.mapIdx fun k b => (a + k, b))).readByte adr = s.readByte adr := by
  refine readByte_writeCells_of_not_mem s _ adr fun p hp heq => ?_
  obtain ⟨k, hk, rfl⟩ := mem_hostCells.1 hp
  dsimp only at heq
  omega

/-- When the run has ended well no tensor is in use (R245). -/
theorem inUse_eq_nil {s : State} (hqueue : QueueOk s) (hpending : PendingOk s) (herror : ErrorOk s) (h : EndedWell s) :
    s.inUse = [] := by
  obtain ⟨hlen, herr, hwpq, hwpn⟩ := h
  rw [State.inUse, hpending hwpq hwpn, unretired_eq_nil hqueue herror hlen herr]
  rfl

/-- Settles O40: nothing refuses the write, and its cells are its bytes at consecutive addresses. -/
theorem hostWriteStoresBytes : Obligations.HostWriteStoresBytes := by
  intro s a bs hsize hothers hcase
  have hnone : s.writeRefusal a bs.length = none := by
    rw [writeRefusal_eq_none]
    rcases hcase with ⟨hqueue, hpending, herror, hended⟩ | ⟨hpin, huse⟩
    · refine ⟨fun _ => (endedWell_iff s).2 hended, hothers, ?_⟩
      rw [inUse_eq_nil hqueue hpending herror hended]
      rfl
    · exact ⟨fun h => absurd (hpin.symm.trans h) (by decide), hothers, huse⟩
  exact ⟨_, hostAct_memWrite hsize hnone, rfl, fun k hk => readByte_written s a bs hk, fun adr => readByte_outside s a bs⟩

/-! ## Writes that are refused (R79, R201, R247) -/

section
variable {s : State} {a : Nat} {b : Byte}

theorem hostAct_memWrite_refused {r : Refusal} (ha : a < s.params.memSize) (hr : s.writeRefusal a 1 = some r) :
    hostAct (.memWrite a [b]) s = .refused r := by
  have hsize : ¬s.params.memSize < a + 1 := by omega
  simp [hostAct, hostMemWrite, hsize, hr]

/-- Outside a layer's intermediates a write to a byte in use is refused (R79 (a) and (b)). -/
theorem refused_of_inUse (ha : a < s.params.memSize) (hlayer : inAny s.intermediates a = false)
    (huse : inAny s.inUse a = true) : hostAct (.memWrite a [b]) s = .refused .tensorInUse := by
  rw [State.intermediates, inAny_append, Bool.or_eq_false_iff] at hlayer
  obtain ⟨hpin, hothers⟩ := hlayer
  refine hostAct_memWrite_refused ha ?_
  simp [State.writeRefusal, State.padRefusal, touchesAny_one, hpin, hothers, huse]

theorem inUse_of_unsynced (h : inAny s.unsynced a = true) : inAny s.inUse a = true := by
  rw [State.inUse, inAny_append, h, Bool.true_or]

/-- An operand's interval in the table its queued command will meet is in use (R79 (a)). -/
theorem inUse_of_queued {m : Mode} {k : Kernel} {t : TdTable} {o : Operand}
    (hq : (m, k, t) ∈ queuedKernels s.params.memSize s.td s.unretired) (ho : o ∈ k.operands)
    (hb : (t.at o.slot).bound = true) (hs : (t.at o.slot).shaped = true) (ha : (o.interval t).has a = true) :
    inAny s.inUse a = true := by
  refine inAny_of_mem (List.mem_append_right _ (List.mem_flatMap.2 ⟨_, hq, ?_⟩)) ha
  exact List.mem_map_of_mem (List.mem_filter.2 ⟨ho, by rw [hb, hs]; rfl⟩)

end

/-! ## The commands in the queue (R176, R248) -/

/-- The table a queued command's operands are taken from: as its checks shape them, or, where they fail, as it is. -/
def metTable (k : Kernel) (m : Mode) (memSize : Nat) (t : TdTable) : TdTable :=
  (k.checks m memSize false t).toOption.getD t

theorem metTable_of_ok {k : Kernel} {m : Mode} {memSize : Nat} {t t' : TdTable}
    (h : k.checks m memSize false t = .ok t') : metTable k m memSize t = t' := by
  rw [metTable, h]
  rfl

/-- A shaped descriptor is met as it is. -/
theorem metTable_at {k : Kernel} {m : Mode} {memSize : Nat} {t : TdTable} {j : Slot} (hs : (t.at j).shaped = true) :
    (metTable k m memSize t).at j = t.at j := by
  cases hc : k.checks m memSize false t with
  | error e =>
    rw [metTable, hc]
    rfl
  | ok t' =>
    obtain ⟨-, -, -, -, hauto, -⟩ := checks_eq_ok.1 hc
    rw [metTable_of_ok hc, autoShapeAll_at hauto, shapedAs_of_shaped hs]

/-- The kernel command a command of the queue decodes to, if it is one. -/
def commandKernel (c : Command) : Option (Mode × Kernel) := (decode c).toOption.bind kernelOf

theorem commandKernel_eq {c : Command} {i : Instr} {p : Mode × Kernel} (hd : decode c = .ok i) (hk : kernelOf i = some p) :
    commandKernel c = some p := by
  rw [commandKernel, hd]
  exact hk

theorem queuedKernels_cons_none {memSize : Nat} {t : TdTable} {c : Command} (q : List Command) (h : commandKernel c = none) :
    queuedKernels memSize t (c :: q) = queuedKernels memSize t q := by
  rw [commandKernel] at h
  simp only [queuedKernels, h]

theorem queuedKernels_cons_some {memSize : Nat} {t : TdTable} {c : Command} {m : Mode} {k : Kernel} (q : List Command)
    (h : commandKernel c = some (m, k)) :
    queuedKernels memSize t (c :: q) = (m, k, metTable k m memSize t)
      :: queuedKernels memSize (if m = .cfg then metTable k m memSize t else t) q := by
  rw [commandKernel] at h
  simp only [queuedKernels, h]
  rfl

/-- Every kernel command of a queue is listed, with a table that keeps the descriptors that are shaped. -/
theorem mem_queuedKernels {memSize : Nat} {t : TdTable} {q : List Command} {c : Command} {m : Mode} {k : Kernel}
    (hc : c ∈ q) (hk : commandKernel c = some (m, k)) :
    ∃ t', (m, k, t') ∈ queuedKernels memSize t q ∧ ∀ j, (t.at j).shaped = true → t'.at j = t.at j := by
  induction q generalizing t with
  | nil => cases hc
  | cons c' q ih =>
    rcases List.mem_cons.1 hc with rfl | hc
    · rw [queuedKernels_cons_some q hk]
      exact ⟨_, List.mem_cons_self, fun j hs => metTable_at hs⟩
    cases hk' : commandKernel c' with
    | none =>
      rw [queuedKernels_cons_none q hk']
      exact ih hc
    | some p =>
      obtain ⟨m', k'⟩ := p
      rw [queuedKernels_cons_some q hk']
      have hnext (j : Slot) (hs : (t.at j).shaped = true) :
          (if m' = .cfg then metTable k' m' memSize t else t).at j = t.at j := by
        split
        · exact metTable_at hs
        · rfl
      obtain ⟨t', hmem, hkeep⟩ := ih (t := if m' = .cfg then metTable k' m' memSize t else t) hc
      refine ⟨t', List.mem_cons_of_mem _ hmem, fun j hs => ?_⟩
      rw [hkeep j (by rw [hnext j hs]; exact hs), hnext j hs]

theorem bound_shapedAs (d : Desc) (o : Option Derived) : (shapedAs d o).bound = d.bound := by
  cases o with
  | none => rfl
  | some o =>
    cases hs : d.shaped
    · rw [shapedAs_of_unshaped hs]
      rfl
    · rw [shapedAs_of_shaped hs]

theorem hazardCheck_of_not_pending (k : Kernel) (m : Mode) : k.hazardCheck m false = .ok () := by
  cases k with
  | bsign => rfl
  | bnorm => exact require_eq_ok.2 fun _ => rfl
  | bconv => rfl

/-! ## The cases of R79 -/

section
variable {s : State} {a : Nat} {b : Byte} {i : Instr} {m : Mode} {k : Kernel}

/-- A shaped operand of any command not retired may not be written (R79 (a)). -/
theorem refused_of_operand {c : Command} {o : Operand} (ha : a < s.params.memSize)
    (hlayer : inAny s.intermediates a = false) (hc : c ∈ s.unretired) (hd : decode c = .ok i)
    (hk : kernelOf i = some (m, k)) (ho : o ∈ k.operands) (hb : (s.tdAt o.slot).bound = true)
    (hs : (s.tdAt o.slot).shaped = true) (hin : (o.interval s.td).has a = true) :
    hostAct (.memWrite a [b]) s = .refused .tensorInUse := by
  obtain ⟨t, hmem, hkeep⟩ := mem_queuedKernels (memSize := s.params.memSize) (t := s.td) hc (commandKernel_eq hd hk)
  have hat : t.at o.slot = s.tdAt o.slot := hkeep o.slot hs
  have hint : o.interval t = o.interval s.td := by rw [Operand.interval, hat]; rfl
  exact refused_of_inUse ha hlayer
    (inUse_of_queued hmem ho (by rw [hat]; exact hb) (by rw [hat]; exact hs) (by rw [hint]; exact hin))

/-- An output of a ready command at the head may not be written, be it shaped or still to be shaped (R79 (a), log 36). -/
theorem refused_of_output {c : Command} {q : List Command} {d : Derived} (ha : a < s.params.memSize)
    (hlayer : inAny s.intermediates a = false) (hq : s.unretired = c :: q) (hdec : decode c = .ok i)
    (hk : kernelOf i = some (m, k)) (hready : Ready s i) (hd : d ∈ derivedOutputs s k)
    (hin : (outputRange (s.tdAt d.slot) d.ty d.shape).has a = true) :
    hostAct (.memWrite a [b]) s = .refused .tensorInUse := by
  rw [← derived_eq] at hd
  obtain ⟨t, hok⟩ := checks_ok_iff.2 ⟨((ready_iff hk).1 hready).1, hazardCheck_of_not_pending k m⟩
  have hat := output_at_of_checks hok hd
  have hbound : (t.at d.slot).bound = true := by
    rw [hat, bound_shapedAs]
    exact (outputReady_of_checks hok hd).1
  have hshaped : (t.at d.slot).shaped = true := by rw [hat, shaped_shapedAs]
  refine refused_of_inUse ha hlayer (inUse_of_queued (k := k) (t := t) (o := derivedOperand d) (m := m) ?_
    (derivedOperand_mem hd) hbound hshaped ?_)
  · rw [hq, queuedKernels_cons_some q (commandKernel_eq hdec hk), metTable_of_ok hok]
    exact List.mem_cons_self
  · rw [interval_of_checks hok hd]
    exact hin

/-- An EXEC-mode command that completes records its outputs as not covered by a `SYNC` (R79 (b)). -/
theorem output_unsynced {o : Operand} (hk : kernelOf i = some (.exec, k)) (hready : Ready s i) (ho : o ∈ k.outputs) :
    exec i s = .next (completed k s) ∧ o.interval s.td ∈ (completed k s).unsynced := by
  obtain ⟨t, hok⟩ := (ready_iff_checks hk).1 hready
  obtain rfl := checks_exec_table hok
  obtain ⟨-, hops, -⟩ := checks_eq_ok.1 hok
  obtain ⟨hb, hs, -⟩ := checkOperand_exec (hops o (List.mem_filter.1 ho).1)
  refine ⟨exec_completed hk hok, ?_⟩
  rw [completed, retire_unsynced, executeKernel_unsynced]
  exact List.mem_append_right _ (List.mem_map_of_mem (List.mem_filter.2 ⟨ho, by rw [hb, hs]; rfl⟩))

/-- Only a `SYNC` and a reset take an interval out of `unsynced` (R79 (b), R80). -/
theorem unsynced_kept {t : State} {rest : List HostAction} (he : StepEffect s (taken s rest) t) (hno : ¬ResetNext s)
    (hsync : ¬(t.retired = s.retired + 1 ∧ ∃ c q, s.queue = c :: q ∧ decode c = .ok .sync)) {j : Interval}
    (hj : j ∈ s.unsynced) : j ∈ t.unsynced := by
  cases he
  case hardReset hreset => exact absurd hreset hno
  case softReset hreset => exact absurd hreset hno
  case synced hrun =>
    obtain ⟨-, -, c, q, hq, hd⟩ := hrun
    exact absurd ⟨by simp, c, q, hq, hd⟩ hsync
  all_goals simp [hj]

end

/-- Settles O41: each clause is a case of what refuses a host access, or of what the record `unsynced` holds. -/
theorem hostAccessToTensorInUseRefused : Obligations.HostAccessToTensorInUseRefused := by
  intro s a b ha
  refine ⟨fun c i m k o hlayer hc hd hk ho hb hs hin => refused_of_operand ha hlayer hc hd hk ho hb hs hin,
    fun c q i m k d hlayer hq hdec hk _ hready hd hin => refused_of_output ha hlayer hq hdec hk hready hd hin,
    fun i k o hk hready ho => ?_, fun t hstep hno hsync j hj => ?_,
    fun hlayer hin => refused_of_inUse ha hlayer (inUse_of_unsynced hin), fun hin => ?_, fun hin hpin => ?_,
    fun hin hended => ?_⟩
  · obtain ⟨hexec, hmem⟩ := output_unsynced hk hready ho
    refine ⟨_, hexec, hmem, fun hlayer hin => refused_of_inUse ?_ ?_ (inUse_of_unsynced (inAny_of_mem hmem hin))⟩
    · simpa [completed] using ha
    · simpa [completed, State.intermediates] using hlayer
  · obtain ⟨rest, he⟩ := step_effect hstep
    exact unsynced_kept he hno hsync hj
  · have hsize : ¬s.params.memSize < a + 1 := by omega
    simp [hostAct, hostMemRead, hsize, touchesAny_one, hin]
  · exact hostAct_memWrite_refused ha (by simp [State.writeRefusal, State.padRefusal, touchesAny_one, hin, hpin])
  · have hno : s.endedWell = false := Bool.eq_false_iff.2 fun h => hended ((endedWell_iff s).1 h)
    exact hostAct_memWrite_refused ha (by simp [State.writeRefusal, touchesAny_one, hin, hno])

end Sys2Proof.Proofs
end

