-- ==== Sys2Proof/Proofs/LayerRoutines.lean ====
section
/-! SUPPORT. The layer's routines (R196 to R198): the commands they push, when they stop, and what the host guards of a configured
layer (R79 (c)). -/

namespace Sys2Proof.Proofs

open Sys2Proof.Machine Sys2Proof.Safety

/-! ## The scripts (R104, R196 to R198) -/

theorem layerCommands_eq (l : Layer) (win : Window) :
    layerCommands l win = [.bsignACfg l.w l.bw l.al, .bsignBCfg l.pin l.bin l.be, .bnormCfg l.be l.kk win, l.bconvCfg] := by
  unfold layerCommands Layer.bconvCfg
  cases l.bias <;> rfl

theorem runCommands_eq (l : Layer) (win : Window) :
    runCommands l win = [.bsignBExec l.pin l.bin l.be, .sync, .bnormExec l.be l.kk win, l.bconvExec, .sync] := by
  unfold runCommands Layer.bconvExec
  cases l.bias <;> rfl

/-- `l.configure` pushes its four commands when there is room, waits, and ends (R196). -/
theorem configureScript_eq (l : Layer) (win : Window) :
    l.configureScript win = (layerCommands l win).flatMap pushLine ++ [.wait (.bits 1 1), .lConfigured l] := by
  rw [layerCommands_eq]
  simp only [Layer.configureScript, List.flatMap_cons, List.flatMap_nil, List.append_nil, List.append_assoc]
  rfl

/-- `l.run` calls `l.prepare`, pads, pushes its five commands when there is room, waits, and ends (R198). -/
theorem runScript_eq (l : Layer) (win : Window) (inp : PadInput) :
    l.runScript win inp
      = [.lPrepare, .lPad inp] ++ (runCommands l win).flatMap pushLine ++ [.wait (.bits 1 1), .lRunDone] := by
  rw [runCommands_eq]
  simp only [Layer.runScript, List.flatMap_cons, List.flatMap_nil, List.append_nil, List.append_assoc]
  rfl

/-- A kernel extent that fits its field is the field (R192, R196). -/
theorem sizeField_toNat (draw which : Nat) {extent : Nat} (h : extent ≤ 255) : (sizeField draw which extent).toNat = extent := by
  rw [sizeField, if_pos h, BitVec.toNat_ofNat]
  omega

theorem window_layerWindow (l : Layer) (draw : Nat) (t : TdTable) : LayerWindow l t (l.window draw t) :=
  ⟨sizeField_toNat draw 0, sizeField_toNat draw 1, rfl, rfl, rfl, rfl, rfl, rfl⟩

/-! ## What the host guards (R79 (c), R201) -/

/-- The interval of an operand of a type with rows is its tensor (R25, R27). -/
theorem interval_has_iff {t : TdTable} {o : Operand} {a row : Nat} (hf : o.fetch = false)
    (hrow : ((t.at o.slot).dtype = 1 ∧ row = 4 * (t.at o.slot).w)
      ∨ ((t.at o.slot).dtype = 2 ∧ row = ((t.at o.slot).w + 7) / 8)) :
    (o.interval t).has a = true ↔ (t.at o.slot).base.toNat ≤ a
      ∧ (a : Int) < (t.at o.slot).base.toNat + (t.at o.slot).extent row := by
  have hbytes : o.rowBytes (t.at o.slot) = row := by
    rw [Operand.rowBytes, if_neg (by simp [hf])]
    rcases hrow with ⟨hty, rfl⟩ | ⟨hty, rfl⟩
    · rw [rowType_of_dtype (ty := .f32) _ hty]
      rfl
    · rw [rowType_of_dtype (ty := .bit) _ hty]
      rfl
  rw [Operand.interval, span_has, hbytes]

/-- The guarded bytes are those of bound, shaped operands. -/
theorem inAny_shapedIntervals {t : TdTable} {os : List Operand} {a : Nat} :
    inAny (shapedIntervals t os) a = true ↔
      ∃ o ∈ os, (t.at o.slot).bound = true ∧ (t.at o.slot).shaped = true ∧ (o.interval t).has a = true := by
  simp only [inAny, shapedIntervals, List.any_map, List.any_filter, List.any_eq_true, Bool.and_eq_true, Function.comp_apply,
    and_assoc]

/-- The intervals of operands guard exactly the bytes of their tensors. -/
theorem guards_shapedIntervals (s : State) {os : List Operand} (hf : ∀ o ∈ os, o.fetch = false) :
    Guards s (os.map Operand.slot) (shapedIntervals s.td os) := by
  intro a
  rw [inAny_shapedIntervals]
  constructor
  · intro p hp hin
    obtain ⟨o, ho, rfl⟩ := List.mem_map.1 hp
    obtain ⟨hb, hs, row, hrow, hlo, hhi⟩ := hin
    exact ⟨o, ho, hb, hs, (interval_has_iff (hf o ho) hrow).2 ⟨hlo, hhi⟩⟩
  · rintro hrows ⟨o, ho, hb, hs, hin⟩
    have hmem := List.mem_map_of_mem (f := Operand.slot) ho
    refine ⟨o.slot, hmem, hb, hs, ?_⟩
    rcases hrows o.slot hmem hb hs with hty | hty
    · exact ⟨4 * (s.tdAt o.slot).w, .inl ⟨hty, rfl⟩, (interval_has_iff (hf o ho) (.inl ⟨hty, rfl⟩)).1 hin⟩
    · exact ⟨((s.tdAt o.slot).w + 7) / 8, .inr ⟨hty, rfl⟩, (interval_has_iff (hf o ho) (.inr ⟨hty, rfl⟩)).1 hin⟩

/-! ## The routines -/

section
variable {s : State} {l : Layer}

theorem hostRun_of_layer (inp : PadInput) (hstate : s.lstate ≠ .unconfigured) (hl : s.layer = some l) :
    hostRun inp s =
      if s.previousRunEnded l then
        .next { s with script := l.runScript (l.window s.draws s.td) inp ++ s.script, draws := s.draws + 1 }
      else .refused .runNotEnded := by
  cases h : s.lstate with
  | unconfigured => exact absurd h hstate
  | configured => simp only [hostRun, h, hl]
  | prepared => simp only [hostRun, h, hl]

theorem previousRunEnded_eq_true : s.previousRunEnded l = true ↔ PreviousRunEnded s l := by
  rw [previousRunEnded_iff, onlyPreparePending_iff]
  exact Iff.rfl

/-- The end of `l.configure` without an error records the operands and what is guarded (R196, log 20). -/
theorem configured_guards (herr : s.err = false) (hstate : s.lstate = .unconfigured) :
    ∃ t, hostAct (.lConfigured l) s = .next t
      ∧ t = { s with lstate := .configured, layer := some l, owned := t.owned, lresult := 0 }
      ∧ Guards s [l.pin] t.owned.pin ∧ Guards s [l.bin, l.bw, l.al, l.be, l.kk] t.owned.others
      ∧ Guards s [l.bw, l.al] t.owned.weights := by
  have pin := guards_shapedIntervals s (os := [⟨l.pin, .input, .f32, false⟩]) (by simp)
  have others := guards_shapedIntervals s (os := [⟨l.bin, .output, .bit, false⟩, ⟨l.bw, .output, .bit, false⟩,
    ⟨l.al, .output, .f32, false⟩, ⟨l.be, .output, .f32, false⟩, ⟨l.kk, .output, .f32, false⟩]) (by simp)
  have weights := guards_shapedIntervals s
    (os := [⟨l.bw, .output, .bit, false⟩, ⟨l.al, .output, .f32, false⟩]) (by simp)
  refine ⟨{ s with lstate := .configured, layer := some l, owned := l.owned s.td, lresult := 0 }, ?_, rfl, pin, others,
    weights⟩
  simp [hostAct, hostConfigured, herr, hstate]

end

/-- Settles O44: each clause is one branch of a routine, its script written as pushes. -/
theorem layerRoutinesPushTheirCommands : Obligations.LayerRoutinesPushTheirCommands := by
  intro s l inp
  refine ⟨fun hstate => ⟨_, window_layerWindow l s.draws s.td, ?_⟩, fun hstate => if_neg hstate,
    fun herr => congrArg _ (if_pos herr), configured_guards, fun hstate => ?_, fun hstate hl => ?_, fun hstate => ?_,
    fun hstate => ?_, fun hstate hl hno => ?_, fun hstate hl hended => ⟨_, window_layerWindow l s.draws s.td, ?_⟩, rfl⟩
  · rw [hostAct, hostConfigure, if_pos hstate, configureScript_eq]
  · simp only [hostAct, hostPrepare, hostRun, hstate, and_self]
  · simp only [hostAct, hostPrepare, hstate, hl]
    rfl
  · exact congrArg _ (if_pos hstate)
  · simp only [hostAct, hostPrepare, hstate]
  · rw [hostAct, hostRun_of_layer inp hstate hl, if_neg fun h => hno (previousRunEnded_eq_true.1 h)]
  · rw [hostAct, hostRun_of_layer inp hstate hl, if_pos (previousRunEnded_eq_true.2 hended), runScript_eq]

end Sys2Proof.Proofs
end

