-- ==== Sys2Proof/Proofs/CommandFailures.lean ====
section
/-! SUPPORT. One step of each agent (R73, R175), and the commands that cannot succeed: what an unready command leaves in CFG and
EXEC mode (R217), and why an ill-formed one is never ready (R75, R182). -/

namespace Sys2Proof.Proofs

open Sys2Proof.Machine Sys2Proof.Safety

/-! ## The agents' steps -/

/-- Settles O5: with a head that decodes and ERR = 0, executing it is the only case of the sequencer's step. -/
theorem stepRunsDecodedCommand : Obligations.StepRunsDecodedCommand := by
  intro s c q i hq herr hmover hd
  rcases step_cases s with ⟨hhost, -⟩ | ⟨-, hstep⟩
  · rw [hmover] at hhost
    cases hhost
  rw [hstep]
  rcases sequencerStep_cases (dropTurn s) with ⟨hno, -⟩ | ⟨-, c', q', hq', hrun⟩
  · simp [herr, hq] at hno
  obtain ⟨rfl, rfl⟩ := List.cons.inj (hq.symm.trans hq')
  rcases hrun with ⟨i', hd', hrun⟩ | ⟨e, hd', -⟩ <;> cases hd.symm.trans hd'
  exact hrun

theorem hostStep_cons {s : State} {a : HostAction} {rest : List HostAction} (h : s.script = a :: rest) :
    hostStep s = hostAct a { s with script := rest } := by
  simp only [hostStep, h]

/-- Settles O6: the host's step takes the action off the script that the used-up turn leaves. -/
theorem stepRunsHostAction : Obligations.StepRunsHostAction := by
  intro s a rest hscript hmover
  rcases step_cases s with ⟨-, hstep⟩ | ⟨hseq, -⟩
  · rw [hstep, hostStep_cons (s := dropTurn s) hscript]
    rfl
  · rw [hmover] at hseq
    cases hseq

/-! ## Commands whose checks fail (R176, R217) -/

/-- The fatal error of a command, as R217 and R213 write it. -/
theorem fatalError_eq_failed (e : Err) (w0 : Word) (s : State) : fatalError e s.retired w0 s = failed s e.word w0 := by
  cases herr : s.err <;> simp [fatalError, latchError, failed, herr]

/-- What a command whose checks fail leaves in each mode (R176, R217, R220). -/
theorem exec_of_checks_error {s : State} {i : Instr} {m : Mode} {k : Kernel} {e : Err} (hk : kernelOf i = some (m, k))
    (he : k.checks m s.params.memSize s.wpq s.td = .error e) :
    exec i s = .next (if m = .val then reported s e.word else failed s e.word (encode i).w0) := by
  rw [exec_of_kernelOf hk, runKernel, he, ← retire_recordVal, ← fatalError_eq_failed]
  cases m <;> rfl

/-- Settles O18: the checks of an unready command fail, and outside VAL mode that is the fatal error. -/
theorem unreadyCommandFailsFatally : Obligations.UnreadyCommandFailsFatally := by
  intro s i m k hrange hk hm hno
  obtain ⟨e, he, hraises⟩ := checks_error_of_not_ready hrange hk hno
  refine ⟨errPair e, hraises, e.td, ?_⟩
  rw [exec_of_checks_error hk he, if_neg hm, errWord_errPair]

/-! ## Ill-formed commands (R75, R141, R156, R182) -/

/-- The window and the strides of a command are not 0 (R141 step 2, R156 step 2). -/
def windowNonzero : Kernel → Bool
  | .bsign .. => true
  | .bnorm _ _ win => win.nonzero
  | .bconv _ _ _ _ _ _ _ sx sy => sx != 0 && sy != 0

/-- The static checks of a command are those of its window and of the slots of its inputs and outputs. -/
theorem wellFormed_eq {i : Instr} {m : Mode} {k : Kernel} (hk : kernelOf i = some (m, k)) :
    i.wellFormed
      = (windowNonzero k && outputsApart ((kernelInputs k).map Operand.slot) (k.outputs.map Operand.slot)) := by
  cases i <;> simp only [kernelOf, Option.some.injEq, Prod.mk.injEq, reduceCtorEq] at hk <;> obtain ⟨-, rfl⟩ := hk <;> rfl

theorem byte_ne_zero {b : Byte} (h : 1 ≤ b.toNat) : (b != 0) = true := by
  rw [bne_iff_ne]
  rintro rfl
  exact absurd h (by decide)

/-- Check 4 passes only on windows and strides that are not 0. -/
theorem windowNonzero_of_check {k : Kernel} (h : k.windowCheck = .ok ()) : windowNonzero k = true := by
  cases k with
  | bsign => rfl
  | bnorm sa sb win =>
    obtain ⟨hkw, hkh, hsx, hsy⟩ := require_eq_ok.1 h
    simp only [windowNonzero, Window.nonzero, byte_ne_zero, hkw, hkh, hsx, hsy, Bool.and_self]
  | bconv bias sa sb sc sd se sf sx sy =>
    obtain ⟨hsx, hsy⟩ := require_eq_ok.1 h
    simp only [windowNonzero, byte_ne_zero, hsx, hsy, Bool.and_self]

section
variable {m : Mode} {memSize : Nat} {t : TdTable} {k : Kernel}

/-- On ready operands no output names the descriptor of an input: their intervals would begin together (R182). -/
theorem output_slot_ne_input (h : KernelReady m memSize t k) {o : Derived} (ho : o ∈ k.derived t) {p : Operand}
    (hp : p ∈ kernelInputs k) : p.slot ≠ o.slot := by
  intro heq
  have hrange := derivedRange_nonempty (h.outputs o ho) (derived_bounded h.inputs ho)
  have hinterval := interval_nonempty (positive_of_shapedOk (h.inputs p hp).ok)
  refine not_apart_of_lo_eq hrange hinterval ?_ (h.fromInputs p hp o ho)
  rw [derivedRange, outputRange_lo, ← heq]
  rfl

theorem outputsApart_of_ready (h : KernelReady m memSize t k) :
    outputsApart ((kernelInputs k).map Operand.slot) (k.outputs.map Operand.slot) = true := by
  rw [← derived_outputs k t, List.map_map, outputsApart, Bool.and_eq_true, decide_eq_true_iff]
  refine ⟨List.pairwise_map.2 (slots_ne_of_ready h), List.all_eq_true.2 fun j hj => ?_⟩
  obtain ⟨o, ho, rfl⟩ := List.mem_map.1 hj
  rw [Bool.not_eq_true', ← Bool.not_eq_true, List.contains_iff_mem]
  intro hmem
  obtain ⟨p, hp, heq⟩ := List.mem_map.1 hmem
  exact output_slot_ne_input h ho hp heq

end

/-- A command whose checks pass is well formed. -/
theorem wellFormed_of_checks {i : Instr} {m : Mode} {k : Kernel} {memSize : Nat} {wpq : Bool} {t t' : TdTable}
    (hk : kernelOf i = some (m, k)) (hok : k.checks m memSize wpq t = .ok t') : i.wellFormed = true := by
  have hready := kernelReady_of_checks hok
  rw [wellFormed_eq hk, windowNonzero_of_check hready.window, outputsApart_of_ready hready, Bool.and_self]

/-- Settles O22: the checks of an ill-formed command fail in every state. -/
theorem illFormedCommandNeverSucceeds : Obligations.IllFormedCommandNeverSucceeds := by
  intro s i hill
  rcases instr_cases i with rfl | rfl | ⟨m, k, hk⟩
  · cases hill
  · cases hill
  cases hc : k.checks m s.params.memSize s.wpq s.td with
  | ok t =>
    rw [wellFormed_of_checks hk hc] at hill
    cases hill
  | error e => exact ⟨e, m, k, hk, exec_of_checks_error hk hc⟩

end Sys2Proof.Proofs
end

