-- ==== Sys2Proof/Proofs/CellOrder.lean ====
section
/-! SUPPORT. Writes that agree may be made in any order (R74): memory in canonical form depends only on which cells are written. -/

namespace Sys2Proof.Proofs

open Sys2Proof.Machine Sys2Proof.Safety

theorem get_setAll_of_agree (m : Memory) {cells : List Host.Cell} (hag : Agree cells) {p : Host.Cell} (hp : p ∈ cells) :
    (m.setAll cells).get p.1 = some p.2 :=
  Memory.get_setAll_of_mem m cells p.1 p.2 hp fun q hq heq => hag q hq p hp heq

/-- Writes that agree leave the same memory in every order. -/
theorem setAll_perm {m : Memory} (hm : Memory.wf m) {cells cells' : List Host.Cell} (hag : Agree cells')
    (h : cells.Perm cells') : m.setAll cells = m.setAll cells' := by
  have hag' : Agree cells := fun p hp q hq => hag p (h.mem_iff.1 hp) q (h.mem_iff.1 hq)
  refine Memory.ext_of_get (Memory.setAll_wf hm _) (Memory.setAll_wf hm _) fun a => ?_
  by_cases hin : ∃ p ∈ cells, p.1 = a
  · obtain ⟨p, hp, rfl⟩ := hin
    rw [get_setAll_of_agree m hag' hp, get_setAll_of_agree m hag (h.mem_iff.1 hp)]
  · have hout : ∀ p ∈ cells, p.1 ≠ a := fun p hp heq => hin ⟨p, hp, heq⟩
    rw [Memory.get_setAll_of_not_mem m cells a hout,
      Memory.get_setAll_of_not_mem m cells' a fun p hp => hout p (h.mem_iff.2 hp)]

/-- The writes of a ready command in EXEC mode agree (R74, R75). -/
theorem agree_computeOf {s : State} {k : Kernel} (h : KernelReady .exec s.params.memSize s.td k) :
    Agree (computeOf k s) := by
  cases k with
  | bsign a b sa sb sc sd => exact agree_computeBsign (bsign_ready_iff.2 h)
  | bnorm sa sb win =>
    exact agree_of_writesRows (h.outputs _ (List.mem_singleton_self _)) (computeBnorm_writesRows s sa sb win)
  | bconv bias sa sb sc sd se sf sx sy =>
    exact agree_of_writesRows (h.outputs _ (List.mem_singleton_self _))
      (computeBconv_writesRows bias sa sb sc sd se sf sx sy s)

/-- Settles O59: what a ready command computes agrees, so its order does not show. -/
theorem cellOrderDoesNotMatter : Obligations.CellOrderDoesNotMatter := by
  intro s cells hmem
  obtain ⟨hwf, -⟩ := hmem
  have key {k : Kernel} (h : KernelReady .exec s.params.memSize s.td k) (hperm : cells.Perm (computeOf k s)) :
      s.mem.setAll cells = s.mem.setAll (computeOf k s) := setAll_perm hwf (agree_computeOf h) hperm
  exact ⟨fun a b sa sb sc sd h => key (k := .bsign a b sa sb sc sd) (bsign_ready_iff.1 h),
    fun sa sb win h => key (k := .bnorm sa sb win) (bnorm_ready_iff.1 h),
    fun bias sa sb sc sd se sf sx sy h => key (k := .bconv bias sa sb sc sd se sf sx sy) (bconv_ready_iff.1 h)⟩

end Sys2Proof.Proofs
end

