-- ==== Sys2Proof/Proofs/HostPadding.lean ====
section
/-! SUPPORT. What the host reads of tensor memory (R78, R245), and its padding step (R194): which cells it writes, and when it is
refused. -/

namespace Sys2Proof.Proofs

open Sys2Proof.Machine Sys2Proof.Safety

/-! ## Reads (R78) -/

theorem hostAct_memRead {s : State} {a n : Nat} (hsize : a + n ≤ s.params.memSize)
    (hlayer : touchesAny s.intermediates a n = false) :
    hostAct (.memRead a n) s
      = .next { s with mdata := (List.range n).map (fun k => hostByte s (a + k)), draws := s.draws + 1 } := by
  simp [hostAct, hostMemRead, Nat.not_lt.2 hsize, hlayer]

/-- When the run has ended well the host sees every byte (R245). -/
theorem unseen_eq_nil {s : State} (hqueue : QueueOk s) (hpending : PendingOk s) (herror : ErrorOk s) (h : EndedWell s) :
    s.unseen = [] := by
  obtain ⟨hlen, herr, hwpq, hwpn⟩ := h
  rw [State.unseen, hpending hwpq hwpn, unretired_eq_nil hqueue herror hlen herr]
  rfl

/-- Settles O39: the read answers `hostByte` of each address, and nothing is unseen when the run has ended well. -/
theorem hostReadsResultsWhenIdle : Obligations.HostReadsResultsWhenIdle := by
  intro s a n hsize hlayer
  refine ⟨_, hostAct_memRead hsize hlayer, rfl, by simp, fun k hk => ?_,
    fun hqueue hpending herror hlen herr hwpq hwpn k hk => ?_⟩
  · simp [hk, hostByte]
  · have hseen := unseen_eq_nil hqueue hpending herror ⟨hlen, herr, hwpq, hwpn⟩
    simp [hk, hostByte, hseen, inAny]

/-! ## The elements of the padding step (R194) -/

/-- The descriptor has elements the padding step writes (log 30). -/
def IsF32Tensor (d : Desc) : Prop := d.bound = true ∧ d.shaped = true ∧ d.dtype = 1

theorem isF32Tensor_of_inputReady {memSize : Nat} {d : Desc} (h : InputReady memSize d .f32) : IsF32Tensor d := by
  obtain ⟨hb, hs, hty, -⟩ := h
  exact ⟨hb, hs, hty⟩

section
variable {draw : Nat} {d : Desc} {inp : PadInput}

theorem padWrites_of_not_tensor (h : ¬IsF32Tensor d) : padWrites draw d inp = [] := by
  refine if_neg fun hcond => h ?_
  simp only [Bool.and_eq_true, beq_iff_eq, and_assoc] at hcond
  exact hcond

/-- The padding step writes every element of the tensor, and no other address. -/
theorem mem_padWrites (h : IsF32Tensor d) {p : Nat × Word} :
    p ∈ padWrites draw d inp ↔ ∃ x y c n, x < d.w ∧ y < d.h ∧ c < d.c ∧ n < d.n
      ∧ p = (d.addrF32 x y c n, inp.element draw d.c x y c n) := by
  obtain ⟨hb, hs, hty⟩ := h
  have hcond : (d.bound && d.shaped && d.dtype == DType.f32.code) = true := by rw [hb, hs, hty]; rfl
  simp only [padWrites, if_pos hcond, List.mem_flatMap, List.mem_map, List.mem_range]
  constructor
  · rintro ⟨n, hn, c, hc, y, hy, x, hx, rfl⟩
    exact ⟨x, y, c, n, hx, hy, hc, hn, rfl⟩
  · rintro ⟨x, y, c, n, hx, hy, hc, hn, rfl⟩
    exact ⟨n, hn, c, hc, y, hy, x, hx, rfl⟩

/-- The cells of the padding step are the rows of the tensor. -/
theorem padCells_writesRows (h : IsF32Tensor d) :
    WritesRows d .f32 d.shape (wordRows (inp.element draw d.c))
      ((padWrites draw d inp).flatMap fun p => wordCells p.1 p.2) := by
  refine writesRows_of_words fun q => ?_
  simp only [List.mem_flatMap, mem_padWrites h]
  constructor
  · rintro ⟨_, ⟨x, y, c, n, hx, hy, hc, hn, rfl⟩, hq⟩
    exact ⟨x, y, c, n, hx, hy, hc, hn, hq⟩
  · rintro ⟨x, y, c, n, hx, hy, hc, hn, hq⟩
    exact ⟨_, ⟨x, y, c, n, hx, hy, hc, hn, rfl⟩, hq⟩

/-- Element (x, y, c, n) of the padded tensor lies on the input, shifted by the paddings (R194). -/
def OnInput (inp : PadInput) (x y : Nat) : Prop :=
  inp.left ≤ x ∧ x < inp.left + inp.width ∧ inp.top ≤ y ∧ y < inp.top + inp.height

/-- The place in the caller's list of the input's element under (x, y, c, n). -/
def inputIndex (inp : PadInput) (depth x y c n : Nat) : Nat :=
  (x - inp.left) + inp.width * ((y - inp.top) + inp.height * (c + depth * n))

theorem element_outside {x y : Nat} (h : ¬OnInput inp x y) (depth c n : Nat) :
    inp.element draw depth x y c n = inp.fill := by
  refine if_neg fun hcond => h ?_
  unfold OnInput
  omega

/-- The numbering of a box by column and row stays below its size. -/
theorem boxIndex_lt {a b i j : Nat} (hi : i < a) (hj : j < b) : i + a * j < a * b := by
  rw [Nat.mul_comm a j, Nat.mul_comm a b]
  exact offset_lt hi hj

theorem inputIndex_lt {depth blocks x y c n : Nat} (h : OnInput inp x y) (hc : c < depth) (hn : n < blocks) :
    inputIndex inp depth x y c n < inp.width * inp.height * depth * blocks := by
  obtain ⟨hx, hx', hy, hy'⟩ := h
  rw [Nat.mul_assoc, Nat.mul_assoc]
  exact boxIndex_lt (by omega) (boxIndex_lt (by omega) (boxIndex_lt hc hn))

theorem element_inside {x y c n : Nat} (h : OnInput inp x y) (hc : c < d.c) (hn : n < d.n)
    (hlen : inp.data.length = inp.width * inp.height * d.c * d.n) :
    inp.data[inputIndex inp d.c x y c n]? = some (inp.element draw d.c x y c n) := by
  have hlt := inputIndex_lt h hc hn
  rw [← hlen] at hlt
  obtain ⟨hx, hx', hy, hy'⟩ := h
  have helem : inp.element draw d.c x y c n
      = inp.data.getD (inputIndex inp d.c x y c n) (Config.freeWord draw (inputIndex inp d.c x y c n)) :=
    if_pos ⟨hx, by omega, hy, by omega⟩
  rw [helem, List.getD_eq_getElem?_getD, List.getElem?_eq_getElem hlt, Option.getD_some]

end

/-! ## The step as a whole -/

/-- A ready input is laid out as an output of its own shape. -/
theorem outputReady_of_inputReady {memSize : Nat} {d : Desc} {ty : DType} (h : InputReady memSize d ty) :
    OutputReady .exec memSize d ty d.shape := by
  obtain ⟨hb, hs, hwf⟩ := h
  exact ⟨hb, .inl ⟨hs, hwf, rfl⟩⟩

/-- `p` holds of the address of every element of the tensor. -/
def AtEveryElement (d : Desc) (p : Nat → Prop) : Prop :=
  ∀ x y c n, x < d.w → y < d.h → c < d.c → n < d.n → p (d.addrF32 x y c n)

/-- The state the padding step leaves: every element written. -/
def padded (slot : Slot) (inp : PadInput) (s : State) : State :=
  { s.writeCells ((padWrites s.draws (s.tdAt slot) inp).flatMap fun p => wordCells p.1 p.2) with draws := s.draws + 1 }

section
variable {r : Nat → Nat → Option Refusal} {slot : Slot} {inp : PadInput} {s : State}

/-- What the padding step answers where every element lies in memory. -/
theorem padInto_of_inRange (h : ∀ p ∈ padWrites s.draws (s.tdAt slot) inp, p.1 + 4 ≤ s.params.memSize) :
    padInto r slot inp s
      = ((padWrites s.draws (s.tdAt slot) inp).findSome? fun p => r p.1 4).elim (.next (padded slot inp s)) .refused := by
  have hsize : ¬((padWrites s.draws (s.tdAt slot) inp).any fun p => decide (s.params.memSize < p.1 + 4)) = true := by
    simpa only [List.any_eq_true, decide_eq_true_eq, not_exists, not_and, Nat.not_lt] using h
  simp only [padInto, if_neg hsize]
  cases (padWrites s.draws (s.tdAt slot) inp).findSome? fun p => r p.1 4 <;> rfl

/-- The elements of a ready tensor lie in memory (R26 (e), R66). -/
theorem padWrites_inRange (h : InputReady s.params.memSize (s.tdAt slot) .f32) {p : Nat × Word}
    (hp : p ∈ padWrites s.draws (s.tdAt slot) inp) : p.1 + 4 ≤ s.params.memSize := by
  have hcell : (p.1 + 3, p.2.extractLsb' (8 * 3) 8)
      ∈ (padWrites s.draws (s.tdAt slot) inp).flatMap fun p => wordCells p.1 p.2 :=
    List.mem_flatMap.2 ⟨p, hp, mem_wordCells.2 ⟨3, by decide, rfl⟩⟩
  have hlt := lt_memSize_of_writesRows (outputReady_of_inputReady h)
    (padCells_writesRows (isF32Tensor_of_inputReady h)) hcell
  dsimp only at hlt
  omega

theorem padInto_of_allowed (h : InputReady s.params.memSize (s.tdAt slot) .f32)
    (hr : AtEveryElement (s.tdAt slot) fun a => r a 4 = none) : padInto r slot inp s = .next (padded slot inp s) := by
  have hnone : (padWrites s.draws (s.tdAt slot) inp).findSome? (fun p => r p.1 4) = none := by
    refine List.findSome?_eq_none_iff.2 fun p hp => ?_
    obtain ⟨x, y, c, n, hx, hy, hc, hn, rfl⟩ := (mem_padWrites (isF32Tensor_of_inputReady h)).1 hp
    exact hr x y c n hx hy hc hn
  rw [padInto_of_inRange fun p => padWrites_inRange h, hnone, Option.elim_none]

theorem findSome?_of_forall {α β : Type} {f : α → Option β} {l : List α} {b : β} (hne : l ≠ [])
    (h : ∀ a ∈ l, f a = some b) : l.findSome? f = some b := by
  cases l with
  | nil => exact absurd rfl hne
  | cons a l => rw [List.findSome?_cons, h a List.mem_cons_self]

/-- A reason against every element refuses the step: a ready tensor has one. -/
theorem padInto_of_refused {e : Refusal} (h : InputReady s.params.memSize (s.tdAt slot) .f32)
    (hr : AtEveryElement (s.tdAt slot) fun a => r a 4 = some e) : padInto r slot inp s = .refused e := by
  have htensor := isF32Tensor_of_inputReady h
  have hne : padWrites s.draws (s.tdAt slot) inp ≠ [] := by
    obtain ⟨-, -, -, hw, -, hh, -, hc, -, hn, -⟩ := h
    exact List.ne_nil_of_mem ((mem_padWrites htensor).2 ⟨0, 0, 0, 0, hw, hh, hc, hn, rfl⟩)
  have hsome : (padWrites s.draws (s.tdAt slot) inp).findSome? (fun p => r p.1 4) = some e := by
    refine findSome?_of_forall hne fun p hp => ?_
    obtain ⟨x, y, c, n, hx, hy, hc, hn, rfl⟩ := (mem_padWrites htensor).1 hp
    exact hr x y c n hx hy hc hn
  rw [padInto_of_inRange fun p => padWrites_inRange h, hsome, Option.elim_some]

/-- Without a tensor to write the step only counts its draw (log 30). -/
theorem padInto_of_not_tensor (h : ¬IsF32Tensor (s.tdAt slot)) :
    padInto r slot inp s = .next { s with draws := s.draws + 1 } := by
  have hnil := padWrites_of_not_tensor (draw := s.draws) (inp := inp) h
  rw [padInto_of_inRange (by simp [hnil]), padded, hnil]
  rfl

/-- An element reads back as R194 gives it. -/
theorem padded_getF32 (h : InputReady s.params.memSize (s.tdAt slot) .f32) {x y c n : Nat} (hx : x < (s.tdAt slot).w)
    (hy : y < (s.tdAt slot).h) (hc : c < (s.tdAt slot).c) (hn : n < (s.tdAt slot).n) :
    (padded slot inp s).getF32 (s.tdAt slot) x y c n = inp.element s.draws (s.tdAt slot).c x y c n := by
  have hw := padCells_writesRows (draw := s.draws) (inp := inp) (isF32Tensor_of_inputReady h)
  have hag := agree_of_writesRows (outputReady_of_inputReady h) hw
  exact getF32_of_writesRows s hw (List.Subset.refl _) hag hx hy hc hn

theorem padded_readByte_outside (h : InputReady s.params.memSize (s.tdAt slot) .f32) {adr : Nat}
    (hout : ¬ElementByte (s.tdAt slot) (s.tdAt slot).shape adr) : (padded slot inp s).readByte adr = s.readByte adr := by
  have hw := padCells_writesRows (draw := s.draws) (inp := inp) (isF32Tensor_of_inputReady h)
  exact readByte_writeCells_of_not_mem s _ adr fun p hp heq => hout (heq ▸ elementByte_of_writesRows hw hp)

/-- What the padding step leaves in memory (R194). -/
theorem padded_spec (h : InputReady s.params.memSize (s.tdAt slot) .f32)
    (hlen : inp.data.length = inp.width * inp.height * (s.tdAt slot).c * (s.tdAt slot).n) :
    (∀ x y c n, x < (s.tdAt slot).w → y < (s.tdAt slot).h → c < (s.tdAt slot).c → n < (s.tdAt slot).n →
        (OnInput inp x y → inp.data[inputIndex inp (s.tdAt slot).c x y c n]?
            = some ((padded slot inp s).getF32 (s.tdAt slot) x y c n))
          ∧ (¬OnInput inp x y → (padded slot inp s).getF32 (s.tdAt slot) x y c n = inp.fill))
      ∧ ∀ adr, ¬ElementByte (s.tdAt slot) (s.tdAt slot).shape adr → (padded slot inp s).readByte adr = s.readByte adr := by
  refine ⟨fun x y c n hx hy hc hn => ?_, fun adr => padded_readByte_outside h⟩
  rw [padded_getF32 h hx hy hc hn]
  exact ⟨fun hon => element_inside hon hc hn hlen, fun hoff => element_outside hoff _ _ _⟩

end

/-! ## The two actions that pad (R194, R198) -/

section
variable {s : State} {l : Layer} {a n : Nat}

theorem hostAct_lPad (inp : PadInput) (hl : s.layer = some l) :
    hostAct (.lPad inp) s = padInto (s.runPadRefusal l) l.pin inp s := by
  simp only [hostAct, hostLayerPad, hl]

theorem onlyPreparePending_eq_true : s.onlyPreparePending l = true ↔ OnlyPreparePending s l := onlyPreparePending_iff

theorem runPadRefusal_of_pending (h : ¬OnlyPreparePending s l) : s.runPadRefusal l a n = some .runNotEnded :=
  if_neg (mt onlyPreparePending_eq_true.1 h)

theorem writeRefusal_of_not_ended (hpin : touchesAny s.owned.pin a n = true) (h : ¬EndedWell s) :
    s.writeRefusal a n = some .runNotEnded := by
  have hno : s.endedWell = false := Bool.eq_false_iff.2 (mt (endedWell_iff s).1 h)
  simp [State.writeRefusal, hpin, hno]

end

/-- Settles O45: either action is `padInto` under its own refusals, which allow every element, refuse every one, or meet none. -/
theorem hostpadWritesPaddedInput : Obligations.HostpadWritesPaddedInput := by
  intro s pin inp act d everywhere hact
  rcases hact with rfl | ⟨rfl, l, hl, rfl⟩
  · refine ⟨fun h hfree hended _ hlen => ⟨padded pin inp s, padInto_of_allowed h ?_, rfl, padded_spec h hlen⟩,
      fun h => ⟨nofun, fun _ hno hpin => padInto_of_refused h ?_⟩, padInto_of_not_tensor⟩
    · intro x y c n hx hy hc hn
      obtain ⟨huse, hothers⟩ := hfree x y c n hx hy hc hn
      refine writeRefusal_eq_none.2 ⟨fun hpin => ?_, hothers, huse⟩
      rcases hended rfl with hended | hpins
      · exact (endedWell_iff s).2 hended
      · rw [hpins x y c n hx hy hc hn] at hpin
        cases hpin
    · exact fun x y c n hx hy hc hn => writeRefusal_of_not_ended (hpin x y c n hx hy hc hn) hno
  · rw [hostAct_lPad inp hl]
    refine ⟨fun h hfree _ hpending hlen => ⟨padded l.pin inp s, padInto_of_allowed h ?_, rfl, padded_spec h hlen⟩,
      fun h => ⟨fun l' _ hl' hno => ?_, nofun⟩, padInto_of_not_tensor⟩
    · intro x y c n hx hy hc hn
      obtain ⟨huse, hothers⟩ := hfree x y c n hx hy hc hn
      exact runPadRefusal_eq_none.2 ⟨onlyPreparePending_eq_true.2 (hpending l rfl hl), hothers, huse⟩
    · obtain rfl := Option.some.inj (hl.symm.trans hl')
      exact padInto_of_refused h fun x y c n _ _ _ _ => runPadRefusal_of_pending hno

end Sys2Proof.Proofs
end

