-- ==== Sys2Proof/Proofs/CommandEncoding.lean ====
section
/-! SUPPORT. The opcode table as the decoder reads it (R103): which words a row stands for, and why the decoder and the encoder
are inverse to each other (R101). -/

namespace Sys2Proof.Proofs

/-! ## Fields of the words (R92 to R94) -/

section
variable {c : Command}

/-- Word 1 is its six slots when bits 31:24 are 0 (R92). -/
theorem slotWord_slots {sa sb sc sd se sf : Slot} (h : zeroBits c.w1 24 8 = true) (ha : c.slot 0 = sa)
    (hb : c.slot 1 = sb) (hc : c.slot 2 = sc) (hd : c.slot 3 = sd) (he : c.slot 4 = se) (hf : c.slot 5 = sf) :
    slotWord sa sb sc sd se sf = c.w1 := by
  subst ha hb hc hd he hf
  rw [zeroBits_iff] at h
  apply BitVec.eq_of_toNat_eq
  simp only [slotWord_toNat, Command.slot, field_toNat]
  omega

/-- A word is its four bytes (R93, R94). -/
theorem byteWord_bytes (w : Word) :
    byteWord (w.extractLsb' 0 8) (w.extractLsb' 8 8) (w.extractLsb' 16 8) (w.extractLsb' 24 8) = w := by
  have := w.isLt
  apply BitVec.eq_of_toNat_eq
  simp only [byteWord_toNat, field_toNat]
  omega

theorem byteWord_win (c : Command) : byteWord (c.win 0) (c.win 1) (c.win 2) (c.win 3) = c.w2 := byteWord_bytes c.w2

theorem byteWord_pad (c : Command) : byteWord (c.pad 0) (c.pad 1) (c.pad 2) (c.pad 3) = c.w3 := byteWord_bytes c.w3

theorem zeroBits_slot (k : Nat) : zeroBits c.w1 (4 * k) 4 = true ↔ c.slot k = 0 := beq_iff_eq

theorem zeroBits_slotC : zeroBits c.w1 8 4 = true ↔ c.slot 2 = 0 := zeroBits_slot 2

theorem zeroBits_win (k : Nat) : zeroBits c.w2 (8 * k) 8 = true ↔ c.win k = 0 := beq_iff_eq

/-- Word 1 has nothing in bits 31:24 nor in the slots listed (R92, R98). -/
def SlotsClear (c : Command) (unused : List Nat) : Prop := zeroBits c.w1 24 8 = true ∧ ∀ k ∈ unused, c.slot k = 0

theorem slotsClear_cons (k : Nat) (ks : List Nat) : SlotsClear c (k :: ks) ↔ c.slot k = 0 ∧ SlotsClear c ks := by
  simp only [SlotsClear, List.forall_mem_cons, and_left_comm]

/-- The runs of zero bits in the masks of word 1 (R103), slot by slot. -/
theorem slotsClear_upward :
    (c.w1 = 0 ↔ SlotsClear c [0, 1, 2, 3, 4, 5]) ∧ (zeroBits c.w1 8 24 = true ↔ SlotsClear c [2, 3, 4, 5])
      ∧ (zeroBits c.w1 12 20 = true ↔ SlotsClear c [3, 4, 5]) ∧ (zeroBits c.w1 16 16 = true ↔ SlotsClear c [4, 5])
      ∧ (zeroBits c.w1 24 8 = true ↔ SlotsClear c []) := by
  have := c.w1.isLt
  have hzero : c.w1 = 0 ↔ c.w1.toNat = 0 := BitVec.toNat_inj.symm
  simp only [hzero, SlotsClear, ← zeroBits_slot, zeroBits_iff, List.forall_mem_cons, List.not_mem_nil, false_implies,
    implies_true, and_true]
  refine ⟨?_, ?_, ?_, ?_⟩ <;> omega

/-- The zero bits of word 2 in the masks of `BCONV*` (R103): KW and KH. -/
theorem zeroBits_kernel : zeroBits c.w2 0 16 = true ↔ c.win 0 = 0 ∧ c.win 1 = 0 := by
  simp only [← zeroBits_win, zeroBits_iff]
  omega

/-! ## The must-be-zero bits of each form (R98, R99, R103) -/

theorem mbzNone_iff : mbzNone c = true ↔ SlotsClear c [0, 1, 2, 3, 4, 5] ∧ c.w2 = 0 ∧ c.w3 = 0 := by
  simp [mbzNone, ← slotsClear_upward, and_assoc]

theorem mbzBsign_iff : mbzBsign c = true ↔ SlotsClear c [2, 3, 4, 5] ∧ c.w2 = 0 ∧ c.w3 = 0 := by
  simp [mbzBsign, ← slotsClear_upward, and_assoc]

theorem mbzBsignA_iff : mbzBsignA c = true ↔ SlotsClear c [3, 4, 5] ∧ c.w2 = 0 ∧ c.w3 = 0 := by
  simp [mbzBsignA, ← slotsClear_upward, and_assoc]

theorem mbzBsignB_iff : mbzBsignB c = true ↔ SlotsClear c [2, 4, 5] ∧ c.w2 = 0 ∧ c.w3 = 0 := by
  simp [mbzBsignB, slotsClear_cons 2, zeroBits_slotC, ← slotsClear_upward, and_assoc]

theorem mbzBsignAB_iff : mbzBsignAB c = true ↔ SlotsClear c [4, 5] ∧ c.w2 = 0 ∧ c.w3 = 0 := by
  simp [mbzBsignAB, ← slotsClear_upward, and_assoc]

theorem mbzBnorm_iff : mbzBnorm c = true ↔ SlotsClear c [2, 3, 4, 5] := by
  simp [mbzBnorm, ← slotsClear_upward]

theorem mbzBconv_iff : mbzBconv c = true ↔ SlotsClear c [2] ∧ (c.win 0 = 0 ∧ c.win 1 = 0) ∧ c.w3 = 0 := by
  simp [mbzBconv, slotsClear_cons 2, zeroBits_slotC, ← slotsClear_upward, zeroBits_kernel, and_assoc]

theorem mbzBconvB_iff : mbzBconvB c = true ↔ SlotsClear c [] ∧ (c.win 0 = 0 ∧ c.win 1 = 0) ∧ c.w3 = 0 := by
  simp [mbzBconvB, ← slotsClear_upward, zeroBits_kernel, and_assoc]

end

/-! ## The rows (R103) -/

/-- Word 0 names the row. -/
theorem row_eq_of_w0 {r r' : Row} (hr : r ∈ opcodeRows) (hr' : r' ∈ opcodeRows) (h : r.w0 = r'.w0) : r = r' :=
  List.inj_on_of_nodup_map (by decide) hr hr' h

/-- Word 0 of every row passes checks 1 and 2 (R100). -/
theorem row_passes_first_checks :
    ∀ r ∈ opcodeRows, knownOpcode (r.w0.extractLsb' 0 8) = true
      ∧ badMode (r.w0.extractLsb' 0 8) (r.w0.extractLsb' 8 2) = false := by decide

section
variable {c : Command} {r : Row}

/-- Past checks 1 and 2, the table decides: a command is that of the row it meets, or fails check 3. -/
theorem decode_by_table (hop : knownOpcode c.opc = true) (hmode : badMode c.opc c.modeField = false) :
    (∃ r ∈ opcodeRows, c.w0 = r.w0 ∧ r.mbz c = true ∧ decode c = .ok (r.build c))
      ∨ ((∀ r ∈ opcodeRows, c.w0 = r.w0 → r.mbz c = false) ∧ decode c = .error .field) := by
  simp only [decode, hop, hmode]
  cases hfind : opcodeRows.find? fun r => r.w0 == c.w0 with
  | none =>
    refine .inr ⟨fun r hr hw => absurd (List.find?_eq_none.1 hfind r hr) ?_, rfl⟩
    simp [hw]
  | some r =>
    have hr := List.mem_of_find?_eq_some hfind
    have hw : c.w0 = r.w0 := by
      have := List.find?_some hfind
      exact (beq_iff_eq.1 this).symm
    cases hm : r.mbz c with
    | true => exact .inl ⟨r, hr, hw, hm, by simp [hm]⟩
    | false => exact .inr ⟨fun r' hr' hw' => row_eq_of_w0 hr hr' (hw.symm.trans hw') ▸ hm, by simp [hm]⟩

theorem decode_of_row (hr : r ∈ opcodeRows) (hw : c.w0 = r.w0) (hm : r.mbz c = true) : decode c = .ok (r.build c) := by
  obtain ⟨hop, hmode⟩ := row_passes_first_checks r hr
  rw [← hw] at hop hmode
  rcases decode_by_table hop hmode with ⟨r', hr', hw', -, hd⟩ | ⟨hno, -⟩
  · rwa [row_eq_of_w0 hr hr' (hw.symm.trans hw')]
  · rw [hno r hr hw] at hm
    cases hm

theorem row_of_decode {i : Instr} (h : decode c = .ok i) : ∃ r ∈ opcodeRows, c.w0 = r.w0 ∧ r.mbz c = true ∧ r.build c = i := by
  cases hop : knownOpcode c.opc with
  | false => simp [decode, hop] at h
  | true =>
    cases hmode : badMode c.opc c.modeField with
    | true => simp [decode, hop, hmode] at h
    | false =>
      rcases decode_by_table hop hmode with ⟨r, hr, hw, hm, hd⟩ | ⟨-, hd⟩
      · exact ⟨r, hr, hw, hm, Except.ok.inj (hd.symm.trans h)⟩
      · cases hd.symm.trans h

end

/-! ## Decoding what the encoder writes -/

section
variable {w0 w2 w3 : Word} {sa sb sc sd se sf : Slot}

theorem zeroBits_slotWord : zeroBits (slotWord sa sb sc sd se sf) 24 8 = true := by
  have := sa.isLt; have := sb.isLt; have := sc.isLt; have := sd.isLt; have := se.isLt; have := sf.isLt
  rw [zeroBits_iff, slotWord_toNat]
  omega

/-- The slots the encoder is given as 0 are clear in the word it writes (R92). -/
theorem slotsClear_slotWord {unused : List Nat} (h : ∀ k ∈ unused, [sa, sb, sc, sd, se, sf][k]? = some 0) :
    SlotsClear ⟨w0, slotWord sa sb sc sd se sf, w2, w3⟩ unused := by
  obtain ⟨ha, hb, hc, hd, he, hf⟩ := slot_slotWord w0 w2 w3 sa sb sc sd se sf
  refine ⟨zeroBits_slotWord, fun k hk => ?_⟩
  match k, h k hk with
  | 0, h0 => exact ha.trans (Option.some.inj h0)
  | 1, h0 => exact hb.trans (Option.some.inj h0)
  | 2, h0 => exact hc.trans (Option.some.inj h0)
  | 3, h0 => exact hd.trans (Option.some.inj h0)
  | 4, h0 => exact he.trans (Option.some.inj h0)
  | 5, h0 => exact hf.trans (Option.some.inj h0)

end

section
variable {w0 : Word} {mbz : Command → Bool} {k : Nat}

/-- A `BSIGN*` decodes to what its row makes of the four slots it was given. -/
theorem decode_encodeBsign {f : Slot → Slot → Slot → Slot → Instr} {sa sb sc sd : Slot}
    (hr : opcodeRows[k]? = some ⟨w0, mbz, fun c => f (c.slot 0) (c.slot 1) (c.slot 2) (c.slot 3)⟩)
    (hm : mbz (encodeBsign w0 sa sb sc sd) = true) : decode (encodeBsign w0 sa sb sc sd) = .ok (f sa sb sc sd) := by
  obtain ⟨ha, hb, hc, hd, -, -⟩ := slot_slotWord w0 0 0 sa sb sc sd 0 0
  rw [decode_of_row (List.mem_of_getElem? hr) rfl hm]
  simp only [encodeBsign, ha, hb, hc, hd]

theorem decode_bsign {f : Slot → Slot → Instr} (k : Nat)
    (hr : opcodeRows[k]? = some ⟨w0, mbzBsign, fun c => f (c.slot 0) (c.slot 1)⟩) (sa sb : Slot) :
    decode (encodeBsign w0 sa sb 0 0) = .ok (f sa sb) :=
  decode_encodeBsign (f := fun sa sb _ _ => f sa sb) hr (mbzBsign_iff.2 ⟨slotsClear_slotWord (by simp), rfl, rfl⟩)

theorem decode_bsignA {f : Slot → Slot → Slot → Instr} (k : Nat)
    (hr : opcodeRows[k]? = some ⟨w0, mbzBsignA, fun c => f (c.slot 0) (c.slot 1) (c.slot 2)⟩) (sa sb sc : Slot) :
    decode (encodeBsign w0 sa sb sc 0) = .ok (f sa sb sc) :=
  decode_encodeBsign (f := fun sa sb sc _ => f sa sb sc) hr (mbzBsignA_iff.2 ⟨slotsClear_slotWord (by simp), rfl, rfl⟩)

theorem decode_bsignB {f : Slot → Slot → Slot → Instr} (k : Nat)
    (hr : opcodeRows[k]? = some ⟨w0, mbzBsignB, fun c => f (c.slot 0) (c.slot 1) (c.slot 3)⟩) (sa sb sd : Slot) :
    decode (encodeBsign w0 sa sb 0 sd) = .ok (f sa sb sd) :=
  decode_encodeBsign (f := fun sa sb _ sd => f sa sb sd) hr (mbzBsignB_iff.2 ⟨slotsClear_slotWord (by simp), rfl, rfl⟩)

theorem decode_bsignAB {f : Slot → Slot → Slot → Slot → Instr} (k : Nat)
    (hr : opcodeRows[k]? = some ⟨w0, mbzBsignAB, fun c => f (c.slot 0) (c.slot 1) (c.slot 2) (c.slot 3)⟩)
    (sa sb sc sd : Slot) : decode (encodeBsign w0 sa sb sc sd) = .ok (f sa sb sc sd) :=
  decode_encodeBsign hr (mbzBsignAB_iff.2 ⟨slotsClear_slotWord (by simp), rfl, rfl⟩)

theorem decode_bnorm {f : Slot → Slot → Window → Instr} (k : Nat)
    (hr : opcodeRows[k]? = some ⟨w0, mbzBnorm, fun c => f (c.slot 0) (c.slot 1) c.window⟩) (sa sb : Slot) (win : Window) :
    decode (encodeBnorm w0 sa sb win) = .ok (f sa sb win) := by
  have hm : mbzBnorm (encodeBnorm w0 sa sb win) = true := mbzBnorm_iff.2 (slotsClear_slotWord (by simp))
  obtain ⟨ha, hb, -⟩ := slot_slotWord w0 (byteWord win.kw win.kh win.sx win.sy) (byteWord win.pl win.pr win.pt win.pb)
    sa sb 0 0 0 0
  obtain ⟨hkw, hkh, hsx, hsy⟩ := win_byteWord w0 (slotWord sa sb 0 0 0 0) (byteWord win.pl win.pr win.pt win.pb)
    win.kw win.kh win.sx win.sy
  obtain ⟨hpl, hpr, hpt, hpb⟩ := pad_byteWord w0 (slotWord sa sb 0 0 0 0) (byteWord win.kw win.kh win.sx win.sy)
    win.pl win.pr win.pt win.pb
  rw [decode_of_row (List.mem_of_getElem? hr) rfl hm]
  simp only [encodeBnorm, Command.window, ha, hb, hkw, hkh, hsx, hsy, hpl, hpr, hpt, hpb]

/-- A `BCONV*` decodes to what its row makes of the six slots and the strides it was given. -/
theorem decode_encodeBconv {f : Slot → Slot → Slot → Slot → Slot → Slot → Byte → Byte → Instr} {sa sb sc sd se sf : Slot}
    {sx sy : Byte} {unused : List Nat}
    (hr : opcodeRows[k]? = some ⟨w0, mbz, fun c =>
      f (c.slot 0) (c.slot 1) (c.slot 2) (c.slot 3) (c.slot 4) (c.slot 5) (c.win 2) (c.win 3)⟩)
    (hm : ∀ {c : Command}, mbz c = true ↔ SlotsClear c unused ∧ (c.win 0 = 0 ∧ c.win 1 = 0) ∧ c.w3 = 0)
    (hunused : ∀ k ∈ unused, [sa, sb, sc, sd, se, sf][k]? = some 0) :
    decode (encodeBconv w0 sa sb sc sd se sf sx sy) = .ok (f sa sb sc sd se sf sx sy) := by
  obtain ⟨ha, hb, hc, hd, he, hf⟩ := slot_slotWord w0 (byteWord 0 0 sx sy) 0 sa sb sc sd se sf
  obtain ⟨hkw, hkh, hsx, hsy⟩ := win_byteWord w0 (slotWord sa sb sc sd se sf) 0 0 0 sx sy
  have hz : mbz (encodeBconv w0 sa sb sc sd se sf sx sy) = true := hm.2 ⟨slotsClear_slotWord hunused, ⟨hkw, hkh⟩, rfl⟩
  rw [decode_of_row (List.mem_of_getElem? hr) rfl hz]
  simp only [encodeBconv, ha, hb, hc, hd, he, hf, hsx, hsy]

theorem decode_bconv {f : Slot → Slot → Slot → Slot → Slot → Byte → Byte → Instr} (k : Nat)
    (hr : opcodeRows[k]? = some ⟨w0, mbzBconv, fun c =>
      f (c.slot 0) (c.slot 1) (c.slot 3) (c.slot 4) (c.slot 5) (c.win 2) (c.win 3)⟩) (sa sb sd se sf : Slot) (sx sy : Byte) :
    decode (encodeBconv w0 sa sb 0 sd se sf sx sy) = .ok (f sa sb sd se sf sx sy) :=
  decode_encodeBconv (f := fun sa sb _ sd se sf sx sy => f sa sb sd se sf sx sy) hr mbzBconv_iff (by simp)

theorem decode_bconvB {f : Slot → Slot → Slot → Slot → Slot → Slot → Byte → Byte → Instr} (k : Nat)
    (hr : opcodeRows[k]? = some ⟨w0, mbzBconvB, fun c =>
      f (c.slot 0) (c.slot 1) (c.slot 2) (c.slot 3) (c.slot 4) (c.slot 5) (c.win 2) (c.win 3)⟩)
    (sa sb sc sd se sf : Slot) (sx sy : Byte) :
    decode (encodeBconv w0 sa sb sc sd se sf sx sy) = .ok (f sa sb sc sd se sf sx sy) :=
  decode_encodeBconv hr mbzBconvB_iff (by simp)

end

/-- Settles O1: row by row of the table, the encoder writes word 0 of the command's row and its operands into the fields the
row reads, and leaves the row's zero bits 0. -/
theorem encodedCommandDecodesBack : Obligations.EncodedCommandDecodesBack := by
  intro i
  cases i with
  | nop => rfl
  | sync => rfl
  | bsignExec sa sb => exact decode_bsign 2 rfl sa sb
  | bsignCfg sa sb => exact decode_bsign 3 rfl sa sb
  | bsignVal sa sb => exact decode_bsign 4 rfl sa sb
  | bsignAExec sa sb sc => exact decode_bsignA 5 rfl sa sb sc
  | bsignACfg sa sb sc => exact decode_bsignA 6 rfl sa sb sc
  | bsignAVal sa sb sc => exact decode_bsignA 7 rfl sa sb sc
  | bsignBExec sa sb sd => exact decode_bsignB 8 rfl sa sb sd
  | bsignBCfg sa sb sd => exact decode_bsignB 9 rfl sa sb sd
  | bsignBVal sa sb sd => exact decode_bsignB 10 rfl sa sb sd
  | bsignABExec sa sb sc sd => exact decode_bsignAB 11 rfl sa sb sc sd
  | bsignABCfg sa sb sc sd => exact decode_bsignAB 12 rfl sa sb sc sd
  | bsignABVal sa sb sc sd => exact decode_bsignAB 13 rfl sa sb sc sd
  | bnormExec sa sb win => exact decode_bnorm 14 rfl sa sb win
  | bnormCfg sa sb win => exact decode_bnorm 15 rfl sa sb win
  | bnormVal sa sb win => exact decode_bnorm 16 rfl sa sb win
  | bconvExec sa sb sd se sf sx sy => exact decode_bconv 17 rfl sa sb sd se sf sx sy
  | bconvCfg sa sb sd se sf sx sy => exact decode_bconv 18 rfl sa sb sd se sf sx sy
  | bconvVal sa sb sd se sf sx sy => exact decode_bconv 19 rfl sa sb sd se sf sx sy
  | bconvBExec sa sb sc sd se sf sx sy => exact decode_bconvB 20 rfl sa sb sc sd se sf sx sy
  | bconvBCfg sa sb sc sd se sf sx sy => exact decode_bconvB 21 rfl sa sb sc sd se sf sx sy
  | bconvBVal sa sb sc sd se sf sx sy => exact decode_bconvB 22 rfl sa sb sc sd se sf sx sy

/-! ## Encoding what the decoder reads -/

section
variable {c : Command} {w0 : Word}

theorem command_eq {w1 w2 w3 : Word} (h0 : w0 = c.w0) (h1 : w1 = c.w1) (h2 : w2 = c.w2) (h3 : w3 = c.w3) :
    (⟨w0, w1, w2, w3⟩ : Command) = c := by
  subst h0 h1 h2 h3
  rfl

theorem encodeBsign_of_slots {sc sd : Slot} (hw : c.w0 = w0) (hc : c.slot 2 = sc) (hd : c.slot 3 = sd)
    (hrest : SlotsClear c [4, 5]) (h2 : c.w2 = 0) (h3 : c.w3 = 0) :
    encodeBsign w0 (c.slot 0) (c.slot 1) sc sd = c := by
  obtain ⟨htop, hslots⟩ := hrest
  exact command_eq hw.symm (slotWord_slots htop rfl rfl hc hd (hslots 4 (by simp)) (hslots 5 (by simp))) h2.symm h3.symm

theorem encode_none_of_mbz (hw : c.w0 = w0) (h : mbzNone c = true) : ⟨w0, 0, 0, 0⟩ = c := by
  simp only [mbzNone, Bool.and_eq_true, beq_iff_eq] at h
  obtain ⟨⟨h1, h2⟩, h3⟩ := h
  exact command_eq hw.symm h1.symm h2.symm h3.symm

theorem encode_bsign_of_mbz (hw : c.w0 = w0) (h : mbzBsign c = true) : encodeBsign w0 (c.slot 0) (c.slot 1) 0 0 = c := by
  simp only [mbzBsign_iff, slotsClear_cons 2, slotsClear_cons 3] at h
  obtain ⟨⟨hc, hd, hrest⟩, h2, h3⟩ := h
  exact encodeBsign_of_slots hw hc hd hrest h2 h3

theorem encode_bsignA_of_mbz (hw : c.w0 = w0) (h : mbzBsignA c = true) :
    encodeBsign w0 (c.slot 0) (c.slot 1) (c.slot 2) 0 = c := by
  simp only [mbzBsignA_iff, slotsClear_cons 3] at h
  obtain ⟨⟨hd, hrest⟩, h2, h3⟩ := h
  exact encodeBsign_of_slots hw rfl hd hrest h2 h3

theorem encode_bsignB_of_mbz (hw : c.w0 = w0) (h : mbzBsignB c = true) :
    encodeBsign w0 (c.slot 0) (c.slot 1) 0 (c.slot 3) = c := by
  simp only [mbzBsignB_iff, slotsClear_cons 2] at h
  obtain ⟨⟨hc, hrest⟩, h2, h3⟩ := h
  exact encodeBsign_of_slots hw hc rfl hrest h2 h3

theorem encode_bsignAB_of_mbz (hw : c.w0 = w0) (h : mbzBsignAB c = true) :
    encodeBsign w0 (c.slot 0) (c.slot 1) (c.slot 2) (c.slot 3) = c := by
  obtain ⟨hrest, h2, h3⟩ := mbzBsignAB_iff.1 h
  exact encodeBsign_of_slots hw rfl rfl hrest h2 h3

theorem encode_bnorm_of_mbz (hw : c.w0 = w0) (h : mbzBnorm c = true) :
    encodeBnorm w0 (c.slot 0) (c.slot 1) c.window = c := by
  obtain ⟨htop, hslots⟩ := mbzBnorm_iff.1 h
  exact command_eq hw.symm (slotWord_slots htop rfl rfl (hslots 2 (by simp)) (hslots 3 (by simp)) (hslots 4 (by simp))
    (hslots 5 (by simp))) (byteWord_win c) (byteWord_pad c)

theorem encodeBconv_of_slots {sc : Slot} (hw : c.w0 = w0) (hc : c.slot 2 = sc) (htop : zeroBits c.w1 24 8 = true)
    (hwin : c.win 0 = 0 ∧ c.win 1 = 0) (h3 : c.w3 = 0) :
    encodeBconv w0 (c.slot 0) (c.slot 1) sc (c.slot 3) (c.slot 4) (c.slot 5) (c.win 2) (c.win 3) = c := by
  obtain ⟨hkw, hkh⟩ := hwin
  have hbytes := byteWord_win c
  rw [hkw, hkh] at hbytes
  exact command_eq hw.symm (slotWord_slots htop rfl rfl hc rfl rfl rfl) hbytes h3.symm

theorem encode_bconv_of_mbz (hw : c.w0 = w0) (h : mbzBconv c = true) :
    encodeBconv w0 (c.slot 0) (c.slot 1) 0 (c.slot 3) (c.slot 4) (c.slot 5) (c.win 2) (c.win 3) = c := by
  obtain ⟨⟨htop, hslots⟩, hwin, h3⟩ := mbzBconv_iff.1 h
  exact encodeBconv_of_slots hw (hslots 2 (by simp)) htop hwin h3

theorem encode_bconvB_of_mbz (hw : c.w0 = w0) (h : mbzBconvB c = true) :
    encodeBconv w0 (c.slot 0) (c.slot 1) (c.slot 2) (c.slot 3) (c.slot 4) (c.slot 5) (c.win 2) (c.win 3) = c := by
  obtain ⟨⟨htop, -⟩, hwin, h3⟩ := mbzBconvB_iff.1 h
  exact encodeBconv_of_slots hw rfl htop hwin h3

end

/-- Every row reads all the bits it does not ask to be 0. -/
theorem encode_build : ∀ r ∈ opcodeRows, ∀ c : Command, c.w0 = r.w0 → r.mbz c = true → encode (r.build c) = c := by
  simp only [opcodeRows, List.forall_mem_cons]
  exact ⟨fun _ => encode_none_of_mbz, fun _ => encode_none_of_mbz,
    fun _ => encode_bsign_of_mbz, fun _ => encode_bsign_of_mbz, fun _ => encode_bsign_of_mbz,
    fun _ => encode_bsignA_of_mbz, fun _ => encode_bsignA_of_mbz, fun _ => encode_bsignA_of_mbz,
    fun _ => encode_bsignB_of_mbz, fun _ => encode_bsignB_of_mbz, fun _ => encode_bsignB_of_mbz,
    fun _ => encode_bsignAB_of_mbz, fun _ => encode_bsignAB_of_mbz, fun _ => encode_bsignAB_of_mbz,
    fun _ => encode_bnorm_of_mbz, fun _ => encode_bnorm_of_mbz, fun _ => encode_bnorm_of_mbz,
    fun _ => encode_bconv_of_mbz, fun _ => encode_bconv_of_mbz, fun _ => encode_bconv_of_mbz,
    fun _ => encode_bconvB_of_mbz, fun _ => encode_bconvB_of_mbz, fun _ => encode_bconvB_of_mbz, nofun⟩

/-- Settles O2: a command that decodes meets a row of the table, and the encoder writes back what the row reads. -/
theorem decodedCommandEncodesBack : Obligations.DecodedCommandEncodesBack := by
  intro c i h
  obtain ⟨r, hr, hw, hm, rfl⟩ := row_of_decode h
  exact encode_build r hr c hw hm

/-- Settles O4: the words are the encoder's, and what they decode to is the round trip's. -/
theorem workedEncodings : Obligations.WorkedEncodings :=
  ⟨rfl, congrArg Except.toOption (encodedCommandDecodesBack (.bsignABExec 1 2 3 4)), rfl,
    encodedCommandDecodesBack (.bnormExec 8 9 ⟨3, 3, 2, 1, 1, 1, 0, 0⟩), rfl,
    encodedCommandDecodesBack (.bconvBCfg 5 6 3 7 9 4 1 1)⟩

end Sys2Proof.Proofs
end

