-- ==== Sys2Proof/Proofs/ValMode.lean ====
section
/-! SUPPORT. What a kernel command in VAL mode does when its operands are ready (R96, R176). -/

namespace Sys2Proof.Proofs

open Sys2Proof.Machine Sys2Proof.Safety

/-- A ready command in VAL mode only retires: the table its checks shape is discarded (R96, R176). -/
theorem exec_val_of_ready {s : State} {i : Instr} {k : Kernel} (hk : kernelOf i = some (.val, k)) (h : Ready s i) :
    exec i s = .next (retiredOnly s) := by
  obtain ⟨t, ht⟩ := (ready_iff_checks hk).1 h
  rw [exec_of_kernelOf hk, runKernel, ht]
  rfl

/-- Settles O15: each of the four is a ready command in VAL mode. -/
theorem bsignValOnlyRetires : Obligations.BsignValOnlyRetires := fun _ _ _ _ _ =>
  ⟨fun h => exec_val_of_ready rfl h, fun h => exec_val_of_ready rfl h, fun h => exec_val_of_ready rfl h,
    fun h => exec_val_of_ready rfl h⟩

/-- Settles O16: `Ready` asks nothing of WPQ in VAL mode (R147). -/
theorem bnormValOnlyRetires : Obligations.BnormValOnlyRetires := fun _ _ _ _ h => exec_val_of_ready rfl ⟨h, nofun⟩

/-- Settles O17: both are ready commands in VAL mode. -/
theorem bconvValOnlyRetires : Obligations.BconvValOnlyRetires := fun _ _ _ _ _ _ _ _ _ =>
  ⟨fun h => exec_val_of_ready rfl h, fun h => exec_val_of_ready rfl h⟩

end Sys2Proof.Proofs
end

