-- ==== Sys2Proof/Proofs/IllegalCommands.lean ====
section
/-! SUPPORT. Checks 1 to 3 of R100, as the statements read them from the numbers of R91 to R94, against the opcode table the
decoder reads (R103): the decoder answers the first check that fails. -/

namespace Sys2Proof.Proofs

open Sys2Proof.Machine Sys2Proof.Safety

section
variable {c : Command}

/-! ## Word 0 (R91, R95 to R97) -/

theorem opc_toNat (c : Command) : c.opc.toNat = opcNumber c := by
  rw [Command.opc, field_toNat, opcNumber]
  simp

theorem modeField_toNat (c : Command) : c.modeField.toNat = modeNumber c := field_toNat _ _ _

theorem knownOpcode_iff : knownOpcode c.opc = true ↔ ¬BadOpcode c := by
  simp [knownOpcode, BadOpcode, ← opc_toNat, ← BitVec.toNat_inj, or_assoc, -not_or]

theorem badMode_iff : badMode c.opc c.modeField = true ↔ BadMode c := by
  simp [badMode, BadMode, ← opc_toNat, ← modeField_toNat, ← BitVec.toNat_inj]

/-- The zero bits of word 0: bits 31:16 and the flags the opcode does not define (R91, R97). -/
def FlagsClear (c : Command) : Prop :=
  c.w0.toNat / 2 ^ 16 = 0 ∧ ∀ k ∈ List.range 6, ¬FlagDefined c k → flagBit c k = 0

/-- Word 0 of every row has its zero bits 0. -/
theorem flagsClear_of_row {r : Row} (hr : r ∈ opcodeRows) (hw : c.w0 = r.w0) : FlagsClear c := by
  have h : ∀ r ∈ opcodeRows, FlagsClear ⟨r.w0, 0, 0, 0⟩ := by
    unfold FlagsClear FlagDefined
    decide
  have := h r hr
  rwa [← hw] at this

/-- The legal combinations of opcode, mode and flags A, B and BIAS all have a row (R95 to R97). -/
theorem row_of_fields :
    ∀ o ∈ ([0x01, 0x02, 0x10, 0x11, 0x12] : List Nat), ∀ m ∈ List.range 3, ∀ a ∈ List.range 2, ∀ b ∈ List.range 2,
      (m = 0 ∨ o ∉ [0x01, 0x02]) → (a = 0 ∨ o = 0x10 ∨ o = 0x12) → (b = 0 ∨ o = 0x10) →
        o + 2 ^ 8 * m + 2 ^ 10 * a + 2 ^ 11 * b ∈ opcodeRows.map fun r => r.w0.toNat := by
  decide

theorem row_of_flagsClear (hop : ¬BadOpcode c) (hmode : ¬BadMode c) (hflags : FlagsClear c) :
    ∃ r ∈ opcodeRows, c.w0 = r.w0 := by
  obtain ⟨hhigh, hundef⟩ := hflags
  have hflag : ∀ k < 6, flagBit c k = 0 ∨ (opcNumber c = 0x10 ∧ k < 2) ∨ (opcNumber c = 0x12 ∧ k = 0) := fun k hk =>
    or_iff_not_imp_right.2 (hundef k (List.mem_range.2 hk))
  have hw : c.w0.toNat = opcNumber c + 2 ^ 8 * modeNumber c + 2 ^ 10 * flagBit c 0 + 2 ^ 11 * flagBit c 1 := by
    have h2 := hflag 2; have h3 := hflag 3; have h4 := hflag 4; have h5 := hflag 5
    simp only [opcNumber, modeNumber, flagBit] at *
    omega
  obtain ⟨hreserved, hplain⟩ := not_or.1 hmode
  have hlegal : modeNumber c < 3 := lt_of_le_of_ne (Nat.le_of_lt_succ (Nat.mod_lt _ (by decide))) hreserved
  have hbit (k : Nat) : flagBit c k ∈ List.range 2 := List.mem_range.2 (Nat.mod_lt _ (by decide))
  have hrow := row_of_fields (opcNumber c) (not_not.1 hop) (modeNumber c) (List.mem_range.2 hlegal) (flagBit c 0) (hbit 0)
    (flagBit c 1) (hbit 1) (by tauto) (by have := hflag 0; omega) (by have := hflag 1; omega)
  obtain ⟨r, hr, hr0⟩ := List.mem_map.1 hrow
  exact ⟨r, hr, BitVec.eq_of_toNat_eq (hw.trans hr0.symm)⟩

/-! ## Words 1 to 3 (R98, R99) -/

/-- The slots that the opcode and its flags do not use (R98), as a list. -/
def unusedSlots (c : Command) : List Nat :=
  if opcNumber c = 0x10 then (if flagBit c 0 = 1 then [] else [2]) ++ (if flagBit c 1 = 1 then [] else [3]) ++ [4, 5]
  else if opcNumber c = 0x11 then [2, 3, 4, 5]
  else if opcNumber c = 0x12 then (if flagBit c 0 = 1 then [] else [2])
  else [0, 1, 2, 3, 4, 5]

theorem mem_unusedSlots {k : Nat} : k ∈ unusedSlots c ↔ k ∈ List.range 6 ∧ ¬SlotUsed c k := by
  unfold unusedSlots
  split_ifs <;> simp [SlotUsed, *] <;> omega

/-- The zero bits of words 1 to 3: the unused slots, and the window and padding fields the operation does not have. -/
def OperandsClear (c : Command) : Prop :=
  SlotsClear c (unusedSlots c)
    ∧ (opcNumber c ≠ 0x11 → (if opcNumber c = 0x12 then c.win 0 = 0 ∧ c.win 1 = 0 else c.w2 = 0) ∧ c.w3 = 0)

theorem word_eq_zero_iff {w : Word} : w = 0 ↔ w.toNat = 0 := BitVec.toNat_inj.symm

theorem slot_eq_zero_iff {k : Nat} : c.slot k = 0 ↔ slotNumber c k = 0 := by
  rw [← zeroBits_slot, zeroBits_iff, slotNumber]
  norm_num

/-- Check 3 of R100 is about the zero bits of the four words. -/
theorem not_badField_iff : ¬BadField c ↔ FlagsClear c ∧ OperandsClear c := by
  have h1 : zeroBits c.w1 24 8 = true ↔ c.w1.toNat / 2 ^ 24 = 0 := by
    have := c.w1.isLt
    rw [zeroBits_iff]
    omega
  have h2 : c.w2 = 0 ↔ c.w2.toNat % 2 ^ 16 = 0 ∧ c.w2.toNat / 2 ^ 16 = 0 := by
    rw [word_eq_zero_iff]
    omega
  have hk : c.win 0 = 0 ∧ c.win 1 = 0 ↔ c.w2.toNat % 2 ^ 16 = 0 := by
    rw [← zeroBits_kernel, zeroBits_iff, pow_zero, Nat.div_one]
  simp only [BadField, FlagsClear, OperandsClear, SlotsClear, mem_unusedSlots, and_imp, h1, h2, hk, word_eq_zero_iff,
    slot_eq_zero_iff]
  push Not
  by_cases h12 : opcNumber c = 0x12
  · simp only [h12, if_true, ne_eq, not_true, false_implies]
    tauto
  · simp only [h12, if_false]
    tauto

/-- What the row of an opcode and its flags asks of words 1 to 3 (R97 to R99). -/
def mbzOf (c : Command) : Bool :=
  if opcNumber c = 0x10 then
    if flagBit c 0 = 1 then if flagBit c 1 = 1 then mbzBsignAB c else mbzBsignA c
    else if flagBit c 1 = 1 then mbzBsignB c else mbzBsign c
  else if opcNumber c = 0x11 then mbzBnorm c
  else if opcNumber c = 0x12 then if flagBit c 0 = 1 then mbzBconvB c else mbzBconv c
  else mbzNone c

theorem mbz_of_row : ∀ r ∈ opcodeRows, ∀ c : Command, c.w0 = r.w0 → r.mbz c = mbzOf c := by
  simp +contextual [opcodeRows, mbzOf, opcNumber, flagBit]

theorem mbzOf_iff : mbzOf c = true ↔ OperandsClear c := by
  unfold mbzOf OperandsClear unusedSlots
  by_cases h10 : opcNumber c = 0x10
  · by_cases ha : flagBit c 0 = 1 <;> by_cases hb : flagBit c 1 = 1 <;>
      simp [h10, ha, hb, mbzBsignAB_iff, mbzBsignA_iff, mbzBsignB_iff, mbzBsign_iff]
  by_cases h11 : opcNumber c = 0x11
  · simp [h11, mbzBnorm_iff]
  by_cases h12 : opcNumber c = 0x12
  · by_cases ha : flagBit c 0 = 1 <;> simp [h12, ha, mbzBconvB_iff, mbzBconv_iff]
  · simp [h10, h11, h12, mbzNone_iff]

/-- Past checks 1 and 2, the words of a row are those that pass check 3 (R101, R103). -/
theorem mbz_iff_not_badField {r : Row} (hr : r ∈ opcodeRows) (hw : c.w0 = r.w0) : r.mbz c = true ↔ ¬BadField c := by
  rw [mbz_of_row r hr c hw, mbzOf_iff, not_badField_iff, and_iff_right (flagsClear_of_row hr hw)]

/-! ## The first check that fails (R100) -/

/-- Everything the decoder can answer: the first of the three checks that fails, or a command. -/
theorem decode_cases (c : Command) :
    (BadOpcode c ∧ decode c = .error .opcode) ∨ (¬BadOpcode c ∧ BadMode c ∧ decode c = .error .mode)
      ∨ (¬BadOpcode c ∧ ¬BadMode c ∧ BadField c ∧ decode c = .error .field)
      ∨ (¬BadOpcode c ∧ ¬BadMode c ∧ ¬BadField c ∧ ∃ i, decode c = .ok i) := by
  cases hknown : knownOpcode c.opc with
  | false =>
    have hop : BadOpcode c := not_not.1 (mt knownOpcode_iff.2 (by simp [hknown]))
    exact .inl ⟨hop, by simp [decode, hknown]⟩
  | true =>
    have hop := knownOpcode_iff.1 hknown
    cases hbad : badMode c.opc c.modeField with
    | true => exact .inr (.inl ⟨hop, badMode_iff.1 hbad, by simp [decode, hknown, hbad]⟩)
    | false =>
      have hmode : ¬BadMode c := mt badMode_iff.2 (by simp [hbad])
      rcases decode_by_table hknown hbad with ⟨r, hr, hw, hm, hd⟩ | ⟨hno, hd⟩
      · exact .inr (.inr (.inr ⟨hop, hmode, (mbz_iff_not_badField hr hw).1 hm, _, hd⟩))
      · refine .inr (.inr (.inl ⟨hop, hmode, not_not.1 fun hfield => ?_, hd⟩))
        obtain ⟨hflags, -⟩ := not_badField_iff.1 hfield
        obtain ⟨r, hr, hw⟩ := row_of_flagsClear hop hmode hflags
        exact Bool.noConfusion ((hno r hr hw).symm.trans ((mbz_iff_not_badField hr hw).2 hfield))

/-- The check named by the statements is the one the decoder answers (R100, R212). -/
theorem decode_of_failsCheck {k : Nat} (h : FailsCheck c k) :
    ∃ e, decode c = .error e ∧ (illegalErr e).word = errWord 6 k 15 := by
  rcases decode_cases c with ⟨hop, hd⟩ | ⟨hop, hmode, hd⟩ | ⟨hop, hmode, hfield, hd⟩ | ⟨hop, hmode, hfield, -⟩
  · obtain rfl : k = 1 := by simpa [FailsCheck, hop] using h
    exact ⟨_, hd, rfl⟩
  · obtain rfl : k = 2 := by simpa [FailsCheck, hop, hmode] using h
    exact ⟨_, hd, rfl⟩
  · obtain rfl : k = 3 := by simpa [FailsCheck, hop, hmode, hfield] using h
    exact ⟨_, hd, rfl⟩
  · simp [FailsCheck, hop, hmode, hfield] at h

/-- A head that does not decode ends in the fatal error (R100, R217). -/
theorem step_of_illegal {s : State} {q : List Command} {e : Illegal} (hq : s.queue = c :: q) (herr : s.err = false)
    (hmover : mover s = .sequencer) (hd : decode c = .error e) :
    step s = .next { failed s (illegalErr e).word c.w0 with sched := s.sched.tail } := by
  rcases step_cases s with ⟨hhost, -⟩ | ⟨-, hstep⟩
  · rw [hmover] at hhost
    cases hhost
  rw [hstep]
  rcases sequencerStep_cases (dropTurn s) with ⟨hno, -⟩ | ⟨-, c', q', hq', hrun⟩
  · simp [herr, hq] at hno
  obtain ⟨rfl, rfl⟩ := List.cons.inj (hq.symm.trans hq')
  rcases hrun with ⟨i, hd', -⟩ | ⟨e', hd', hrun⟩ <;> cases hd.symm.trans hd'
  rw [hrun, fatalError_eq_failed]
  rfl

end

/-- Settles O3: the decoder answers the first check that fails, and the sequencer raises it. -/
theorem illegalCommandFailsFirstCheck : Obligations.IllegalCommandFailsFirstCheck := by
  refine ⟨fun s c q k hq herr hmover hfails => ?_, fun c hlegal => ?_⟩
  · obtain ⟨e, hd, hword⟩ := decode_of_failsCheck hfails
    rw [step_of_illegal hq herr hmover hd, hword]
  · rcases decode_cases c with ⟨hop, -⟩ | ⟨hop, hmode, -⟩ | ⟨hop, hmode, hfield, -⟩ | ⟨-, -, -, hd⟩
    · exact absurd (.inl ⟨hop, rfl⟩) (hlegal 1)
    · exact absurd (.inr (.inl ⟨hop, hmode, rfl⟩)) (hlegal 2)
    · exact absurd (.inr (.inr ⟨hop, hmode, hfield, rfl⟩)) (hlegal 3)
    · exact hd

end Sys2Proof.Proofs
end

