-- ==== Sys2Proof/Proofs/CfgMode.lean ====
section
/-! SUPPORT. What a kernel command in CFG mode leaves when its operands are ready (R96, R176, R181): its unshaped outputs shaped. -/

namespace Sys2Proof.Proofs

open Sys2Proof.Machine Sys2Proof.Safety

/-- A ready output is configured by `AutoShape` as R122 and R181 say. -/
theorem configured_shapedAs {m : Mode} {memSize : Nat} {d : Desc} {o : Derived} (hr : OutputReady m memSize d o.ty o.shape)
    (hb : BoundedShape o.shape) : Configured d (shapedAs d (some o)) o.ty o.shape := by
  obtain ⟨-, ⟨hs, -⟩ | ⟨hs, -, -, hsize, -⟩⟩ := hr
  · rw [Configured.eq_def, if_pos hs, shapedAs_of_shaped hs]
  · obtain ⟨hsh, hs1, hs2, hs3⟩ := dense_fields (d := d) hb hsize
    rw [Configured.eq_def, if_neg (by simp [hs]), shapedAs_of_unshaped hs]
    refine ⟨rfl, rfl, rfl, ?_, hsh, hs1, hs2, hs3⟩
    cases o.ty <;> rfl

/-- What the checks answer for the table, in CFG mode, is the whole effect but for the retirement. -/
theorem cfgDone_of_checks {m : Mode} {memSize : Nat} {wpq : Bool} {s : State} {k : Kernel} {t' : TdTable}
    (hok : k.checks m memSize wpq s.td = .ok t') :
    CfgDone s (retire { s with td := t' }) ((k.derived s.td).map Derived.slot) := by
  constructor
  case rest => constructor <;> rfl
  case mem => exact fun _ => rfl
  case wpq => rfl
  case wpn => rfl
  case others =>
    intro j hj
    obtain ⟨-, -, -, -, hauto, -⟩ := checks_eq_ok.1 hok
    have hnone : firstNaming (k.derived s.td) j = none :=
      List.find?_eq_none.2 fun o ho heq => hj (List.mem_map.2 ⟨o, ho, beq_iff_eq.1 heq⟩)
    have hat := autoShapeAll_at hauto j
    rwa [hnone] at hat

/-- A ready command in CFG mode configures every output and changes nothing else but RETIRED and the queue. -/
theorem exec_cfg_of_ready {s : State} {i : Instr} {k : Kernel} (hk : kernelOf i = some (.cfg, k)) (h : Ready s i) :
    ∃ t, exec i s = .next t ∧ CfgDone s t ((k.derived s.td).map Derived.slot)
      ∧ ∀ o ∈ k.derived s.td, Configured (s.tdAt o.slot) (t.tdAt o.slot) o.ty o.shape := by
  obtain ⟨t', hok⟩ := (ready_iff_checks hk).1 h
  refine ⟨retire { s with td := t' }, ?_, cfgDone_of_checks hok, fun o ho => ?_⟩
  · rw [exec_of_kernelOf hk, runKernel, hok]
  · have hat : (retire { s with td := t' }).tdAt o.slot = shapedAs (s.tdAt o.slot) (some o) := output_at_of_checks hok ho
    rw [hat]
    exact configured_shapedAs (outputReady_of_checks hok ho) (derived_bounded (inputOk_of_checks hok) ho)

/-- Settles O12: each of the four is a ready command in CFG mode, its outputs those its flags use. -/
theorem bsignCfgShapesOutputs : Obligations.BsignCfgShapesOutputs := by
  intro s sa sb sc sd
  refine ⟨fun h => ?_, fun h => ?_, fun h => ?_, fun h => ?_⟩
  · obtain ⟨t, hexec, hdone, hout⟩ := exec_cfg_of_ready (i := .bsignCfg sa sb) rfl h
    exact ⟨t, hexec, hdone, hout _ (.head _)⟩
  · obtain ⟨t, hexec, hdone, hout⟩ := exec_cfg_of_ready (i := .bsignACfg sa sb sc) rfl h
    exact ⟨t, hexec, hdone, hout _ (.head _), hout _ (.tail _ (.head _))⟩
  · obtain ⟨t, hexec, hdone, hout⟩ := exec_cfg_of_ready (i := .bsignBCfg sa sb sd) rfl h
    exact ⟨t, hexec, hdone, hout _ (.head _), hout _ (.tail _ (.head _))⟩
  · obtain ⟨t, hexec, hdone, hout⟩ := exec_cfg_of_ready (i := .bsignABCfg sa sb sc sd) rfl h
    exact ⟨t, hexec, hdone, hout _ (.head _), hout _ (.tail _ (.head _)), hout _ (.tail _ (.tail _ (.head _)))⟩

end Sys2Proof.Proofs
end

