-- ==== Sys2Proof/Proofs/SourcePadding.lean ====
section
/-! SUPPORT. What a `BSIGN` computes depends on the elements of its source alone, not on the stride padding between them (R125). -/

namespace Sys2Proof.Proofs

open Sys2Proof.Machine Sys2Proof.Safety

/-- Two states read the same elements of a tensor. -/
def SameElements (s s' : State) (d : Desc) : Prop :=
  ∀ x y c n, x < d.w → y < d.h → c < d.c → n < d.n → s'.getF32 d x y c n = s.getF32 d x y c n

section
variable {s s' : State} {src : Desc}

theorem nanAt_congr (hdraws : s'.draws = s.draws) (a : Nat) : s'.nanAt a = s.nanAt a := by
  rw [State.nanAt, State.nanAt, hdraws]

/-- A packed byte takes its bits from the elements of its row and from the draw (R124). -/
theorem packedByte_congr (h : SameElements s s' src) (hdraws : s'.draws = s.draws) (dst : Desc) (g : Nat) {y c n : Nat}
    (hy : y < src.h) (hc : c < src.c) (hn : n < src.n) : packedByte s' src dst g y c n = packedByte s src dst g y c n := by
  unfold packedByte
  congr 1
  funext k
  split
  · rw [h _ _ _ _ ‹_› hy hc hn]
  · rw [hdraws]

theorem alphaValue_congr (h : SameElements s s' src) (hdraws : s'.draws = s.draws) (dst : Desc) {n : Nat} (hn : n < src.n) :
    alphaValue s' src dst n = alphaValue s src dst n := by
  have hblock : blockElements s' src n = blockElements s src n := by
    refine List.flatMap_congr fun c hc => List.flatMap_congr fun y hy => List.map_congr_left fun x hx => ?_
    exact h x y c n (List.mem_range.1 hx) (List.mem_range.1 hy) (List.mem_range.1 hc) hn
  simp only [alphaValue, hblock, nanAt_congr hdraws]

theorem betaValue_congr (h : SameElements s s' src) (hdraws : s'.draws = s.draws) (dst : Desc) {x y n : Nat} (hx : x < src.w)
    (hy : y < src.h) (hn : n < src.n) : betaValue s' src dst x y n = betaValue s src dst x y n := by
  have hcolumn : ((List.range src.c).map fun c => s'.getF32 src x y c n)
      = (List.range src.c).map fun c => s.getF32 src x y c n :=
    List.map_congr_left fun c hc => h x y c n hx hy (List.mem_range.1 hc) hn
  simp only [betaValue, hcolumn, nanAt_congr hdraws]

/-- States with one table and one draw that read the same elements of the source compute the same cells. -/
theorem computeBsign_congr {a b : Bool} {sa sb sc sd : Slot} (htd : s'.td = s.td) (hdraws : s'.draws = s.draws)
    (h : SameElements s s' (s.tdAt sa)) : computeBsign a b sa sb sc sd s' = computeBsign a b sa sb sc sd s := by
  have hat (i : Slot) : s'.tdAt i = s.tdAt i := by rw [State.tdAt, htd]; rfl
  have hpacked : packedCells s' (s.tdAt sa) (s.tdAt sb) = packedCells s (s.tdAt sa) (s.tdAt sb) := by
    refine List.flatMap_congr fun n hn => List.flatMap_congr fun c hc => List.flatMap_congr fun y hy =>
      List.map_congr_left fun g _ => ?_
    rw [packedByte_congr h hdraws _ _ (List.mem_range.1 hy) (List.mem_range.1 hc) (List.mem_range.1 hn)]
  have halpha : alphaCells s' (s.tdAt sa) (s.tdAt sc) = alphaCells s (s.tdAt sa) (s.tdAt sc) := by
    refine List.flatMap_congr fun n hn => ?_
    rw [alphaValue_congr h hdraws _ (List.mem_range.1 hn)]
  have hbeta : betaCells s' (s.tdAt sa) (s.tdAt sd) = betaCells s (s.tdAt sa) (s.tdAt sd) := by
    refine List.flatMap_congr fun n hn => List.flatMap_congr fun y hy => List.flatMap_congr fun x hx => ?_
    rw [betaValue_congr h hdraws _ (List.mem_range.1 hx) (List.mem_range.1 hy) (List.mem_range.1 hn)]
  simp only [computeBsign, hat, hpacked, halpha, hbeta]

end

/-- Every byte of an F32 output is written. -/
theorem exists_cell_of_elementByte {d : Desc} {sh : Shape} {val : Nat → Nat → Nat → Nat → Byte} {cells : List Host.Cell}
    {adr : Nat} (hw : WritesRows d .f32 sh val cells) (h : ElementByte d sh adr) : ∃ p ∈ cells, p.1 = adr := by
  obtain ⟨x, y, c, n, k, hx, hy, hc, hn, hk, rfl⟩ := h
  rw [addrF32_add]
  exact ⟨_, (hw _).2 ⟨4 * x + k, y, c, n, by simp only [DType.rowBytes]; omega, hy, hc, hn, rfl⟩, rfl⟩

/-- Every byte of the outputs of a `BSIGN` is written. -/
theorem exists_cell_of_output {a b : Bool} {s : State} {sa sb sc sd : Slot} {adr : Nat}
    (h : PackedByteAt (s.tdAt sb) (packedShape (s.tdAt sa)) adr
      ∨ (a = true ∧ ElementByte (s.tdAt sc) (alphaShape (s.tdAt sa)) adr)
      ∨ (b = true ∧ ElementByte (s.tdAt sd) (betaShape (s.tdAt sa)) adr)) :
    ∃ p ∈ computeBsign a b sa sb sc sd s, p.1 = adr := by
  rcases h with ⟨g, y, c, n, hg, hy, hc, hn, rfl⟩ | ⟨ha, h⟩ | ⟨hb, h⟩
  · have hp := (packedCells_writesRows s (s.tdAt sa) (s.tdAt sb) _).2 ⟨g, y, c, n, hg, hy, hc, hn, rfl⟩
    exact ⟨_, mem_computeBsign.2 (.inl hp), rfl⟩
  · obtain ⟨p, hp, hadr⟩ := exists_cell_of_elementByte (alphaCells_writesRows s _ _) h
    exact ⟨p, mem_computeBsign.2 (.inr (.inl ⟨ha, hp⟩)), hadr⟩
  · obtain ⟨p, hp, hadr⟩ := exists_cell_of_elementByte (betaCells_writesRows s _ _) h
    exact ⟨p, mem_computeBsign.2 (.inr (.inr ⟨hb, hp⟩)), hadr⟩

/-- A written byte holds its cell, among cells that agree. -/
theorem completed_readByte_of_mem {k : Kernel} {s : State} (hag : Agree (computeOf k s)) {p : Host.Cell}
    (hp : p ∈ computeOf k s) : (completed k s).readByte p.1 = p.2 := by
  rw [completed_readByte]
  exact readByte_writeCells_of_mem s _ _ _ hp fun q hq heq => hag q hq p hp heq

/-- Runs that compute the same cells, which agree, leave the same bytes in them. -/
theorem completed_readByte_congr {k : Kernel} {s s' : State} (hag : Agree (computeOf k s))
    (hcells : computeOf k s' = computeOf k s) {p : Host.Cell} (hp : p ∈ computeOf k s) :
    (completed k s').readByte p.1 = (completed k s).readByte p.1 := by
  rw [completed_readByte_of_mem hag hp, completed_readByte_of_mem] <;> rwa [hcells]

/-- Settles O58: both states compute the same cells, and every byte of an output is one of them. -/
theorem sourcePaddingReachesNoResult : Obligations.SourcePaddingReachesNoResult := by
  intro s mem' i a b sa sb sc sd hi h hsame
  have h' : BsignReady .exec a b { s with mem := mem' } sa sb sc sd := h
  refine ⟨_, _, exec_completed hi (bsign_checks_exec h), exec_completed hi (bsign_checks_exec h'), fun adr hadr => ?_⟩
  obtain ⟨p, hp, rfl⟩ := exists_cell_of_output hadr
  exact completed_readByte_congr (agree_computeOf (bsign_ready_iff.1 h))
    (computeBsign_congr (s' := { s with mem := mem' }) rfl rfl hsame) hp

end Sys2Proof.Proofs
end

