-- ==== Sys2Proof/Proofs/Statistics.lean ====
section
/-! SUPPORT. The statistics of a `BSIGN` (R126, R127): means of magnitudes are never negative (R135), and exact where every
partial sum of a constant magnitude is (R131, R134). -/

namespace Sys2Proof.Proofs

open Sys2Proof.Machine Sys2Proof.Safety

/-! ## Patterns with a clear sign bit -/

theorem lowBits_fabs32 (v : Word) : lowBits (fabs32 v) = lowBits v := by
  obtain ⟨-, habs⟩ := signAndMagnitudePatterns v
  rw [lowBits, habs, Nat.mod_mod, lowBits]

theorem f32Neg_fabs32 (v : Word) : f32Neg (fabs32 v) = false := by
  obtain ⟨-, habs⟩ := signAndMagnitudePatterns v
  rw [f32Neg_eq, habs, decide_eq_false_iff_not, Nat.not_le]
  exact Nat.mod_lt _ (by decide)

theorem f32Val_of_not_neg {v : Word} (h : f32Neg v = false) : f32Val v = f32Mag v := by
  rw [f32Val, h]
  rfl

theorem natAbs_f32Val (v : Word) : (f32Val v).natAbs = f32Mag v := by
  rw [f32Val]
  split <;> simp

/-- A pattern with a clear sign bit is its low bits. -/
theorem pack_lowBits {v : Word} (h : f32Neg v = false) : f32Pack false (lowBits v) = v := by
  rw [f32Neg_eq, decide_eq_false_iff_not, Nat.not_le] at h
  apply BitVec.eq_of_toNat_eq
  rw [f32Pack_toNat false (lowBits_lt v), lowBits, Nat.mod_eq_of_lt h]
  exact Nat.zero_add _

/-- The sign of a sum of operands with clear sign bits. -/
theorem sumSign_of_not_neg {a b : Word} (ha : f32Neg a = false) (hb : f32Neg b = false) : sumSign a b = false := by
  rw [sumSign, ha, hb, f32Val_of_not_neg ha, f32Val_of_not_neg hb, Bool.and_self, decide_eq_false (by omega), ite_self]

theorem cvtU32_neg (n : Nat) : f32Neg (cvtU32 n) = false := f32Neg_pack _ (f32Round_lt _ _)

theorem cvtU32_finite {n : Nat} (h : n < 2 ^ 32) : IsFinite (cvtU32 n) := (int_pack_nearest false h).1.1

/-- The finite value of magnitude `mag`, in units of 2^-149, with a clear sign bit. -/
structure HasMag (x : Word) (mag : Nat) : Prop where
  finite : IsFinite x
  sign : f32Neg x = false
  mag : f32Mag x = mag

theorem hasMag_zero : HasMag 0 0 := ⟨(isFinite_iff 0).2 (by decide), by decide, by decide⟩

/-! ## The sign of the statistics (R135) -/

/-- A NaN, or a value that is neither negative nor negative zero. -/
def NotNegative (v : Word) : Prop := f32IsNaN v = true ∨ f32Neg v = false

section
variable {nan a b : Word}

theorem fadd32_notNegative (hnan : f32IsNaN nan = true) (ha : NotNegative a) (hb : NotNegative b) :
    NotNegative (fadd32 nan a b) := by
  cases hna : f32IsNaN a
  case true => exact .inl (by simpa [fadd32, hna] using hnan)
  cases hnb : f32IsNaN b
  case true => exact .inl (by simpa [fadd32, hnb] using hnan)
  have hsa : f32Neg a = false := ha.resolve_left (by simp [hna])
  have hsb : f32Neg b = false := hb.resolve_left (by simp [hnb])
  refine .inr ?_
  cases hia : f32IsInf a
  · cases hib : f32IsInf b
    · rw [fadd32_finite (isFinite_of_not hna hia) (isFinite_of_not hnb hib), f32Neg_pack _ (f32Round_lt _ _),
        sumSign_of_not_neg hsa hsb]
    · rwa [fadd32_inf_right hib (isFinite_of_not hna hia)]
  · simp [fadd32, hna, hnb, hia, hsa, hsb]

theorem fdiv32_notNegative (hnan : f32IsNaN nan = true) (ha : NotNegative a) (hb : IsFinite b) (hsb : f32Neg b = false) :
    NotNegative (fdiv32 nan a b) := by
  rcases fdiv32_nan_cases nan a b with ⟨-, h⟩ | ⟨hvalid, -⟩
  · rw [NotNegative, h]
    exact .inl hnan
  simp only [InvalidQuotient, not_or, not_and, Bool.not_eq_true] at hvalid
  obtain ⟨hna, -, -, hzero⟩ := hvalid
  have hsa : f32Neg a = false := ha.resolve_left (by simp [hna])
  refine .inr ?_
  cases hia : f32IsInf a
  · have hfa := isFinite_of_not hna hia
    by_cases hb0 : f32Mag b = 0
    · rw [fdiv32_by_zero hfa hb (fun h => hzero h hb0) hb0, f32Neg_pack _ (by decide), hsa, hsb, bne_self_eq_false]
    · rw [fdiv32_finite hfa hb hb0, f32Neg_pack _ (f32Round_lt _ _), hsa, hsb, bne_self_eq_false]
  · rw [fdiv32_of_inf hia hb, f32Neg_pack _ (by decide), hsa, hsb, bne_self_eq_false]

end

/-- A sum of magnitudes from +0.0 on is not negative. -/
theorem absSum_notNegative {nan : Word} (hnan : f32IsNaN nan = true) (vs : List Word) : NotNegative (absSum nan vs) := by
  induction vs using List.reverseRecOn with
  | nil => exact .inr hasMag_zero.sign
  | append_singleton vs v ih =>
    rw [absSum, List.foldl_append]
    exact fadd32_notNegative hnan ih (.inr (f32Neg_fabs32 v))

/-- A mean of magnitudes is not negative. -/
theorem mean_notNegative {nan : Word} (hnan : f32IsNaN nan = true) (vs : List Word) {n : Nat} (hn : n < 2 ^ 32) :
    NotNegative (fdiv32 nan (absSum nan vs) (cvtU32 n)) :=
  fdiv32_notNegative hnan (absSum_notNegative hnan vs) (cvtU32_finite hn) (cvtU32_neg n)

/-! ## Exact sums and means (R134) -/

theorem hasMag_fabs32 {v : Word} (h : IsFinite v) : HasMag (fabs32 v) (f32Mag v) := by
  refine ⟨?_, f32Neg_fabs32 v, ?_⟩
  · rwa [isFinite_iff, lowBits_fabs32, ← isFinite_iff]
  · rw [f32Mag_eq, lowBits_fabs32, ← f32Mag_eq]

/-- Finite magnitudes are below the overflow bound. -/
theorem lowMag_lt_overflow {l : Nat} (h : l < f32InfLow) : lowMag l < overflowBound := by
  have hle : l ≤ 0x7F7FFFFF := by
    rw [f32InfLow] at h
    omega
  calc lowMag l ≤ lowMag 0x7F7FFFFF := lowMag_strictMono.monotone hle
    _ < overflowBound := by norm_num [lowMag, overflowBound]

/-- Rounding a value that is a binary32 gives that binary32. -/
theorem pack_round_exact {x : Word} {mag den : Nat} (hx : HasMag x mag) (hd : 0 < den) :
    f32Pack false (f32Round (mag * den) den) = x := by
  obtain ⟨hfin, hsign, rfl⟩ := hx
  rw [isFinite_iff] at hfin
  rw [f32Mag_eq]
  have hlt : lowMag (lowBits x) * den < overflowBound * den := Nat.mul_lt_mul_of_pos_right (lowMag_lt_overflow hfin) hd
  obtain ⟨hnear, -⟩ := round_nearest hd ((f32Round_lt_iff hd).2 hlt) (lowBits x)
  rw [sub_self, Int.natAbs_zero, Nat.le_zero, Int.natAbs_eq_zero, sub_eq_zero, Nat.cast_inj] at hnear
  rw [lowMag_strictMono.injective (Nat.eq_of_mul_eq_mul_right hd hnear), pack_lowBits hsign]

section
variable {nan a b r m : Word} {p q n mag : Nat}

/-- A sum that is a binary32 is that binary32. -/
theorem fadd32_exact (ha : HasMag a p) (hb : HasMag b q) (hr : HasMag r (p + q)) : fadd32 nan a b = r := by
  have hval : (f32Val a + f32Val b).natAbs = (p + q) * 1 := by
    rw [f32Val_of_not_neg ha.sign, f32Val_of_not_neg hb.sign, ha.mag, hb.mag]
    omega
  rw [fadd32_finite ha.finite hb.finite, sumSign_of_not_neg ha.sign hb.sign, hval, pack_round_exact hr Nat.one_pos]

/-- Counts up to 2^24 convert exactly. -/
theorem cvtU32_exact (h : n ≤ 2 ^ 24) : HasMag (cvtU32 n) (n * 2 ^ 149) := by
  have hlt : n < 2 ^ 32 := by omega
  have hval := (int_pack_nearest false hlt).2 h
  refine ⟨cvtU32_finite hlt, cvtU32_neg n, ?_⟩
  rw [← natAbs_f32Val, cvtU32, hval]
  simp [signOf, Int.natAbs_mul]

/-- `n` times a value over `n` is the value. -/
theorem fdiv32_exact (hn : 0 < n) (hle : n ≤ 2 ^ 24) (ha : HasMag a (n * mag)) (hm : HasMag m mag) :
    fdiv32 nan a (cvtU32 n) = m := by
  have hb := cvtU32_exact hle
  have hpos : 0 < n * 2 ^ 149 := by positivity
  rw [fdiv32_finite ha.finite hb.finite (by rw [hb.mag]; exact hpos.ne'), ha.sign, hb.sign, ha.mag, hb.mag, bne_self_eq_false,
    show n * mag * 2 ^ 149 = mag * (n * 2 ^ 149) by ring, pack_round_exact hm hpos]

/-- A sum of equal magnitudes is exact when every partial sum is a binary32. -/
theorem absSum_exact {vs : List Word} (hm : HasMag m mag) (hvs : ∀ v ∈ vs, fabs32 v = m)
    (hsums : ∀ k ≤ vs.length, ∃ z, HasMag z (k * mag)) : HasMag (absSum nan vs) (vs.length * mag) := by
  induction vs using List.reverseRecOn with
  | nil => simpa [absSum] using hasMag_zero
  | append_singleton vs v ih =>
    rw [List.length_append, List.length_singleton] at hsums ⊢
    have hsum := ih (fun w hw => hvs w (List.mem_append_left _ hw)) fun k hk => hsums k (Nat.le_succ_of_le hk)
    obtain ⟨z, hz⟩ := hsums (vs.length + 1) le_rfl
    have hlast : fabs32 v = m := hvs v (List.mem_append_right _ (List.mem_singleton_self v))
    have hstep : absSum nan (vs ++ [v]) = z := by
      rw [absSum, List.foldl_append, List.foldl_cons, List.foldl_nil, hlast]
      exact fadd32_exact hsum hm (by rwa [← Nat.succ_mul])
    rwa [hstep]

/-- The mean of equal magnitudes is that magnitude, under the condition of R134. -/
theorem mean_exact {vs : List Word} (hpos : 0 < vs.length) (hle : vs.length ≤ 2 ^ 24) (hm : HasMag m mag)
    (hvs : ∀ v ∈ vs, fabs32 v = m) (hsums : ∀ k ≤ vs.length, ∃ z, HasMag z (k * mag)) :
    fdiv32 nan (absSum nan vs) (cvtU32 vs.length) = m :=
  fdiv32_exact hpos hle (absSum_exact hm hvs hsums) hm

/-- R134's condition as the statements write it. -/
theorem exists_hasMag {k : Nat} (hm : f32Neg m = false) (h : ∃ z, IsFinite z ∧ f32Val z = k * f32Val m) :
    ∃ z, HasMag z (k * f32Mag m) := by
  obtain ⟨z, hz, hval⟩ := h
  rw [f32Val_of_not_neg hm, ← Nat.cast_mul] at hval
  refine ⟨fabs32 z, ?_⟩
  rw [← Int.natAbs_natCast (k * f32Mag m), ← hval, natAbs_f32Val]
  exact hasMag_fabs32 hz

/-- The mean of one element is its magnitude, unless it is a NaN (R131). -/
theorem mean_singleton {v : Word} (hv : f32IsNaN v = false) : fdiv32 nan (absSum nan [v]) (cvtU32 1) = fabs32 v := by
  cases hi : f32IsInf v
  · have hfin := isFinite_of_not hv hi
    refine mean_exact (vs := [v]) Nat.one_pos Nat.one_le_two_pow (hasMag_fabs32 hfin)
      (fun w hw => by rw [List.mem_singleton.1 hw]) fun k hk => ?_
    rcases Nat.le_one_iff_eq_zero_or_eq_one.1 hk with rfl | rfl
    · exact ⟨0, by simpa using hasMag_zero⟩
    · exact ⟨fabs32 v, by simpa using hasMag_fabs32 hfin⟩
  · have hlow : lowBits (fabs32 v) = f32InfLow := by rwa [lowBits_fabs32, ← f32IsInf_iff]
    have hsum : absSum nan [v] = fabs32 v := fadd32_inf_right ((f32IsInf_iff _).2 hlow) hasMag_zero.finite
    rw [hsum, fdiv32_of_inf ((f32IsInf_iff _).2 hlow) (cvtU32_finite (by decide)), f32Neg_fabs32, cvtU32_neg,
      bne_self_eq_false, ← hlow, pack_lowBits (f32Neg_fabs32 v)]

end

/-! ## Alpha and beta as means -/

theorem length_blockElements (s : State) (src : Desc) (n : Nat) : (blockElements s src n).length = src.w * src.h * src.c := by
  simp [blockElements]
  ring

theorem mem_blockElements {s : State} {src : Desc} {n : Nat} {v : Word} :
    v ∈ blockElements s src n ↔ ∃ x y c, x < src.w ∧ y < src.h ∧ c < src.c ∧ s.getF32 src x y c n = v := by
  simp only [blockElements, List.mem_flatMap, List.mem_map, List.mem_range]
  constructor
  · rintro ⟨c, hc, y, hy, x, hx, rfl⟩
    exact ⟨x, y, c, hx, hy, hc, rfl⟩
  · rintro ⟨x, y, c, hx, hy, hc, rfl⟩
    exact ⟨c, hc, y, hy, x, hx, rfl⟩

/-- The elements of a depth column. -/
def columnElements (s : State) (src : Desc) (x y n : Nat) : List Word :=
  (List.range src.c).map fun c => s.getF32 src x y c n

theorem length_columnElements (s : State) (src : Desc) (x y n : Nat) : (columnElements s src x y n).length = src.c := by
  simp [columnElements]

section
variable {a b : Bool} {s t : State} {sa sb sc sd : Slot}

/-- Every alpha a `BSIGN` leaves is the mean of its block, with some quiet NaN for the invalid operations (R126). -/
theorem alpha_eq_mean (hd : BsignDone a b s t sa sb sc sd) (ha : a = true) {n : Nat} (hn : n < (s.tdAt sa).n) :
    ∃ nan, f32IsNaN nan = true ∧ t.getF32 (s.tdAt sc) n 0 0 0
      = fdiv32 nan (absSum nan (blockElements s (s.tdAt sa) n)) (cvtU32 ((s.tdAt sa).w * (s.tdAt sa).h * (s.tdAt sa).c)) := by
  obtain ⟨nan, ⟨hnan, -⟩, h⟩ := hd.alpha ha n hn
  exact ⟨nan, hnan, by rw [h, absSum_blockElements]⟩

/-- Every beta a `BSIGN` leaves is the mean of its column, with some quiet NaN for the invalid operations (R127). -/
theorem beta_eq_mean (hd : BsignDone a b s t sa sb sc sd) (hb : b = true) {x y n : Nat} (hx : x < (s.tdAt sa).w)
    (hy : y < (s.tdAt sa).h) (hn : n < (s.tdAt sa).n) :
    ∃ nan, f32IsNaN nan = true ∧ t.getF32 (s.tdAt sd) x y 0 n
      = fdiv32 nan (absSum nan (columnElements s (s.tdAt sa) x y n)) (cvtU32 (s.tdAt sa).c) := by
  obtain ⟨nan, ⟨hnan, -⟩, h⟩ := hd.beta hb x y n hx hy hn
  exact ⟨nan, hnan, by rw [h, columnElements, absSum_column]⟩

/-- The extents of a ready source, and how many elements its blocks hold (R26, R121). -/
theorem source_bounds {m : Mode} (h : BsignReady m a b s sa sb sc sd) :
    (s.tdAt sa).w * (s.tdAt sa).h * (s.tdAt sa).c < 2 ^ 32 ∧ 0 < (s.tdAt sa).w * (s.tdAt sa).h * (s.tdAt sa).c
      ∧ 0 < (s.tdAt sa).c ∧ (s.tdAt sa).c ≤ 65535 := by
  obtain ⟨⟨-, -, ⟨-, hw, -, hh, -, hc, hc', -⟩, -⟩, hcount, -⟩ := h
  exact ⟨by omega, by positivity, hc, hc'⟩

/-! ## What the rules say of alpha and beta (R131, R134, R135) -/

theorem alpha_notNegative (h : BsignReady .exec a b s sa sb sc sd) (hd : BsignDone a b s t sa sb sc sd) (ha : a = true)
    {n : Nat} (hn : n < (s.tdAt sa).n) : NotNegative (t.getF32 (s.tdAt sc) n 0 0 0) := by
  obtain ⟨nan, hnan, heq⟩ := alpha_eq_mean hd ha hn
  rw [heq]
  exact mean_notNegative hnan _ (source_bounds h).1

theorem beta_notNegative (h : BsignReady .exec a b s sa sb sc sd) (hd : BsignDone a b s t sa sb sc sd) (hb : b = true)
    {x y n : Nat} (hx : x < (s.tdAt sa).w) (hy : y < (s.tdAt sa).h) (hn : n < (s.tdAt sa).n) :
    NotNegative (t.getF32 (s.tdAt sd) x y 0 n) := by
  obtain ⟨nan, hnan, heq⟩ := beta_eq_mean hd hb hx hy hn
  obtain ⟨-, -, -, hc⟩ := source_bounds h
  rw [heq]
  exact mean_notNegative hnan _ (by omega)

/-- The alpha of a block of constant magnitude (R134 (b)). -/
theorem alpha_of_constant_block (h : BsignReady .exec a b s sa sb sc sd) (hd : BsignDone a b s t sa sb sc sd) (ha : a = true)
    {n : Nat} {m : Word} (hn : n < (s.tdAt sa).n) (hm : IsFinite m) (hsign : f32Neg m = false)
    (hconst : ∀ x y c, x < (s.tdAt sa).w → y < (s.tdAt sa).h → c < (s.tdAt sa).c →
      fabs32 (s.getF32 (s.tdAt sa) x y c n) = m)
    (hle : (s.tdAt sa).w * (s.tdAt sa).h * (s.tdAt sa).c ≤ 2 ^ 24)
    (hsums : ∀ k ≤ (s.tdAt sa).w * (s.tdAt sa).h * (s.tdAt sa).c, ∃ z, IsFinite z ∧ f32Val z = k * f32Val m) :
    t.getF32 (s.tdAt sc) n 0 0 0 = m := by
  obtain ⟨nan, -, heq⟩ := alpha_eq_mean hd ha hn
  obtain ⟨-, hpos, -⟩ := source_bounds h
  have hlen := length_blockElements s (s.tdAt sa) n
  rw [← hlen] at heq hle hsums hpos
  rw [heq]
  refine mean_exact hpos hle ⟨hm, hsign, rfl⟩ (fun v hv => ?_) fun k hk => exists_hasMag hsign (hsums k hk)
  obtain ⟨x, y, c, hx, hy, hc, rfl⟩ := mem_blockElements.1 hv
  exact hconst x y c hx hy hc

/-- The beta of a depth column of constant magnitude (R134 (c)). -/
theorem beta_of_constant_column (h : BsignReady .exec a b s sa sb sc sd) (hd : BsignDone a b s t sa sb sc sd) (hb : b = true)
    {x y n : Nat} {m : Word} (hx : x < (s.tdAt sa).w) (hy : y < (s.tdAt sa).h) (hn : n < (s.tdAt sa).n) (hm : IsFinite m)
    (hsign : f32Neg m = false) (hconst : ∀ c < (s.tdAt sa).c, fabs32 (s.getF32 (s.tdAt sa) x y c n) = m)
    (hsums : ∀ k ≤ (s.tdAt sa).c, ∃ z, IsFinite z ∧ f32Val z = k * f32Val m) : t.getF32 (s.tdAt sd) x y 0 n = m := by
  obtain ⟨nan, -, heq⟩ := beta_eq_mean hd hb hx hy hn
  obtain ⟨-, -, hpos, hle⟩ := source_bounds h
  have hlen := length_columnElements s (s.tdAt sa) x y n
  rw [heq, ← hlen]
  refine mean_exact (by omega) (by omega) ⟨hm, hsign, rfl⟩ (fun v hv => ?_) fun k hk =>
    exists_hasMag hsign (hsums k (hlen ▸ hk))
  obtain ⟨c, hc, rfl⟩ := List.mem_map.1 hv
  exact hconst c (List.mem_range.1 hc)

/-- The beta of a column of depth 1 (R131). -/
theorem beta_of_depth_one (hd : BsignDone a b s t sa sb sc sd) (hb : b = true) (hc : (s.tdAt sa).c = 1) {x y n : Nat}
    (hx : x < (s.tdAt sa).w) (hy : y < (s.tdAt sa).h) (hn : n < (s.tdAt sa).n)
    (hv : f32IsNaN (s.getF32 (s.tdAt sa) x y 0 n) = false) :
    t.getF32 (s.tdAt sd) x y 0 n = fabs32 (s.getF32 (s.tdAt sa) x y 0 n) := by
  obtain ⟨nan, -, heq⟩ := beta_eq_mean hd hb hx hy hn
  rw [heq, columnElements, hc]
  exact mean_singleton hv

end

/-! ## The obligations -/

/-- What follows from the effect of a ready `BSIGN*` in EXEC mode holds of the state it leaves. -/
theorem exec_bsign_leaves {a b : Bool} {s : State} {sa sb sc sd : Slot} {i : Instr} {p : State → Prop}
    (hi : kernelOf i = some (.exec, .bsign a b sa sb sc sd)) (h : BsignReady .exec a b s sa sb sc sd)
    (hp : ∀ t, BsignDone a b s t sa sb sc sd → p t) : ∃ t, exec i s = .next t ∧ p t := by
  obtain ⟨t, hexec, hd⟩ := exec_bsign hi h
  exact ⟨t, hexec, hp t hd⟩

/-- Settles O55: each statistic is a mean of magnitudes. -/
theorem statisticsNeverNegative : Obligations.StatisticsNeverNegative := by
  intro s sa sb sc sd
  refine ⟨fun h => exec_bsign_leaves rfl h fun t hd => ?alpha, fun h => exec_bsign_leaves rfl h fun t hd => ?beta,
    fun h => exec_bsign_leaves rfl h fun t hd => ⟨?alphas, ?betas⟩⟩
  case alpha => exact fun n => alpha_notNegative h hd rfl
  case beta => exact fun x y n => beta_notNegative h hd rfl
  case alphas => exact fun n => alpha_notNegative h hd rfl
  case betas => exact fun x y n => beta_notNegative h hd rfl

/-- Settles O56: a mean of one magnitude, or of equal ones, is that magnitude. -/
theorem betaOfDepthOneOrConstantColumn : Obligations.BetaOfDepthOneOrConstantColumn := by
  intro s sa sb sc sd
  refine ⟨fun h => exec_bsign_leaves rfl h fun t hd => ?_, fun h => exec_bsign_leaves rfl h fun t hd => ?_⟩
  · exact ⟨fun hc x y n => beta_of_depth_one hd rfl hc, fun x y n m => beta_of_constant_column h hd rfl⟩
  · exact ⟨fun hc x y n => beta_of_depth_one hd rfl hc, fun x y n m => beta_of_constant_column h hd rfl⟩

/-- Settles O57: the mean of a block of equal magnitudes is that magnitude. -/
theorem alphaOfConstantBlock : Obligations.AlphaOfConstantBlock := fun _ _ _ _ _ =>
  ⟨fun h => exec_bsign_leaves rfl h fun _ hd _ _ => alpha_of_constant_block h hd rfl,
    fun h => exec_bsign_leaves rfl h fun _ hd _ _ => alpha_of_constant_block h hd rfl⟩

end Sys2Proof.Proofs
end

