-- ==== Sys2Proof/Proofs/OperandErrors.lean ====
section
/-! SUPPORT. Which error a command reports when its window or an operand fails: check 4 comes first, then `CheckOperand` of each
operand in slot order (R121, R141, R156, R180). -/

namespace Sys2Proof.Proofs

open Sys2Proof.Machine Sys2Proof.Safety

/-! ## Checks that fail with a given error -/

/-- A sequence of checks ends with the error of the given code, check number and descriptor. -/
def FailsWith {α : Type} (x : Except Err α) (code chk : Nat) (td : Slot) : Prop :=
  ∃ c, x = .error ⟨c, td⟩ ∧ errPair ⟨c, td⟩ = (code, chk)

section
variable {α β : Type} {x : Except Err α} {f : α → Except Err β} {code chk : Nat} {td : Slot}

theorem failsWith_bind (h : FailsWith x code chk td) : FailsWith (x >>= f) code chk td := by
  obtain ⟨c, rfl, hc⟩ := h
  exact ⟨c, rfl, hc⟩

theorem failsWith_bind_of_ok {a : α} (hx : x = .ok a) (h : FailsWith (f a) code chk td) :
    FailsWith (x >>= f) code chk td := by
  subst hx
  exact h

theorem failsWith_require {p : Prop} [Decidable p] {c : Check} (hp : ¬p) (hc : errPair ⟨c, td⟩ = (code, chk)) :
    FailsWith (require p ⟨c, td⟩) code chk td := ⟨c, require_eq_error.2 ⟨hp, rfl⟩, hc⟩

end

/-- A command whose checks fail with an error leaves what its mode says (R176, R217, R220). -/
theorem exec_of_failsWith {s : State} {i : Instr} {m : Mode} {k : Kernel} {code chk : Nat} {td : Slot}
    (hk : kernelOf i = some (m, k)) (h : FailsWith (k.checks m s.params.memSize s.wpq s.td) code chk td) :
    exec i s = .next (if m = .val then reported s (errWord code chk td.toNat)
      else failed s (errWord code chk td.toNat) (encode i).w0) := by
  obtain ⟨c, he, hc⟩ := h
  rw [exec_of_checks_error hk he, errWord_errPair, hc]

/-! ## Check 4 (R141, R156) -/

theorem byte_pos_iff {b : Byte} : 1 ≤ b.toNat ↔ b ≠ 0 := by
  rw [Nat.one_le_iff_ne_zero, not_iff_not, ← BitVec.toNat_inj]
  rfl

theorem windowCheck_eq_ok_iff {k : Kernel} : k.windowCheck = .ok () ↔ WindowOk k := by
  cases k with
  | bsign => exact iff_of_true rfl trivial
  | bnorm sa sb win => simp only [Kernel.windowCheck, require_eq_ok, WindowOk, byte_pos_iff]
  | bconv bias sa sb sc sd se sf sx sy => simp only [Kernel.windowCheck, require_eq_ok, WindowOk, byte_pos_iff]

theorem windowCheck_failsWith {k : Kernel} (h : ¬WindowOk k) : FailsWith k.windowCheck 3 4 15 := by
  rw [← windowCheck_eq_ok_iff] at h
  cases k with
  | bsign => exact absurd rfl h
  | bnorm => exact failsWith_require (fun hp => h (require_eq_ok.2 hp)) rfl
  | bconv => exact failsWith_require (fun hp => h (require_eq_ok.2 hp)) rfl

/-! ## `CheckOperand` (R180) -/

/-- The checks of an operand answer what `operandError` says: they pass, or fail with that code and number. -/
def Answers (x : Except Err Unit) (td : Slot) : Option (Nat × Nat) → Prop
  | none => x = .ok ()
  | some p => FailsWith x p.1 p.2 td

section
variable {td : Slot} {code chk : Nat} {p q : Prop} [Decidable p] [Decidable q] {c : Check}

theorem answers_require (hpq : p ↔ ¬q) (hc : errPair ⟨c, td⟩ = (code, chk)) :
    Answers (require q ⟨c, td⟩) td (if p then some (code, chk) else none) := by
  by_cases h : p
  · rw [if_pos h]
    exact failsWith_require (hpq.1 h) hc
  · rw [if_neg h]
    exact require_eq_ok.2 (not_not.1 (mt hpq.2 h))

theorem answers_require_bind {f : Unit → Except Err Unit} {r : Option (Nat × Nat)} (hpq : p ↔ ¬q)
    (hc : errPair ⟨c, td⟩ = (code, chk)) (hf : q → Answers (f ()) td r) :
    Answers (require q ⟨c, td⟩ >>= f) td (if p then some (code, chk) else r) := by
  by_cases h : p
  · rw [if_pos h]
    exact failsWith_bind (failsWith_require (hpq.1 h) hc)
  · rw [if_neg h, require_eq_ok.2 (not_not.1 (mt hpq.2 h))]
    exact hf (not_not.1 (mt hpq.2 h))

end

/-- `CheckOperand` makes the checks of R180 in their order. -/
theorem checkOperand_answers {m : Mode} {memSize : Nat} {t : TdTable} {o : Operand} (hf : o.fetch = true → o.ty = .f32) :
    Answers (checkOperand m memSize t o) o.slot (operandError m memSize (t.at o.slot) o) := by
  unfold checkOperand operandError
  generalize t.at o.slot = d
  dsimp only
  cases hb : d.bound
  case false => exact ⟨_, rfl, rfl⟩
  cases hs : d.shaped
  case false =>
    by_cases hm : m = .exec
    · simp only [hm, if_true]
      exact ⟨_, rfl, rfl⟩
    · cases hrole : o.role <;> simp only [hm, reduceCtorEq, if_true, if_false]
      · exact ⟨_, rfl, rfl⟩
      · rfl
  simp only [Bool.not_true, Bool.true_eq_false, Bool.false_eq_true, if_false]
  refine answers_require_bind ?dtype rfl fun hty => answers_require_bind ?extents rfl fun hext =>
    answers_require_bind ?strides rfl fun _ => answers_require_bind ?base rfl fun _ =>
    answers_require_bind ?padding rfl fun _ => answers_require ?range rfl
  case dtype => cases o.ty <;> rfl
  case extents =>
    simp only [List.mem_cons, List.not_mem_nil, or_false, exists_eq_or_imp, exists_eq_left, Desc.extentsOk]
    omega
  case strides =>
    simp only [List.mem_cons, List.not_mem_nil, or_false, exists_eq_or_imp, exists_eq_left, Desc.stridesOk]
    cases o.ty <;> simp only [DType.rowBytes, ceil8, reduceCtorEq, true_and, false_and, or_false, forall_const,
      IsEmpty.forall_iff, and_true] <;> omega
  case base => rw [Desc.baseOk, Classical.not_imp]
  case padding => rw [Classical.not_imp, Nat.not_le, fetchRowBytes, ceil8]
  case range =>
    rw [rowBytes_of_dtype hty hf, extent_of_extentsOk hext, not_le, ← Nat.cast_add, Nat.cast_lt]
    cases o.ty <;> rfl

/-- The first operand in slot order that fails gives the error. -/
theorem checkOperands_failsWith {m : Mode} {memSize : Nat} {t : TdTable} {before after : List Operand} {o : Operand}
    {code chk : Nat} {td : Slot}
    (hbefore : ∀ p ∈ before, checkOperand m memSize t p = .ok ())
    (ho : FailsWith (checkOperand m memSize t o) code chk td) :
    FailsWith (checkOperands m memSize t (before ++ o :: after)) code chk td := by
  induction before with
  | nil => exact failsWith_bind ho
  | cons p before ih =>
    obtain ⟨hp, hbefore⟩ := List.forall_mem_cons.1 hbefore
    exact failsWith_bind_of_ok hp (ih hbefore)

/-- Settles O20: `CheckOperand` answers `operandError` of each operand, and the first failure ends the command. -/
theorem firstFailingOperandGivesError : Obligations.FirstFailingOperandGivesError := by
  intro s i m k hk
  refine ⟨fun hwin => exec_of_failsWith (td := 15) hk (failsWith_bind (windowCheck_failsWith hwin)), ?_⟩
  intro before after o code chk hwin hops hbefore ho
  have answers (p : Operand) (hp : p ∈ before ++ o :: after) :
      Answers (checkOperand m s.params.memSize s.td p) p.slot (operandError m s.params.memSize (s.tdAt p.slot) p) :=
    checkOperand_answers fun hf => fetch_f32 (hops ▸ hp) hf
  refine exec_of_failsWith hk (failsWith_bind_of_ok (windowCheck_eq_ok_iff.2 hwin) (failsWith_bind ?_))
  rw [hops]
  refine checkOperands_failsWith (fun p hp => ?_) ?_
  · have h := answers p (List.mem_append_left _ hp)
    rwa [hbefore p hp] at h
  · have h := answers o (List.mem_append_right _ List.mem_cons_self)
    rwa [ho] at h

end Sys2Proof.Proofs
end

