-- ==== Sys2Proof/Proofs/LaterErrors.lean ====
section
/-! SUPPORT. Which error a command reports once its operands pass `CheckOperand`: the checks of each family are made in the order
of the list `laterChecks` (R121 steps 6 to 9, R141 steps 5 to 10, R156 steps 6 to 13). -/

namespace Sys2Proof.Proofs

open Sys2Proof.Machine Sys2Proof.Safety

/-! ## Lists of checks -/

/-- A sequence of checks makes the checks of a list in their order: it fails with the first that does not pass, and goes on
when all pass. -/
def Makes {α : Type} (x : Except Err α) : List LaterCheck → Prop
  | [] => ∃ a, x = .ok a
  | c :: cs => (c.passes → Makes x cs) ∧ (¬c.passes → FailsWith x c.code c.chk c.td)

section
variable {α β : Type} {x : Except Err α} {f : α → Except Err β} {cs ds : List LaterCheck} {c : LaterCheck}

theorem makes_bind (hx : Makes x cs) (hf : ∀ a, x = .ok a → Makes (f a) ds) : Makes (x >>= f) (cs ++ ds) := by
  induction cs with
  | nil =>
    obtain ⟨a, rfl⟩ := hx
    exact hf a rfl
  | cons c cs ih =>
    obtain ⟨hpass, hfail⟩ := hx
    exact ⟨fun h => ih (hpass h), fun h => failsWith_bind (hfail h)⟩

/-- Checks made before those of the list, which pass. -/
theorem makes_bind_of_ok {a : α} (hx : x = .ok a) (hf : Makes (f a) ds) : Makes (x >>= f) ds := by
  subst hx
  exact hf

theorem makes_require_bind {f : Unit → Except Err β} {p q : Prop} [Decidable p] {k : Check} {code chk : Nat} {td : Slot}
    (hp : p ↔ q) (hk : errPair ⟨k, td⟩ = (code, chk)) (hf : Makes (f ()) cs) :
    Makes (require p ⟨k, td⟩ >>= f) (⟨q, code, chk, td⟩ :: cs) :=
  ⟨fun h => makes_bind_of_ok (require_eq_ok.2 (hp.2 h)) hf,
    fun h => failsWith_bind (failsWith_require (mt hp.1 h) hk)⟩

theorem makes_require {p q : Prop} [Decidable p] {k : Check} {code chk : Nat} {td : Slot} (hp : p ↔ q)
    (hk : errPair ⟨k, td⟩ = (code, chk)) : Makes (require p ⟨k, td⟩) [⟨q, code, chk, td⟩] :=
  ⟨fun h => ⟨(), require_eq_ok.2 (hp.2 h)⟩, fun h => failsWith_require (mt hp.1 h) hk⟩

/-- A check of an operand that a flag adds. -/
theorem makes_optional_bind {f : Unit → Except Err β} {b : Bool} {p q : Prop} [Decidable p] {k : Check} {code chk : Nat}
    {td : Slot} (hp : p ↔ (b = true → q)) (hk : errPair ⟨k, td⟩ = (code, chk)) (hf : Makes (f ()) cs) :
    Makes (require p ⟨k, td⟩ >>= f) ((if b then [⟨q, code, chk, td⟩] else []) ++ cs) := by
  cases b
  · exact makes_bind_of_ok (require_eq_ok.2 (hp.2 nofun)) hf
  · exact makes_require_bind (hp.trans ⟨fun h => h rfl, fun h _ => h⟩) hk hf

theorem failsWith_of_makes {before after : List LaterCheck} (h : Makes x (before ++ c :: after))
    (hbefore : ∀ d ∈ before, d.passes) (hc : ¬c.passes) : FailsWith x c.code c.chk c.td := by
  induction before with
  | nil => exact h.2 hc
  | cons d before ih =>
    obtain ⟨hd, hbefore⟩ := List.forall_mem_cons.1 hbefore
    exact ih (h.1 hd) hbefore

theorem ok_of_makes (h : Makes x cs) (hcs : ∀ c ∈ cs, c.passes) : ∃ a, x = .ok a := by
  induction cs with
  | nil => exact h
  | cons c cs ih =>
    obtain ⟨hc, hcs⟩ := List.forall_mem_cons.1 hcs
    exact ih (h.1 hc) hcs

end

/-! ## The checks that relate the operands to each other -/

theorem makes_fitCheck (s : State) (k : Kernel) : Makes (k.fitCheck s.td) (fittingChecks s k) := by
  cases k with
  | bsign a b sa sb sc sd => exact makes_require Iff.rfl rfl
  | bnorm sa sb win => exact makes_require_bind Iff.rfl rfl (makes_require Iff.rfl rfl)
  | bconv bias sa sb sc sd se sf sx sy =>
    simp only [fittingChecks, List.cons_append, List.nil_append]
    refine makes_require_bind ?_ rfl (makes_require_bind ?_ rfl (makes_require_bind ?_ rfl
      (makes_optional_bind ?_ rfl (makes_require_bind ?_ rfl (makes_require ?_ rfl)))))
    all_goals exact Iff.rfl

theorem makes_hazardCheck (m : Mode) (s : State) (k : Kernel) : Makes (k.hazardCheck m s.wpq) (hazardChecks m s k) := by
  cases k with
  | bsign => exact ⟨(), rfl⟩
  | bnorm => exact makes_require Iff.rfl rfl
  | bconv => exact ⟨(), rfl⟩

/-! ## Check 19 and `AutoShape` (R181) -/

/-- Check 19 of an output. -/
def shapeCheck (t : TdTable) (o : Derived) : LaterCheck :=
  ⟨(t.at o.slot).shaped = true → (t.at o.slot).shape = o.shape, 3, 19, o.slot⟩

theorem makes_checkDerived (t : TdTable) (ds : List Derived) : Makes (checkDerived t ds) (ds.map (shapeCheck t)) := by
  induction ds with
  | nil => exact ⟨(), rfl⟩
  | cons o ds ih => exact makes_require_bind Iff.rfl rfl ih

/-- Output `o` is auto-sized after the outputs `pre`: it is unshaped and none of them names its descriptor (log 13). -/
def IsNew (t : TdTable) (pre : List Derived) (o : Derived) : Prop :=
  (t.at o.slot).shaped = false ∧ ∀ p ∈ pre, p.slot ≠ o.slot

/-- The checks 16 and 17 `AutoShape` makes of output `o` after the outputs `pre`. -/
def roomChecks (memSize : Nat) (t : TdTable) (pre : List Derived) (o : Derived) : List LaterCheck :=
  [⟨IsNew t pre o → o.ty = .f32 → 4 ∣ (t.at o.slot).base.toNat, 7, 16, o.slot⟩,
   ⟨IsNew t pre o → o.ty.rowBytes o.shape.e0 * o.shape.e1 * o.shape.e2 < 2 ^ 32
      ∧ (t.at o.slot).base.toNat + denseBytes o.ty o.shape ≤ memSize, 7, 17, o.slot⟩]

section
variable {memSize : Nat} {t t1 : TdTable} {pre ds : List Derived} {o : Derived}

theorem firstNaming_eq_none {j : Slot} : firstNaming ds j = none ↔ ∀ p ∈ ds, p.slot ≠ j := by
  simp [firstNaming]

theorem autoShapeAll_append (memSize : Nat) (t : TdTable) (pre ds : List Derived) :
    autoShapeAll memSize t (pre ++ ds) = (autoShapeAll memSize t pre >>= fun t1 => autoShapeAll memSize t1 ds) := by
  induction pre generalizing t with
  | nil => rfl
  | cons o pre ih => simp only [List.cons_append, autoShapeAll, ih, bind_assoc]

/-- After the outputs `pre` a descriptor is unshaped exactly when the next output that names it is new, and then as before. -/
theorem isNew_iff (h : autoShapeAll memSize t pre = .ok t1) :
    ((t1.at o.slot).shaped = false ↔ IsNew t pre o) ∧ (IsNew t pre o → t1.at o.slot = t.at o.slot) := by
  have hat := autoShapeAll_at h o.slot
  cases hf : firstNaming pre o.slot with
  | none =>
    rw [hf] at hat
    rw [show t1.at o.slot = t.at o.slot from hat]
    exact ⟨(and_iff_left (firstNaming_eq_none.1 hf)).symm, fun _ => rfl⟩
  | some p =>
    obtain ⟨hp, hslot⟩ := firstNaming_eq_some hf
    have hnot : ¬IsNew t pre o := fun hnew => hnew.2 p hp hslot
    rw [hat, hf, shaped_shapedAs]
    exact ⟨iff_of_false nofun hnot, fun hnew => absurd hnew hnot⟩

theorem makes_autoShape (h : autoShapeAll memSize t pre = .ok t1) (hb : BoundedShape o.shape) :
    Makes (autoShape memSize t1 o) (roomChecks memSize t pre o) := by
  obtain ⟨hiff, hsame⟩ := isNew_iff (o := o) h
  by_cases hnew : IsNew t pre o
  · rw [autoShape_of_unshaped (hiff.2 hnew), hsame hnew]
    refine makes_require_bind ?align rfl (makes_require_bind ?room rfl ⟨_, rfl⟩)
    case align => simp only [hnew, true_imp_iff, Desc.baseOk, Nat.dvd_iff_mod_eq_zero]
    case room =>
      simp only [hnew, true_imp_iff]
      exact and_congr_right fun hsize => by rw [shapedEnd_eq hb hsize]; exact Int.ofNat_le
  · have hshaped : (t1.at o.slot).shaped = true := by rw [← Bool.not_eq_false]; exact mt hiff.1 hnew
    exact ⟨fun _ => ⟨fun _ => ⟨_, autoShape_of_shaped hshaped⟩, fun hno => absurd (fun h => absurd h hnew) hno⟩,
      fun hno => absurd (fun h => absurd h hnew) hno⟩

/-- `AutoShape` makes its two checks of each output in turn, `pre` being those it has passed. -/
theorem makes_autoShapeAll (h : autoShapeAll memSize t pre = .ok t1) (hb : ∀ o ∈ ds, BoundedShape o.shape) :
    Makes (autoShapeAll memSize t1 ds)
      ((ds.zipIdx pre.length).flatMap fun p => roomChecks memSize t ((pre ++ ds).take p.2) p.1) := by
  induction ds generalizing pre t1 with
  | nil => exact ⟨t1, rfl⟩
  | cons o ds ih =>
    obtain ⟨ho, hds⟩ := List.forall_mem_cons.1 hb
    rw [List.zipIdx_cons, List.flatMap_cons, List.take_left]
    refine makes_bind (makes_autoShape h ho) fun t2 h2 => ?_
    have hpre : autoShapeAll memSize t (pre ++ [o]) = .ok t2 := by
      rw [autoShapeAll_append]
      exact except_bind_eq_ok.2 ⟨t1, h, except_bind_eq_ok.2 ⟨t2, h2, rfl⟩⟩
    simpa using ih hpre hds

end

/-! ## Check 18 (R182) -/

/-- The interval of an output once the outputs `ds` are shaped: that of the first of them that names its descriptor (log 13). -/
def namedRange (t : TdTable) (ds : List Derived) (o : Derived) : Interval :=
  outputRange (t.at o.slot) ((firstNaming ds o.slot).getD o).ty ((firstNaming ds o.slot).getD o).shape

/-- The checks of a command up to `AutoShape` have passed, which answers `t'`. -/
structure PassedShaping (m : Mode) (memSize : Nat) (t t' : TdTable) (k : Kernel) : Prop where
  operands : ∀ o ∈ k.operands, checkOperand m memSize t o = .ok ()
  shapes : ∀ o ∈ k.derived t, (t.at o.slot).shaped = true → (t.at o.slot).shape = o.shape
  auto : autoShapeAll memSize t (k.derived t) = .ok t'

section
variable {m : Mode} {memSize : Nat} {t t' : TdTable} {k : Kernel}

theorem inputOk_of_operands (h : ∀ o ∈ k.operands, checkOperand m memSize t o = .ok ()) :
    ∀ i ∈ kernelInputs k, InputOk memSize t i := by
  intro i hi
  obtain ⟨hi, hrole⟩ := mem_kernelInputs.1 hi
  obtain ⟨hb, ⟨-, -, hout⟩ | ⟨hs, ho⟩⟩ := checkOperand_eq_ok.1 (h i hi)
  · cases hrole.symm.trans hout
  · exact ⟨hb, hs, ho⟩

/-- `AutoShape` leaves the inputs as they were. -/
theorem PassedShaping.input_at (h : PassedShaping m memSize t t' k) {i : Operand} (hi : i ∈ kernelInputs k) :
    t'.at i.slot = t.at i.slot := by
  rw [autoShapeAll_at h.auto, shapedAs_of_shaped (inputOk_of_operands h.operands i hi).shaped]

/-- The first output that names a descriptor is ready, once `AutoShape` has passed. -/
theorem PassedShaping.outputReady (h : PassedShaping m memSize t t' k) {o : Derived} (ho : o ∈ k.derived t)
    (hfirst : firstNaming (k.derived t) o.slot = some o) : OutputReady m memSize (t.at o.slot) o.ty o.shape := by
  have hb := derived_bounded (inputOk_of_operands h.operands) ho
  obtain ⟨hbound, ⟨hs, hm, -⟩ | ⟨hs, hwf⟩⟩ := checkOperand_eq_ok.1 (h.operands _ (derivedOperand_mem ho))
  · exact ⟨hbound, .inr ⟨hs, hm, (hasRoom_iff hb).1 (hasRoom_of_firstNaming h.auto hfirst hs)⟩⟩
  · exact ⟨hbound, .inl ⟨hs, wellFormed_of_shapedOk hwf nofun, h.shapes o ho hs⟩⟩

/-- A ready output has its derived type once it is shaped. -/
theorem dtype_shaped {o : Derived} (hr : OutputReady m memSize (t.at o.slot) o.ty o.shape) :
    (shapedAs (t.at o.slot) (some o)).dtype = o.ty.code := by
  obtain ⟨-, ⟨hs, hwf, -⟩ | ⟨hs, -⟩⟩ := hr
  · rw [shapedAs_of_shaped hs, dtype_of_wellFormed hwf]
  · rw [shapedAs_of_unshaped hs]
    rfl

/-- Where two outputs name one descriptor, both have the interval of the first, which has bytes. -/
theorem PassedShaping.interval_output (h : PassedShaping m memSize t t' k) {o : Derived} (ho : o ∈ k.derived t) :
    (derivedOperand o).interval t' = namedRange t (k.derived t) o
      ∧ (namedRange t (k.derived t) o).lo < (namedRange t (k.derived t) o).hi := by
  obtain ⟨f, hf⟩ := exists_firstNaming ho
  obtain ⟨hmem, hslot⟩ := firstNaming_eq_some hf
  rw [namedRange, hf, Option.getD_some, ← hslot, ← derivedRange]
  rw [← hslot] at hf
  have hr := h.outputReady hmem hf
  have hb := derived_bounded (inputOk_of_operands h.operands) hmem
  have hat : t'.at f.slot = shapedAs (t.at f.slot) (some f) := by rw [autoShapeAll_at h.auto, hf]
  have hty : (t'.at f.slot).dtype = f.ty.code := by rw [hat, dtype_shaped hr]
  refine ⟨?_, derivedRange_nonempty hr hb⟩
  rw [← interval_shaped hr hb hat, Operand.interval, Operand.interval, Operand.rowBytes, Operand.rowBytes]
  simp only [derivedOperand, ← hslot, rowType_of_dtype _ hty]

end

/-- Intervals with bytes stand apart exactly when they do not meet. -/
theorem apart_iff {i j : Interval} (hi : i.lo < i.hi) (hj : j.lo < j.hi) : Apart i j ↔ i.meets j = false :=
  ⟨meets_of_apart, apart_of_not_meets hi hj⟩

/-- Check 18 is made of outputs only. -/
theorem checkOverlap_inputs {t : TdTable} {before ins rest : List Operand} (hins : ∀ i ∈ ins, i.role = .input) :
    checkOverlap t before (ins ++ rest) = checkOverlap t (before ++ ins) rest := by
  induction ins generalizing before with
  | nil => rw [List.append_nil, List.nil_append]
  | cons i ins ih =>
    obtain ⟨hi, hins⟩ := List.forall_mem_cons.1 hins
    rw [List.append_cons, ← ih hins, List.cons_append, checkOverlap,
      (require_eq_ok (u := ())).2 fun hout => absurd (hi.symm.trans hout) (by decide)]
    rfl

/-- Check 18 of output `o`, whose range must stand apart from those of the others. -/
def overlapCheck (range : Derived → Interval) (others : List Interval) (o : Derived) : LaterCheck :=
  ⟨∀ r ∈ others, Apart (range o) r, 7, 18, o.slot⟩

section
variable {t : TdTable} {ins : List Operand} {pre ds : List Derived} {range : Derived → Interval}

/-- `CheckOverlap` sets each output against all inputs and all other outputs, `pre` being those it has passed. -/
theorem makes_checkOverlap (hins : ∀ i ∈ ins, (i.interval t).lo < (i.interval t).hi)
    (houts : ∀ o ∈ pre ++ ds, (derivedOperand o).interval t = range o ∧ (range o).lo < (range o).hi) :
    Makes (checkOverlap t (ins ++ pre.map derivedOperand) (ds.map derivedOperand))
      ((ds.zipIdx pre.length).map fun p =>
        overlapCheck range (ins.map (Operand.interval t) ++ ((pre ++ ds).eraseIdx p.2).map range) p.1) := by
  induction ds generalizing pre with
  | nil => exact ⟨(), rfl⟩
  | cons o ds ih =>
    have hrest : ∀ p ∈ pre ++ ds, p ∈ pre ++ o :: ds := by grind
    obtain ⟨hsame, hpos⟩ := houts o (List.mem_append_right _ List.mem_cons_self)
    have hmap : ((pre ++ ds).map derivedOperand).map (Operand.interval t) = (pre ++ ds).map range := by
      rw [List.map_map]
      exact List.map_congr_left fun p hp => (houts p (hrest p hp)).1
    rw [List.zipIdx_cons, List.map_cons, List.map_cons, checkOverlap, List.eraseIdx_append_of_length_le le_rfl,
      Nat.sub_self, List.eraseIdx_cons_zero]
    refine makes_require_bind ?apart rfl ?others
    case apart =>
      rw [List.append_assoc, ← List.map_append, ← hmap, ← List.map_append, hsame]
      simp only [derivedOperand, true_imp_iff, List.all_eq_true, Bool.not_eq_true', List.forall_mem_map]
      refine forall₂_congr fun p hp => (apart_iff hpos ?_).symm
      rcases List.mem_append.1 hp with hp | hp
      · exact hins p hp
      · obtain ⟨q, hq, rfl⟩ := List.mem_map.1 hp
        obtain ⟨hq', hpos'⟩ := houts q (hrest q hq)
        rwa [hq']
    case others =>
      have h := ih (pre := pre ++ [o]) (by simpa using houts)
      simpa using h

end

/-! ## The later checks as a whole -/

/-- The intervals of inputs that pass `CheckOperand` are those the statements give them (R27). -/
theorem inputRanges_eq {s : State} {k : Kernel} (h : ∀ i ∈ kernelInputs k, InputOk s.params.memSize s.td i) :
    inputRanges s k = (kernelInputs k).map (Operand.interval s.td) := by
  cases k with
  | bsign a b sa sb sc sd =>
    rw [kernelInputs_bsign, List.forall_mem_singleton] at h
    rw [kernelInputs_bsign, List.map_singleton, interval_source (inputOk_source_iff.1 h)]
    rfl
  | bnorm sa sb win =>
    rw [kernelInputs_bnorm, List.forall_mem_singleton] at h
    rw [kernelInputs_bnorm, List.map_singleton, interval_input (inputOk_iff.1 h)]
    rfl
  | bconv bias sa sb sc sd se sf sx sy =>
    simp only [kernelInputs_bconv, forall_mem_bconvInputs, inputOk_iff] at h
    obtain ⟨hact, hwts, hbias, hal, hk⟩ := h
    rw [kernelInputs_bconv, inputRanges, bconvInputs]
    simp only [List.map_append, List.map_cons, List.map_nil, interval_input hact, interval_input hwts, interval_input hal,
      interval_input hk]
    cases bias
    · rfl
    · simp only [if_true, List.map_cons, List.map_nil, interval_input (hbias rfl)]
      rfl

theorem outputChecks_eq (s : State) (k : Kernel) :
    outputChecks s k = (k.derived s.td).map (shapeCheck s.td)
      ++ (k.derived s.td).zipIdx.flatMap (fun p => roomChecks s.params.memSize s.td ((k.derived s.td).take p.2) p.1)
      ++ (k.derived s.td).zipIdx.map (fun p => overlapCheck (namedRange s.td (k.derived s.td))
          (inputRanges s k ++ ((k.derived s.td).eraseIdx p.2).map (namedRange s.td (k.derived s.td))) p.1) := by
  rw [derived_eq]
  rfl

theorem makes_overlap {m : Mode} {s : State} {k : Kernel} {t' : TdTable}
    (h : PassedShaping m s.params.memSize s.td t' k) :
    Makes (checkOverlap t' [] k.operands)
      ((k.derived s.td).zipIdx.map fun p => overlapCheck (namedRange s.td (k.derived s.td))
          (inputRanges s k ++ ((k.derived s.td).eraseIdx p.2).map (namedRange s.td (k.derived s.td))) p.1) := by
  have hin := inputOk_of_operands h.operands
  have hranges : inputRanges s k = (kernelInputs k).map (Operand.interval t') := by
    rw [inputRanges_eq hin]
    refine List.map_congr_left fun i hi => ?_
    rw [Operand.interval, Operand.interval, h.input_at hi]
  rw [operands_eq, ← derived_outputs k s.td, checkOverlap_inputs fun i hi => (mem_kernelInputs.1 hi).2, hranges]
  have hpos : ∀ i ∈ kernelInputs k, (i.interval t').lo < (i.interval t').hi := by
    refine fun i hi => interval_nonempty ?_
    rw [h.input_at hi]
    exact positive_of_shapedOk (hin i hi).ok
  have hmakes := makes_checkOverlap (pre := []) (ds := k.derived s.td) hpos fun o ho => h.interval_output ho
  rwa [List.map_nil, List.append_nil] at hmakes

/-- Once window and operands have passed, a command makes the checks of `laterChecks` in order. -/
theorem makes_laterChecks {m : Mode} {s : State} {k : Kernel} (hwin : WindowOk k)
    (hops : ∀ o ∈ k.operands, checkOperand m s.params.memSize s.td o = .ok ()) :
    Makes (k.checks m s.params.memSize s.wpq s.td) (laterChecks m s k) := by
  have hbounded : ∀ o ∈ k.derived s.td, BoundedShape o.shape := fun o ho =>
    derived_bounded (inputOk_of_operands hops) ho
  rw [laterChecks, outputChecks_eq, List.append_assoc, List.append_assoc, List.append_assoc]
  refine makes_bind_of_ok (windowCheck_eq_ok_iff.2 hwin) (makes_bind_of_ok ((checkOperands_eq_ok (u := ())).2 hops) ?_)
  refine makes_bind (makes_fitCheck s k) fun _ _ => makes_bind (makes_checkDerived _ _) fun _ hder => ?_
  refine makes_bind (makes_autoShapeAll (pre := []) rfl hbounded) fun t' hauto => ?_
  refine makes_bind (makes_overlap ⟨hops, checkDerived_eq_ok.1 hder, hauto⟩) fun _ _ => ?_
  rw [← List.append_nil (hazardChecks m s k)]
  exact makes_bind (makes_hazardCheck m s k) fun _ _ => ⟨t', rfl⟩

/-- Settles O60: the checks of the command make the listed ones in order, so the first that fails ends it, and when all pass so do
the command's. -/
theorem firstFailingLaterCheckGivesError : Obligations.FirstFailingLaterCheckGivesError := by
  intro s i m k hk hwin hops
  have hops : ∀ o ∈ k.operands, checkOperand m s.params.memSize s.td o = .ok () := by
    intro o ho
    have h := checkOperand_answers (m := m) (memSize := s.params.memSize) (t := s.td) (fetch_f32 ho)
    rwa [show operandError m s.params.memSize (s.td.at o.slot) o = none from hops o ho] at h
  have hmakes := makes_laterChecks hwin hops
  refine ⟨fun before after c hlater hbefore hc => ?_, fun hall => (ready_iff_checks hk).2 (ok_of_makes hmakes hall)⟩
  rw [hlater] at hmakes
  exact exec_of_failsWith hk (failsWith_of_makes hmakes hbefore hc)

end Sys2Proof.Proofs
end

