-- ==== Sys2Proof/Proofs/NormalizerModes.lean ====
section
/-! SUPPORT. `BNORM` in CFG mode (R142), and its hazard in EXEC mode (R147). -/

namespace Sys2Proof.Proofs

open Sys2Proof.Machine Sys2Proof.Safety

/-- Settles O13: `BNORM` is a ready command in CFG mode, where R147 asks nothing, and K its one output. -/
theorem bnormCfgShapesOutput : Obligations.BnormCfgShapesOutput := by
  intro s sa sb win h
  obtain ⟨t, hexec, hdone, hout⟩ := exec_cfg_of_ready (i := .bnormCfg sa sb win) rfl ⟨h, nofun⟩
  exact ⟨t, hexec, hdone, hout _ (.head _)⟩

/-- The hazard check comes last: where the operands are ready, its error is the command's (R141 step 10, R216). -/
theorem checks_failsWith_of_hazardCheck {m : Mode} {memSize : Nat} {wpq : Bool} {t : TdTable} {k : Kernel} {code chk : Nat}
    {td : Slot} (hready : KernelReady m memSize t k) (hhaz : FailsWith (k.hazardCheck m wpq) code chk td) :
    FailsWith (k.checks m memSize wpq t) code chk td := by
  have hops : checkOperands m memSize t k.operands = .ok () :=
    checkOperands_eq_ok.2 fun o ho => checkOperand_of_ready hready ho
  have hder : checkDerived t (k.derived t) = .ok () :=
    checkDerived_eq_ok.2 fun o ho => shape_of_outputReady (hready.outputs o ho)
  obtain ⟨t', hauto⟩ := autoShapeAll_of_ready hready
  have hapart : checkOverlap t' [] k.operands = .ok () := checkOverlap_of_ready hready hauto
  exact failsWith_bind_of_ok hready.window <| failsWith_bind_of_ok hops <| failsWith_bind_of_ok hready.fit <|
    failsWith_bind_of_ok hder <| failsWith_bind_of_ok hauto <| failsWith_bind_of_ok hapart <| failsWith_bind hhaz

/-- The hazard check of `BNORM` in EXEC mode fails while the Q path is pending (R147). -/
theorem bnorm_hazardCheck_failsWith (sa sb : Slot) (win : Window) :
    FailsWith (Kernel.hazardCheck (.bnorm sa sb win) .exec true) 8 40 sa :=
  failsWith_require (by decide) rfl

/-- Settles O21: `BnormReady` asks for every check but the hazard's, which fails. -/
theorem bnormHazardFaults : Obligations.BnormHazardFaults := by
  intro s sa sb win h hwpq
  refine exec_of_failsWith (m := .exec) rfl (checks_failsWith_of_hazardCheck (bnorm_ready_iff.1 h) ?_)
  rw [hwpq]
  exact bnorm_hazardCheck_failsWith sa sb win

end Sys2Proof.Proofs
end

