-- ==== Sys2Proof/Proofs/ConvolutionModes.lean ====
section
/-! SUPPORT. `BCONV` and `BCONV.B` in CFG mode (R157). -/

namespace Sys2Proof.Proofs

open Sys2Proof.Machine Sys2Proof.Safety

/-- A ready `BCONV*` in CFG mode shapes its one output. -/
theorem exec_bconv_cfg {bias : Bool} {s : State} {sa sb sc sd se sf : Slot} {sx sy : Byte} {i : Instr}
    (hi : kernelOf i = some (.cfg, .bconv bias sa sb sc sd se sf sx sy))
    (h : BconvReady .cfg bias s sa sb sc sd se sf sx sy) :
    ∃ t, exec i s = .next t ∧ CfgDone s t [sf]
      ∧ Configured (s.tdAt sf) (t.tdAt sf) .f32 (convShape (s.tdAt sa) (s.tdAt sb) sx sy) := by
  have hready : Ready s i := (ready_iff hi).2 ⟨bconv_ready_iff.1 h, rfl⟩
  obtain ⟨t, hexec, hdone, hout⟩ := exec_cfg_of_ready hi hready
  exact ⟨t, hexec, hdone, hout _ (.head _)⟩

/-- Settles O14: both forms are one kernel under its flag. -/
theorem bconvCfgShapesOutput : Obligations.BconvCfgShapesOutput :=
  fun _ _ _ _ _ _ _ _ _ => ⟨exec_bconv_cfg rfl, exec_bconv_cfg rfl⟩

end Sys2Proof.Proofs
end

