-- ==== Sys2Proof/Proofs/DotProduct.lean ====
section
/-! SUPPORT. The dot product as arithmetic on the list of the bit pairs it visits (R158, R159, R165, R166). -/

namespace Sys2Proof.Proofs

open Sys2Proof.Machine Sys2Proof.Safety

/-! ## Lists of bit pairs -/

/-- The number of pairs whose bits agree. -/
def agreeing (l : List (Bool × Bool)) : Nat := l.countP fun p => p.1 == p.2

theorem agreeing_le_length (l : List (Bool × Bool)) : agreeing l ≤ l.length := List.countP_le_length

theorem agreeing_eq_length {l : List (Bool × Bool)} : agreeing l = l.length ↔ ∀ p ∈ l, p.1 = p.2 := by
  simp only [agreeing, List.countP_eq_length, beq_iff_eq]

theorem agreeing_eq_zero {l : List (Bool × Bool)} : agreeing l = 0 ↔ ∀ p ∈ l, p.1 ≠ p.2 := by
  simp only [agreeing, List.countP_eq_zero, beq_iff_eq, ne_eq]

/-- Ones for the agreeing pairs add up to their number. -/
theorem sum_ones_eq_agreeing (l : List (Bool × Bool)) : (l.map fun p => if p.1 = p.2 then (1 : Int) else 0).sum = agreeing l := by
  induction l with
  | nil => rfl
  | cons p l ih =>
    rw [List.map_cons, List.sum_cons, ih, agreeing, agreeing, List.countP_cons]
    by_cases hp : p.1 = p.2 <;> simp [hp, add_comm]

/-- An agreeing pair has sign product 1, any other -1. -/
theorem sgn_mul_sgn (p q : Bool) : sgn p * sgn q = 2 * (if p = q then 1 else 0) - 1 := by
  cases p <;> cases q <;> rfl

theorem sum_signs (l : List (Bool × Bool)) : (l.map fun p => sgn p.1 * sgn p.2).sum = 2 * (agreeing l : Int) - l.length := by
  rw [← sum_ones_eq_agreeing]
  induction l with
  | nil => rfl
  | cons p l ih =>
    rw [List.map_cons, List.map_cons, List.sum_cons, List.sum_cons, List.length_cons, ih, sgn_mul_sgn]
    push_cast
    ring

/-! ## The receptive field -/

/-- The activation and weight bits of the receptive field of (ox, oy, oc, n), in the order of R170. -/
def fieldBits (s : State) (act wts : Desc) (sx sy ox oy oc n : Nat) : List (Bool × Bool) :=
  (List.range act.c).flatMap fun c => (List.range wts.h).flatMap fun j => (List.range wts.w).map fun i =>
    (s.getBit act (ox * sx + i) (oy * sy + j) c n, s.getBit wts i j c oc)

section
variable (s : State) (act wts : Desc) (sx sy ox oy oc n : Nat)

theorem length_fieldBits : (fieldBits s act wts sx sy ox oy oc n).length = wts.w * wts.h * act.c := by
  simp only [fieldBits, List.length_flatMap, List.length_map, List.length_range, List.map_const', List.sum_replicate,
    smul_eq_mul]
  ring

theorem forall_mem_fieldBits (P : Bool × Bool → Prop) :
    (∀ p ∈ fieldBits s act wts sx sy ox oy oc n, P p)
      ↔ ∀ c j i, c < act.c → j < wts.h → i < wts.w →
        P (s.getBit act (ox * sx + i) (oy * sy + j) c n, s.getBit wts i j c oc) := by
  simp only [fieldBits, List.mem_flatMap, List.mem_map, List.mem_range]
  constructor
  · exact fun h c j i hc hj hi => h _ ⟨c, hc, j, hj, i, hi, rfl⟩
  · rintro h _ ⟨c, hc, j, hj, i, hi, rfl⟩
    exact h c j i hc hj hi

/-- The loops over the receptive field as one sum. -/
theorem fieldSum_eq_sum_fieldBits (f : Bool → Bool → Int) :
    fieldSum s act wts sx sy ox oy oc n f = ((fieldBits s act wts sx sy ox oy oc n).map fun p => f p.1 p.2).sum := by
  simp only [fieldSum, fieldBits, List.sum_eq_foldl, List.foldl_map, List.foldl_flatMap]

theorem matchSum_eq_agreeing : matchSum s act wts sx sy ox oy oc n = agreeing (fieldBits s act wts sx sy ox oy oc n) := by
  rw [matchSum, fieldSum_eq_sum_fieldBits, sum_ones_eq_agreeing]

theorem dotValue_eq_agreeing : dotValue s act wts sx sy ox oy oc n
    = 2 * (agreeing (fieldBits s act wts sx sy ox oy oc n) : Int) - (fieldBits s act wts sx sy ox oy oc n).length := by
  rw [dotValue, matchCount_eq_matchSum, matchSum_eq_agreeing, fieldSize, length_fieldBits]

end

/-- Settles O46: `M` counts the agreeing pairs of a list of length `T`, so `v = T` iff it is all of them, `v = -T` iff none. -/
theorem dotProductIntegerLaws : Obligations.DotProductIntegerLaws := by
  intro s act wts sx sy ox oy oc n hT
  have hlen := length_fieldBits s act wts sx sy ox oy oc n
  have hle := agreeing_le_length (fieldBits s act wts sx sy ox oy oc n)
  have hall := (agreeing_eq_length (l := fieldBits s act wts sx sy ox oy oc n)).trans (forall_mem_fieldBits ..)
  have hnone := (agreeing_eq_zero (l := fieldBits s act wts sx sy ox oy oc n)).trans (forall_mem_fieldBits ..)
  rw [← hlen] at hT ⊢
  intro t m v eq
  have hm : m = agreeing _ := matchSum_eq_agreeing ..
  have hv : v = 2 * agreeing _ - t := dotValue_eq_agreeing ..
  refine ⟨?_, ?_, ?_, ?_, ?_, ?_, ?_, ?_, ?_, Iff.trans ?_ hall, Iff.trans ?_ hnone⟩ <;> omega

/-- Settles O47: the sign product of a pair is 1 where its bits agree and -1 elsewhere. -/
theorem dotProductOfSigns : Obligations.DotProductOfSigns := by
  intro s act wts sx sy ox oy oc n
  rw [dotValue_eq_agreeing, fieldSum_eq_sum_fieldBits, sum_signs]

end Sys2Proof.Proofs
end

