-- ==== Sys2Proof/Proofs/QueueCommands.lean ====
section
/-! SUPPORT. The two commands that name no operand, `NOP` and `SYNC` (R177, R178). -/

namespace Sys2Proof.Proofs

open Sys2Proof.Machine Sys2Proof.Safety

theorem retire_eq_retiredOnly (s : State) : retire s = retiredOnly s := rfl

theorem retire_drain (s : State) :
    retire (drain s) = { retiredOnly s with wpq := false, wpn := false, unsynced := [] } := rfl

/-! ## The words of `NOP` (R95, R96, R103) -/

section
variable {c : Command}

theorem not_badOpcode_of_nop (hopc : opcNumber c = 0x01) : ¬BadOpcode c := by
  simp [BadOpcode, hopc]

/-- Only one row of the table has the opcode of `NOP`: there are no modes and no flags (R95 to R97). -/
theorem row_w0_of_nop : ∀ r ∈ opcodeRows, r.w0.toNat % 256 = 0x01 → r.w0 = 1 := by
  decide

/-- `NOP` uses no field of words 1 to 3 (R98, R99). -/
theorem mbzOf_of_nop (hopc : opcNumber c = 0x01) : mbzOf c = mbzNone c := by
  simp [mbzOf, hopc]

/-- A `NOP` that fails neither check 2 nor check 3 is the one `NOP` there is. -/
theorem eq_nop_of_legal (hopc : opcNumber c = 0x01) (hmode : ¬BadMode c) (hfield : ¬BadField c) : c = ⟨1, 0, 0, 0⟩ := by
  obtain ⟨hflags, hoperands⟩ := not_badField_iff.1 hfield
  obtain ⟨r, hr, hw⟩ := row_of_flagsClear (not_badOpcode_of_nop hopc) hmode hflags
  have hw0 : c.w0 = 1 := hw.trans (row_w0_of_nop r hr (hw ▸ hopc))
  have hzero : mbzNone c = true := mbzOf_of_nop hopc ▸ mbzOf_iff.2 hoperands
  exact (encode_none_of_mbz hw0 hzero).symm

/-- Any other command with the opcode of `NOP` fails check 2, or else check 3 (R100). -/
theorem failsCheck_of_ne_nop (hopc : opcNumber c = 0x01) (hne : c ≠ ⟨1, 0, 0, 0⟩) : FailsCheck c 2 ∨ FailsCheck c 3 := by
  have hop := not_badOpcode_of_nop hopc
  by_cases hmode : BadMode c
  · exact .inl (.inr (.inl ⟨hop, hmode, rfl⟩))
  · have hfield : BadField c := not_not.1 fun hok => hne (eq_nop_of_legal hopc hmode hok)
    exact .inr (.inr (.inr ⟨hop, hmode, hfield, rfl⟩))

end

/-- Settles O7: executing `NOP` is retiring it, and a `NOP` that passes checks 2 and 3 has the encoder's words. -/
theorem nopRetires : Obligations.NopRetires :=
  ⟨fun s => by rw [exec_nop, retire_eq_retiredOnly], rfl, fun _ => failsCheck_of_ne_nop⟩

/-- Settles O8: `SYNC` drains, then retires. -/
theorem syncDrains : Obligations.SyncDrains := by
  intro s
  rw [exec_sync, retire_drain]

end Sys2Proof.Proofs
end

