-- ==== Sys2Proof/Proofs/LayerProtocol.lean ====
section
/-! SUPPORT. The protocol of a layer (R190 to R203): what moves `LSTATE`, and that `l.validate` answers what executing the
commands of `l.configure` answers. -/

namespace Sys2Proof.Proofs

open Sys2Proof.Machine Sys2Proof.Safety

/-! ## `LSTATE` (R191, R203) -/

/-- Settles O42: of the effects a step can have, only the ends of `l.configure` and `l.prepare` and the two resets touch
`LSTATE`. -/
theorem layerStateMovesForward : Obligations.LayerStateMovesForward := by
  intro s t h hne
  obtain ⟨rest, he⟩ := step_effect h
  cases he
  case layerConfigured l hact herr hstate =>
    obtain ⟨-, later, hscript⟩ := hact
    exact .inl ⟨hstate, rfl, herr, l, later, hscript⟩
  case layerPrepared hact hstate => exact .inr (.inl ⟨hstate, rfl, hact.2⟩)
  case hardReset hreset => exact .inr (.inr ⟨rfl, hreset⟩)
  case softReset hreset => exact .inr (.inr ⟨rfl, hreset⟩)
  all_goals exact absurd (by simp) hne

/-! ## Kernels in CFG mode (R195, R196) -/

/-- The hazard of R147 is checked in EXEC mode only. -/
theorem hazardCheck_cfg (k : Kernel) (wpq : Bool) : k.hazardCheck .cfg wpq = .ok () := by
  cases k with
  | bsign => rfl
  | bnorm => exact require_eq_ok.2 nofun
  | bconv => rfl

/-- So in CFG mode the checks do not look at WPQ. -/
theorem checks_cfg_wpq (k : Kernel) (memSize : Nat) (wpq : Bool) (t : TdTable) :
    k.checks .cfg memSize wpq t = k.checks .cfg memSize false t := by
  simp only [Kernel.checks, hazardCheck_cfg]

/-- `i` is kernel `k` in CFG mode. -/
def IsCfgOf (i : Instr) (k : Kernel) : Prop := kernelOf i = some (.cfg, k)

/-- The commands `l.configure` pushes are the kernels `l.validate` checks (R195, R196). -/
theorem layerCommands_kernels (l : Layer) (win : Window) : List.Forall₂ IsCfgOf (layerCommands l win) (l.kernels win) := by
  have hconv : IsCfgOf l.bconvCfg
      (.bconv l.bias.isSome l.bin l.bw (l.bias.getD 0) l.al l.kk l.out l.sx l.sy) := by
    unfold Layer.bconvCfg
    cases l.bias <;> rfl
  rw [layerCommands_eq]
  exact .cons rfl (.cons rfl (.cons rfl (.cons hconv .nil)))

section
variable {s : State} {i : Instr} {is : List Instr} {k : Kernel}

/-- A CFG-mode command whose checks fail ends the execution with its fatal error (R217). -/
theorem execAll_cons_of_error {e : Err} (hk : IsCfgOf i k)
    (he : k.checks .cfg s.params.memSize false s.td = .error e) :
    execAll (i :: is) s = fatalError e s.retired (encode i).w0 s := by
  have hexec : exec i s = .next (fatalError e s.retired (encode i).w0 s) := by
    rw [exec_of_kernelOf hk, runKernel, checks_cfg_wpq, he]
  rw [execAll, hexec]
  exact if_pos (fatalError_err ..)

/-- A CFG-mode command whose checks pass hands the table they shape to the next (R176). -/
theorem execAll_cons_of_ok {t : TdTable} (herr : s.err = false) (hk : IsCfgOf i k)
    (hok : k.checks .cfg s.params.memSize false s.td = .ok t) :
    execAll (i :: is) s = execAll is (retire { s with td := t }) := by
  have hexec : exec i s = .next (retire { s with td := t }) := by
    rw [exec_of_kernelOf hk, runKernel, checks_cfg_wpq, hok]
  rw [execAll, hexec]
  exact if_neg (by simp [herr])

end

/-- What executing CFG-mode commands leaves is what checking their kernels on a scratch table foretells (R195, R217): all of
them retire, or the first error stops them. -/
theorem validateKernels_foretells {is : List Instr} {ks : List Kernel} (hks : List.Forall₂ IsCfgOf is ks) (s : State)
    (herr : s.err = false) :
    (validateKernels s.params.memSize s.td ks = none ∧ (execAll is s).err = false
        ∧ (execAll is s).retired = s.retired + BitVec.ofNat 32 is.length)
      ∨ ∃ e, validateKernels s.params.memSize s.td ks = some e ∧ (execAll is s).err = true
        ∧ (execAll is s).errInfo = e.word := by
  induction hks generalizing s with
  | nil => exact .inl ⟨rfl, herr, (BitVec.add_zero _).symm⟩
  | @cons i k is ks hk _ ih =>
    cases hc : k.checks .cfg s.params.memSize false s.td with
    | error e =>
      rw [execAll_cons_of_error hk hc, validateKernels, hc]
      exact .inr ⟨e, rfl, by simp, by simp [herr]⟩
    | ok t =>
      rw [execAll_cons_of_ok herr hk hc, validateKernels, hc]
      rcases ih (retire { s with td := t }) herr with ⟨hnone, hno, hretired⟩ | hsome
      · refine .inl ⟨hnone, hno, ?_⟩
        rw [hretired, retire_retired, List.length_cons, Nat.add_comm, BitVec.ofNat_add]
        exact BitVec.add_assoc _ 1 _
      · exact .inr hsome

/-- Settles O43: `l.validate` checks the kernels of the commands `l.configure` pushes, on a scratch table. -/
theorem validateForetellsConfigure : Obligations.ValidateForetellsConfigure := by
  intro s l herr
  have hact : hostAct (.lValidate l) s = .next { s with lresult := validateWord s l, draws := s.draws + 1 } := rfl
  rw [hact, validateWord]
  rcases validateKernels_foretells (layerCommands_kernels l (l.window s.draws s.td)) s herr with
    ⟨hnone, hno, hretired⟩ | ⟨e, hsome, herr', hinfo⟩
  · rw [hnone]
    exact .inl ⟨rfl, hno, hretired⟩
  · rw [hsome]
    exact .inr ⟨e, rfl, herr', hinfo⟩

end Sys2Proof.Proofs
end
